-- ==== Sys2Proof/Word.lean ====
section
/-!
DEFINITION. The word types of the EK-112: bytes of exchange memory and of the medium, and 32-bit port words;
and the number of bit errors between bytes.
-/
namespace Sys2Proof

/-- One byte of exchange memory, of a row or of a spare area. -/
abbrev Byte := BitVec 8

/-- One 32-bit word of the slave port, a register or a 32-bit counter. -/
abbrev Word := BitVec 32

/-- Number of bits in which two byte lists differ. -/
def bitErrors : List Byte → List Byte → Nat
  | a :: as, b :: bs => ((List.range 8).countP fun i => a.getLsbD i != b.getLsbD i) + bitErrors as bs
  | _, _ => 0

end Sys2Proof
end

