-- ==== Sys2Proof/Syntax.lean ====
section
/-!
DEFINITION. The commands of the block: one constructor for each row of opcode_table.json, with the operands that the
agent causing the step supplies (a host access, a die's answer).
-/
namespace Sys2Proof

/-- Width of a slave port access (R1). -/
inductive Width where
  | w8
  | w16
  | w32
deriving DecidableEq, Repr

/-- Status a die reports for one plane (R64). -/
inductive PlaneStatus where
  | pass
  | fail
deriving DecidableEq, Repr

/-- Which planes of a failed row program reported fail: one at least (R50, R102, R105). -/
inductive FailPlanes where
  | plane0
  | plane1
  | both
deriving DecidableEq, Repr

/-- Chunk status, as the FS gives it (R80). -/
inductive ChunkStatus where
  | clean
  | corrected (n : Nat)
  | uncorrectable
deriving DecidableEq, Repr

/-- The data-out phase of a READ_ROW (R67): the 2112 bytes of the plane-0 page and of the plane-1 page, as read. What the
FS hands the requester, `data`, `spare0`, `spare1` and `chunks`, it decodes from these (R80, Machine/Operands.lean). -/
structure ReadRow where
  page0 : List Byte
  page1 : List Byte
deriving DecidableEq, Repr

/-- What READ_TRAILERS hands its requester (R68): the 64 spare bytes of each page, as read. -/
structure ReadSpare where
  spare0 : List Byte
  spare1 : List Byte
deriving DecidableEq, Repr

/-- The result of a read handed by the Engine Control: one of the two read operations. -/
inductive FlashRead where
  | trailers (r : ReadSpare)
  | row (r : ReadRow)
deriving DecidableEq, Repr

/-- The commands. The comment beside each names its row of the table and the rule that governs it. -/
inductive Instr where
  | powerOnReset                                                        -- POWER_ON_RESET, R184
  | pinReset (asserted : Bool)                                          -- PIN_RESET, R23: the level the pin takes
  | softReset                                                           -- SOFT_RESET, R24
  | runWritten1 (linger : Option Byte)                                  -- RUN_WRITTEN_1, R175: lane 1 of the write, if covered
  | runWritten0 (linger : Option Byte)                                  -- RUN_WRITTEN_0, R176
  | lingerWrite (value : Byte)                                          -- LINGER_WRITE, R9
  | eventsWrite (value : Byte)                                          -- EVENTS_WRITE, R10
  | registerWrite (offset : BitVec 16) (width : Width) (data : Word)    -- REGISTER_WRITE, R11: offset from 0x10000
  | hostXmWrite (offset : BitVec 16) (width : Width) (data : Word)      -- HOST_XM_WRITE, R2
  | snapshotCapture (offset : BitVec 17) (width : Width)                -- SNAPSHOT_CAPTURE, R5: a host read
  | stateByteWrite (card : Fin 128) (width : Width) (data : Word)       -- STATE_BYTE_WRITE, R14
  | append                                                              -- APPEND, R38
  | recordStage                                                         -- RECORD_STAGE, R39
  | flush                                                               -- FLUSH, R54
  | lingerExpiry                                                        -- LINGER_EXPIRY, R53
  | rowProgramPass                                                      -- ROW_PROGRAM_PASS, R49
  | rowProgramFail (planes : FailPlanes)                                -- ROW_PROGRAM_FAIL, R102
  | replacementRow0Fail (planes : FailPlanes)                           -- REPLACEMENT_ROW0_FAIL, R105
  | digestProgramComplete (plane0 plane1 : PlaneStatus)                 -- DIGEST_PROGRAM_COMPLETE, R52
  | readSeq                                                             -- READ_SEQ, R122
  | readKey                                                             -- READ_KEY, R128
  | pinRequest                                                          -- PIN_REQUEST, R123
  | arTrailersResult (result : ReadSpare)                               -- AR_TRAILERS_RESULT, R127
  | arReadRowResult (result : ReadRow)                                  -- AR_READ_ROW_RESULT, R130
  | hold                                                                -- HOLD, R144
  | holdRequest                                                         -- HOLD_REQUEST, R145
  | holdRenew                                                           -- HOLD_RENEW, R146
  | release                                                             -- RELEASE, R147
  | trim                                                                -- TRIM, R142
  | census                                                              -- CENSUS, R185
  | format                                                              -- FORMAT, R170
  | leaseTick                                                           -- LEASE_TICK, R148
  | holdExpiry                                                          -- HOLD_EXPIRY, R149
  | removalClaim                                                        -- REMOVAL_CLAIM, R91
  | reclaimEraseComplete (plane0 plane1 : PlaneStatus)                  -- RECLAIM_ERASE_COMPLETE, R154
  | programMarkComplete (plane0 : PlaneStatus)                          -- PROGRAM_MARK_COMPLETE, R114
  | ecEraseComplete (plane0 plane1 : PlaneStatus)                       -- EC_ERASE_COMPLETE, R112
  | flashPhaseEnd                                                       -- FLASH_PHASE_END, R64
  | dieReady (die : Fin 4)                                              -- DIE_READY, R64
  | dieTimeout (die : Fin 4)                                            -- DIE_TIMEOUT, R73
  | resetDieComplete (die : Fin 4)                                      -- RESET_DIE_COMPLETE, R66
  | resetDieNoReady (die : Fin 4)                                       -- RESET_DIE_NO_READY, R66
  | probe (b0 b1 b2 b3 : Byte)                                          -- PROBE, R65: the four identification bytes
  | probeEnd                                                            -- PROBE_END, R159
  | mountScanResult (result : FlashRead)                                -- MOUNT_SCAN_RESULT, R161
  | mountScanEnd                                                        -- MOUNT_SCAN_END, R162
  | memberReadResult (result : FlashRead)                               -- MEMBER_READ_RESULT, R165
  | memberReadsEnd                                                      -- MEMBER_READS_END, R166
  | catalogLoad                                                         -- CATALOG_LOAD, R168
  | formatQuiet                                                         -- FORMAT_QUIET, R171
  | formatErasesEnd                                                     -- FORMAT_ERASES_END, R171
  | formatHeaderRowComplete (plane0 plane1 : PlaneStatus)               -- FORMAT_HEADER_ROW_COMPLETE, R172
  | haltOnQuiet                                                         -- HALT_ON_QUIET, R176
  | stopComplete                                                        -- STOP_COMPLETE, R180
deriving DecidableEq, Repr

end Sys2Proof
end

