-- ==== Sys2Proof/Decode.lean ====
section
/-!
DEFINITION. The command a word of the table spells. The block fetches no words and opcode_table.json gives no row any
bits, so no word spells a command; commands reach the block through its queue.
-/
namespace Sys2Proof

/-- No row of opcode_table.json has bits: no word is a command. -/
def decodeTableWord (_nbits _w : Nat) : Option Instr := none

end Sys2Proof
end

