-- ==== Sys2Proof/Laws/EccCode.lean ====
section
/-!
SUPPORT. That a code of the strength of R79 exists: eight parity bytes for each 512-byte chunk, all 0xFF for a chunk of
0xFF, with any two codewords at least nine bits apart, so that four bit errors can be corrected. The code here, a BCH code
over the field of 2^13 elements, is no part of the model: it only shows that the type of the free value in
Sys2Proof/Config.lean has an element.
-/
namespace Sys2Proof.Bch

/-! ### Bits and bytes -/

/-- The eight bits of a byte, least significant first. -/
def byteBits (b : Byte) : List Bool := (List.range 8).map b.getLsbD

/-- The bits of a list of bytes. -/
def bits (bs : List Byte) : List Bool := bs.flatMap byteBits

/-- The byte with given bits. -/
def packByte (b0 b1 b2 b3 b4 b5 b6 b7 : Bool) : Byte := BitVec.ofNat 8
  (b0.toNat + 2 * b1.toNat + 4 * b2.toNat + 8 * b3.toNat + 16 * b4.toNat + 32 * b5.toNat + 64 * b6.toNat +
    128 * b7.toNat)

/-- Bits packed into bytes, eight by eight. -/
def pack : List Bool → List Byte
  | b0 :: b1 :: b2 :: b3 :: b4 :: b5 :: b6 :: b7 :: t => packByte b0 b1 b2 b3 b4 b5 b6 b7 :: pack t
  | _ => []

theorem byteBits_packByte : ∀ b0 b1 b2 b3 b4 b5 b6 b7 : Bool,
    byteBits (packByte b0 b1 b2 b3 b4 b5 b6 b7) = [b0, b1, b2, b3, b4, b5, b6, b7] := by decide

theorem byteBits_length (b : Byte) : (byteBits b).length = 8 := by simp [byteBits]

theorem bits_length (bs : List Byte) : (bits bs).length = 8 * bs.length := by
  induction bs with
  | nil => rfl
  | cons b t ih =>
    simp only [bits, List.flatMap_cons, List.length_append, byteBits_length, List.length_cons] at ih ⊢
    omega

theorem byteBits_inj {a b : Byte} (h : byteBits a = byteBits b) : a = b := by
  refine BitVec.eq_of_getLsbD_eq fun i hi => ?_
  exact List.map_inj_left.1 h i (List.mem_range.2 hi)

theorem bits_inj : ∀ {as bs : List Byte}, bits as = bits bs → as = bs
  | [], [], _ => rfl
  | [], b :: t, h => by have := congrArg List.length h; simp [bits_length] at this
  | a :: s, [], h => by have := congrArg List.length h; simp [bits_length] at this
  | a :: s, b :: t, h => by
    have h' : byteBits a ++ bits s = byteBits b ++ bits t := h
    obtain ⟨h1, h2⟩ := List.append_inj h' (by simp [byteBits_length])
    rw [byteBits_inj h1, bits_inj h2]

theorem bits_pack : ∀ (n : Nat) (l : List Bool), l.length = 8 * n → bits (pack l) = l ∧ (pack l).length = n
  | 0, l, h => by
    have : l = [] := List.eq_nil_of_length_eq_zero (by omega)
    subst this; exact ⟨rfl, rfl⟩
  | n + 1, l, h => by
    obtain ⟨b0, l, rfl⟩ := List.exists_cons_of_length_pos (l := l) (by omega)
    obtain ⟨b1, l, rfl⟩ := List.exists_cons_of_length_pos (l := l) (by simp at h; omega)
    obtain ⟨b2, l, rfl⟩ := List.exists_cons_of_length_pos (l := l) (by simp at h; omega)
    obtain ⟨b3, l, rfl⟩ := List.exists_cons_of_length_pos (l := l) (by simp at h; omega)
    obtain ⟨b4, l, rfl⟩ := List.exists_cons_of_length_pos (l := l) (by simp at h; omega)
    obtain ⟨b5, l, rfl⟩ := List.exists_cons_of_length_pos (l := l) (by simp at h; omega)
    obtain ⟨b6, l, rfl⟩ := List.exists_cons_of_length_pos (l := l) (by simp at h; omega)
    obtain ⟨b7, l, rfl⟩ := List.exists_cons_of_length_pos (l := l) (by simp at h; omega)
    obtain ⟨i1, i2⟩ := bits_pack n l (by simp at h; omega)
    refine ⟨?_, by simp [pack, i2]⟩
    show byteBits (packByte b0 b1 b2 b3 b4 b5 b6 b7) ++ bits (pack l) = _
    rw [byteBits_packByte, i1]; rfl

/-! ### The encoder -/

/-- Bitwise exclusive or. -/
def xorBits (a b : List Bool) : List Bool := a.zipWith xor b

/-- The generator below its leading term x^64, highest coefficient first. -/
def generator : List Bool :=
  [false, true, false, false, false, true, false, true, false, false, true, true, false, true, true, true,
   false, true, false, true, false, true, true, false, false, false, false, false, true, false, true, false,
   true, true, true, true, true, false, true, true, true, true, false, false, false, false, false, true,
   false, false, true, true, false, true, true, false, true, false, true, false, true, false, true, true]

/-- One step of the remainder: the register, highest coefficient first, shifted by one with the next data bit. -/
def shiftIn (reg : List Bool) (b : Bool) : List Bool :=
  match reg with
  | [] => []
  | m :: t => xorBits (t ++ [false]) (if xor m b then generator else List.replicate 64 false)

/-- The remainder of data bits. -/
def remainder (ds : List Bool) : List Bool := ds.foldl shiftIn (List.replicate 64 false)

/-- What makes the parity of an erased chunk all ones. -/
def erasedShift : List Bool := xorBits (remainder (List.replicate 4096 true)) (List.replicate 64 true)

/-- The parity bytes of a chunk. -/
def parity (c : List Byte) : List Byte := pack (xorBits (remainder (bits c)) erasedShift)

theorem xorBits_length {a b : List Bool} (h : a.length = b.length) : (xorBits a b).length = b.length := by
  simp [xorBits, h]

theorem shiftIn_length {reg : List Bool} (b : Bool) (h : reg.length = 64) : (shiftIn reg b).length = 64 := by
  obtain ⟨m, t, rfl⟩ := List.exists_cons_of_length_pos (l := reg) (by omega)
  have hl : (if xor m b then generator else List.replicate 64 false).length = 64 := by split <;> rfl
  show (xorBits _ _).length = 64
  rw [xorBits_length (by rw [hl]; simpa using h), hl]

theorem remainder_length (ds : List Bool) : (remainder ds).length = 64 := by
  have go : ∀ (ds reg : List Bool), reg.length = 64 → (ds.foldl shiftIn reg).length = 64 := by
    intro ds
    induction ds with
    | nil => intro reg h; simpa using h
    | cons b t ih => intro reg h; exact ih _ (shiftIn_length b h)
  exact go _ _ rfl

theorem erasedShift_length : erasedShift.length = 64 := by
  have h : (List.replicate 64 true).length = 64 := rfl
  rw [erasedShift, xorBits_length (by rw [remainder_length, h]), h]

theorem bits_parity (c : List Byte) :
    bits (parity c) = xorBits (remainder (bits c)) erasedShift ∧ (parity c).length = 8 :=
  bits_pack 8 _ (by rw [xorBits_length (by rw [remainder_length, erasedShift_length]), erasedShift_length])

/-! ### Values of bit lists at a point of a field of characteristic 2 -/

section
variable {K : Type*} [Field K]

/-- The value of a bit list, highest coefficient first, at a point. -/
def val (x : K) : List Bool → K
  | [] => 0
  | b :: t => (if b then x ^ t.length else 0) + val x t

theorem val_append (x : K) : ∀ a b : List Bool, val x (a ++ b) = val x a * x ^ b.length + val x b
  | [], b => by simp [val]
  | c :: a, b => by
    simp only [List.cons_append, val, List.length_append, val_append x a b]
    split <;> ring

theorem val_false (x : K) (n : Nat) : val x (List.replicate n false) = 0 := by
  induction n with
  | zero => rfl
  | succ n ih => rw [List.replicate_succ]; simp [val, ih]

/-- Few distinct points whose first eight power sums vanish: there are none. -/
theorem no_points (S : Finset K) (h0 : (0 : K) ∉ S) (hc : S.card ≤ 8)
    (hs : ∀ j, 1 ≤ j → j ≤ 8 → ∑ x ∈ S, x ^ j = 0) : S = ∅ := by
  by_contra hne
  obtain ⟨y, hy⟩ := Finset.nonempty_iff_ne_empty.2 hne
  classical
  let Q : Polynomial K := Polynomial.X * ∏ t ∈ S.erase y, (Polynomial.X - Polynomial.C t)
  have hd : Q.natDegree ≤ 8 := by
    refine Polynomial.natDegree_mul_le.trans ?_
    rw [Polynomial.natDegree_X, Polynomial.natDegree_prod_of_monic _ _ fun t _ => Polynomial.monic_X_sub_C t]
    simp only [Polynomial.natDegree_X_sub_C, Finset.sum_const, smul_eq_mul, mul_one, Finset.card_erase_of_mem hy]
    have : 0 < S.card := Finset.card_pos.2 ⟨y, hy⟩
    omega
  have hz : ∑ x ∈ S, Q.eval x = 0 := by
    simp_rw [Polynomial.eval_eq_sum_range' (Nat.lt_succ_of_le hd)]
    rw [Finset.sum_comm]
    refine Finset.sum_eq_zero fun j hj => ?_
    rw [← Finset.mul_sum]
    rcases Nat.eq_zero_or_pos j with rfl | hp
    · simp [Q]
    · rw [hs j hp (by simp at hj; omega), mul_zero]
  have he : ∑ x ∈ S, Q.eval x = Q.eval y := by
    refine Finset.sum_eq_single y (fun x hx hxy => ?_) (fun h => absurd hy h)
    simp only [Q, Polynomial.eval_mul, Polynomial.eval_prod]
    rw [Finset.prod_eq_zero (Finset.mem_erase.2 ⟨hxy, hx⟩) (by simp), mul_zero]
  have hq : Q.eval y ≠ 0 := by
    simp only [Q, Polynomial.eval_mul, Polynomial.eval_prod, Polynomial.eval_X]
    refine mul_ne_zero (fun h => h0 (h ▸ hy)) (Finset.prod_ne_zero_iff.2 fun t ht => ?_)
    simp only [Polynomial.eval_sub, Polynomial.eval_X, Polynomial.eval_C]
    exact sub_ne_zero.2 (Finset.ne_of_mem_erase ht).symm
  exact hq (he ▸ hz)

variable [CharP K 2]

theorem two_zero : (2 : K) = 0 := by have := CharP.cast_eq_zero K 2; simpa using this

theorem val_xorBits (x : K) : ∀ a b : List Bool, a.length = b.length → val x (xorBits a b) = val x a + val x b
  | [], [], _ => by simp [val, xorBits]
  | [], _ :: _, h => by simp at h
  | _ :: _, [], h => by simp at h
  | c :: a, d :: b, h => by
    have h' : a.length = b.length := by simpa using h
    have ih := val_xorBits x a b h'
    simp only [xorBits, List.zipWith_cons_cons, val] at ih ⊢
    rw [ih]
    have hl : (List.zipWith xor a b).length = b.length := by simp [h']
    rw [hl, h']
    cases c <;> cases d <;> simp
    · ring
    · ring
    · have := two_zero (K := K); linear_combination (-x ^ b.length) * this

theorem val_shiftIn (x : K) (hg : val x generator = x ^ 64) (reg : List Bool) (b : Bool) (h : reg.length = 64) :
    val x (shiftIn reg b) = x * val x reg + (if b then x ^ 64 else 0) := by
  obtain ⟨m, t, rfl⟩ := List.exists_cons_of_length_pos (l := reg) (by omega)
  have ht : t.length = 63 := by simpa using h
  have two := two_zero (K := K)
  have key : val x (if xor m b then generator else List.replicate 64 false) = if xor m b then x ^ 64 else 0 := by
    split
    · exact hg
    · exact val_false x 64
  have hl : (if xor m b then generator else List.replicate 64 false).length = 64 := by split <;> rfl
  show val x (xorBits _ _) = _
  rw [val_xorBits x _ _ (by rw [hl]; simpa using h), val_append, key]
  simp only [val, ht, List.length_singleton]
  cases m <;> cases b <;> simp
  · ring
  · ring
  · ring
  · linear_combination (-x ^ 64) * two

theorem val_foldl (x : K) (hg : val x generator = x ^ 64) : ∀ (ds reg : List Bool), reg.length = 64 →
    val x (ds.foldl shiftIn reg) = val x reg * x ^ ds.length + val x ds * x ^ 64
  | [], reg, _ => by simp [val]
  | b :: t, reg, h => by
    rw [List.foldl_cons, val_foldl x hg t _ (shiftIn_length b h), val_shiftIn x hg reg b h]
    simp only [val, List.length_cons]
    split <;> ring

/-- All codewords have the same value at a root of the generator. -/
theorem val_codeword (x : K) (hg : val x generator = x ^ 64) (c : List Byte) :
    val x (bits c ++ bits (parity c)) = val x erasedShift := by
  have two := two_zero (K := K)
  have hp := (bits_parity c).1
  have hr : val x (remainder (bits c)) = val x (bits c) * x ^ 64 := by
    rw [remainder, val_foldl x hg _ _ rfl, val_false]; ring
  rw [val_append, bits_length, (bits_parity c).2, hp,
    val_xorBits x _ _ (by rw [remainder_length, erasedShift_length]), hr]
  linear_combination (val x (bits c) * x ^ 64) * two

/-! ### Distance -/

/-- The places, counted from the end, in which two bit lists differ. -/
def diffs : List Bool → List Bool → List Nat
  | a :: as, b :: bs => if a = b then diffs as bs else as.length :: diffs as bs
  | _, _ => []

theorem diffs_lt : ∀ (as bs : List Bool), ∀ e ∈ diffs as bs, e < as.length
  | a :: as, b :: bs, e, h => by
    have ih := diffs_lt as bs e
    unfold diffs at h
    split at h
    · have := ih h; simp; omega
    · rcases List.mem_cons.1 h with rfl | h
      · simp
      · have := ih h; simp; omega
  | [], _, e, h => by simp [diffs] at h
  | _ :: _, [], e, h => by simp [diffs] at h

theorem diffs_nodup : ∀ as bs : List Bool, (diffs as bs).Nodup
  | a :: as, b :: bs => by
    unfold diffs
    split
    · exact diffs_nodup as bs
    · exact List.nodup_cons.2 ⟨fun h => by have := diffs_lt as bs _ h; omega, diffs_nodup as bs⟩
  | [], _ => by simp [diffs]
  | _ :: _, [] => by simp [diffs]

theorem diffs_nil : ∀ as bs : List Bool, as.length = bs.length → diffs as bs = [] → as = bs
  | a :: as, b :: bs, h, e => by
    unfold diffs at e
    split at e
    · next hab => rw [hab, diffs_nil as bs (by simpa using h) e]
    · simp at e
  | [], [], _, _ => rfl
  | [], _ :: _, h, _ => by simp at h
  | _ :: _, [], h, _ => by simp at h

theorem val_diffs (x : K) : ∀ as bs : List Bool, as.length = bs.length →
    val x as + val x bs = ((diffs as bs).map (x ^ ·)).sum
  | a :: as, b :: bs, h => by
    have two := two_zero (K := K)
    have h' : as.length = bs.length := by simpa using h
    have ih := val_diffs x as bs h'
    unfold diffs
    split
    · next hab =>
      subst hab
      simp only [val, h']
      split
      · linear_combination ih + x ^ bs.length * two
      · linear_combination ih
    · next hab =>
      simp only [val, List.map_cons, List.sum_cons, ← ih, h']
      cases a <;> cases b <;> simp at hab ⊢ <;> ring
  | [], [], _ => by simp [val, diffs]
  | [], _ :: _, h => by simp at h
  | _ :: _, [], h => by simp at h

/-- In a field of characteristic 2 the power sums at 2·j follow from those at j. -/
theorem sum_sq (l : List K) : (l.map (· ^ 2)).sum = l.sum ^ 2 := by
  induction l with
  | nil => simp
  | cons a t ih =>
    simp only [List.map_cons, List.sum_cons, ih]
    linear_combination (-(a * t.sum)) * two_zero (K := K)

end

/-! ### The roots of the generator -/

section
variable {K : Type*} [Field K] [CharP K 2]

/-- A root of x^13 + x^4 + x^3 + x + 1 has order dividing the prime 8191. -/
theorem root_pow (a : K) (h : 1 + a + a ^ 3 + a ^ 4 + a ^ 13 = 0) : a ^ 8191 = 1 := by
  have two := two_zero (K := K)
  have p3 : a ^ 16 = a ^ 3 + a ^ 4 + a ^ 6 + a ^ 7 := by
    linear_combination (a ^ 3) * h + (-1 * a ^ 3 + -1 * a ^ 4 + -1 * a ^ 6 + -1 * a ^ 7) * two
  have p4 : a ^ 32 = a + a ^ 2 + a ^ 4 + a ^ 5 + a ^ 6 + a ^ 8 + a ^ 12 := by
    have e : a ^ 32 = (a ^ 16) ^ 2 := by rw [← pow_mul]
    rw [e, p3]
    linear_combination (a) * h + (-1 * a + -1 * a ^ 2 + -1 * a ^ 4 + -1 * a ^ 5 + a ^ 7 + a ^ 9 + 2 * a ^ 10 +
      a ^ 11 + a ^ 13) * two
  have p5 : a ^ 64 = a + a ^ 2 + a ^ 4 + a ^ 7 + a ^ 8 + a ^ 10 + a ^ 11 := by
    have e : a ^ 64 = (a ^ 32) ^ 2 := by rw [← pow_mul]
    rw [e, p4]
    linear_combination (a + a ^ 2 + a ^ 3 + a ^ 11) * h + (-1 * a + -1 * a ^ 2 + -1 * a ^ 4 + a ^ 6 + a ^ 7 + a ^ 8 +
      2 * a ^ 9 + 2 * a ^ 10 + a ^ 12 + 2 * a ^ 13 + a ^ 14 + -1 * a ^ 15 + a ^ 16 + a ^ 17 + a ^ 18 + a ^ 20) * two
  have p6 : a ^ 128 = 1 + a ^ 5 + a ^ 6 + a ^ 9 + a ^ 11 + a ^ 12 := by
    have e : a ^ 128 = (a ^ 64) ^ 2 := by rw [← pow_mul]
    rw [e, p5]
    linear_combination (1 + a + a ^ 3 + a ^ 7 + a ^ 9) * h + (-1 + -1 * a + -1 * a ^ 4 + -1 * a ^ 7 + a ^ 8 + a ^ 9 +
      a ^ 11 + 2 * a ^ 12 + a ^ 14 + 2 * a ^ 15 + a ^ 17 + 2 * a ^ 18 + a ^ 19 + a ^ 21) * two
  have p7 : a ^ 256 = a ^ 5 + a ^ 8 + a ^ 11 + a ^ 12 := by
    have e : a ^ 256 = (a ^ 128) ^ 2 := by rw [← pow_mul]
    rw [e, p6]
    linear_combination (1 + a + a ^ 2 + a ^ 5 + a ^ 9 + a ^ 11) * h + (-1 * a + -1 * a ^ 2 + -1 * a ^ 3 + -1 * a ^ 4 +
      -1 * a ^ 5 + -1 * a ^ 8 + a ^ 11 + -1 * a ^ 13 + a ^ 16 + 2 * a ^ 17 + a ^ 18 + a ^ 20 + a ^ 21 +
      a ^ 23) * two
  have p8 : a ^ 512 = 1 + a ^ 3 + a ^ 4 + a ^ 7 + a ^ 9 + a ^ 11 := by
    have e : a ^ 512 = (a ^ 256) ^ 2 := by rw [← pow_mul]
    rw [e, p7]
    linear_combination (1 + a + a ^ 2 + a ^ 3 + a ^ 9 + a ^ 11) * h + (-1 + -1 * a + -1 * a ^ 2 + -2 * a ^ 3 +
      -2 * a ^ 4 + -1 * a ^ 5 + -1 * a ^ 6 + -1 * a ^ 7 + -1 * a ^ 9 + -1 * a ^ 11 + -1 * a ^ 12 + -1 * a ^ 14 +
      -1 * a ^ 15 + a ^ 16 + a ^ 17 + a ^ 19 + a ^ 20 + a ^ 23) * two
  have p9 : a ^ 1024 = a ^ 2 + a ^ 3 + a ^ 10 + a ^ 12 := by
    have e : a ^ 1024 = (a ^ 512) ^ 2 := by rw [← pow_mul]
    rw [e, p8]
    linear_combination (1 + a + a ^ 5 + a ^ 9) * h + (-1 * a + -1 * a ^ 2 + -1 * a ^ 5 + 2 * a ^ 7 + 2 * a ^ 11 +
      a ^ 14 + a ^ 15 + a ^ 16 + a ^ 18 + a ^ 20) * two
  have p10 : a ^ 2048 = a + a ^ 3 + a ^ 7 + a ^ 8 + a ^ 10 + a ^ 12 := by
    have e : a ^ 2048 = (a ^ 1024) ^ 2 := by rw [← pow_mul]
    rw [e, p9]
    linear_combination (a + a ^ 2 + a ^ 7 + a ^ 11) * h + (-1 * a + -1 * a ^ 2 + -1 * a ^ 3 + -1 * a ^ 7 +
      -1 * a ^ 8 + -1 * a ^ 10 + -1 * a ^ 11 + a ^ 13 + a ^ 22) * two
  have p11 : a ^ 4096 = a ^ 4 + a ^ 5 + a ^ 6 + a ^ 8 + a ^ 10 + a ^ 12 := by
    have e : a ^ 4096 = (a ^ 2048) ^ 2 := by rw [← pow_mul]
    rw [e, p10]
    linear_combination (a ^ 2 + a ^ 3 + a ^ 7 + a ^ 11) * h + (-1 * a ^ 3 + -1 * a ^ 5 + -1 * a ^ 6 + -1 * a ^ 7 +
      a ^ 9 + a ^ 11 + -1 * a ^ 12 + 2 * a ^ 13 + a ^ 15 + a ^ 17 + a ^ 18 + a ^ 19 + a ^ 20 + a ^ 22) * two
  have p12 : a ^ 8192 = a := by
    have e : a ^ 8192 = (a ^ 4096) ^ 2 := by rw [← pow_mul]
    rw [e, p11]
    linear_combination (a + a ^ 2 + a ^ 3 + a ^ 7 + a ^ 11) * h + (-1 * a + -1 * a ^ 2 + -1 * a ^ 3 + -1 * a ^ 4 +
      -1 * a ^ 5 + -1 * a ^ 6 + -1 * a ^ 7 + a ^ 9 + a ^ 10 + a ^ 12 + a ^ 13 + a ^ 14 + 2 * a ^ 16 + a ^ 17 +
      2 * a ^ 18 + a ^ 20 + a ^ 22) * two
  have a0 : a ≠ 0 := by rintro rfl; simp at h
  have e : a * a ^ 8191 = a * 1 := by rw [mul_one, ← pow_succ', p12]
  exact mul_left_cancel₀ a0 e

theorem root_3 (a : K) (h : 1 + a + a ^ 3 + a ^ 4 + a ^ 13 = 0) :
    1 + (a ^ 3) ^ 4 + (a ^ 3) ^ 5 + (a ^ 3) ^ 7 + (a ^ 3) ^ 9 + (a ^ 3) ^ 10 + (a ^ 3) ^ 13 = 0 := by
  have two := two_zero (K := K)
  linear_combination (1 + a + a ^ 2 + a ^ 6 + a ^ 7 + a ^ 8 + a ^ 13 + a ^ 16 + a ^ 26) * h + (-1 * a + -1 * a ^ 2 +
    -1 * a ^ 3 + -1 * a ^ 4 + -1 * a ^ 5 + -1 * a ^ 6 + -1 * a ^ 7 + -1 * a ^ 8 + -1 * a ^ 9 + -1 * a ^ 10 +
    -1 * a ^ 11 + -1 * a ^ 13 + -1 * a ^ 14 + -1 * a ^ 16 + -1 * a ^ 17 + -1 * a ^ 19 + -1 * a ^ 20 + -1 * a ^ 26 +
    -1 * a ^ 29) * two

theorem root_5 (a : K) (h : 1 + a + a ^ 3 + a ^ 4 + a ^ 13 = 0) :
    1 + a ^ 5 + (a ^ 5) ^ 4 + (a ^ 5) ^ 7 + (a ^ 5) ^ 8 + (a ^ 5) ^ 11 + (a ^ 5) ^ 13 = 0 := by
  have two := two_zero (K := K)
  linear_combination (1 + a + a ^ 2 + a ^ 5 + a ^ 8 + a ^ 11 + a ^ 13 + a ^ 14 + a ^ 15 + a ^ 18 + a ^ 20 + a ^ 21 +
    a ^ 23 + a ^ 25 + a ^ 26 + a ^ 27 + a ^ 28 + a ^ 29 + a ^ 30 + a ^ 33 + a ^ 34 + a ^ 39 + a ^ 40 + a ^ 43 +
    a ^ 52) * h + (-1 * a + -1 * a ^ 2 + -1 * a ^ 3 + -1 * a ^ 4 + -1 * a ^ 5 + -1 * a ^ 6 + -1 * a ^ 8 + -1 * a ^ 9 +
    -1 * a ^ 11 + -1 * a ^ 12 + -1 * a ^ 13 + -2 * a ^ 14 + -2 * a ^ 15 + -1 * a ^ 16 + -1 * a ^ 17 + -2 * a ^ 18 +
    -1 * a ^ 19 + -2 * a ^ 21 + -1 * a ^ 22 + -1 * a ^ 23 + -2 * a ^ 24 + -1 * a ^ 25 + -2 * a ^ 26 + -2 * a ^ 27 +
    -2 * a ^ 28 + -2 * a ^ 29 + -2 * a ^ 30 + -2 * a ^ 31 + -1 * a ^ 32 + -2 * a ^ 33 + -2 * a ^ 34 + -1 * a ^ 36 +
    -1 * a ^ 37 + -1 * a ^ 38 + -1 * a ^ 39 + -1 * a ^ 40 + -1 * a ^ 41 + -1 * a ^ 42 + -2 * a ^ 43 + -1 * a ^ 44 +
    -1 * a ^ 46 + -1 * a ^ 47 + -1 * a ^ 52 + -1 * a ^ 53 + -1 * a ^ 56) * two

theorem root_7 (a : K) (h : 1 + a + a ^ 3 + a ^ 4 + a ^ 13 = 0) :
    1 + a ^ 7 + (a ^ 7) ^ 2 + (a ^ 7) ^ 3 + (a ^ 7) ^ 6 + (a ^ 7) ^ 8 + (a ^ 7) ^ 9 + (a ^ 7) ^ 10 +
      (a ^ 7) ^ 13 = 0 := by
  have two := two_zero (K := K)
  linear_combination (1 + a + a ^ 2 + a ^ 6 + a ^ 9 + a ^ 12 + a ^ 13 + a ^ 14 + a ^ 15 + a ^ 16 + a ^ 17 + a ^ 18 +
    a ^ 21 + a ^ 22 + a ^ 23 + a ^ 25 + a ^ 30 + a ^ 33 + a ^ 34 + a ^ 42 + a ^ 45 + a ^ 46 + a ^ 48 + a ^ 49 +
    a ^ 51 + a ^ 52 + a ^ 54 + a ^ 57 + a ^ 58 + a ^ 60 + a ^ 65 + a ^ 66 + a ^ 68 + a ^ 69 + a ^ 78) * h + (-1 * a +
    -1 * a ^ 2 + -1 * a ^ 3 + -1 * a ^ 4 + -1 * a ^ 5 + -1 * a ^ 6 + -1 * a ^ 9 + -1 * a ^ 10 + -1 * a ^ 12 +
    -2 * a ^ 13 + -1 * a ^ 14 + -2 * a ^ 15 + -2 * a ^ 16 + -2 * a ^ 17 + -2 * a ^ 18 + -2 * a ^ 19 + -1 * a ^ 20 +
    -1 * a ^ 21 + -2 * a ^ 22 + -1 * a ^ 23 + -1 * a ^ 24 + -2 * a ^ 25 + -2 * a ^ 26 + -1 * a ^ 27 + -1 * a ^ 28 +
    -1 * a ^ 29 + -1 * a ^ 30 + -1 * a ^ 31 + -1 * a ^ 33 + -2 * a ^ 34 + -1 * a ^ 35 + -1 * a ^ 36 + -1 * a ^ 37 +
    -1 * a ^ 38 + -1 * a ^ 43 + -1 * a ^ 45 + -2 * a ^ 46 + -1 * a ^ 47 + -1 * a ^ 48 + -2 * a ^ 49 + -1 * a ^ 50 +
    -1 * a ^ 51 + -2 * a ^ 52 + -1 * a ^ 53 + -1 * a ^ 54 + -2 * a ^ 55 + -1 * a ^ 57 + -2 * a ^ 58 + -1 * a ^ 59 +
    -1 * a ^ 60 + -2 * a ^ 61 + -1 * a ^ 62 + -1 * a ^ 64 + -1 * a ^ 65 + -1 * a ^ 66 + -1 * a ^ 67 + -1 * a ^ 68 +
    -2 * a ^ 69 + -1 * a ^ 70 + -1 * a ^ 71 + -1 * a ^ 72 + -1 * a ^ 73 + -1 * a ^ 78 + -1 * a ^ 79 + -1 * a ^ 81 +
    -1 * a ^ 82) * two

theorem generator_1 (x : K) (h : 1 + x + x ^ 3 + x ^ 4 + x ^ 13 = 0) : val x generator = x ^ 64 := by
  have two := two_zero (K := K)
  simp only [generator, val, List.length_cons, List.length_nil, Bool.false_eq_true, if_false, if_true, zero_add, add_zero]
  linear_combination (1 + x ^ 4 + x ^ 8 + x ^ 10 + x ^ 13 + x ^ 21 + x ^ 26 + x ^ 28 + x ^ 29 + x ^ 30 + x ^ 31 +
    x ^ 32 + x ^ 34 + x ^ 36 + x ^ 38 + x ^ 39 + x ^ 41 + x ^ 42 + x ^ 43 + x ^ 45 + x ^ 49 + x ^ 51) * h +
    (-1 * x ^ 4 + -1 * x ^ 8 + -1 * x ^ 11 + -1 * x ^ 13 + -1 * x ^ 14 + -1 * x ^ 17 + -1 * x ^ 21 + -1 * x ^ 26 +
    -1 * x ^ 29 + -1 * x ^ 30 + -1 * x ^ 31 + -2 * x ^ 32 + -1 * x ^ 33 + -2 * x ^ 34 + -1 * x ^ 35 + -1 * x ^ 36 +
    -1 * x ^ 37 + -1 * x ^ 38 + -2 * x ^ 39 + -1 * x ^ 40 + -1 * x ^ 41 + -2 * x ^ 42 + -2 * x ^ 43 + -1 * x ^ 44 +
    -2 * x ^ 45 + -1 * x ^ 46 + -1 * x ^ 47 + -1 * x ^ 49 + -1 * x ^ 51 + -1 * x ^ 52 + -1 * x ^ 54 + -1 * x ^ 55 +
    -1 * x ^ 64) * two

theorem generator_3 (x : K) (h : 1 + x ^ 4 + x ^ 5 + x ^ 7 + x ^ 9 + x ^ 10 +
  x ^ 13 = 0) : val x generator = x ^ 64 := by
  have two := two_zero (K := K)
  simp only [generator, val, List.length_cons, List.length_nil, Bool.false_eq_true, if_false, if_true, zero_add, add_zero]
  linear_combination (1 + x + x ^ 3 + x ^ 4 + x ^ 5 + x ^ 6 + x ^ 7 + x ^ 8 + x ^ 12 + x ^ 15 + x ^ 16 + x ^ 19 +
    x ^ 20 + x ^ 21 + x ^ 22 + x ^ 23 + x ^ 28 + x ^ 29 + x ^ 31 + x ^ 33 + x ^ 36 + x ^ 39 + x ^ 40 + x ^ 42 +
    x ^ 43 + x ^ 46 + x ^ 47 + x ^ 48 + x ^ 49 + x ^ 51) * h + (-1 * x ^ 4 + -1 * x ^ 5 + -1 * x ^ 6 + -1 * x ^ 7 +
    -2 * x ^ 8 + -1 * x ^ 9 + -2 * x ^ 10 + -2 * x ^ 11 + -2 * x ^ 12 + -2 * x ^ 13 + -2 * x ^ 14 + -2 * x ^ 15 +
    -2 * x ^ 16 + -2 * x ^ 17 + -1 * x ^ 18 + -2 * x ^ 19 + -2 * x ^ 20 + -2 * x ^ 21 + -1 * x ^ 22 + -1 * x ^ 23 +
    -1 * x ^ 24 + -2 * x ^ 25 + -2 * x ^ 26 + -1 * x ^ 27 + -2 * x ^ 28 + -2 * x ^ 29 + -1 * x ^ 30 + -1 * x ^ 31 +
    -2 * x ^ 32 + -2 * x ^ 33 + -1 * x ^ 34 + -1 * x ^ 35 + -2 * x ^ 36 + -1 * x ^ 37 + -2 * x ^ 38 + -1 * x ^ 39 +
    -2 * x ^ 40 + -1 * x ^ 41 + -1 * x ^ 42 + -2 * x ^ 43 + -1 * x ^ 44 + -1 * x ^ 45 + -2 * x ^ 46 + -2 * x ^ 47 +
    -1 * x ^ 48 + -2 * x ^ 49 + -1 * x ^ 50 + -2 * x ^ 51 + -2 * x ^ 52 + -2 * x ^ 53 + -1 * x ^ 54 + -2 * x ^ 55 +
    -2 * x ^ 56 + -1 * x ^ 57 + -1 * x ^ 58 + -1 * x ^ 59 + -1 * x ^ 60 + -1 * x ^ 61 + -1 * x ^ 64) * two

theorem generator_5 (x : K) (h : 1 + x + x ^ 4 + x ^ 7 + x ^ 8 + x ^ 11 + x ^ 13 = 0) : val x generator = x ^ 64 := by
  have two := two_zero (K := K)
  simp only [generator, val, List.length_cons, List.length_nil, Bool.false_eq_true, if_false, if_true, zero_add, add_zero]
  linear_combination (1 + x ^ 3 + x ^ 5 + x ^ 6 + x ^ 8 + x ^ 9 + x ^ 12 + x ^ 15 + x ^ 16 + x ^ 17 + x ^ 20 +
    x ^ 21 + x ^ 26 + x ^ 28 + x ^ 30 + x ^ 31 + x ^ 32 + x ^ 34 + x ^ 38 + x ^ 39 + x ^ 43 + x ^ 44 + x ^ 46 +
    x ^ 51) * h + (-1 * x ^ 4 + -1 * x ^ 6 + -1 * x ^ 7 + -1 * x ^ 8 + -1 * x ^ 9 + -1 * x ^ 10 + -1 * x ^ 11 +
    -1 * x ^ 12 + -2 * x ^ 13 + -1 * x ^ 14 + -1 * x ^ 15 + -3 * x ^ 16 + -2 * x ^ 17 + -1 * x ^ 18 + -2 * x ^ 19 +
    -2 * x ^ 20 + -2 * x ^ 21 + -1 * x ^ 22 + -1 * x ^ 23 + -1 * x ^ 24 + -1 * x ^ 25 + -1 * x ^ 26 + -1 * x ^ 27 +
    -2 * x ^ 28 + -1 * x ^ 29 + -1 * x ^ 30 + -1 * x ^ 31 + -2 * x ^ 32 + -1 * x ^ 33 + -2 * x ^ 34 + -1 * x ^ 35 +
    -1 * x ^ 36 + -1 * x ^ 37 + -2 * x ^ 38 + -3 * x ^ 39 + -1 * x ^ 40 + -1 * x ^ 41 + -1 * x ^ 42 + -2 * x ^ 43 +
    -1 * x ^ 44 + -2 * x ^ 45 + -1 * x ^ 46 + -2 * x ^ 47 + -1 * x ^ 50 + -2 * x ^ 51 + -1 * x ^ 52 + -1 * x ^ 54 +
    -1 * x ^ 55 + -1 * x ^ 57 + -1 * x ^ 59 + -1 * x ^ 64) * two

theorem generator_7 (x : K) (h : 1 + x + x ^ 2 + x ^ 3 + x ^ 6 + x ^ 8 + x ^ 9 + x ^ 10 +
  x ^ 13 = 0) : val x generator = x ^ 64 := by
  have two := two_zero (K := K)
  simp only [generator, val, List.length_cons, List.length_nil, Bool.false_eq_true, if_false, if_true, zero_add, add_zero]
  linear_combination (1 + x ^ 2 + x ^ 3 + x ^ 5 + x ^ 6 + x ^ 7 + x ^ 8 + x ^ 10 + x ^ 11 + x ^ 13 + x ^ 14 + x ^ 18 +
    x ^ 19 + x ^ 21 + x ^ 22 + x ^ 25 + x ^ 26 + x ^ 27 + x ^ 28 + x ^ 30 + x ^ 31 + x ^ 32 + x ^ 37 + x ^ 38 +
    x ^ 39 + x ^ 40 + x ^ 41 + x ^ 42 + x ^ 43 + x ^ 45 + x ^ 47 + x ^ 48 + x ^ 49 + x ^ 51) * h + (-1 * x ^ 2 +
    -1 * x ^ 3 + -1 * x ^ 4 + -1 * x ^ 5 + -2 * x ^ 6 + -1 * x ^ 7 + -3 * x ^ 8 + -2 * x ^ 9 + -2 * x ^ 10 +
    -3 * x ^ 11 + -2 * x ^ 12 + -3 * x ^ 13 + -3 * x ^ 14 + -3 * x ^ 15 + -3 * x ^ 16 + -2 * x ^ 17 + -2 * x ^ 18 +
    -3 * x ^ 19 + -3 * x ^ 20 + -3 * x ^ 21 + -2 * x ^ 22 + -2 * x ^ 23 + -2 * x ^ 24 + -1 * x ^ 25 + -2 * x ^ 26 +
    -3 * x ^ 27 + -3 * x ^ 28 + -2 * x ^ 29 + -2 * x ^ 30 + -3 * x ^ 31 + -3 * x ^ 32 + -2 * x ^ 33 + -3 * x ^ 34 +
    -2 * x ^ 35 + -2 * x ^ 36 + -2 * x ^ 37 + -3 * x ^ 38 + -3 * x ^ 39 + -4 * x ^ 40 + -3 * x ^ 41 + -2 * x ^ 42 +
    -3 * x ^ 43 + -2 * x ^ 44 + -3 * x ^ 45 + -2 * x ^ 46 + -3 * x ^ 47 + -3 * x ^ 48 + -3 * x ^ 49 + -3 * x ^ 50 +
    -4 * x ^ 51 + -2 * x ^ 52 + -2 * x ^ 53 + -2 * x ^ 54 + -2 * x ^ 55 + -1 * x ^ 56 + -2 * x ^ 57 + -1 * x ^ 58 +
    -1 * x ^ 59 + -1 * x ^ 60 + -1 * x ^ 61 + -1 * x ^ 64) * two

/-- There is a field of characteristic 2 with a point of order 8191 at whose first, third, fifth and seventh power the
generator vanishes. -/
theorem exists_root : ∃ a : AlgebraicClosure (ZMod 2), a ^ 8191 = 1 ∧ a ≠ 1 ∧
    ∀ j ∈ [1, 3, 5, 7], val (a ^ j) generator = (a ^ j) ^ 64 := by
  let p : Polynomial (AlgebraicClosure (ZMod 2)) :=
    Polynomial.X ^ 13 + Polynomial.X ^ 4 + Polynomial.X ^ 3 + Polynomial.X + 1
  have hp : p.degree ≠ 0 := by
    have : p.degree = 13 := by simp only [p]; compute_degree!
    rw [this]; decide
  obtain ⟨a, ha⟩ := IsAlgClosed.exists_root p hp
  have h : 1 + a + a ^ 3 + a ^ 4 + a ^ 13 = 0 := by
    have := ha
    simp only [p, Polynomial.IsRoot.def, Polynomial.eval_add, Polynomial.eval_pow,
       Polynomial.eval_X, Polynomial.eval_one] at this
    linear_combination this
  have two := two_zero (K := AlgebraicClosure (ZMod 2))
  refine ⟨a, root_pow a h, fun h1 => ?_, fun j hj => ?_⟩
  · subst h1
    have : (1 : AlgebraicClosure (ZMod 2)) = 0 := by linear_combination h - 2 * two
    exact one_ne_zero this
  · simp only [List.mem_cons, List.not_mem_nil, or_false] at hj
    rcases hj with rfl | rfl | rfl | rfl
    · exact generator_1 _ (by simpa using h)
    · exact generator_3 _ (by simpa using root_3 a h)
    · exact generator_5 _ (by simpa using root_5 a h)
    · exact generator_7 _ (by simpa using root_7 a h)

end

/-! ### The code corrects four errors -/

theorem prime_8191 : Nat.Prime 8191 := by norm_num

/-- Two different codewords differ in at least nine bits. -/
theorem far (c d : List Byte) (hc : c.length = 512) (hd : d.length = 512) (hne : c ≠ d) :
    9 ≤ (diffs (bits c ++ bits (parity c)) (bits d ++ bits (parity d))).length := by
  obtain ⟨a, ha, ha1, hg⟩ := exists_root
  set w := bits c ++ bits (parity c) with hw
  set v := bits d ++ bits (parity d) with hv
  have lw : w.length = 4160 := by simp [hw, bits_length, (bits_parity c).2, hc]
  have lv : v.length = 4160 := by simp [hv, bits_length, (bits_parity d).2, hd]
  by_contra hlt
  have two := two_zero (K := AlgebraicClosure (ZMod 2))
  have a0 : a ≠ 0 := by rintro rfl; simp at ha
  have horder : orderOf a = 8191 := orderOf_eq_prime_iff (hp := ⟨prime_8191⟩) |>.2 ⟨ha, ha1⟩
  have odd : ∀ j ∈ [1, 3, 5, 7], ((diffs w v).map fun e => (a ^ e) ^ j).sum = 0 := by
    intro j hj
    have h := val_diffs (a ^ j) w v (by rw [lw, lv])
    rw [hw, hv, val_codeword _ (hg j hj), val_codeword _ (hg j hj), ← hw, ← hv] at h
    have e : ((diffs w v).map fun e => (a ^ e) ^ j) = (diffs w v).map ((a ^ j) ^ ·) :=
      List.map_congr_left fun e _ => by rw [← pow_mul, ← pow_mul, mul_comm]
    rw [e, ← h]
    linear_combination val (a ^ j) erasedShift * two
  have dbl : ∀ j, ((diffs w v).map fun e => (a ^ e) ^ j).sum = 0 →
      ((diffs w v).map fun e => (a ^ e) ^ (2 * j)).sum = 0 := by
    intro j h
    have e : ((diffs w v).map fun e => (a ^ e) ^ (2 * j)) = ((diffs w v).map fun e => (a ^ e) ^ j).map (· ^ 2) := by
      rw [List.map_map]; exact List.map_congr_left fun e _ => by simp only [Function.comp]; rw [mul_comm, pow_mul]
    rw [e, sum_sq, h]; ring
  have all : ∀ j, 1 ≤ j → j ≤ 8 → ((diffs w v).map fun e => (a ^ e) ^ j).sum = 0 := by
    intro j h1 h8
    have o1 := odd 1 (by decide)
    have o3 := odd 3 (by decide)
    have o5 := odd 5 (by decide)
    have o7 := odd 7 (by decide)
    have o2 := dbl 1 o1
    have o4 := dbl 2 o2
    have : j = 1 ∨ j = 2 ∨ j = 3 ∨ j = 4 ∨ j = 5 ∨ j = 6 ∨ j = 7 ∨ j = 8 := by omega
    rcases this with rfl | rfl | rfl | rfl | rfl | rfl | rfl | rfl
    · exact o1
    · exact o2
    · exact o3
    · exact o4
    · exact o5
    · exact dbl 3 o3
    · exact o7
    · exact dbl 4 o4
  classical
  have inj : ∀ e ∈ diffs w v, ∀ f ∈ diffs w v, a ^ e = a ^ f → e = f := by
    intro e he f hf h
    have le := diffs_lt w v e he
    have lf := diffs_lt w v f hf
    exact pow_injOn_Iio_orderOf (by simp [horder]; omega) (by simp [horder]; omega) h
  let S := (diffs w v).toFinset.image (a ^ ·)
  have sums : ∀ j, ∑ x ∈ S, x ^ j = ((diffs w v).map fun e => (a ^ e) ^ j).sum := by
    intro j
    rw [Finset.sum_image (fun e he f hf h => inj e (by simpa using he) f (by simpa using hf) h),
      List.sum_toFinset _ (diffs_nodup w v)]
  have hS : S = ∅ := no_points S (by
      simp only [S, Finset.mem_image, not_exists, not_and]
      exact fun e _ h => pow_ne_zero e a0 h)
    ((Finset.card_image_le.trans (List.toFinset_card_le _)).trans (by omega)) (fun j h1 h8 => by rw [sums, all j h1 h8])
  have : diffs w v = [] := by simpa [S] using hS
  have hwv := diffs_nil w v (by rw [lw, lv]) this
  exact hne (bits_inj (List.append_inj_left (hw ▸ hv ▸ hwv) (by simp [bits_length, hc, hd])))

/-! ### Bit errors between byte lists -/

/-- Bits in which two bytes differ. -/
theorem diffs_byteBits : ∀ a b : Byte, (diffs (byteBits a) (byteBits b)).length =
    (List.range 8).countP fun i => a.getLsbD i != b.getLsbD i := by
  intro a b
  simp only [byteBits, show List.range 8 = [0, 1, 2, 3, 4, 5, 6, 7] from rfl, List.map_cons,
    List.map_nil, diffs, List.countP_cons,
    List.countP_nil]
  generalize a.getLsbD 0 = a0, a.getLsbD 1 = a1, a.getLsbD 2 = a2, a.getLsbD 3 = a3, a.getLsbD 4 = a4, a.getLsbD 5 = a5,
    a.getLsbD 6 = a6, a.getLsbD 7 = a7, b.getLsbD 0 = b0, b.getLsbD 1 = b1, b.getLsbD 2 = b2, b.getLsbD 3 = b3,
    b.getLsbD 4 = b4, b.getLsbD 5 = b5, b.getLsbD 6 = b6, b.getLsbD 7 = b7
  have one : ∀ (x y : Bool) (e : Nat) (l : List Nat),
      (if x = y then l else e :: l).length = l.length + if (x != y) = true then 1 else 0 := by
    intro x y e l
    cases x <;> cases y <;> simp
  simp only [one, List.length_nil]

theorem diffs_append : ∀ a b c d : List Bool, a.length = b.length → c.length = d.length →
    (diffs (a ++ c) (b ++ d)).length = (diffs a b).length + (diffs c d).length
  | [], [], c, d, _, _ => by simp [diffs]
  | [], _ :: _, _, _, h, _ => by simp at h
  | _ :: _, [], _, _, h, _ => by simp at h
  | x :: a, y :: b, c, d, h, h' => by
    have ih := diffs_append a b c d (by simpa using h) h'
    simp only [List.cons_append, diffs]
    split
    · exact ih
    · rw [List.length_cons, List.length_cons, ih]; omega

theorem diffs_bits : ∀ a b : List Byte, a.length = b.length → (diffs (bits a) (bits b)).length = bitErrors a b
  | [], [], _ => rfl
  | [], _ :: _, h => by simp at h
  | _ :: _, [], h => by simp at h
  | x :: a, y :: b, h => by
    have h' : a.length = b.length := by simpa using h
    show (diffs (byteBits x ++ bits a) (byteBits y ++ bits b)).length = _
    rw [diffs_append _ _ _ _ (by simp [byteBits_length]) (by rw [bits_length, bits_length, h']), diffs_byteBits,
      diffs_bits a b h', bitErrors]

theorem bitErrors_comm : ∀ a b : List Byte, bitErrors a b = bitErrors b a
  | [], [] => rfl
  | [], _ :: _ => rfl
  | _ :: _, [] => rfl
  | x :: a, y :: b => by
    rw [bitErrors, bitErrors, bitErrors_comm a b]
    congr 1
    exact List.countP_congr fun i _ => by simp [bne_comm]

theorem bitErrors_triangle : ∀ a b c : List Byte, a.length = b.length → b.length = c.length →
    bitErrors a c ≤ bitErrors a b + bitErrors b c
  | [], [], [], _, _ => by simp [bitErrors]
  | x :: a, y :: b, z :: c, h, h' => by
    have ih := bitErrors_triangle a b c (by simpa using h) (by simpa using h')
    have byte : ∀ l : List Nat, (l.countP fun i => x.getLsbD i != z.getLsbD i) ≤
        (l.countP fun i => x.getLsbD i != y.getLsbD i) + l.countP fun i => y.getLsbD i != z.getLsbD i := by
      intro l
      induction l with
      | nil => simp
      | cons i t ih =>
        simp only [List.countP_cons]
        have : ∀ p q r : Bool, (if (p != r) = true then 1 else 0) ≤
          (if (p != q) = true then 1 else 0) + if (q != r) = true then 1 else 0 := by decide
        have := this (x.getLsbD i) (y.getLsbD i) (z.getLsbD i)
        omega
    have := byte (List.range 8)
    simp only [bitErrors]
    omega
  | [], [], _ :: _, _, h => by simp at h
  | [], _ :: _, _, h, _ => by simp at h
  | _ :: _, [], _, h, _ => by simp at h
  | _ :: _, _ :: _, [], _, h => by simp at h

/-- Two chunks whose codewords are both within four bit errors of the same bytes are the same. -/
theorem unique (c d r : List Byte) (hc : c.length = 512) (hd : d.length = 512) (hr : r.length = 520)
    (h1 : bitErrors r (c ++ parity c) ≤ 4) (h2 : bitErrors r (d ++ parity d) ≤ 4) : c = d := by
  by_contra hne
  have hf := far c d hc hd hne
  have lc := (bits_parity c).2
  have ld := (bits_parity d).2
  have e : bits c ++ bits (parity c) = bits (c ++ parity c) := by simp [bits]
  have e' : bits d ++ bits (parity d) = bits (d ++ parity d) := by simp [bits]
  rw [e, e', diffs_bits _ _ (by simp [lc, ld, hc, hd])] at hf
  have t := bitErrors_triangle (c ++ parity c) r (d ++ parity d) (by simp [lc, hc, hr]) (by simp [ld, hd, hr])
  rw [bitErrors_comm (c ++ parity c) r] at t
  omega

theorem parity_length (c : List Byte) : (parity c).length = 8 := (bits_parity c).2

/-- The parity of an erased chunk is eight bytes of 0xFF. -/
theorem parity_erased : parity (List.replicate 512 0xFF) = List.replicate 8 0xFF := by
  have hb : bits (List.replicate 512 0xFF) = List.replicate 4096 true := by
    have : ∀ n, bits (List.replicate n 0xFF) = List.replicate (8 * n) true := by
      intro n
      induction n with
      | zero => rfl
      | succ n ih =>
        show byteBits 0xFF ++ bits (List.replicate n 0xFF) = _
        rw [ih, show byteBits 0xFF = List.replicate 8 true from rfl, ← List.replicate_add, Nat.mul_add, Nat.add_comm]
    exact this 512
  have cancel : ∀ a b : List Bool, a.length = b.length → xorBits a (xorBits a b) = b := by
    intro a
    induction a with
    | nil => intro b h; exact (List.eq_nil_of_length_eq_zero h.symm).symm ▸ rfl
    | cons x a ih =>
      intro b h
      obtain ⟨y, b, rfl⟩ := List.exists_cons_of_length_pos (l := b) (by rw [← h]; simp)
      have := ih b (by simpa using h)
      simp only [xorBits, List.zipWith_cons_cons] at this ⊢
      rw [this]; simp
  rw [parity, hb, erasedShift, cancel _ _ (by rw [remainder_length]; rfl)]
  rfl

/-- A chunk of 512 bytes by number. -/
def chunkOf : Nat → Nat → List Byte
  | 0, _ => []
  | k + 1, n => BitVec.ofNat 8 n :: chunkOf k (n / 256)

theorem chunkOf_all : ∀ (c : List Byte), ∃ n < 256 ^ c.length, chunkOf c.length n = c
  | [] => ⟨0, by simp, rfl⟩
  | b :: c => by
    obtain ⟨n, hn, h⟩ := chunkOf_all c
    refine ⟨b.toNat + 256 * n, ?_, ?_⟩
    · have := b.isLt
      rw [List.length_cons, pow_succ]
      omega
    · show BitVec.ofNat 8 _ :: chunkOf c.length _ = _
      have hb := b.isLt
      have e : (b.toNat + 256 * n) / 256 = n := by omega
      rw [e, h]
      congr 1
      apply BitVec.eq_of_toNat_eq
      simp only [BitVec.toNat_ofNat]
      omega

/-- The largest number below a bound with a property. -/
def firstBelow (p : Nat → Bool) : Nat → Option Nat
  | 0 => none
  | n + 1 => if p n then some n else firstBelow p n

theorem firstBelow_spec (p : Nat → Bool) :
    ∀ b, (∃ n < b, p n = true) → ∃ n, firstBelow p b = some n ∧ p n = true
  | 0, ⟨_, h, _⟩ => absurd h (by simp)
  | b + 1, ⟨n, h, hp⟩ => by
    unfold firstBelow
    split
    · next hb => exact ⟨b, rfl, hb⟩
    · next hb =>
      refine firstBelow_spec p b ⟨n, ?_, hp⟩
      rcases Nat.lt_succ_iff_lt_or_eq.1 h with h | rfl
      · exact h
      · exact absurd hp hb

/-- The codeword's data within four bit errors of a chunk and its parity as read, where there is one. -/
def nearest (d p : List Byte) : List Byte :=
  match firstBelow (fun n =>
      decide (bitErrors (d ++ p) (chunkOf d.length n ++ parity (chunkOf d.length n)) ≤ 4)) (256 ^ d.length) with
  | some n => chunkOf d.length n
  | none => d

theorem chunkOf_length : ∀ k n, (chunkOf k n).length = k
  | 0, _ => rfl
  | k + 1, n => by simp [chunkOf, chunkOf_length k]

theorem nearest_corrects (c d p : List Byte) (hc : c.length = 512) (hd : d.length = 512) (hp : p.length = 8)
    (h : bitErrors (d ++ p) (c ++ parity c) ≤ 4) : nearest d p = c := by
  obtain ⟨n, hn, e⟩ := chunkOf_all c
  have hl : d.length = c.length := by rw [hc, hd]
  obtain ⟨m, hm, hq⟩ := firstBelow_spec
    (fun n => decide (bitErrors (d ++ p) (chunkOf d.length n ++ parity (chunkOf d.length n)) ≤ 4)) (256 ^ d.length)
    ⟨n, by rw [hl]; exact hn, by rw [decide_eq_true_eq, hl, e]; exact h⟩
  have hq' := of_decide_eq_true hq
  rw [nearest, hm]
  exact unique _ _ (d ++ p) (by rw [chunkOf_length, hd]) hc (by simp [hd, hp]) hq' h

end Sys2Proof.Bch
end

