-- ==== Sys2Proof/Config.lean ====
section
/-!
DEFINITION. What the manual leaves open: the free values of the model. Each is a constant without a body, so no proof
can see what it is, beyond what the manual says of it.
-/
namespace Sys2Proof.Config

/-- What R79 and R80 say of the code: eight parity bytes for a chunk, all 0xFF for a chunk of 512 bytes of 0xFF, and a decoder
that finds the chunk again from the 520 bytes of its codeword with up to four bit errors anywhere in them. The default values,
a code of this strength in Sys2Proof/Laws/EccCode.lean, only show that the type has an element. -/
structure EccCode where
  parity : List Byte → List Byte := Bch.parity
  nearest : List Byte → List Byte → List Byte := Bch.nearest
  eight : ∀ c, (parity c).length = 8 := by exact Bch.parity_length
  erased : parity (List.replicate 512 0xFF) = List.replicate 8 0xFF := by exact Bch.parity_erased
  corrects : ∀ c d p, c.length = 512 → d.length = 512 → p.length = 8 → bitErrors (d ++ p) (c ++ parity c) ≤ 4 →
    nearest d p = c := by exact Bch.nearest_corrects
deriving Inhabited

/-- The part's code. R79 gives the strength of the code and the parity of an erased chunk, not the code: which of the codes of
that strength it is stays free (log 2). -/
opaque eccCode : EccCode

/-- The epoch a FORMAT writes when the previous epoch is already 2^32 − 1. R95 bounds the epoch and R171 only says
"the previous epoch + 1" (log 16). The argument is the number of free values drawn before. -/
opaque epochPastMax : Nat → BitVec 32

end Sys2Proof.Config
end

