-- ==== Sys2Proof/Machine/State.lean ====
section
/-!
DEFINITION. The state of the EK-112, block by block (00 1.2), as plain data, and its value after a power-on reset.
-/
namespace Sys2Proof.Machine

/-- Exchange memory bytes that are not 0, by offset, in rising order (log 27). -/
abbrev Memory := List Host.Cell

/-- A card index, 0 to 127. -/
abbrev CardIx := Fin 128

/-- Bytes 1 to 31 of a card as copied at take (R19). -/
abbrev Work := List Byte

/-- The six mark fields under the snapshot latch (R5). -/
inductive MarkField where
  | nextSeq
  | durableMark
  | oldestSeq
  | trimPoint
  | discardFirst
  | discardLast
deriving DecidableEq, Repr

/-- The snapshot latch: the field it names, if any, and the latched bytes 4 to 7 (R5). -/
structure SnapLatch where
  field : Option MarkField
  value : Word
deriving DecidableEq, Repr

/-- Exchange Port (R1 to R16, R20 to R22). -/
structure Xp where
  mem      : Memory
  answered : BitVec 128
  latch    : SnapLatch
  run      : Bool
  linger   : Byte
  events   : Byte
  enable   : BitVec 9
  lineMap  : BitVec 18
  slips    : Word
  portData : Word
deriving DecidableEq, Repr

/-- Card Intake: the three path queues, oldest post first (R18). -/
structure Ci where
  append  : List CardIx
  query   : List CardIx
  control : List CardIx
deriving DecidableEq, Repr

/-- The paths (00 5). -/
inductive CardPath where
  | append
  | query
  | control
deriving DecidableEq, Repr

/-- Outcomes of 11.2.1. -/
inductive CardOutcome where
  | done
  | badKind
  | badCard
  | badRecord
  | keyOrder
  | seqLimit
  | archiveFull
  | readOnly
  | unformatted
  | tagInUse
  | noHoldSlot
  | notHeld
  | gone
  | stopped
  | abortedFormat
  | faulted
deriving DecidableEq, Repr

/-- The result fields of an answer, but for durable_mark, which the RP supplies as it stands (R20). -/
structure Answer where
  outcome : CardOutcome
  flags   : Byte := 0
  count   : Nat := 0
  seq1    : Nat := 0
  seq2    : Nat := 0
  word    : Nat := 0
deriving DecidableEq, Repr

/-- What a served APPEND card waits for (R42, R46). -/
inductive RpWait where
  | staging
  | buffer
  | space
deriving DecidableEq, Repr

/-- The served APPEND card: work record, records staged, first and last sequence given, span offset of the next
descriptor (R25, R39). -/
structure RpServed where
  card   : CardIx
  work   : Work
  staged : Nat
  first  : Nat
  last   : Nat
  offset : Nat
  wait   : RpWait
deriving DecidableEq, Repr

/-- Buffer states (R41). -/
inductive BufState where
  | empty
  | filling
  | closed
  | inFlight
deriving DecidableEq, Repr

/-- A staged record: its sequence, its key and its stored image (R27). -/
structure StagedRec where
  seq   : Nat
  key   : Nat
  image : List Byte
deriving DecidableEq, Repr

/-- A row of a segment. -/
structure Dest where
  seg : Nat
  row : Nat
deriving DecidableEq, Repr

/-- A row buffer (R41). Its fill is the sum of its images. -/
structure RowBuffer where
  state   : BufState
  records : List StagedRec
  dest    : Option Dest
deriving DecidableEq, Repr

/-- The names of the two row buffers. -/
inductive BufName where
  | a
  | b
deriving DecidableEq, Repr

/-- The open segment and the next row index to give out (R43). -/
structure OpenSeg where
  seg     : Nat
  nextRow : Nat
deriving DecidableEq, Repr

/-- An entry of the row map (R49). -/
structure RowMapEntry where
  row      : Nat
  firstSeq : Nat
  firstKey : Nat
  count    : Nat
deriving DecidableEq, Repr

/-- A digest entry (R98). -/
structure DigestEntry where
  firstSeq : Nat
  firstKey : Nat
  count    : Nat
deriving DecidableEq, Repr

/-- A digest waiting in the pending digest slot (R51). -/
structure DigestJob where
  seg     : Nat
  entries : List DigestEntry
deriving DecidableEq, Repr

/-- An entry of the durability wait list (R55), with the answer it gets when its target is reached. -/
structure WaitEntry where
  card   : CardIx
  work   : Work
  target : Nat
  answer : Answer
deriving DecidableEq, Repr

/-- The relocation record (R102). -/
structure Relocation where
  predecessor : Nat
  cutRow      : Nat
  firstSeq    : Nat
deriving DecidableEq, Repr

/-- Record Packer (R30 to R60, R102). -/
structure Rp where
  served       : Option RpServed
  bufA         : RowBuffer
  bufB         : RowBuffer
  openSeg      : Option OpenSeg
  rowMap       : List RowMapEntry
  digests      : List DigestJob
  lingerTimer  : Option Nat
  waitList     : List WaitEntry
  readOnly     : Bool
  fullSeen     : Bool
  nextSeq      : Nat
  keyHigh      : Nat
  durable      : Nat
  discardFirst : Nat
  discardLast  : Nat
  relocation   : Option Relocation
deriving DecidableEq, Repr

/-- The served query card (R119). -/
structure ArServed where
  card : CardIx
  work : Work
deriving DecidableEq, Repr

/-- The AR's position (R119). -/
structure ArPos where
  seg    : Nat
  row    : Nat
  offset : Nat
deriving DecidableEq, Repr

/-- A trailer scan (R127, R128): the row being read, the first row of the run of trailers that are not well-formed, if
the scan is reading ahead, and the nearest earlier record row with a well-formed trailer, as row, first and last
sequence. -/
structure ScanPos where
  row  : Nat
  bad  : Option Nat
  prev : Option (Nat × Nat × Nat)
deriving DecidableEq, Repr

/-- What the AR waits for: nothing; the RU's answer to a pin request, made at a start or on the way to the next member;
or the result of its one outstanding operation, which reads row 63 as a digest, scans trailers, or reads a chosen row. -/
inductive ArAct where
  | idle
  | awaitPin (seg : Nat) (next : Bool)
  | digest (next : Bool)
  | scan (pos : ScanPos)
  | row
deriving DecidableEq, Repr

/-- Archive Reader (R119). -/
structure Ar where
  served         : Option ArServed
  cursor         : Option Nat
  pos            : Option ArPos
  heldRow        : Option ReadRow
  heldDigest     : Option (List DigestEntry)
  rows           : List RowMapEntry
  destOff        : Nat
  count          : Nat
  first          : Nat
  damaged        : Nat
  flags          : Byte
  pin            : Option Nat
  act            : ArAct
  mark           : Nat
  expected       : Option Nat
  resync         : Bool
  damagedRecords : Word
  damagedRows    : Word
deriving DecidableEq, Repr

/-- A control-path card that stays served: a HOLD waiting for the RU, or a FORMAT (R140). -/
inductive CpJob where
  | hold
  | format
deriving DecidableEq, Repr

/-- The served control card (R140). -/
structure CpServed where
  card : CardIx
  work : Work
  job  : CpJob
deriving DecidableEq, Repr

/-- An entry of the hold table (R143). -/
structure Hold where
  active    : Bool
  tag       : Nat
  lowSeq    : Nat
  remaining : Nat
deriving DecidableEq, Repr

/-- Control Path (R140, R143, R148). -/
structure Cp where
  served    : Option CpServed
  trimPoint : Nat
  holds     : List Hold
  leaseMs   : Nat
deriving DecidableEq, Repr

/-- Segment states (R84); `opened` is OPEN. -/
inductive SegState where
  | free
  | opened
  | full
  | short
  | erasing
  | retired
  | unclean
  | stale
deriving DecidableEq, Repr

/-- Retire causes (R83). -/
inductive RetireCause where
  | noCause
  | factory
  | program
  | erase
  | mark
  | found
deriving DecidableEq, Repr

/-- Retention modes (R139). -/
inductive Retention where
  | wrap
  | keep
deriving DecidableEq, Repr

/-- A catalog entry (R83). -/
structure Entry where
  state      : SegState
  firstSeq   : Nat
  lastSeq    : Nat
  firstKey   : Nat
  lastKey    : Nat
  openSerial : Nat
  rowsValid  : Nat
  hasDigest  : Bool
  retire     : Bool
  cause      : RetireCause
deriving DecidableEq, Repr

/-- The entry the probe builds: FREE, every number 0, both flags 0, no cause (R83). -/
def Entry.freed : Entry where
  state := .free
  firstSeq := 0
  lastSeq := 0
  firstKey := 0
  lastKey := 0
  openSerial := 0
  rowsValid := 0
  hasDigest := false
  retire := false
  cause := .noCause

/-- Catalog Unit (R83 to R95). The catalog lists, by rising segment id, the entries of present segments that differ from
`Entry.freed`; a present segment that is not listed has that entry (log 27). -/
structure Cu where
  catalog    : List (Nat × Entry)
  orderList  : List Nat
  freePool   : List Nat
  retired    : List Nat
  oldest     : Nat
  epoch      : Nat
  mode       : Retention
  nextSerial : Nat
deriving DecidableEq, Repr

/-- The RU's operation at the FS and its segment (R150). -/
inductive RuOp where
  | idle
  | erase (seg : Nat)
  | mark (seg : Nat)
deriving DecidableEq, Repr

/-- Reclaim Unit (R150). -/
structure Ru where
  op         : RuOp
  claim      : Option Nat
  superseded : List Nat
  heldPin    : Option Nat
  heldHold   : Option Nat
deriving DecidableEq, Repr

/-- The four sources that feed the die queues (R76). -/
inductive Source where
  | packer
  | reader
  | reclaim
  | engine
deriving DecidableEq, Repr

/-- The operations (R64). A mark carries the result of the erase before it, which decides the retire cause (R114). -/
inductive FlashAct where
  | probe (ce : Fin 4)
  | resetDie (ce : Fin 4)
  | readRow (seg row : Nat)
  | readTrailers (seg row : Nat)
  | programRow (seg row : Nat) (data spare0 spare1 : List Byte)
  | programMark (seg : Nat) (eraseFailed : Bool)
  | eraseSegment (seg : Nat)
deriving DecidableEq, Repr

/-- An entry of a die queue (R75). -/
structure FlashOp where
  source : Source
  act    : FlashAct
deriving DecidableEq, Repr

/-- Where the head of a die queue stands (R64, R78): its first phase pending at the arbiter, that phase on the bus, the
die busy, its last phase pending, or that phase on the bus. -/
inductive Stage where
  | idle
  | firstPending
  | first
  | busy
  | lastPending
  | last
deriving DecidableEq, Repr

/-- One chip enable at the FS: its queue, the stage of the head and its busy timer in microseconds (R72, R75). -/
structure Die where
  queue : List FlashOp
  stage : Stage
  timer : Option Nat
deriving DecidableEq, Repr

/-- Flash Sequencer (R63 to R82). -/
structure Fs where
  d0          : Die
  d1          : Die
  d2          : Die
  d3          : Die
  lastGranted : Fin 4
  mask        : BitVec 4
  corrected   : Word
  softResets  : List (Fin 4)
deriving DecidableEq, Repr

/-- Engine states (R174). -/
inductive EngineState where
  | halted
  | probing
  | mounting
  | unformatted
  | ready
  | formatting
  | stopping
  | faulted
deriving DecidableEq, Repr

/-- Fault causes (R174). -/
inductive FaultCause where
  | noCause
  | noMedia
  | dieTimeout
deriving DecidableEq, Repr

/-- The quiet flags, one for each report of R179. -/
structure QuietFlags where
  append  : Bool
  query   : Bool
  control : Bool
  reclaim : Bool
  flash   : Bool
deriving DecidableEq, Repr

/-- Procedure steps (R158); the last three are FORMAT's (R171, R172). -/
inductive ProcStep where
  | noStep
  | probe
  | scan
  | memberRead
  | erase
  | build
  | formatWait
  | formatErase
  | formatHeader
deriving DecidableEq, Repr

/-- A probe record (R158). -/
inductive ProbeRec where
  | pending
  | present
  | absent
deriving DecidableEq, Repr

/-- The probe records of CE0 to CE3. -/
structure ProbeRecs where
  c0 : ProbeRec
  c1 : ProbeRec
  c2 : ProbeRec
  c3 : ProbeRec
deriving DecidableEq, Repr

/-- The fields of a row trailer as read (R97). -/
structure Trailer where
  magic    : Nat
  epoch    : Nat
  row      : Nat
  count    : Nat
  firstSeq : Nat
  firstKey : Nat
  lastKey  : Nat
  fill     : Nat
  check    : Nat
deriving DecidableEq, Repr

/-- The fields of a segment header as read (R96). -/
structure Header where
  magic       : Nat
  epoch       : Nat
  openSerial  : Nat
  firstSeq    : Nat
  mode        : Nat
  cutRow      : Nat
  predecessor : Nat
  check       : Nat
deriving DecidableEq, Repr

/-- A candidate: segment id, header fields and row-0 trailer fields (R158, R161). -/
structure Candidate where
  seg     : Nat
  header  : Header
  trailer : Trailer
deriving DecidableEq, Repr

/-- How far the member reads of R164 and R165 have come for one member: row 63, then the trailer of row 62 (with the
digest entries if row 63 was accepted), then the scan of row r, or done. -/
inductive MemberProg where
  | digestRow
  | trailer62 (digest : Option (List DigestEntry))
  | scanRow (r : Nat)
  | done
deriving DecidableEq, Repr

/-- A member extent (R158): row limit and retire_on_reclaim of R163, extent of R164 and R165. `keys` is none while no key
was set. -/
structure Member where
  seg       : Nat
  header    : Header
  limit     : Nat
  retire    : Bool
  rowsValid : Nat
  lastSeq   : Nat
  keys      : Option (Nat × Nat)
  full      : Bool
  prog      : MemberProg
deriving DecidableEq, Repr

/-- Engine Control (R158, R174). -/
structure Ec where
  engine      : EngineState
  cause       : FaultCause
  stopPending : Bool
  quiet       : QuietFlags
  loaded      : Bool
  step        : ProcStep
  probeRec    : ProbeRecs
  candidates  : List Candidate
  scanHeld    : List Candidate
  members     : List Member
  eraseList   : List Nat
  orphans     : Word
deriving DecidableEq, Repr

/-- The state of the part, with the queue of waiting commands, the level of the RESET pin and the model's counter of
free values drawn (log 16). -/
structure State where
  pending  : List Instr
  resetPin : Bool
  draws    : Nat
  xp       : Xp
  ci       : Ci
  rp       : Rp
  ar       : Ar
  cp       : Cp
  cu       : Cu
  ru       : Ru
  fs       : Fs
  ec       : Ec
deriving DecidableEq, Repr

/-- The spec gives the block no stop: every access completes (R1), a refused card is answered (R20), and FAULTED is an
engine state with its own rules (R181). Nothing raises a fault, so the type has no constructor. -/
inductive Fault where
deriving DecidableEq, Repr

/-- Reasons a command has no meaning. -/
inductive Refusal where
  /-- Raised by an arm of `exec` whose command has no meaning yet; safe, since the model then stops where the part goes
  on. No arm raises it now. -/
  | notModelled (mnemonic : String)
deriving DecidableEq, Repr

/-- R23: exchange memory zero, map empty, latch and registers 0. portData is the model's choice (log 17). -/
def Xp.reset : Xp where
  mem := []
  answered := 0
  latch := { field := none, value := 0 }
  run := false
  linger := 0
  events := 0
  enable := 0
  lineMap := 0
  slips := 0
  portData := 0

/-- R18: the queues are empty. -/
def Ci.reset : Ci where
  append := []
  query := []
  control := []

/-- R41: EMPTY, no records, no destination. -/
def RowBuffer.cleared : RowBuffer where
  state := .empty
  records := []
  dest := none

/-- R60, "any reset". -/
def Rp.reset : Rp where
  served := none
  bufA := .cleared
  bufB := .cleared
  openSeg := none
  rowMap := []
  digests := []
  lingerTimer := none
  waitList := []
  readOnly := false
  fullSeen := false
  nextSeq := 0
  keyHigh := 0
  durable := 0
  discardFirst := 0
  discardLast := 0
  relocation := none

/-- R119, "after every reset". -/
def Ar.reset : Ar where
  served := none
  cursor := none
  pos := none
  heldRow := none
  heldDigest := none
  rows := []
  destOff := 0
  count := 0
  first := 0
  damaged := 0
  flags := 0
  pin := none
  act := .idle
  mark := 0
  expected := none
  resync := false
  damagedRecords := 0
  damagedRows := 0

/-- R143: a FREE entry has every other field 0. -/
def Hold.freed : Hold where
  active := false
  tag := 0
  lowSeq := 0
  remaining := 0

/-- R143, R148, R183: every entry FREE, trim_point 0, lease clock at 1000 ms. -/
def Cp.reset : Cp where
  served := none
  trimPoint := 0
  holds := List.replicate 8 Hold.freed
  leaseMs := 1000

/-- R83, R95, R183: no entries, empty collections, epoch 0, WRAP, next open serial 0. -/
def Cu.reset : Cu where
  catalog := []
  orderList := []
  freePool := []
  retired := []
  oldest := 0
  epoch := 0
  mode := .wrap
  nextSerial := 0

/-- R150, "after every reset". -/
def Ru.reset : Ru where
  op := .idle
  claim := none
  superseded := []
  heldPin := none
  heldHold := none

/-- R72, R75: an empty queue, no phase, the timer stopped. -/
def Die.cleared : Die where
  queue := []
  stage := .idle
  timer := none

/-- R82: queues empty, last-granted pointer at CE3, mask and corrected_chunks 0. -/
def Fs.reset : Fs where
  d0 := .cleared
  d1 := .cleared
  d2 := .cleared
  d3 := .cleared
  lastGranted := 3
  mask := 0
  corrected := 0
  softResets := []

/-- R179: all flags clear. -/
def QuietFlags.clear : QuietFlags where
  append := false
  query := false
  control := false
  reclaim := false
  flash := false

/-- R158: all pending. -/
def ProbeRecs.allPending : ProbeRecs where
  c0 := .pending
  c1 := .pending
  c2 := .pending
  c3 := .pending

/-- R158, R174: HALTED, no cause, nothing pending, lists empty. -/
def Ec.reset : Ec where
  engine := .halted
  cause := .noCause
  stopPending := false
  quiet := .clear
  loaded := false
  step := .noStep
  probeRec := .allPending
  candidates := []
  scanHeld := []
  members := []
  eraseList := []
  orphans := 0

/-- The part right after a power-on reset (R184), with the RESET pin released (log 6) and no command waiting. -/
def State.reset : State where
  pending := []
  resetPin := false
  draws := 0
  xp := .reset
  ci := .reset
  rp := .reset
  ar := .reset
  cp := .reset
  cu := .reset
  ru := .reset
  fs := .reset
  ec := .reset

end Sys2Proof.Machine
end

