-- ==== Sys2Proof/Machine/Operands.lean ====
section
/-!
DEFINITION. How the part reads and builds its byte layouts: little-endian fields, cards (11.2), host and stored records
(11.4), CRC-16 (R28), ECC (R80), row trailers, segment headers and digests (11.5), and the numbers of the medium's geometry.
-/
namespace Sys2Proof.Machine

/-! ### Little-endian fields (00 3.1) -/

/-- The number a little-endian byte list holds. -/
def leNat : List Byte → Nat
  | [] => 0
  | b :: bs => b.toNat + 256 * leNat bs

/-- The `n` bytes of a number, lowest first. -/
def leBytes : Nat → Nat → List Byte
  | 0, _ => []
  | n + 1, v => BitVec.ofNat 8 v :: leBytes n (v / 256)

/-- The `size`-byte field at offset `off` of a structure. -/
def field (bs : List Byte) (off size : Nat) : Nat := leNat ((bs.drop off).take size)

/-- `n` bytes of 0xFF. -/
def erased (n : Nat) : List Byte := List.replicate n 0xFF

/-- A length rounded up to a multiple of 4 (R25, R27). -/
def pad4 (n : Nat) : Nat := (n + 3) / 4 * 4

/-- 2^48 − 1, the highest sequence (R32). -/
def maxSeq : Nat := 281474976710655

/-- 2^32 − 1. -/
def max32 : Nat := 4294967295

/-! ### CRC-16 (R28) -/

/-- One bit of the CRC register: generator 0x1021, most significant bit first. -/
def crcBit (c : BitVec 16) : BitVec 16 := if c.msb then (c <<< 1) ^^^ 0x1021 else c <<< 1

/-- One byte into the CRC register. -/
def crcByte (c : BitVec 16) (b : Byte) : BitVec 16 :=
  crcBit (crcBit (crcBit (crcBit (crcBit (crcBit (crcBit (crcBit (c ^^^ (b.setWidth 16 <<< 8)))))))))

/-- CRC-16 from 0xFFFF, without reflection or final inversion. -/
def crc16 (bs : List Byte) : Nat := (bs.foldl crcByte 0xFFFF).toNat

/-! ### Cards (11.2) -/

/-- The nine kinds (11.2.1). -/
inductive Kind where
  | append
  | flush
  | readSeq
  | readKey
  | hold
  | release
  | trim
  | census
  | format
deriving DecidableEq, Repr

/-- Kind codes (11.2.1). -/
def Kind.ofCode (b : Byte) : Option Kind :=
  if b = 0x01 then some .append
  else if b = 0x02 then some .flush
  else if b = 0x10 then some .readSeq
  else if b = 0x11 then some .readKey
  else if b = 0x20 then some .hold
  else if b = 0x21 then some .release
  else if b = 0x22 then some .trim
  else if b = 0x30 then some .census
  else if b = 0x31 then some .format
  else none

/-- The path of a kind (11.2.1). -/
def Kind.path : Kind → CardPath
  | .append => .append
  | .flush => .append
  | .readSeq => .query
  | .readKey => .query
  | .hold => .control
  | .release => .control
  | .trim => .control
  | .census => .control
  | .format => .control

/-- Outcome codes (11.2.1). -/
def CardOutcome.code : CardOutcome → Byte
  | .done => 0x01
  | .badKind => 0x10
  | .badCard => 0x11
  | .badRecord => 0x12
  | .keyOrder => 0x13
  | .seqLimit => 0x14
  | .archiveFull => 0x20
  | .readOnly => 0x21
  | .unformatted => 0x22
  | .tagInUse => 0x30
  | .noHoldSlot => 0x31
  | .notHeld => 0x32
  | .gone => 0x33
  | .stopped => 0x40
  | .abortedFormat => 0x41
  | .faulted => 0x42

/-- A field of a work record, at its offset in the card (a work record starts at card byte 1). -/
def Work.at (w : Work) (off size : Nat) : Nat := field w (off - 1) size

/-- Card byte 1. -/
def Work.kindByte (w : Work) : Byte := w.getD 0 0

/-- The kind, where the code is one of the nine. -/
def Work.kind (w : Work) : Option Kind := Kind.ofCode w.kindByte

/-- Card byte 4. -/
def Work.parcelFirst (w : Work) : Nat := Work.at w 4 1

/-- Card byte 5. -/
def Work.parcelCount (w : Work) : Nat := Work.at w 5 1

/-- Bit 0 of card byte 6: SYNC of an APPEND, RENEW of a HOLD. -/
def Work.flag0 (w : Work) : Bool := Work.at w 6 1 % 2 == 1

/-- Card byte 7. -/
def Work.reserved (w : Work) : Nat := Work.at w 7 1

/-- Argument A. -/
def Work.argA (w : Work) : Nat := Work.at w 8 8

/-- Argument B. -/
def Work.argB (w : Work) : Nat := Work.at w 16 8

/-- Argument C. -/
def Work.argC (w : Work) : Nat := Work.at w 24 4

/-- Argument D. -/
def Work.argD (w : Work) : Nat := Work.at w 28 4

/-- The parcel fields name no run of the parcel area (R38, R120, R185). -/
def Work.badRun (w : Work) : Bool :=
  decide (w.parcelCount = 0) || decide (110 < w.parcelFirst + w.parcelCount)

/-- Bytes in the parcel run. -/
def Work.span (w : Work) : Nat := 512 * w.parcelCount

/-- Offset in exchange memory of byte 0 of the parcel run. -/
def Work.runBase (w : Work) : Nat := 0x2400 + 512 * w.parcelFirst

/-- The checks of R19 that every path makes first. -/
def Work.fault (w : Work) (p : CardPath) : Option CardOutcome :=
  if w.kind.map Kind.path = some p then
    if w.reserved = 0 then none else some .badCard
  else some .badKind

/-- The result fields, card bytes 32 to 63 (11.2), with the durable_mark of the moment (R20). -/
def Answer.bytes (r : Answer) (durable : Nat) : List Byte :=
  r.outcome.code :: r.flags :: (leBytes 2 r.count ++ leBytes 8 r.seq1 ++ leBytes 8 r.seq2 ++ leBytes 4 r.word ++
    leBytes 8 durable)

/-! ### Records (11.4) -/

/-- A host record descriptor (11.4.1). -/
structure Descriptor where
  length   : Nat
  class_   : Nat
  reserved : Nat
  key      : Nat
deriving DecidableEq, Repr

/-- Read the eight descriptor bytes. -/
def Descriptor.parse (bs : List Byte) : Descriptor where
  length := field bs 0 2
  class_ := field bs 2 1
  reserved := field bs 3 1
  key := field bs 4 4

/-- Header bytes 0 to 13 of a stored record (11.4.2): flags 0. -/
def storedHead (length class_ key seq : Nat) : List Byte :=
  leBytes 2 length ++ leBytes 1 class_ ++ leBytes 1 0 ++ leBytes 4 key ++ leBytes 6 seq

/-- The stored image of R27: header with its check, payload, pad bytes 0x00. -/
def storedImage (class_ key seq : Nat) (payload : List Byte) : List Byte :=
  let head := storedHead payload.length class_ key seq
  head ++ leBytes 2 (crc16 (head ++ payload)) ++ payload ++
    List.replicate (pad4 payload.length - payload.length) 0x00

/-- Size of a stored image with the given payload length (2.2). -/
def imageSize (length : Nat) : Nat := 16 + pad4 length

/-- A stored record header as found in a row. -/
structure StoredHeader where
  length : Nat
  flags  : Nat
  key    : Nat
  seq    : Nat
  check  : Nat
deriving DecidableEq, Repr

/-- Read the 16 header bytes of a stored record. -/
def StoredHeader.parse (bs : List Byte) : StoredHeader where
  length := field bs 0 2
  flags := field bs 3 1
  key := field bs 4 4
  seq := field bs 8 6
  check := field bs 14 2

/-- R28: the stored record at the start of `bs` is intact. -/
def StoredHeader.intact (h : StoredHeader) (bs : List Byte) : Bool :=
  decide (h.length ≤ 4080) && decide (h.flags = 0) &&
    decide (crc16 (bs.take 14 ++ (bs.drop 16).take h.length) = h.check)

/-! ### Geometry (R61) -/

/-- The die of a segment. -/
def segDie (seg : Nat) : Fin 4 := Fin.ofNat 4 (seg / 2048)

/-- The block index of a segment on its die. -/
def segBlock (seg : Nat) : Nat := seg % 2048

/-! ### ECC (R79, R80) -/

/-- Parity of a 512-byte chunk: 0xFF for an erased chunk, otherwise what the part's code gives (R79, log 2). -/
def eccParity (chunk : List Byte) : List Byte :=
  if chunk.all (· == 0xFF) then erased 8 else Config.eccCode.parity chunk

/-- R80: status and data of a chunk, from its data and parity bytes as read. Up to four errors in the codeword, data or
parity, are corrected; with more the data stay as read. -/
def decodeChunk (chunk parity : List Byte) : ChunkStatus × List Byte :=
  if parity = eccParity chunk then (.clean, chunk)
  else
    let c := Config.eccCode.nearest chunk parity
    let n := bitErrors (chunk ++ parity) (c ++ eccParity c)
    if c.length = chunk.length ∧ 1 ≤ n ∧ n ≤ 4 then (.corrected n, c) else (.uncorrectable, chunk)

/-- The four chunks of a page, each decoded with its parity in spare bytes 32 + 8·k to 39 + 8·k (R79). -/
def decodePage (page : List Byte) : List (ChunkStatus × List Byte) :=
  [0, 1, 2, 3].map fun k => decodeChunk ((page.drop (512 * k)).take 512) ((page.drop (2080 + 8 * k)).take 8)

end Sys2Proof.Machine

namespace Sys2Proof

/-- R67, R80: the eight decoded chunks of a row, plane 0 first. -/
def ReadRow.decoded (r : ReadRow) : List (ChunkStatus × List Byte) :=
  Machine.decodePage r.page0 ++ Machine.decodePage r.page1

/-- The row data bytes handed to the requester, corrections applied (R67). -/
def ReadRow.data (r : ReadRow) : List Byte := r.decoded.flatMap Prod.snd

/-- The status of each chunk, in chunk order 0 to 7 (R67, R80). -/
def ReadRow.chunks (r : ReadRow) : List ChunkStatus := r.decoded.map Prod.fst

/-- Spare bytes 0 to 31 of the plane-0 page, as read (R67). -/
def ReadRow.spare0 (r : ReadRow) : List Byte := (r.page0.drop 2048).take 32

/-- Spare bytes 0 to 31 of the plane-1 page, as read (R67). -/
def ReadRow.spare1 (r : ReadRow) : List Byte := (r.page1.drop 2048).take 32

end Sys2Proof

namespace Sys2Proof.Machine

/-! ### Row trailers (R97, 11.5.1) -/

/-- Read the trailer fields from a plane-0 spare area (byte 0 is the marker position). -/
def Trailer.parse (sp : List Byte) : Trailer where
  magic := field sp 1 2
  epoch := field sp 3 4
  row := field sp 7 1
  count := field sp 8 2
  firstSeq := field sp 10 6
  firstKey := field sp 16 4
  lastKey := field sp 20 4
  fill := field sp 24 2
  check := field sp 26 2

/-- The fields fall in the record row column of R97. -/
def Trailer.recordColumn (t : Trailer) : Bool :=
  decide (t.row ≤ 62) && decide (1 ≤ t.count) && decide (t.count ≤ 256) && decide (1 ≤ t.firstSeq) &&
    decide (16 ≤ t.fill) && decide (t.fill ≤ 4096) && decide (16 * t.count ≤ t.fill) && decide (t.firstKey ≤ t.lastKey)

/-- The 25 trailer bytes before the row check (R97). -/
def trailerBody (epoch row count firstSeq firstKey lastKey fill : Nat) : List Byte :=
  leBytes 2 0x5E54 ++ leBytes 4 epoch ++ leBytes 1 row ++ leBytes 2 count ++ leBytes 6 firstSeq ++
    leBytes 4 firstKey ++ leBytes 4 lastKey ++ leBytes 2 fill

/-- The fields are those of the FORMAT header row column of R97, its row check over the trailer bytes alone included
(log 32). -/
def Trailer.headerColumn (t : Trailer) : Bool :=
  decide (t.row = 0) && decide (t.count = 0) && decide (t.firstSeq = 1) && decide (t.firstKey = 0) &&
    decide (t.lastKey = 0) && decide (t.fill = 0) &&
    decide (t.check = crc16 (trailerBody t.epoch t.row t.count t.firstSeq t.firstKey t.lastKey t.fill))

/-- The fields are those of the digest row column of R97. -/
def Trailer.digestColumn (t : Trailer) : Bool :=
  decide (t.row = 63) && decide (t.count = 0) && decide (t.firstSeq = 0) && decide (t.firstKey = 0) &&
    decide (t.lastKey = 0) && decide (t.fill = 756)

/-- Well-formed in the sense of R97, as read from row `row`. -/
def Trailer.wellFormed (t : Trailer) (row : Nat) : Bool :=
  decide (t.magic = 0x5E54) && decide (1 ≤ t.epoch) && decide (t.row = row) &&
    (t.recordColumn || t.headerColumn || t.digestColumn)

/-- The last sequence of a record row: first_seq + record count − 1 (R97). -/
def Trailer.lastSeq (t : Trailer) : Nat := t.firstSeq + t.count - 1

/-- The trailer of a READ_ROW result. -/
def rowTrailer (r : ReadRow) : Trailer := Trailer.parse r.spare0

/-- Verified in the sense of R97: well-formed, and the row check agrees over spare bytes 1 to 25 and the filled data. -/
def rowVerified (r : ReadRow) (row : Nat) : Bool :=
  (rowTrailer r).wellFormed row &&
    decide (crc16 ((r.spare0.drop 1).take 25 ++ r.data.take (rowTrailer r).fill) = (rowTrailer r).check)

/-- The 31 trailer bytes a requester hands over (R48, R97): 25 bytes, the row check, four bytes of 0xFF. -/
def trailerBytes (epoch row count firstSeq firstKey lastKey fill : Nat) (data : List Byte) : List Byte :=
  let body := trailerBody epoch row count firstSeq firstKey lastKey fill
  body ++ leBytes 2 (crc16 (body ++ data.take fill)) ++ erased 4

/-! ### Segment headers (R96, 11.5.2) -/

/-- Mode codes (R139). -/
def Retention.code : Retention → Nat
  | .wrap => 0
  | .keep => 1

/-- The mode a code names; the checks of R96 and R170 admit 0 and 1 only. -/
def Retention.ofCode (n : Nat) : Retention := if n = 1 then .keep else .wrap

/-- Read the header fields from a plane-1 spare area. -/
def Header.parse (sp : List Byte) : Header where
  magic := field sp 1 2
  epoch := field sp 3 4
  openSerial := field sp 7 4
  firstSeq := field sp 11 6
  mode := field sp 17 1
  cutRow := field sp 18 1
  predecessor := field sp 19 2
  check := field sp 21 2

/-- The header carries no cut. -/
def Header.noCut (h : Header) : Bool := decide (h.cutRow = 0xFF) && decide (h.predecessor = 0xFFFF)

/-- The header carries a cut of another segment (R96). -/
def Header.hasCut (h : Header) (own : Nat) : Bool :=
  decide (h.cutRow ≤ 62) && decide (h.predecessor ≤ 8191) && decide (h.predecessor ≠ own)

/-- The header read from segment `own` is valid (R96); its check is over spare bytes 1 to 20. -/
def headerValid (sp : List Byte) (own : Nat) : Bool :=
  let h := Header.parse sp
  decide (h.magic = 0x5E48) && decide (crc16 ((sp.drop 1).take 20) = h.check) && decide (1 ≤ h.epoch) &&
    decide (1 ≤ h.openSerial) && decide (1 ≤ h.firstSeq) && decide (h.mode ≤ 1) && (h.noCut || h.hasCut own)

/-- The 31 header bytes a requester hands over (R48, R96): 20 bytes, the header check, nine bytes of 0xFF. -/
def headerBytes (epoch serial firstSeq : Nat) (mode : Retention) (cutRow predecessor : Nat) : List Byte :=
  let body := leBytes 2 0x5E48 ++ leBytes 4 epoch ++ leBytes 4 serial ++ leBytes 6 firstSeq ++
    leBytes 1 mode.code ++ leBytes 1 cutRow ++ leBytes 2 predecessor
  body ++ leBytes 2 (crc16 body) ++ erased 9

/-! ### Digests (R98, 11.5.3) -/

/-- The 12 bytes of an entry. -/
def DigestEntry.bytes (e : DigestEntry) : List Byte := leBytes 6 e.firstSeq ++ leBytes 4 e.firstKey ++ leBytes 2 e.count

/-- The 63 entries of a digest row's data. -/
def digestEntries (data : List Byte) : List DigestEntry :=
  (List.range 63).map fun i =>
    { firstSeq := field data (12 * i) 6, firstKey := field data (12 * i + 6) 4, count := field data (12 * i + 10) 2 }

/-- Each entry's first_seq is the one before's plus its record count (R125, R164). -/
def digestChain : List DigestEntry → Bool
  | [] => true
  | [_] => true
  | e :: f :: t => decide (f.firstSeq = e.firstSeq + e.count) && digestChain (f :: t)

/-- The row-63 trailer is verified with the fields R125 and R164 ask for, under epoch `epoch`. -/
def digestRowVerified (r : ReadRow) (epoch : Nat) : Bool :=
  rowVerified r 63 && decide ((rowTrailer r).epoch = epoch) && decide ((rowTrailer r).count = 0) && decide ((rowTrailer r).fill = 756)

/-- The data of a digest row: 756 bytes of entries, the rest 0xFF (R51). -/
def digestData (es : List DigestEntry) : List Byte :=
  (es.flatMap DigestEntry.bytes) ++ erased (4096 - 12 * es.length)

/-! ### Page images (R61, R62, R69, R70, R79): what a load phase puts on the flash bus -/

/-- A page image: 2048 data bytes, spare byte 0 of 0xFF, 31 spare bytes, the parity of page chunks 0 to 3. -/
def pageImage (data spare : List Byte) : List Byte :=
  data ++ erased 1 ++ spare ++ eccParity (data.take 512) ++ eccParity ((data.drop 512).take 512) ++
    eccParity ((data.drop 1024).take 512) ++ eccParity ((data.drop 1536).take 512)

/-- The plane-0 image of a retire mark (R70): spare bytes 1 and 2 are 0x00, every other byte 0xFF, no parity. -/
def markImage : List Byte := erased 2049 ++ [0x00, 0x00] ++ erased 61

/-- The bytes an operation's load phase transfers, plane 0 first (R69, R70). -/
def FlashAct.loadImage : FlashAct → List Byte
  | .programRow _ _ data sp0 sp1 => pageImage (data.take 2048) sp0 ++ pageImage (data.drop 2048) sp1
  | .programMark _ _ => markImage
  | .probe _ => []
  | .resetDie _ => []
  | .readRow _ _ => []
  | .readTrailers _ _ => []
  | .eraseSegment _ => []

end Sys2Proof.Machine
end

