-- ==== Sys2Proof/Machine/Flags.lean ====
section
/-!
DEFINITION. Status the part computes from its state: event bits (R10), attention lines (R12), the registers as they read
(R8, R9, R11, 11.3), and the anchor block as it reads (R4, R6, 11.1). The output pins are in Machine/Pins.lean.
-/
namespace Sys2Proof.Machine

/-- The eight events, in EVENTS bit order (11.3). -/
inductive Event where
  | mounted
  | unformatted
  | fault
  | readOnly
  | holdExpired
  | slip
  | archiveFull
  | stopped
deriving DecidableEq, Repr

/-- The EVENTS byte with only this event's bit (11.3). -/
def Event.mask : Event → Byte
  | .mounted => 0x01
  | .unformatted => 0x02
  | .fault => 0x04
  | .readOnly => 0x08
  | .holdExpired => 0x10
  | .slip => 0x20
  | .archiveFull => 0x40
  | .stopped => 0x80

/-- A set request taken at EVENTS: the bit becomes or stays 1 (R10). -/
def setEvent (e : Event) (s : State) : State :=
  { s with xp := { s.xp with events := s.xp.events ||| e.mask } }

/-! ### Attention lines (R12) -/

/-- Source `n` is true: an EVENTS bit for n below 8, ANSWERS for n = 8. -/
def Xp.source (x : Xp) (n : Nat) : Bool := if n = 8 then x.answered != 0 else x.events.getLsbD n

/-- The route of source `n` names the line: `bit` is 0 for ATTN_A, 1 for ATTN_B (R11). -/
def Xp.routed (x : Xp) (bit n : Nat) : Bool := x.lineMap.getLsbD (2 * n + bit)

/-- A line is asserted while some source is true, enabled and routed to it. -/
def Xp.line (x : Xp) (bit : Nat) : Bool :=
  (List.range 9).any fun n => x.source n && x.enable.getLsbD n && x.routed bit n

/-- ATTN_A. -/
def Xp.attnA (x : Xp) : Bool := x.line 0

/-- ATTN_B. -/
def Xp.attnB (x : Xp) : Bool := x.line 1

/-! ### Registers (11.3) -/

/-- Engine state codes. -/
def EngineState.code : EngineState → Nat
  | .halted => 0
  | .probing => 1
  | .mounting => 2
  | .unformatted => 3
  | .ready => 4
  | .formatting => 5
  | .stopping => 6
  | .faulted => 7

/-- Fault cause codes. -/
def FaultCause.code : FaultCause → Nat
  | .noCause => 0
  | .noMedia => 1
  | .dieTimeout => 2

/-- A flag as a number. -/
def bit01 (b : Bool) : Nat := if b then 1 else 0

/-- ENGINE (R8): engine state, fault cause, retention mode, read-only flag, dies-present mask. -/
def engineReg (s : State) : Nat :=
  s.ec.engine.code + 16 * s.ec.cause.code + 256 * s.cu.mode.code + 512 * bit01 s.rp.readOnly +
    65536 * s.fs.mask.toNat

/-- CONTROL (R9): RUN and LINGER; SOFT_RESET reads 0. -/
def controlReg (x : Xp) : Nat := bit01 x.run + 256 * x.linger.toNat

/-- IDENT (R8, 11.3): vendor 0x4D44, part 0x70, revision 0x01. -/
def identReg : Nat := 0x4D447001

/-- The bytes of the six registers, from offset 0x10000 (R7). -/
def registerBytes (s : State) : List Byte :=
  leBytes 4 identReg ++ leBytes 4 (controlReg s.xp) ++ leBytes 4 (engineReg s) ++ leBytes 4 s.xp.events.toNat ++
    leBytes 4 s.xp.enable.toNat ++ leBytes 4 s.xp.lineMap.toNat

/-! ### The anchor block (R4, R6, 11.1) -/

/-- The archive flags byte (R6). -/
def archiveFlags (s : State) : Nat := bit01 s.rp.readOnly + 2 * bit01 s.rp.fullSeen + 4 * bit01 s.ec.loaded

/-- Value of a mark, from its owner. -/
def markOwned (s : State) : MarkField → Nat
  | .nextSeq => s.rp.nextSeq
  | .durableMark => s.rp.durable
  | .oldestSeq => s.cu.oldest
  | .trimPoint => s.cp.trimPoint
  | .discardFirst => s.rp.discardFirst
  | .discardLast => s.rp.discardLast

/-- What an 8-byte field shows of a mark: the 48-bit value in the lower six bytes, the upper two zero (R4, 11). A next_seq
of 2^48 (R32), for which the spec gives no six bytes, shows as 0, its low 48 bits: the model's choice (log 33). -/
def shown48 (v : Nat) : Nat := v % 281474976710656

/-- Value a mark field of the anchor block shows (R4). -/
def markValue (s : State) (f : MarkField) : Nat := shown48 (markOwned s f)

/-- Offset of a mark field (11.1). -/
def MarkField.offset : MarkField → Nat
  | .nextSeq => 0x20
  | .durableMark => 0x28
  | .oldestSeq => 0x30
  | .trimPoint => 0x38
  | .discardFirst => 0x40
  | .discardLast => 0x48

/-- The mark field whose byte 0 lies at an offset, if any. -/
def MarkField.ofOffset (off : Nat) : Option MarkField :=
  if off = 0x20 then some .nextSeq
  else if off = 0x28 then some .durableMark
  else if off = 0x30 then some .oldestSeq
  else if off = 0x38 then some .trimPoint
  else if off = 0x40 then some .discardFirst
  else if off = 0x48 then some .discardLast
  else none

/-- The anchor block, bytes 0x00 to 0x4F; bytes 0x50 to 0xFF read 0. The marks show as `shown48` has it (log 33). -/
def anchorBytes (s : State) : List Byte :=
  leBytes 1 1 ++ leBytes 1 (archiveFlags s) ++ leBytes 2 s.cu.freePool.length ++ leBytes 4 s.xp.slips.toNat ++
    leBytes 8 0 ++ leBytes 16 s.xp.answered.toNat ++ leBytes 8 (markValue s .nextSeq) ++
    leBytes 8 (markValue s .durableMark) ++ leBytes 8 (markValue s .oldestSeq) ++ leBytes 8 (markValue s .trimPoint) ++
    leBytes 8 (markValue s .discardFirst) ++ leBytes 8 (markValue s .discardLast)

/-- The latched byte for an anchor offset, where the latch names the field whose upper half holds it (R5). -/
def SnapLatch.byte (l : SnapLatch) (off : Nat) : Option Byte :=
  match l.field with
  | none => none
  | some f =>
    if f.offset + 4 ≤ off ∧ off < f.offset + 8 then some ((leBytes 4 l.value.toNat).getD (off - f.offset - 4) 0)
    else none

/-! ### Phases (R64, R78) -/

/-- A phase of the die's head operation is on the bus. -/
def Die.selected (d : Die) : Bool := d.stage == .first || d.stage == .last

end Sys2Proof.Machine
end

