-- ==== Sys2Proof/Machine/Ops.lean ====
section
/-!
DEFINITION. The named operations every meaning is built from: sparse tables, exchange memory, cards and their answers,
path queues, the host's stores and the state-byte guard, the die queues with the bus arbiter, and catalog entries.
-/
namespace Sys2Proof.Machine

/-! ### Sparse tables in canonical form (log 27) -/

/-- Value at a key; unlisted keys have the default `d`. -/
def Sparse.get {α : Type} (d : α) : List (Nat × α) → Nat → α
  | [], _ => d
  | (k, v) :: t, key => if k = key then v else Sparse.get d t key

/-- Set the value at a key: keys stay rising, and a value equal to the default is not listed. -/
def Sparse.set {α : Type} [DecidableEq α] (d : α) : List (Nat × α) → Nat → α → List (Nat × α)
  | [], key, v => if v = d then [] else [(key, v)]
  | (k, w) :: t, key, v =>
    if key < k then (if v = d then (k, w) :: t else (key, v) :: (k, w) :: t)
    else if key = k then (if v = d then t else (key, v) :: t)
    else (k, w) :: Sparse.set d t key v

/-- Keys rise from above `lo`, and no listed value is the default. -/
def Sparse.wfFrom {α : Type} [DecidableEq α] (d : α) : Option Nat → List (Nat × α) → Bool
  | _, [] => true
  | lo, (k, v) :: t => (lo.all fun l => decide (l < k)) && decide (v ≠ d) && Sparse.wfFrom d (some k) t

/-- The canonical form. -/
def Sparse.wf {α : Type} [DecidableEq α] (d : α) (m : List (Nat × α)) : Bool := Sparse.wfFrom d none m

/-! ### Exchange memory (R1, R2) -/

/-- One byte of exchange memory. -/
def xmRead (m : Memory) (a : Nat) : Byte := Sparse.get 0 m a

/-- Store one byte; the memory ends at 0xFFFF (log 29). -/
def xmStore (m : Memory) (a : Nat) (b : Byte) : Memory := if a < 0x10000 then Sparse.set 0 m a b else m

/-- Store bytes from an address upward. -/
def xmStoreList (m : Memory) (a : Nat) : List Byte → Memory
  | [] => m
  | b :: bs => xmStoreList (xmStore m a b) (a + 1) bs

/-- The `n` bytes from an address upward. -/
def xmReadList (m : Memory) (a : Nat) : Nat → List Byte
  | 0 => []
  | n + 1 => xmRead m a :: xmReadList m (a + 1) n

/-- The canonical form of exchange memory: rising addresses below 0x10000, no byte 0 listed. -/
def Memory.wf (m : Memory) : Bool := Sparse.wf 0 m && m.all fun c => decide (c.1 < 0x10000)

/-- Replace the exchange memory. -/
def setMem (m : Memory) (s : State) : State := { s with xp := { s.xp with mem := m } }

/-! ### Cards (R13, R20, R21) -/

/-- Offset of a card (1.2). -/
def cardBase (c : CardIx) : Nat := 0x400 + 64 * c.val

/-- Card states (R13). -/
inductive CardState where
  | idle
  | posted
  | taken
  | answered
deriving DecidableEq, Repr

/-- State codes (R13). -/
def CardState.code : CardState → Byte
  | .idle => 0
  | .posted => 1
  | .taken => 2
  | .answered => 3

/-- The state byte of a card. -/
def cardByte (s : State) (c : CardIx) : Byte := xmRead s.xp.mem (cardBase c)

/-- The bit of a card in the answered map. -/
def answeredBit (c : CardIx) : BitVec 128 := 1#128 <<< c.val

/-- R13, R21: the state byte and the card's bit of the answered map change together. -/
def setCardState (c : CardIx) (st : CardState) (s : State) : State :=
  { s with xp := { s.xp with
      mem := xmStore s.xp.mem (cardBase c) st.code
      answered := if st = .answered then s.xp.answered ||| answeredBit c else s.xp.answered &&& ~~~answeredBit c } }

/-- R20: all result fields and the state ANSWERED, in one change. -/
def answerCard (c : CardIx) (r : Answer) (s : State) : State :=
  setCardState c .answered (setMem (xmStoreList s.xp.mem (cardBase c + 32) (r.bytes s.rp.durable)) s)

/-- An answer with an outcome and every other result field 0. -/
def Answer.plain (o : CardOutcome) : Answer := { outcome := o }

/-- Answer each of a list of cards alike, in order. -/
def answerAll (r : Answer) : List CardIx → State → State
  | [], s => s
  | c :: cs, s => answerAll r cs (answerCard c r s)

/-- Bytes 1 to 31 of a card (R19). -/
def cardWork (s : State) (c : CardIx) : Work := xmReadList s.xp.mem (cardBase c + 1) 31

/-! ### Path queues (R17, R18, R19) -/

/-- The queue of a path. -/
def Ci.queue (ci : Ci) : CardPath → List CardIx
  | .append => ci.append
  | .query => ci.query
  | .control => ci.control

/-- Replace the queue of a path. -/
def setQueue (p : CardPath) (q : List CardIx) (s : State) : State :=
  match p with
  | .append => { s with ci := { s.ci with append := q } }
  | .query => { s with ci := { s.ci with query := q } }
  | .control => { s with ci := { s.ci with control := q } }

/-- R17: what the CI does with a posted card, applied with the guard's acceptance. -/
def postCard (c : CardIx) (s : State) : State :=
  match Kind.ofCode (xmRead s.xp.mem (cardBase c + 1)) with
  | none => answerCard c (.plain .badKind) s
  | some k =>
    if s.ec.engine = .faulted then answerCard c (.plain .faulted) s
    else setQueue k.path (s.ci.queue k.path ++ [c]) (setCardState c .posted s)

/-- R15: the state byte keeps its value, the slip count rises, SLIP is requested. -/
def slip (s : State) : State := setEvent .slip { s with xp := { s.xp with slips := s.xp.slips + 1 } }

/-- R14: the guard on a value written to a card's state byte. -/
def guardWrite (c : CardIx) (v : Byte) (s : State) : State :=
  if cardByte s c = CardState.idle.code ∨ cardByte s c = CardState.answered.code then
    if v = CardState.posted.code then postCard c s
    else if v = CardState.idle.code then setCardState c .idle s
    else slip s
  else slip s

/-- R19: the take, applied as one change: the head leaves its queue and the state byte becomes TAKEN. The copy of bytes 1
to 31 is `cardWork` of the state before. -/
def takeHead (p : CardPath) (c : CardIx) (s : State) : State :=
  setQueue p (s.ci.queue p).tail (setCardState c .taken s)

/-- R18: every card of a queue is answered from it, in queue order. -/
def answerQueue (p : CardPath) (r : Answer) (s : State) : State :=
  setQueue p [] (answerAll r (s.ci.queue p) s)

/-! ### Host stores outside the guard (R2) -/

/-- The card whose state byte lies at an offset, if any. -/
def stateByteCard (a : Nat) : Option CardIx :=
  if 0x400 ≤ a ∧ a < 0x2400 ∧ a % 64 = 0 then some (Fin.ofNat 128 ((a - 0x400) / 64)) else none

/-- A host store of one byte: ignored below the card array and on a state byte, stored elsewhere. -/
def hostStoreByte (a : Nat) (b : Byte) (s : State) : State :=
  if a < 0x400 ∨ (stateByteCard a).isSome then s else setMem (xmStore s.xp.mem a b) s

/-- Host stores of consecutive bytes. -/
def hostStoreList (a : Nat) : List Byte → State → State
  | [], s => s
  | b :: bs, s => hostStoreList (a + 1) bs (hostStoreByte a b s)

/-- The bytes an access of a width carries, lowest address first (log 5). -/
def accessBytes (w : Width) (data : Word) : List Byte :=
  match w with
  | .w8 => leBytes 1 data.toNat
  | .w16 => leBytes 2 data.toNat
  | .w32 => leBytes 4 data.toNat

/-- The width in bytes. -/
def widthSize : Width → Nat
  | .w8 => 1
  | .w16 => 2
  | .w32 => 4

/-- R1: the offset rounded down to a multiple of the width. -/
def alignedOffset (w : Width) (off : Nat) : Nat := off - off % widthSize w

/-- R2, R16: a host write to the exchange memory window. The other lanes are stored before the guard sees the state-byte
lane, which is the first lane of the access that covers it. -/
def xmHostWrite (a : Nat) (bytes : List Byte) (s : State) : State :=
  match stateByteCard a, bytes with
  | some c, v :: _ => guardWrite c v (hostStoreList a bytes s)
  | some _, [] => s
  | none, _ => hostStoreList a bytes s

/-! ### Die queues and the bus arbiter (R64, R72 to R78) -/

/-- The FS side of a chip enable. -/
def Fs.die (f : Fs) (c : Fin 4) : Die :=
  match c with
  | 0 => f.d0
  | 1 => f.d1
  | 2 => f.d2
  | 3 => f.d3

/-- Replace the FS side of a chip enable. -/
def Fs.setDie (f : Fs) (c : Fin 4) (d : Die) : Fs :=
  match c with
  | 0 => { f with d0 := d }
  | 1 => { f with d1 := d }
  | 2 => { f with d2 := d }
  | 3 => { f with d3 := d }

/-- The four chip enables in order. -/
def chipEnables : List (Fin 4) := [0, 1, 2, 3]

/-- The bus carries a phase: a soft reset's command (R82) or a phase of some die. -/
def Fs.busBusy (f : Fs) : Bool := !f.softResets.isEmpty || chipEnables.any fun c => (f.die c).selected

/-- A die has a phase pending at the arbiter. -/
def Die.waiting (d : Die) : Bool := d.stage == .firstPending || d.stage == .lastPending

/-- The set of chip enables with a pending phase (R78). -/
def Fs.pendingSet (f : Fs) : List (Fin 4) := chipEnables.filter fun c => (f.die c).waiting

/-- R78: the first chip enable with a pending phase, searching after the last granted one. -/
def Fs.nextGrant (f : Fs) : Option (Fin 4) :=
  [f.lastGranted + 1, f.lastGranted + 2, f.lastGranted + 3, f.lastGranted].find? fun c => (f.die c).waiting

/-- A granted phase runs on the bus. -/
def Die.granted (d : Die) : Die :=
  { d with stage := if d.stage = .firstPending then .first else if d.stage = .lastPending then .last else d.stage }

/-- R78: when the bus is free and the set not empty, one phase is granted. -/
def Fs.grant (f : Fs) : Fs :=
  if f.busBusy then f
  else match f.nextGrant with
    | none => f
    | some c => { f.setDie c (f.die c).granted with lastGranted := c }

/-- R75, R64: an operation joins the tail of a queue; as the head, its first phase becomes pending. -/
def Fs.push (f : Fs) (c : Fin 4) (op : FlashOp) : Fs :=
  let d := f.die c
  (f.setDie c { d with queue := d.queue ++ [op], stage := if d.queue.isEmpty then .firstPending else d.stage }).grant

/-- R64: the head operation leaves its queue and the next entry, if any, becomes the head; the bus is arbitrated. -/
def Fs.complete (f : Fs) (c : Fin 4) : Fs :=
  let rest := (f.die c).queue.tail
  (f.setDie c { queue := rest, stage := if rest.isEmpty then .idle else .firstPending, timer := none }).grant

/-- The die whose phase is on the bus; none while a soft reset's command is. -/
def Fs.onBus (f : Fs) : Option (Fin 4) :=
  if f.softResets.isEmpty then chipEnables.find? fun c => (f.die c).selected else none

/-- The chip enable an operation acts on (R61). -/
def FlashAct.die : FlashAct → Fin 4
  | .probe c => c
  | .resetDie c => c
  | .readRow seg _ => segDie seg
  | .readTrailers seg _ => segDie seg
  | .programRow seg _ _ _ _ => segDie seg
  | .programMark seg _ => segDie seg
  | .eraseSegment seg => segDie seg

/-- Busy limit in microseconds (R64); PROBE has no busy period. -/
def FlashAct.busyLimit : FlashAct → Option Nat
  | .probe _ => none
  | .resetDie _ => some 1000
  | .readRow _ _ => some 200
  | .readTrailers _ _ => some 200
  | .programRow _ _ _ _ _ => some 3000
  | .programMark _ _ => some 3000
  | .eraseSegment _ => some 15000

/-- RESET_DIE has no phase after its busy period (R66). -/
def FlashAct.isResetDie : FlashAct → Bool
  | .resetDie _ => true
  | .probe _ => false
  | .readRow _ _ => false
  | .readTrailers _ _ => false
  | .programRow _ _ _ _ _ => false
  | .programMark _ _ => false
  | .eraseSegment _ => false

/-- The operation whose last phase is on the bus, with its die: the one that completes at the end of the phase. PROBE's
only phase is its first (R65). -/
def Fs.ending (f : Fs) : Option (Fin 4 × FlashOp) :=
  match f.onBus with
  | none => none
  | some c =>
    match (f.die c).queue with
    | [] => none
    | op :: _ => if (f.die c).stage = .last ∨ op.act.busyLimit = none then some (c, op) else none

/-- R73, R82: every queue emptied, no phase, every timer stopped. -/
def Fs.cleared (f : Fs) : Fs :=
  { f with d0 := .cleared, d1 := .cleared, d2 := .cleared, d3 := .cleared, softResets := [] }

/-- R77: all four queues empty and no phase on the bus. -/
def Fs.quiet (f : Fs) : Bool := f.softResets.isEmpty && chipEnables.all fun c => (f.die c).queue.isEmpty

/-- Some queue holds an operation with a property. -/
def Fs.has (f : Fs) (p : FlashOp → Bool) : Bool := chipEnables.any fun c => (f.die c).queue.any p

/-- R75: hand an operation to the FS. While FAULTED it is dropped (R73). -/
def handOp (src : Source) (act : FlashAct) (s : State) : State :=
  if s.ec.engine = .faulted then s else { s with fs := s.fs.push act.die { source := src, act := act } }

/-- The completing operation leaves its queue. -/
def completeOp (c : Fin 4) (s : State) : State := { s with fs := s.fs.complete c }

/-- R81: corrected_chunks rises by the CORRECTED chunks of a completed READ_ROW. -/
def countCorrected (r : ReadRow) (s : State) : State :=
  let n := r.chunks.countP fun c => match c with
    | .clean => false
    | .corrected _ => true
    | .uncorrectable => false
  { s with fs := { s.fs with corrected := s.fs.corrected + BitVec.ofNat 32 n } }

/-- Both planes passed. -/
def bothPass (p0 p1 : PlaneStatus) : Bool := p0 == .pass && p1 == .pass

/-- The die has its mask bit 1 (R63). -/
def Fs.present (f : Fs) (c : Fin 4) : Bool := f.mask.getLsbD c.val

/-! ### Catalog entries (R83 to R86) -/

/-- The entry of a segment. -/
def Cu.entry (u : Cu) (seg : Nat) : Entry := Sparse.get Entry.freed u.catalog seg

/-- Replace the entry of a segment. -/
def setEntry (seg : Nat) (e : Entry) (s : State) : State :=
  { s with cu := { s.cu with catalog := Sparse.set Entry.freed s.cu.catalog seg e } }

/-- The RETIRED values of R84, with a cause. -/
def Entry.retiredWith (cause : RetireCause) : Entry := { Entry.freed with state := .retired, cause := cause }

/-- The member holds no record (R83). -/
def Entry.empty (e : Entry) : Bool := decide (e.lastSeq + 1 = e.firstSeq)

/-- Insert into a rising list without repeats. -/
def insertRising (k : Nat) : List Nat → List Nat
  | [] => [k]
  | h :: t => if k < h then k :: h :: t else if k = h then h :: t else h :: insertRising k t

/-- R94: a segment joins the retired set. -/
def joinRetired (seg : Nat) (cause : RetireCause) (s : State) : State :=
  let s1 := setEntry seg (.retiredWith cause) s
  { s1 with cu := { s1.cu with retired := insertRising seg s1.cu.retired } }

/-- R92: the present segments with a property, in interleaved order: block index first, die second. -/
def interleaved (mask : BitVec 4) (p : Nat → Bool) : List Nat :=
  (List.range 2048).flatMap fun n =>
    ([0, 1, 2, 3].filter fun d => mask.getLsbD d && p (2048 * d + n)).map fun d => 2048 * d + n

/-- R92: the pool a mount or FORMAT builds, and the retired set built beside it. -/
def rebuildPools (s : State) : State :=
  { s with cu := { s.cu with
      freePool := interleaved s.fs.mask fun seg => (s.cu.entry seg).state == .free
      retired := (s.cu.catalog.filter fun e => e.2.state == .retired).map (·.1) } }

/-- The number of present segments. -/
def presentSegments (mask : BitVec 4) : Nat := 2048 * ([0, 1, 2, 3].countP fun d => mask.getLsbD d)

/-- R101, R186: the number of entries in a state. -/
def countState (s : State) (st : SegState) : Nat :=
  if st = .free then presentSegments s.fs.mask - s.cu.catalog.countP fun e => e.2.state != .free
  else s.cu.catalog.countP fun e => e.2.state == st

/-- The head of the order list is not its last member. -/
def orderHead (u : Cu) : Option Nat :=
  match u.orderList with
  | h :: _ :: _ => some h
  | _ => none

/-! ### Quiet reports (R179) -/

/-- The engine takes part in a stop or a normal run: the catalog is in use (R152). -/
def EngineState.running (e : EngineState) : Bool := e == .ready || e == .stopping

end Sys2Proof.Machine
end

