-- ==== Sys2Proof/Machine/Catalog.lean ====
section
/-!
DEFINITION. The claims the other blocks make to the Catalog Unit (05): joining a segment with supersession, row and
digest results, cuts, removal of the head, erase and mark results. Each is applied whole (R86).
-/
namespace Sys2Proof.Machine

/-- R88: a join claim needs a serial; once the next open serial has passed 2^32 − 1 the pool counts as empty. -/
def serialLeft (s : State) : Bool := decide (s.cu.nextSerial ≤ max32)

/-- R45: the claim for a segment to hold records is granted above the reserve of 2. -/
def recordClaimGranted (s : State) : Bool := decide (2 < s.cu.freePool.length) && serialLeft s

/-- R103: the replacement part of a relocation claim may use the reserve. -/
def replacementClaimGranted (s : State) : Bool := decide (1 ≤ s.cu.freePool.length) && serialLeft s

/-- The entry of a joining member (R45, R88, R103): OPEN, no record, the next open serial. -/
def Entry.joining (firstSeq serial : Nat) : Entry :=
  { Entry.freed with state := .opened, firstSeq := firstSeq, lastSeq := firstSeq - 1, openSerial := serial }

/-- R89: an empty last member leaves the list as another joins: it becomes ERASING, its fields kept, and is handed to
the RU (R155). -/
def supersede (s : State) : State :=
  match s.cu.orderList.getLast? with
  | none => s
  | some m =>
    let e := s.cu.entry m
    if e.empty then
      let s1 := setEntry m { e with state := .erasing } s
      { s1 with
        cu := { s1.cu with orderList := s1.cu.orderList.dropLast }
        ru := { s1.ru with superseded := s1.ru.superseded ++ [m] } }
    else s

/-- R88: segment `seg`, the head of the free pool, leaves the pool and joins the tail of the order list, superseding an
empty last member. oldest_seq keeps its value (R34). -/
def joinSegment (seg firstSeq : Nat) (s : State) : State :=
  let s1 := setEntry seg (.joining firstSeq s.cu.nextSerial) (supersede s)
  { s1 with cu := { s1.cu with
      freePool := s1.cu.freePool.tail
      orderList := s1.cu.orderList ++ [seg]
      nextSerial := s1.cu.nextSerial + 1 } }

/-- R49, R90: a record row of the segment passed. -/
def claimRowPass (seg firstKey lastSeq lastKey : Nat) (s : State) : State :=
  let e := s.cu.entry seg
  setEntry seg { e with
    rowsValid := e.rowsValid + 1
    firstKey := if e.empty then firstKey else e.firstKey
    lastSeq := lastSeq
    lastKey := lastKey } s

/-- R51, R90: row 62 passed and the segment is closed: OPEN to SHORT. -/
def claimClose (seg : Nat) (s : State) : State :=
  let e := s.cu.entry seg
  setEntry seg { e with state := .short, rowsValid := 63, hasDigest := false, retire := false } s

/-- R52, R90: a digest result, for a segment that is still a SHORT member with 63 rows. -/
def claimDigest (seg : Nat) (passed : Bool) (s : State) : State :=
  let e := s.cu.entry seg
  if s.cu.orderList.contains seg ∧ e.state = .short ∧ e.rowsValid = 63 then
    if passed then setEntry seg { e with state := .full, rowsValid := 64, hasDigest := true } s
    else setEntry seg { e with retire := true } s
  else s

/-- R102: the cut of a relocation: OPEN to SHORT with `k` rows, retire_on_reclaim set. -/
def claimCut (seg k : Nat) (s : State) : State :=
  let e := s.cu.entry seg
  setEntry seg { e with state := .short, rowsValid := k, hasDigest := false, retire := true } s

/-- R105: a failed replacement leaves the order list and is retired with cause PROGRAM, without erase or mark. -/
def claimRetireLast (seg : Nat) (s : State) : State :=
  let s1 := joinRetired seg .program s
  { s1 with cu := { s1.cu with orderList := s1.cu.orderList.filter (· != seg) } }

/-- R91: the CU grants the removal of the head. -/
def removalGranted (seg : Nat) (s : State) : Bool :=
  s.ec.loaded && orderHead s.cu == some seg &&
    ((s.cu.entry seg).state == .full || (s.cu.entry seg).state == .short)

/-- R91: the head leaves the list and becomes ERASING; the next member becomes the head and gives oldest_seq. -/
def claimRemoval (seg : Nat) (s : State) : State :=
  let e := s.cu.entry seg
  let s1 := setEntry seg { e with state := .erasing } s
  let rest := s1.cu.orderList.tail
  { s1 with cu := { s1.cu with
      orderList := rest
      oldest := match rest with
        | h :: _ => (s1.cu.entry h).firstSeq
        | [] => s1.cu.oldest } }

/-- R93: the erase passed without retire_on_reclaim: FREE, to the tail of the pool. -/
def claimFreed (seg : Nat) (s : State) : State :=
  let s1 := setEntry seg .freed s
  { s1 with cu := { s1.cu with freePool := s1.cu.freePool ++ [seg] } }

/-- R114: the retire cause a mark's result gives. -/
def markCause (eraseFailed : Bool) (mark : PlaneStatus) : RetireCause :=
  match mark with
  | .fail => .mark
  | .pass => if eraseFailed then .erase else .program

/-- R122: the member with the greatest first_seq at or below a sequence. -/
def lookupSeq (u : Cu) (q : Nat) : Option Nat :=
  u.orderList.foldl (fun best seg =>
    if (u.entry seg).firstSeq ≤ q then
      match best with
      | none => some seg
      | some b => if (u.entry b).firstSeq ≤ (u.entry seg).firstSeq then some seg else some b
    else best) none

/-- R128: the first member in list order that holds a record and whose last_key is at or above a key. -/
def lookupKey (u : Cu) (k : Nat) : Option Nat :=
  u.orderList.find? fun seg => !(u.entry seg).empty && decide (k ≤ (u.entry seg).lastKey)

/-- R129: the successor of a member in the order list. -/
def successor (seg : Nat) : List Nat → Option Nat
  | a :: b :: t => if a = seg then some b else successor seg (b :: t)
  | [_] => none
  | [] => none

/-- R31: the key of the record durable_mark, or 0 when the readable range is empty: the last_key of the last member that
holds a record (log 21). -/
def durableKey (s : State) : Nat :=
  if s.cu.oldest ≤ s.rp.durable then
    match s.cu.orderList.reverse.find? fun seg => !(s.cu.entry seg).empty with
    | some seg => (s.cu.entry seg).lastKey
    | none => 0
  else 0

end Sys2Proof.Machine
end

