-- ==== Sys2Proof/Machine/Packer.lean ====
section
/-!
DEFINITION. The Record Packer's shared operations (02, 03, 06): row buffers and their hand-off, placing and staging a
record, the ends of a staging, the durability wait list, discards, relocation and the read-only archive.
-/
namespace Sys2Proof.Machine

/-! ### Row buffers (R41) -/

/-- A row buffer by name. -/
def Rp.buf (p : Rp) : BufName → RowBuffer
  | .a => p.bufA
  | .b => p.bufB

/-- Replace a row buffer. -/
def setBuf (n : BufName) (b : RowBuffer) (s : State) : State :=
  match n with
  | .a => { s with rp := { s.rp with bufA := b } }
  | .b => { s with rp := { s.rp with bufB := b } }

/-- The other buffer. -/
def BufName.other : BufName → BufName
  | .a => .b
  | .b => .a

/-- The sum of the stored image sizes (R29, R41). -/
def RowBuffer.fill (b : RowBuffer) : Nat := (b.records.map fun r => r.image.length).sum

/-- The buffer in a state, A first. -/
def Rp.find (p : Rp) (st : BufState) : Option BufName :=
  if p.bufA.state = st then some .a else if p.bufB.state = st then some .b else none

/-- First sequence of a buffer; 0 while it holds none. -/
def RowBuffer.firstSeq (b : RowBuffer) : Nat := (b.records.head?.map StagedRec.seq).getD 0

/-- First key of a buffer. -/
def RowBuffer.firstKey (b : RowBuffer) : Nat := (b.records.head?.map StagedRec.key).getD 0

/-- Last sequence of a buffer. -/
def RowBuffer.lastSeq (b : RowBuffer) : Nat := (b.records.getLast?.map StagedRec.seq).getD 0

/-- Last key of a buffer. -/
def RowBuffer.lastKey (b : RowBuffer) : Nat := (b.records.getLast?.map StagedRec.key).getD 0

/-- The packer's program of a record row, or of a digest row. -/
def FlashOp.isRecordRow (op : FlashOp) : Bool :=
  match op.act with
  | .programRow _ row _ _ _ => op.source == .packer && row != 63
  | .probe _ => false
  | .resetDie _ => false
  | .readRow _ _ => false
  | .readTrailers _ _ => false
  | .programMark _ _ => false
  | .eraseSegment _ => false

/-- The packer's program of a digest row (R51). -/
def FlashOp.isDigestRow (op : FlashOp) : Bool :=
  match op.act with
  | .programRow _ row _ _ _ => op.source == .packer && row == 63
  | .probe _ => false
  | .resetDie _ => false
  | .readRow _ _ => false
  | .readTrailers _ _ => false
  | .programMark _ _ => false
  | .eraseSegment _ => false

/-- R48: a record row program of the part is in flight. -/
def recordRowInFlight (s : State) : Bool := s.fs.has FlashOp.isRecordRow

/-- R51: a digest program is in flight. -/
def digestInFlight (s : State) : Bool := s.fs.has FlashOp.isDigestRow

/-- The row data of a buffer (R48). -/
def RowBuffer.rowData (b : RowBuffer) : List Byte :=
  (b.records.flatMap StagedRec.image) ++ erased (4096 - b.fill)

/-- The header of a segment's row 0: the cut and predecessor of a relocation, or none (R48, R104). -/
def segmentHeader (s : State) (seg : Nat) : List Byte :=
  let e := s.cu.entry seg
  match s.rp.relocation with
  | some r => headerBytes s.cu.epoch e.openSerial e.firstSeq s.cu.mode r.cutRow r.predecessor
  | none => headerBytes s.cu.epoch e.openSerial e.firstSeq s.cu.mode 0xFF 0xFFFF

/-- R48: the PROGRAM_ROW of a buffer at its destination. -/
def bufferProgram (s : State) (b : RowBuffer) (d : Dest) : FlashAct :=
  let data := b.rowData
  .programRow d.seg d.row data
    (trailerBytes s.cu.epoch d.row b.records.length b.firstSeq b.firstKey b.lastKey b.fill data)
    (if d.row = 0 then segmentHeader s d.seg else erased 31)

/-- R48, R104: a buffer is handed to the FS at its destination and becomes IN_FLIGHT. -/
def handBuffer (n : BufName) (s : State) : State :=
  let b := s.rp.buf n
  match b.dest with
  | none => s
  | some d => handOp .packer (bufferProgram s b d) (setBuf n { b with state := .inFlight } s)

/-- The CLOSED buffer to hand first: the earlier one when both are CLOSED (R48). -/
def Rp.nextClosed (p : Rp) : Option BufName :=
  if p.bufA.state = .closed ∧ p.bufB.state = .closed then
    if p.bufA.firstSeq ≤ p.bufB.firstSeq then some .a else some .b
  else p.find .closed

/-- R48: a CLOSED buffer is handed over when no record row program is in flight. -/
def handClosed (s : State) : State :=
  if recordRowInFlight s then s
  else match s.rp.nextClosed with
    | none => s
    | some n => handBuffer n s

/-- The FILLING buffer, if one exists, becomes CLOSED, the linger timer stops, and a CLOSED buffer is handed over where
R48 allows. -/
def closeFilling (s : State) : State :=
  match s.rp.find .filling with
  | none => s
  | some n =>
    let s1 := setBuf n { s.rp.buf n with state := .closed } s
    handClosed { s1 with rp := { s1.rp with lingerTimer := none } }

/-! ### Answers of the append path (R40, R54, R55) -/

/-- Answer fields of an APPEND (R40). -/
def RpServed.answer (v : RpServed) (o : CardOutcome) : Answer :=
  { outcome := o, count := v.staged, seq1 := v.first, seq2 := v.last }

/-- Answer fields of a FLUSH with its target (R54). -/
def flushAnswer (target : Nat) : Answer := { outcome := .done, seq1 := target }

/-- The RP has no served card. -/
def clearServed (s : State) : State := { s with rp := { s.rp with served := none } }

/-- The served card, if any, is answered with an outcome and the counts it had (R57, R59, R170, R181). -/
def answerServed (o : CardOutcome) (s : State) : State :=
  match s.rp.served with
  | none => s
  | some v => clearServed (answerCard v.card (v.answer o) s)

/-- Wait-list entries answered in list order, each with its own fields. -/
def answerEntries : List WaitEntry → State → State
  | [], s => s
  | w :: ws, s => answerEntries ws (answerCard w.card w.answer s)

/-- R55: the entries at the head of the list whose targets are reached are answered and leave. -/
def answerReached (s : State) : State :=
  let reached := s.rp.waitList.takeWhile fun w => decide (w.target ≤ s.rp.durable)
  let rest := s.rp.waitList.dropWhile fun w => decide (w.target ≤ s.rp.durable)
  answerEntries reached { s with rp := { s.rp with waitList := rest } }

/-- R57, R170, R181: every card on the list is answered with an outcome and the counts its kind reports. -/
def answerWaitList (o : CardOutcome) (s : State) : State :=
  let ws := s.rp.waitList.map fun w => { w with answer := { w.answer with outcome := o } }
  answerEntries ws { s with rp := { s.rp with waitList := [] } }

/-- R54, R56: answer a card at once when its target is durable, or put it on the wait list. -/
def awaitDurable (c : CardIx) (w : Work) (target : Nat) (r : Answer) (s : State) : State :=
  if target ≤ s.rp.durable then answerCard c r s
  else { s with rp := { s.rp with
    waitList := s.rp.waitList ++ [{ card := c, work := w, target := target, answer := r }] } }

/-! ### Staging (R25 to R31, R39, R42 to R47) -/

/-- R39, R40, R56, R59: the staging of the served card ends with an outcome. A SYNC card, and any card while STOPPING,
closes the FILLING buffer. -/
def endStaging (v : RpServed) (o : CardOutcome) (s : State) : State :=
  let s1 := clearServed s
  if v.work.flag0 then
    let s2 := closeFilling s1
    awaitDurable v.card v.work (s2.rp.nextSeq - 1) (v.answer o) s2
  else
    answerCard v.card (v.answer o) (if s1.ec.engine = .stopping then closeFilling s1 else s1)

/-- R42, R46, R59: the served card comes to wait; while STOPPING it is answered STOPPED instead. -/
def serveWait (v : RpServed) (w : RpWait) (s : State) : State :=
  if s.ec.engine = .stopping then clearServed (answerCard v.card (v.answer .stopped) s)
  else { s with rp := { s.rp with served := some { v with wait := w } } }

/-- A host record as the RP reads it: class, key, payload, and the span offset of the next descriptor. -/
structure HostRecord where
  class_  : Nat
  key     : Nat
  payload : List Byte
  next    : Nat
deriving DecidableEq, Repr

/-- R25, R26: read the next host record of the served card and make the checks in order. -/
def readRecord (s : State) (v : RpServed) : Except CardOutcome HostRecord :=
  let span := v.work.span
  let base := v.work.runBase
  if span < v.offset + 8 then .error .badRecord
  else
    let d := Descriptor.parse (xmReadList s.xp.mem (base + v.offset) 8)
    if 4080 < d.length then .error .badRecord
    else if d.reserved ≠ 0 then .error .badRecord
    else if span < v.offset + 8 + pad4 d.length then .error .badRecord
    else if d.key < s.rp.keyHigh then .error .keyOrder
    else if s.rp.nextSeq = maxSeq + 1 then .error .seqLimit
    else .ok { class_ := d.class_, key := d.key, payload := xmReadList s.xp.mem (base + v.offset + 8) d.length,
               next := v.offset + 8 + pad4 d.length }

/-- R27, R30, R31, R39: stage a record into a FILLING buffer; a fill of 4096 closes it (R42), and the last counted record
ends the staging. -/
def stageInto (n : BufName) (v : RpServed) (h : HostRecord) (s : State) : State :=
  let seq := s.rp.nextSeq
  let b := s.rp.buf n
  let b1 : RowBuffer :=
    { b with records := b.records ++ [{ seq := seq, key := h.key, image := storedImage h.class_ h.key seq h.payload }] }
  let v1 : RpServed :=
    { v with staged := v.staged + 1, first := if v.staged = 0 then seq else v.first, last := seq, offset := h.next,
             wait := .staging }
  let s1 := setBuf n b1 s
  let s2 := { s1 with rp := { s1.rp with nextSeq := seq + 1, keyHigh := h.key, served := some v1 } }
  let s3 := if b1.fill = 4096 then closeFilling s2 else s2
  if v1.staged = v.work.argC then endStaging v1 .done s3 else s3

/-- R41, R43, R53: an EMPTY buffer becomes FILLING at a destination, and the linger timer starts unless LINGER is 0. -/
def startFilling (n : BufName) (d : Dest) (s : State) : State :=
  let s1 := setBuf n { state := .filling, records := [], dest := some d } s
  { s1 with rp := { s1.rp with
    lingerTimer := if s1.xp.linger = 0 then none else some s1.xp.linger.toNat } }

/-- The RP's open segment becomes a new one, with an empty row map and next row index `next` (R43, R103). -/
def openFresh (seg next : Nat) (s : State) : State :=
  { s with rp := { s.rp with openSeg := some { seg := seg, nextRow := next }, rowMap := [], fullSeen := false } }

/-- R45: the head of the pool joins at next_seq and becomes the open segment; FULL_SEEN is cleared (R6). -/
def takeForRecords (seg : Nat) (s : State) : State := openFresh seg 1 (joinSegment seg s.rp.nextSeq s)

/-- R151 but for the read pin: the head of the order list, where conditions 1, 2, 3 and 5 hold. -/
def candidateButPin (s : State) : Option Nat :=
  match orderHead s.cu with
  | none => none
  | some h =>
    let e := s.cu.entry h
    if (e.state = .full ∨ e.state = .short) ∧ (s.cp.holds.all fun x => !(x.active && decide (x.lowSeq ≤ e.lastSeq))) ∧
        (e.lastSeq ≤ s.cp.trimPoint ∨ (s.cu.mode = .wrap ∧ s.cu.freePool.length < 6)) then some h
    else none

/-- R46, R157: space may come back: an erase in flight or a removal claim outstanding, or the head a candidate, be it
pinned. -/
def spaceMayReturn (s : State) : Bool :=
  (match s.ru.op with
    | .erase _ => true
    | .idle => false
    | .mark _ => false) || s.ru.claim.isSome || (candidateButPin s).isSome

/-- R43, R45, R46: place a record into EMPTY buffer `n`, which needs a destination. -/
def placeInEmpty (n : BufName) (v : RpServed) (h : HostRecord) (s : State) : State :=
  match s.rp.openSeg.filter fun o => decide (o.nextRow ≤ 62) with
  | some o =>
    stageInto n v h (startFilling n { seg := o.seg, row := o.nextRow }
      { s with rp := { s.rp with openSeg := some { o with nextRow := o.nextRow + 1 } } })
  | none =>
    if (s.rp.buf n.other).state ≠ .empty then serveWait v .buffer s
    else
      match s.cu.freePool with
      | seg :: _ =>
        if recordClaimGranted s then
          stageInto n v h (startFilling n { seg := seg, row := 0 } (takeForRecords seg s))
        else if spaceMayReturn s then serveWait v .space s
        else endStaging v .archiveFull (setEvent .archiveFull { s with rp := { s.rp with fullSeen := true } })
      | [] =>
        if spaceMayReturn s then serveWait v .space s
        else endStaging v .archiveFull (setEvent .archiveFull { s with rp := { s.rp with fullSeen := true } })

/-- R42, no buffer FILLING: an EMPTY buffer, A first, or a wait for a buffer. -/
def placeFresh (v : RpServed) (h : HostRecord) (s : State) : State :=
  match s.rp.find .empty with
  | none => serveWait v .buffer s
  | some n => placeInEmpty n v h s

/-- R42: place a record that passed its checks. -/
def placeRecord (v : RpServed) (h : HostRecord) (s : State) : State :=
  match s.rp.find .filling with
  | some n =>
    if (s.rp.buf n).fill + imageSize h.payload.length ≤ 4096 then stageInto n v h s
    else placeFresh v h (closeFilling s)
  | none => placeFresh v h s

/-- R39: check and place the next record of the served card. -/
def stageNext (v : RpServed) (s : State) : State :=
  match readRecord s v with
  | .error o => endStaging v o s
  | .ok h => placeRecord v h s

/-- R42: a buffer became EMPTY: a card waiting for a buffer is re-examined. -/
def reexamineBuffer (s : State) : State :=
  match s.rp.served with
  | some v => if v.wait = .buffer ∧ s.ec.engine.running then stageNext v s else s
  | none => s

/-- R47: a card waiting for space is re-examined (log 12), while the catalog is in use. -/
def reexamineSpace (s : State) : State :=
  match s.rp.served with
  | some v => if v.wait = .space ∧ s.ec.engine.running then stageNext v s else s
  | none => s

/-! ### Discards and the read-only archive (R37, R57, R107) -/

/-- R37: every staged record is dropped; where there were any, the discard range names them. -/
def discardStaged (s : State) : State :=
  let cleared := { s with rp := { s.rp with bufA := .cleared, bufB := .cleared } }
  if s.rp.bufA.records.isEmpty ∧ s.rp.bufB.records.isEmpty then cleared
  else { cleared with rp := { cleared.rp with
    discardFirst := s.rp.durable + 1
    discardLast := s.rp.nextSeq - 1
    nextSeq := s.rp.durable + 1
    keyHigh := durableKey s } }

/-- The RP's open segment becomes none, its row map is emptied, the linger timer stops and the relocation record is
cleared (R107, R170, R181). -/
def closePacker (s : State) : State :=
  { s with rp := { s.rp with openSeg := none, rowMap := [], lingerTimer := none, relocation := none } }

/-- R57, R107: the read-only archive is entered. -/
def enterReadOnly (s : State) : State :=
  let s1 := closePacker (discardStaged s)
  let s2 := { s1 with rp := { s1.rp with readOnly := true } }
  setEvent .readOnly (answerWaitList .readOnly (answerServed .readOnly s2))

/-! ### Passes, digests and relocation (R49 to R52, R102 to R107) -/

/-- R51: hand the PROGRAM_ROW of a digest. -/
def handDigest (j : DigestJob) (s : State) : State :=
  let data := digestData j.entries
  handOp .packer (.programRow j.seg 63 data (trailerBytes s.cu.epoch 63 0 0 0 0 756 data) (erased 31)) s

/-- R51: row 62 passed: the digest is built from the row map, the segment closed, and the digest handed over or put in
the pending digest slot. -/
def closeSegment (seg : Nat) (s : State) : State :=
  let job : DigestJob := { seg := seg, entries := s.rp.rowMap.map fun m =>
    { firstSeq := m.firstSeq, firstKey := m.firstKey, count := m.count } }
  let s1 := claimClose seg s
  let s2 := { s1 with rp := { s1.rp with openSeg := none, rowMap := [] } }
  if digestInFlight s2 then { s2 with rp := { s2.rp with digests := s2.rp.digests ++ [job] } }
  else handDigest job s2

/-- R52: the digest at the head of the pending digest slot is handed over. -/
def nextDigest (s : State) : State :=
  match s.rp.digests with
  | [] => s
  | j :: js => handDigest j { s with rp := { s.rp with digests := js } }

/-- R49: the one change a passed record row makes. -/
def applyRowPass (n : BufName) (d : Dest) (s : State) : State :=
  let b := s.rp.buf n
  let s1 := setBuf n .cleared (claimRowPass d.seg b.firstKey b.lastSeq b.lastKey s)
  { s1 with rp := { s1.rp with
    durable := b.lastSeq
    rowMap := s1.rp.rowMap ++ [{ row := d.row, firstSeq := b.firstSeq, firstKey := b.firstKey, count := b.records.length }]
    relocation := none } }

/-- R49: what follows the pass, in order: the other buffer handed over, the segment closed after row 62, the wait list
answered, a waiting card re-examined. -/
def rowPassed (n : BufName) (d : Dest) (s : State) : State :=
  let s1 := handClosed (applyRowPass n d s)
  let s2 := if d.row = 62 then closeSegment d.seg s1 else s1
  reexamineBuffer (answerReached s2)

/-- R104: the other buffer is re-aimed to row 1 of the replacement. -/
def reaimOther (n : BufName) (seg : Nat) (s : State) : State :=
  let y := s.rp.buf n.other
  if y.state = .filling ∨ y.state = .closed then
    let s1 := setBuf n.other { y with dest := some { seg := seg, row := 1 } } s
    { s1 with rp := { s1.rp with openSeg := some { seg := seg, nextRow := 2 } } }
  else s

/-- R103, R104: a replacement segment joins at the first sequence of the failed buffer, becomes the open segment, and the
buffer is handed over as its row 0. -/
def takeReplacement (n : BufName) (seg firstSeq : Nat) (s : State) : State :=
  let s1 := openFresh seg 1 (joinSegment seg firstSeq s)
  let s2 := setBuf n { s1.rp.buf n with dest := some { seg := seg, row := 0 } } s1
  handBuffer n (reaimOther n seg s2)

/-- R102: a record row program failed: the cut, and a replacement or the read-only archive. -/
def relocate (n : BufName) (d : Dest) (s : State) : State :=
  let first := (s.rp.buf n).firstSeq
  let s1 := claimCut d.seg d.row s
  let s2 := { s1 with rp := { s1.rp with
    relocation := some { predecessor := d.seg, cutRow := d.row, firstSeq := first } } }
  match s2.cu.freePool with
  | seg :: _ => if replacementClaimGranted s2 then takeReplacement n seg first s2 else enterReadOnly s2
  | [] => enterReadOnly s2

/-- R105: a replacement's row 0 failed: the replacement is retired and a further one taken, or it stays as the empty last
member and the read-only archive is entered. -/
def relocateAgain (n : BufName) (r : Relocation) (d : Dest) (s : State) : State :=
  match s.cu.freePool with
  | seg :: _ =>
    if replacementClaimGranted s then takeReplacement n seg r.firstSeq (claimRetireLast d.seg s)
    else enterReadOnly (claimCut d.seg 0 s)
  | [] => enterReadOnly (claimCut d.seg 0 s)

end Sys2Proof.Machine
end

