-- ==== Sys2Proof/Machine/Reclaim.lean ====
section
/-!
DEFINITION. The Reclaim Unit's judgement (08 R150 to R155) and the reactions of RU and RP to the events both follow.
-/
namespace Sys2Proof.Machine

/-- R150: no operation and no removal claim outstanding. -/
def Ru.idle (r : Ru) : Bool := r.op == .idle && r.claim.isNone

/-- R151: the head of the order list as reclaim candidate. -/
def candidate (s : State) : Option Nat := (candidateButPin s).filter fun h => s.ar.pin != some h

/-- R153, R155: the RU hands the erase of a segment as its operation. -/
def ruErase (seg : Nat) (s : State) : State :=
  handOp .reclaim (.eraseSegment seg) { s with ru := { s.ru with op := .erase seg } }

/-- R152: the RU judges when it is idle and the engine is READY or STOPPING: the first superseded segment is erased,
otherwise a candidate is claimed. -/
def ruJudge (s : State) : State :=
  if s.ec.engine.running ∧ s.ru.idle then
    match s.ru.superseded with
    | seg :: rest =>
      if s.ar.pin = some seg then s else ruErase seg { s with ru := { s.ru with superseded := rest } }
    | [] =>
      match candidate s with
      | some h => { s with ru := { s.ru with claim := some h } }
      | none => s
  else s

/-- An event that both the RU (R152) and a card waiting for space (R47) follow: the RU judges, the card is re-examined,
and the RU judges a join that this made (log 9). -/
def react (s : State) : State := ruJudge (reexamineSpace (ruJudge s))

/-- R152: a join or a close in a step of the RP, seen in the free pool or the order list, makes the RU judge. -/
def judgeChange (old s : State) : State :=
  if s.cu.freePool.length = old.cu.freePool.length ∧ s.cu.orderList = old.cu.orderList then s else ruJudge s

/-- R124: a move or clearing of the read pin is an event for the RU and for a card waiting for space. -/
def reactPin (old s : State) : State := if s.ar.pin = old.ar.pin then s else react s

/-- R93, R113: an erase's result asks for a retire mark. -/
def needsMark (e : Entry) (p0 p1 : PlaneStatus) : Bool := !bothPass p0 p1 || e.retire

end Sys2Proof.Machine
end

