-- ==== Sys2Proof/Machine/Reader.lean ====
section
/-!
DEFINITION. The Archive Reader's shared operations (07): the start of a read, locating the starting row, choosing,
judging and walking rows, copying records, and the answers of the query path.
-/
namespace Sys2Proof.Machine

/-! ### The card's arguments (R120) -/

/-- The card reads by key. -/
def Work.byKey (w : Work) : Bool := w.kind == some .readKey

/-- The record limit: argument C of READ_SEQ, argument A of READ_KEY; 0 is no limit. -/
def Work.limit (w : Work) : Nat := if w.byKey then w.argA else w.argC

/-- from_key. -/
def Work.fromKey (w : Work) : Nat := w.argC

/-- to_key. -/
def Work.toKey (w : Work) : Nat := w.argD

/-- The checks 3 to 6 of R120. -/
def Work.badRead (w : Work) : Bool :=
  w.badRun || decide (65535 < w.limit) ||
    (if w.byKey then decide (w.toKey < w.fromKey)
     else decide (w.argA = 0) || decide (maxSeq < w.argA) || decide (maxSeq < w.argB) || decide (w.argB < w.argA))

/-! ### Result flags and answers (11.2.1, R133, R137) -/

/-- Why a read stops; the end of the range sets no flag (R132). -/
inductive ReadStop where
  | rangeEnd
  | endOfArchive
  | destFull
  | countLimit
  | keyEnd
deriving DecidableEq, Repr

/-- Result flag of a stop. -/
def ReadStop.flag : ReadStop → Byte
  | .rangeEnd => 0x00
  | .endOfArchive => 0x02
  | .destFull => 0x04
  | .countLimit => 0x08
  | .keyEnd => 0x10

/-- TRUNCATED_FRONT. -/
def truncatedFront : Byte := 0x01

/-- The AR without a card: everything but the damage counters at its reset value; the pin clears (R124, R133). -/
def Ar.released (a : Ar) : Ar :=
  { Ar.reset with damagedRecords := a.damagedRecords, damagedRows := a.damagedRows }

/-- Result sequence 2: the cursor, 0 where there is none or it has reached 2^48 (R133). -/
def Ar.nextSeq (a : Ar) : Nat :=
  match a.cursor with
  | none => 0
  | some c => if c = maxSeq + 1 then 0 else c

/-- The result fields a read has reached (R133, R137). -/
def Ar.answer (a : Ar) (o : CardOutcome) : Answer :=
  { outcome := o, flags := a.flags, count := a.count, seq1 := a.first, seq2 := a.nextSeq, word := a.damaged }

/-- The served query card is answered and the AR released. -/
def arAnswer (r : Answer) (s : State) : State :=
  match s.ar.served with
  | none => s
  | some v =>
    let s1 := answerCard v.card r s
    { s1 with ar := s1.ar.released }

/-- R133: the read stops and its card is answered DONE. -/
def arStop (st : ReadStop) (s : State) : State :=
  let a := { s.ar with flags := s.ar.flags ||| st.flag }
  arAnswer (a.answer .done) s

/-- R137: the card is aborted by FORMAT. -/
def arAbort (s : State) : State := arAnswer (s.ar.answer .abortedFormat) s

/-! ### Starts (R122, R128) -/

/-- The AR asks the RU for the pin on a segment. The position stays at the row last read meanwhile (log 36). -/
def arAskPin (seg : Nat) (next : Bool) (s : State) : State :=
  { s with ar := { s.ar with act := .awaitPin seg next } }

/-- R122: the start procedure of READ_SEQ. -/
def arStartSeq (w : Work) (s : State) : State :=
  let cur := max w.argA s.cu.oldest
  let s1 := { s with ar := { s.ar with
    mark := s.rp.durable
    cursor := some cur
    flags := if w.argA < s.cu.oldest then s.ar.flags ||| truncatedFront else s.ar.flags } }
  if w.argB < cur then arStop .rangeEnd s1
  else if s.rp.durable < cur then arStop .endOfArchive s1
  else
    match lookupSeq s.cu cur with
    | some m => arAskPin m false s1
    | none => arStop .endOfArchive s1

/-- R128 step 4: records at or above from_key may have been reclaimed. -/
def frontTruncated (w : Work) (u : Cu) : Bool :=
  match u.orderList with
  | h :: _ => decide (1 < u.oldest) && decide (w.fromKey ≤ (u.entry h).firstKey)
  | [] => false

/-- R128: the start procedure of READ_KEY, steps 1 to 5. Where it is repeated after a refused pin, TRUNCATED_FRONT set by the
earlier try stands, also at a stop in step 3: the model's choice (log 37). -/
def arStartKey (w : Work) (s : State) : State :=
  match lookupKey s.cu w.fromKey with
  | none => arStop .endOfArchive { s with ar := { s.ar with mark := s.rp.durable, cursor := some (s.rp.durable + 1) } }
  | some m =>
    arAskPin m false { s with ar := { s.ar with
      mark := s.rp.durable
      flags := if frontTruncated w s.cu then s.ar.flags ||| truncatedFront else s.ar.flags } }

/-- The start procedure of the card's kind. -/
def arStart (w : Work) (s : State) : State := if w.byKey then arStartKey w s else arStartSeq w s

/-! ### Reading rows (R125 to R129) -/

/-- The AR hands a READ_ROW of a chosen row. -/
def arReadRow (seg row : Nat) (s : State) : State :=
  handOp .reader (.readRow seg row)
    { s with ar := { s.ar with pos := some { seg := seg, row := row, offset := 0 }, act := .row } }

/-- The AR hands the READ_ROW of a member's digest (R125, R129). Here and in a trailer scan R119's position, which the spec
does not give before a row is chosen, is the row being read at offset 0: the model's choice (log 36). -/
def arReadDigest (seg : Nat) (next : Bool) (s : State) : State :=
  handOp .reader (.readRow seg 63)
    { s with ar := { s.ar with pos := some { seg := seg, row := 63, offset := 0 }, act := .digest next } }

/-- The AR hands the next READ_TRAILERS of a scan (R127). The position is the row scanned (log 36). -/
def arScan (seg : Nat) (p : ScanPos) (s : State) : State :=
  handOp .reader (.readTrailers seg p.row)
    { s with ar := { s.ar with pos := some { seg := seg, row := p.row, offset := 0 }, act := .scan p } }

/-- Digest entries with their rows. -/
def digestRows (es : List DigestEntry) : List RowMapEntry :=
  es.zipIdx.map fun e => { row := e.2, firstSeq := e.1.firstSeq, firstKey := e.1.firstKey, count := e.1.count }

/-- The rows whose record counts the AR knows: from the held digest, else from the copied row map (R130). -/
def Ar.known (a : Ar) : List RowMapEntry :=
  match a.heldDigest with
  | some es => digestRows es
  | none => a.rows

/-- The highest valid row of a member, row 63 excluded (R100). -/
def Entry.lastValidRow (e : Entry) : Nat := if e.state = .full then 62 else e.rowsValid - 1

/-- R125, R126, R128 step 6: the starting row among known rows with records. -/
def startRow (w : Work) (cursor : Nat) (rows : List RowMapEntry) : Option RowMapEntry :=
  let recs := rows.filter fun e => decide (1 ≤ e.count)
  if w.byKey then
    match (recs.filter fun e => decide (e.firstKey < w.fromKey)).getLast? with
    | some e => some e
    | none => recs.head?
  else (recs.filter fun e => decide (e.firstSeq ≤ cursor)).getLast?

/-- The cursor, 0 while there is none. -/
def Ar.cur (a : Ar) : Nat := a.cursor.getD 0

/-- Move the cursor; it does not move back (log 14). -/
def arMoveTo (c : Nat) (s : State) : State := { s with ar := { s.ar with cursor := some (max s.ar.cur c) } }

/-- The starting row is known: READ_KEY sets its cursor and stops above D (R128 steps 7 and 8); the row is read. -/
def arBegin (w : Work) (seg row firstSeq : Nat) (s : State) : State :=
  if w.byKey then
    let s1 := { s with ar := { s.ar with cursor := some firstSeq } }
    if s.ar.mark < firstSeq then arStop .endOfArchive s1 else arReadRow seg row s1
  else arReadRow seg row s

/-- The starting row of a member whose rows are known; where none qualifies, row 0 (log 14). -/
def arBeginKnown (w : Work) (seg : Nat) (rows : List RowMapEntry) (s : State) : State :=
  match startRow w s.ar.cur rows with
  | some e => arBegin w seg e.row e.firstSeq s
  | none => arBegin w seg 0 (s.cu.entry seg).firstSeq s

/-- The member that a start's lookup named is still the same member of the order list. A segment that left the list and joined
it again since begins above the D of the start (R45, R88). -/
def stillNamed (seg : Nat) (s : State) : Bool :=
  s.cu.orderList.contains seg && decide ((s.cu.entry seg).firstSeq ≤ s.ar.mark)

/-- The pin of a start was granted: locate the row by the member's state (R122, R125 to R127). The segment may have been removed
and erased by the time its pin request is taken, and may even be a member again, with later records. R123 consents all the same
and R136 lets no record of a removed segment be returned, but no rule says how the read goes on: the AR repeats its start
procedure, as after a refusal, which is the model's choice (log 35). -/
def arLocate (w : Work) (seg : Nat) (s : State) : State :=
  if stillNamed seg s then
    match (s.cu.entry seg).state with
    | .full => arReadDigest seg false s
    | .opened => arBeginKnown w seg s.rp.rowMap { s with ar := { s.ar with rows := s.rp.rowMap } }
    | .short => arScan seg { row := 0, bad := none, prev := none } s
    | .free => arStart w s
    | .erasing => arStart w s
    | .retired => arStart w s
    | .unclean => arStart w s
    | .stale => arStart w s
  else arStart w s

/-- R129 step 4: the first row of a member whose record count is not known to be 0. -/
def firstRow (rows : List RowMapEntry) : Nat :=
  match rows.find? fun e => decide (e.count ≠ 0) with
  | some e => e.row
  | none => rows.length

/-- R129 step 4: the pin moved to the next member. -/
def arEnter (seg : Nat) (s : State) : State :=
  let s1 := { s with ar := { s.ar with heldDigest := none, rows := [], expected := none, resync := false } }
  match (s.cu.entry seg).state with
  | .full => arReadDigest seg true s1
  | .opened => arReadRow seg (firstRow s.rp.rowMap) { s1 with ar := { s1.ar with rows := s.rp.rowMap } }
  | .short => arReadRow seg 0 s1
  | .free => arReadRow seg 0 s1
  | .erasing => arReadRow seg 0 s1
  | .retired => arReadRow seg 0 s1
  | .unclean => arReadRow seg 0 s1
  | .stale => arReadRow seg 0 s1

/-! ### Stop checks and row choice (R129, R132) -/

/-- R132: the two checks that need no record: range, then limit. -/
def noRecordStop (w : Work) (s : State) : Option ReadStop :=
  if !w.byKey ∧ w.argB < s.ar.cur then some .rangeEnd
  else if w.limit ≠ 0 ∧ s.ar.count = w.limit then some .countLimit
  else none

/-- R129: a row choice after row `row` of member `seg`. A cursor left inside the member behind its last valid row is moved
past the member (log 14). -/
def arChoose (w : Work) (seg row : Nat) (s : State) : State :=
  let e := s.cu.entry seg
  let s1 := if s.ar.cur ≤ e.lastSeq ∧ e.lastValidRow < row + 1 then arMoveTo (e.lastSeq + 1) s else s
  match noRecordStop w s1 with
  | some st => arStop st s1
  | none =>
    if s1.rp.durable < s1.ar.cur then arStop .endOfArchive s1
    else if s1.ar.cur ≤ e.lastSeq then arReadRow seg (row + 1) s1
    else
      match successor seg s1.cu.orderList with
      | some m => arAskPin m true s1
      | none => arStop .endOfArchive s1

/-- Go on after a row: stop where a check said so, otherwise choose the next row. -/
def arContinue (w : Work) (seg row : Nat) (st : Option ReadStop) (s : State) : State :=
  match st with
  | some x => arStop x s
  | none => arChoose w seg row s

/-! ### Judging and walking (R130, R131, R132, R134) -/

/-- R134: damage found by the read. -/
def arDamage (n : Nat) (s : State) : State :=
  { s with ar := { s.ar with
    damaged := s.ar.damaged + n
    damagedRecords := s.ar.damagedRecords + BitVec.ofNat 32 n } }

/-- R121: an image is written at the destination offset. -/
def arCopy (w : Work) (seq : Nat) (image : List Byte) (s : State) : State :=
  let s1 := setMem (xmStoreList s.xp.mem (w.runBase + s.ar.destOff) image) s
  { s1 with ar := { s1.ar with
    destOff := s1.ar.destOff + image.length
    first := if s1.ar.count = 0 then seq else s1.ar.first
    count := s1.ar.count + 1 } }

/-- R132: an accepted record at or above the cursor is passed over, copied, or stops the read. -/
def arOffer (w : Work) (seq key : Nat) (image : List Byte) (s : State) : State × Option ReadStop :=
  if w.byKey ∧ key < w.fromKey then
    let s1 := arMoveTo (seq + 1) s
    (s1, noRecordStop w s1)
  else if w.byKey ∧ w.toKey < key then (s, some .keyEnd)
  else if w.span < s.ar.destOff + image.length then (s, some .destFull)
  else
    let s1 := arMoveTo (seq + 1) (arCopy w seq image s)
    (s1, noRecordStop w s1)

/-- R131: the walk of an accepted row, `n` records from sequence `seq` at data byte `off`; the row ends before `last`. -/
def arWalk (w : Work) (data : List Byte) (fill last : Nat) :
    Nat → Nat → Nat → State → State × Option ReadStop
  | 0, _, _, s => (s, none)
  | n + 1, seq, off, s =>
    let bs := data.drop off
    let h := StoredHeader.parse bs
    let size := imageSize h.length
    if h.seq = seq ∧ h.length ≤ 4080 ∧ off + size ≤ fill then
      if s.ar.cur ≤ seq then
        let r := if h.intact bs then arOffer w seq h.key (bs.take size) s
          else
            let s1 := arMoveTo (seq + 1) (arDamage 1 s)
            (s1, noRecordStop w s1)
        match r.2 with
        | some st => (r.1, some st)
        | none => arWalk w data fill last n (seq + 1) (off + size) r.1
      else arWalk w data fill last n (seq + 1) (off + size) s
    else
      let s1 := arMoveTo last (arDamage (last - max s.ar.cur seq) s)
      (s1, noRecordStop w s1)

/-- The first sequence the AR expects of a row, where it knows one (R130). -/
def Ar.expectedFirst (a : Ar) (row : Nat) : Option Nat :=
  match a.known.find? fun e => e.row == row with
  | some e => some e.firstSeq
  | none => a.expected

/-- R130: the row is accepted. -/
def rowAccepted (s : State) (row : Nat) (r : ReadRow) : Bool :=
  rowVerified r row && decide ((rowTrailer r).epoch = s.cu.epoch) && decide (1 ≤ (rowTrailer r).count) &&
    (match s.ar.expectedFirst row with
      | some q => decide ((rowTrailer r).firstSeq = q)
      | none => true)

/-- R130, R131: an accepted row is walked, after a cursor that waits for it has been set. -/
def arAcceptRow (w : Work) (seg row : Nat) (r : ReadRow) (s : State) : State :=
  let t := rowTrailer r
  let s1 := if s.ar.resync then arMoveTo t.firstSeq s else s
  let s2 := { s1 with ar := { s1.ar with resync := false, expected := some (t.firstSeq + t.count) } }
  match noRecordStop w s2 with
  | some st => arStop st s2
  | none =>
    let out := arWalk w r.data t.fill (t.firstSeq + t.count) t.count t.firstSeq 0 s2
    arContinue w seg row out.2 out.1

/-- R130: a row that is not accepted is damaged. -/
def arDamagedRow (w : Work) (seg row : Nat) (s : State) : State :=
  let s0 := { s with ar := { s.ar with damagedRows := s.ar.damagedRows + 1, expected := none } }
  match s.ar.known.find? fun e => e.row == row with
  | some e =>
    let s1 := arMoveTo (e.firstSeq + e.count) (arDamage e.count s0)
    arContinue w seg row (noRecordStop w s1) s1
  | none =>
    let m := s.cu.entry seg
    let s1 := arDamage 1 s0
    if m.lastValidRow ≤ row then
      let s2 := arMoveTo (m.lastSeq + 1) { s1 with ar := { s1.ar with resync := false } }
      arContinue w seg row (noRecordStop w s2) s2
    else arChoose w seg row { s1 with ar := { s1.ar with resync := true } }

/-- R130: a chosen row has been read. -/
def arRowRead (w : Work) (seg row : Nat) (r : ReadRow) (s : State) : State :=
  let s1 := { s with ar := { s.ar with heldRow := some r } }
  if rowAccepted s1 row r then arAcceptRow w seg row r s1 else arDamagedRow w seg row s1

/-- R125: the digest of a FULL member is accepted. -/
def digestAccepted (s : State) (seg : Nat) (r : ReadRow) : Bool :=
  let e := s.cu.entry seg
  let es := digestEntries r.data
  digestRowVerified r s.cu.epoch && digestChain es &&
    (match es.head?, es.getLast? with
      | some a, some z => decide (a.firstSeq = e.firstSeq) && decide (z.firstSeq + z.count = e.lastSeq + 1)
      | _, _ => false)

/-- R125, R129: a digest has been read, at a start or on entering the next member. -/
def arDigestRead (w : Work) (seg : Nat) (next : Bool) (r : ReadRow) (s : State) : State :=
  if digestAccepted s seg r then
    let es := digestEntries r.data
    let s1 := { s with ar := { s.ar with heldRow := some r, heldDigest := some es } }
    if next then arReadRow seg (firstRow (digestRows es)) s1 else arBeginKnown w seg (digestRows es) s1
  else
    let s1 := { s with ar := { s.ar with heldRow := some r, heldDigest := none } }
    if next then arReadRow seg 0 s1 else arScan seg { row := 0, bad := none, prev := none } s1

/-- R127, R128: the row a trailer scan looks for. -/
def scanHit (w : Work) (cursor : Nat) (t : Trailer) : Bool :=
  decide (1 ≤ t.count) && (if w.byKey then decide (w.fromKey ≤ t.lastKey) else decide (cursor ≤ t.lastSeq))

/-- R127, R128: a well-formed trailer behind rows that are not, which makes the scan stop at the first of those. -/
def scanBehind (w : Work) (cursor : Nat) (t : Trailer) : Bool :=
  if w.byKey then decide (w.fromKey ≤ t.lastKey) else decide (cursor < t.firstSeq)

/-- R127, R128: the scan stops at a row whose trailer is not well-formed. -/
def scanStopBad (w : Work) (seg b : Nat) (p : ScanPos) (s : State) : State :=
  let first := match p.prev with
    | some x => x.2.2 + 1
    | none => (s.cu.entry seg).firstSeq
  arBegin w seg b first s

/-- R127, R128: the scan stops at a well-formed row. READ_KEY starts at the last record row whose first_key is below
from_key, which is the row before when this row's is not (log 13). -/
def scanStopAt (w : Work) (seg : Nat) (t : Trailer) (p : ScanPos) (s : State) : State :=
  match p.prev with
  | some x => if w.byKey ∧ w.fromKey ≤ t.firstKey then arBegin w seg x.1 x.2.1 s else arBegin w seg p.row t.firstSeq s
  | none => arBegin w seg p.row t.firstSeq s

/-- R127, R128: one trailer of a scan has been read. -/
def arTrailerRead (w : Work) (seg : Nat) (p : ScanPos) (r : ReadSpare) (s : State) : State :=
  let t := Trailer.parse r.spare0
  let last := (s.cu.entry seg).lastValidRow
  if t.wellFormed p.row then
    match p.bad.filter fun _ => scanBehind w s.ar.cur t with
    | some b => scanStopBad w seg b p s
    | none =>
      if scanHit w s.ar.cur t then scanStopAt w seg t p s
      else if last ≤ p.row then arBegin w seg p.row t.firstSeq s
      else arScan seg { row := p.row + 1, bad := none,
                        prev := if 1 ≤ t.count then some (p.row, t.firstSeq, t.lastSeq) else p.prev } s
  else
    let b := p.bad.getD p.row
    if last ≤ p.row then scanStopBad w seg b p s
    else arScan seg { row := p.row + 1, bad := some b, prev := p.prev } s

/-! ### Pin answers (R123) -/

/-- Consent: the pin names the segment and the read goes on. -/
def arPinGranted (w : Work) (seg : Nat) (next : Bool) (s : State) : State :=
  let s1 := { s with ar := { s.ar with pin := some seg } }
  if next then arEnter seg s1 else arLocate w seg s1

/-- Refusal: the start procedure is repeated; a refusal on the way to the next member cannot arise (R123) and repeats the
row choice. -/
def arPinRefused (w : Work) (next : Bool) (s : State) : State :=
  if next then
    match s.ar.pos with
    | some p => arChoose w p.seg p.row s
    | none => arStart w s
  else arStart w s

end Sys2Proof.Machine
end

