-- ==== Sys2Proof/Machine/Engine.lean ====
section
/-!
DEFINITION. The Engine Control's shared operations (10): quiet flags, entering STOPPING, HALTED and FAULTED, the three
resets, the event of a CONTROL write, and a take common to the three paths.
-/
namespace Sys2Proof.Machine

/-! ### Quiet flags (R179) -/

/-- The six conditions of R59. -/
def appendQuiet (s : State) : Bool :=
  s.rp.served.isNone && s.rp.bufA.state == .empty && s.rp.bufB.state == .empty && !recordRowInFlight s &&
    !digestInFlight s && s.rp.digests.isEmpty && s.rp.waitList.isEmpty

/-- No served card and no operation outstanding (R137). -/
def queryQuiet (s : State) : Bool := s.ar.served.isNone && s.ar.act == .idle

/-- Idle, an empty supersession list, no candidate (R156). -/
def reclaimQuiet (s : State) : Bool := s.ru.idle && s.ru.superseded.isEmpty && (candidate s).isNone

/-- The quiet conditions as they stand. -/
def quietNow (s : State) : QuietFlags where
  append := appendQuiet s
  query := queryQuiet s
  control := s.cp.served.isNone
  reclaim := reclaimQuiet s
  flash := s.fs.quiet

/-- R179: while STOPPING each flag is set by its block's report and cleared when the block becomes busy again; a step
ends with the flags as the blocks then stand. -/
def settle (s : State) : State :=
  if s.ec.engine = .stopping then { s with ec := { s.ec with quiet := quietNow s } } else s

/-- All five flags are set. -/
def QuietFlags.all (q : QuietFlags) : Bool := q.append && q.query && q.control && q.reclaim && q.flash

/-! ### Engine states (R174) -/

/-- The procedure's lists are emptied and it has no step (R158). -/
def Ec.noProcedure (e : Ec) : Ec :=
  { e with step := .noStep, candidates := [], scanHeld := [], members := [], eraseList := [] }

/-- R176, R180: HALTED after RUN written 0: stop pending and LOADED clear, STOPPED requested. -/
def enterHalted (s : State) : State :=
  setEvent .stopped { s with ec := { s.ec.noProcedure with engine := .halted, stopPending := false, loaded := false } }

/-- R59, R179: STOPPING. A waiting card is answered STOPPED, the FILLING buffer closed. -/
def enterStopping (s : State) : State :=
  let s1 := { s with ec := { s.ec.noProcedure with engine := .stopping, stopPending := false, quiet := .clear } }
  let s2 := match s1.rp.served with
    | some v => if v.wait = .staging then s1 else answerServed .stopped s1
    | none => s1
  closeFilling s2

/-- R181: the CP's served card, a HOLD or a FORMAT, is answered with zero fields. -/
def cpAnswer (r : Answer) (s : State) : State :=
  match s.cp.served with
  | none => s
  | some v =>
    let s1 := answerCard v.card r s
    { s1 with cp := { s1.cp with served := none } }

/-- R181: the engine enters FAULTED. -/
def enterFaulted (cause : FaultCause) (s : State) : State :=
  let s1 := setEvent .fault { s with
    ec := { s.ec.noProcedure with engine := .faulted, cause := cause, stopPending := false, loaded := false }
    fs := s.fs.cleared }
  let r := Answer.plain .faulted
  let s2 := answerQueue .control r (answerQueue .query r (answerQueue .append r s1))
  let s3 := answerWaitList .faulted (answerServed .faulted (discardStaged s2))
  let s4 := closePacker { s3 with rp := { s3.rp with digests := [] } }
  let s5 := cpAnswer r (arAnswer r s4)
  { s5 with ru := .reset }

/-! ### Resets (R23, R24, R82, R183, R184) -/

/-- Every block at its reset value; the waiting commands, the pin and the model's counter are kept. -/
def resetAll (s : State) : State :=
  { State.reset with pending := s.pending, resetPin := s.resetPin, draws := s.draws }

/-- R24: card state bytes become IDLE, every other byte is kept. -/
def clearCardStates (m : Memory) : Memory := m.filter fun c => (stateByteCard c.1).isNone

/-- R24, R82, R183: a soft reset. The FS will send an untimed reset command to each die that was present, and to a die
whose command of an earlier soft reset is still to be sent (log 18). -/
def resetSoft (s : State) : State :=
  let s1 := resetAll s
  { s1 with
    xp := { s1.xp with mem := clearCardStates s.xp.mem, portData := s.xp.portData }
    fs := { s1.fs with softResets := chipEnables.filter fun c => s.fs.present c || s.fs.softResets.contains c } }

/-! ### CONTROL (R9, R175, R176) -/

/-- R9: LINGER is stored for the RP. -/
def setLinger (v : Byte) (s : State) : State := { s with xp := { s.xp with linger := v } }

/-- Hand RESET_DIE to chip enables in order (R159). -/
def handResets : List (Fin 4) → State → State
  | [], s => s
  | c :: cs, s => handResets cs (handOp .engine (.resetDie c) s)

/-- R159, R175: PROBING: the mask and with it the catalog entries are cleared, the records pending, RESET_DIE handed to
each chip enable. -/
def startProbe (s : State) : State :=
  handResets chipEnables { s with
    ec := { s.ec.noProcedure with engine := .probing, cause := .noCause, step := .probe, probeRec := .allPending }
    fs := { s.fs with mask := 0 }
    cu := { s.cu with catalog := [] } }

/-- R175: the event RUN written 1. -/
def runEvent1 (s : State) : State := if s.ec.engine = .halted then startProbe s else s

/-- R176: RUN written 0 in PROBING or MOUNTING. -/
def stopProcedure (s : State) : State :=
  if s.fs.quiet then enterHalted s else { s with ec := { s.ec with stopPending := true } }

/-- R176: the event RUN written 0. -/
def runEvent0 (s : State) : State :=
  match s.ec.engine with
  | .halted => s
  | .probing => stopProcedure s
  | .mounting => stopProcedure s
  | .unformatted => enterHalted s
  | .ready => enterStopping s
  | .formatting => { s with ec := { s.ec with stopPending := true } }
  | .stopping => s
  | .faulted => enterHalted s

/-- R9: RUN is stored and handed to the EC, after the LINGER lane of the same write. -/
def writeRun (v : Bool) (linger : Option Byte) (s : State) : State :=
  let s1 := match linger with
    | some l => setLinger l s
    | none => s
  let s2 := { s1 with xp := { s1.xp with run := v } }
  if v then runEvent1 s2 else runEvent0 s2

/-- R9: a write to CONTROL, by the lanes it covers. -/
def controlWrite (lane0 lane1 : Option Byte) (s : State) : State :=
  match lane0 with
  | some b => if b.getLsbD 1 then resetSoft s else writeRun (b.getLsbD 0) lane1 s
  | none =>
    match lane1 with
    | some l => setLinger l s
    | none => s

/-- R1: while the RESET pin is asserted the port accepts no access. -/
def portAccess (f : State → State) (s : State) : State := if s.resetPin then s else f s

/-! ### Takes (R19, R38, R120, R140, R177, R178) -/

/-- A path with no served card takes the head of its queue in READY or UNFORMATTED. The row's command takes a card of a
kind that is `mine`; a card of no kind of the path is taken under any row of the path and answered BAD_KIND. In
UNFORMATTED a kind that is not `always` served is answered UNFORMATTED. -/
def pathTake (p : CardPath) (free : Bool) (mine : Work → Bool) (always : Bool) (serve : CardIx → Work → State → State)
    (s : State) : State :=
  if free ∧ (s.ec.engine = .ready ∨ s.ec.engine = .unformatted) then
    match s.ci.queue p with
    | [] => s
    | c :: _ =>
      let w := cardWork s c
      if mine w ∨ w.kind.map Kind.path ≠ some p then
        let s1 := takeHead p c s
        match w.fault p with
        | some o => answerCard c (.plain o) s1
        | none =>
          if s.ec.engine = .unformatted ∧ !always then answerCard c (.plain .unformatted) s1 else serve c w s1
      else s
  else s

/-- A command's effect followed by the quiet reports: the next state of every meaning. -/
def done (s : State) : Host.Outcome State Fault Refusal := .next (settle s)

end Sys2Proof.Machine
end

