-- ==== Sys2Proof/Machine/Append.lean ====
section
/-!
DEFINITION. The meanings of the append path's commands (02, 03): takes, staging, linger expiry.
-/
namespace Sys2Proof.Machine

/-- R38: checks 3 to 6 of an APPEND, then the card is the served card. -/
def serveAppend (c : CardIx) (w : Work) (s : State) : State :=
  if s.rp.readOnly then answerCard c (.plain .readOnly) s
  else if w.argC = 0 ∨ 255 < w.argC ∨ w.badRun then answerCard c (.plain .badCard) s
  else { s with rp := { s.rp with
    served := some { card := c, work := w, staged := 0, first := 0, last := 0, offset := 0, wait := .staging } } }

/-- R38, R54: a FLUSH is dealt with at once. -/
def serveFlush (c : CardIx) (w : Work) (s : State) : State :=
  if s.rp.readOnly then answerCard c (.plain .readOnly) s
  else
    let s1 := closeFilling s
    let target := s1.rp.nextSeq - 1
    awaitDurable c w target (flushAnswer target) s1

/-- R53: the linger timer expires. -/
def lingerExpire (s : State) : State :=
  match s.rp.lingerTimer with
  | none => s
  | some _ =>
    let s1 := closeFilling s
    { s1 with rp := { s1.rp with lingerTimer := none } }

/-- R39: the served card, where it is not waiting, stages its next record, while the engine is READY or STOPPING (R59);
a join makes the RU judge (R152). -/
def recordStage (s : State) : State :=
  match s.rp.served with
  | some v => if v.wait = .staging ∧ s.ec.engine.running then judgeChange s (stageNext v s) else s
  | none => s

/-- APPEND (R38, R58, R178). -/
def execAppend (s : State) : Host.Outcome State Fault Refusal :=
  done (pathTake .append s.rp.served.isNone (fun w => w.kind == some .append) false serveAppend s)

/-- RECORD_STAGE (R39). -/
def execRecordStage (s : State) : Host.Outcome State Fault Refusal := done (recordStage s)

/-- FLUSH (R54, R58, R178). -/
def execFlush (s : State) : Host.Outcome State Fault Refusal :=
  done (pathTake .append s.rp.served.isNone (fun w => w.kind == some .flush) false serveFlush s)

/-- LINGER_EXPIRY (R53). -/
def execLingerExpiry (s : State) : Host.Outcome State Fault Refusal := done (lingerExpire s)

end Sys2Proof.Machine
end

