-- ==== Sys2Proof/Machine/Control.lean ====
section
/-!
DEFINITION. The meanings of the control path's commands (08; 09 R170; 10 R185): holds, trim, census, the taking of
FORMAT, and the lease clock.
-/
namespace Sys2Proof.Machine

/-! ### The hold table (R143) -/

/-- The ACTIVE entry with a tag. -/
def heldBy (tag : Nat) (hs : List Hold) : Option Hold := hs.find? fun h => h.active && h.tag == tag

/-- Replace the ACTIVE entry with a tag. -/
def replaceHold (tag : Nat) (f : Hold → Hold) : List Hold → List Hold
  | [] => []
  | h :: t => if h.active ∧ h.tag = tag then f h :: t else h :: replaceHold tag f t

/-- Place a hold in the lowest-numbered FREE entry; none when no entry is FREE. -/
def placeHold (x : Hold) : List Hold → Option (List Hold)
  | [] => none
  | h :: t => if h.active then (placeHold x t).map (h :: ·) else some (x :: t)

/-- Replace the hold table. -/
def setHolds (hs : List Hold) (s : State) : State := { s with cp := { s.cp with holds := hs } }

/-- A tag outside 1 to 65,535. -/
def badTag (tag : Nat) : Bool := decide (tag = 0) || decide (65535 < tag)

/-- R144: checks 1 to 3 of a HOLD, then the hold request goes to the RU and the card stays served. -/
def serveHold (c : CardIx) (w : Work) (s : State) : State :=
  if badTag w.argC ∨ w.argA = 0 ∨ maxSeq < w.argA then answerCard c (.plain .badCard) s
  else
    match heldBy w.argC s.cp.holds with
    | some h => answerCard c { outcome := .tagInUse, seq1 := h.lowSeq } s
    | none => { s with cp := { s.cp with served := some { card := c, work := w, job := .hold } } }

/-- R145: the RU's comparison, and the CP's answer or placement in the same step. -/
def decideHold (s : State) : State :=
  match s.cp.served with
  | none => s
  | some v =>
    if v.job = .hold then
      let low := v.work.argA
      if low < s.cu.oldest then cpAnswer { outcome := .gone, seq1 := s.cu.oldest } s
      else
        match placeHold { active := true, tag := v.work.argC, lowSeq := low, remaining := v.work.argD } s.cp.holds with
        | none => cpAnswer (.plain .noHoldSlot) s
        | some hs => cpAnswer { outcome := .done, seq1 := low, word := v.work.argD } (setHolds hs s)
    else s

/-- R145: the RU takes a hold request, or holds its answer while a removal claim is outstanding. -/
def holdRequest (s : State) : State :=
  match s.cp.served with
  | none => s
  | some v =>
    if v.job = .hold ∧ s.ec.engine.running ∧ s.ru.heldHold = none then
      if s.ru.claim.isSome then { s with ru := { s.ru with heldHold := some v.work.argA } } else decideHold s
    else s

/-- R146: a RENEW. -/
def serveRenew (c : CardIx) (w : Work) (s : State) : State :=
  if badTag w.argC then answerCard c (.plain .badCard) s
  else
    match heldBy w.argC s.cp.holds with
    | none => answerCard c (.plain .notHeld) s
    | some h =>
      answerCard c { outcome := .done, seq1 := h.lowSeq, word := w.argD }
        (setHolds (replaceHold w.argC (fun x => { x with remaining := w.argD }) s.cp.holds) s)

/-- R147: a RELEASE; a hold becoming FREE is an event for the RU and for a card waiting for space. -/
def serveRelease (c : CardIx) (w : Work) (s : State) : State :=
  if badTag w.argC then answerCard c (.plain .badCard) s
  else
    match heldBy w.argC s.cp.holds with
    | none => answerCard c (.plain .notHeld) s
    | some h =>
      react (answerCard c { outcome := .done, seq1 := h.lowSeq }
        (setHolds (replaceHold w.argC (fun _ => Hold.freed) s.cp.holds) s))

/-- R142: a TRIM; a change of trim_point is an event for the RU and for a card waiting for space. -/
def serveTrim (c : CardIx) (w : Work) (s : State) : State :=
  if maxSeq < w.argA then answerCard c (.plain .badCard) s
  else
    let t := max s.cp.trimPoint (min w.argA s.rp.durable)
    let s1 := answerCard c { outcome := .done, seq1 := t } { s with cp := { s.cp with trimPoint := t } }
    if t = s.cp.trimPoint then s1 else react s1

/-! ### The census (R185, R186, 11.6) -/

/-- The 88 census bytes. The marks show as in the anchor block (log 33). -/
def censusBytes (s : State) : List Byte :=
  leBytes 2 (countState s .free) ++ leBytes 2 (countState s .opened) ++ leBytes 2 (countState s .full) ++
    leBytes 2 (countState s .short) ++ leBytes 2 (countState s .erasing) ++ leBytes 2 (countState s .retired) ++
    leBytes 1 (s.cp.holds.countP fun h => h.active) ++ leBytes 1 s.cu.mode.code ++ leBytes 1 s.fs.mask.toNat ++
    leBytes 1 0 ++ leBytes 4 s.cu.epoch ++ leBytes 4 s.xp.slips.toNat ++ leBytes 8 (markValue s .nextSeq) ++
    leBytes 8 (markValue s .durableMark) ++ leBytes 8 (markValue s .oldestSeq) ++ leBytes 8 (markValue s .trimPoint) ++
    leBytes 8 (markValue s .discardFirst) ++ leBytes 8 (markValue s .discardLast) ++ leBytes 4 s.fs.corrected.toNat ++ leBytes 4 s.ar.damagedRecords.toNat ++
    leBytes 4 s.ar.damagedRows.toNat ++ leBytes 4 s.ec.orphans.toNat

/-- R185: the census is written into the card's parcel and the card answered DONE. -/
def serveCensus (c : CardIx) (w : Work) (s : State) : State :=
  if w.badRun then answerCard c (.plain .badCard) s
  else answerCard c (.plain .done) (setMem (xmStoreList s.xp.mem w.runBase (censusBytes s)) s)

/-! ### The taking of FORMAT (R170) -/

/-- The RP's part: discard, packer closed, pending digests dropped; its cards are answered at once unless a record row
program is in flight. -/
def formatPacker (s : State) : State :=
  let s1 := closePacker (discardStaged s)
  let s2 := { s1 with rp := { s1.rp with digests := [] } }
  if recordRowInFlight s2 then s2 else answerWaitList .abortedFormat (answerServed .abortedFormat s2)

/-- The AR's part: a served card without an outstanding operation is aborted at once (R137). -/
def formatReader (s : State) : State :=
  match s.ar.act with
  | .idle => arAbort s
  | .awaitPin _ _ => arAbort s
  | .digest _ => s
  | .scan _ => s
  | .row => s

/-- The parts of RU, CP, CU and EC: the supersession list, claim and held requests dropped, the hold table cleared, the
collections emptied and oldest_seq 0, the engine FORMATTING with the catalog unloaded. -/
def formatUnload (s : State) : State :=
  { s with
    ru := { s.ru with claim := none, superseded := [], heldPin := none, heldHold := none }
    cp := { s.cp with holds := List.replicate 8 Hold.freed }
    cu := { s.cu with orderList := [], freePool := [], retired := [], oldest := 0 }
    ec := { s.ec with engine := .formatting, loaded := false, step := .formatWait } }

/-- R170: a FORMAT card. -/
def serveFormat (c : CardIx) (w : Work) (s : State) : State :=
  if 1 < w.argC then answerCard c (.plain .badCard) s
  else
    let r := Answer.plain .abortedFormat
    let s1 := answerQueue .query r (answerQueue .append r s)
    let s2 := formatUnload (formatReader (formatPacker s1))
    { s2 with cp := { s2.cp with served := some { card := c, work := w, job := .format } } }

/-! ### The lease clock (R148, R149) -/

/-- A tick on one entry: a leased ACTIVE entry loses one second and is freed at 0. -/
def Hold.tick (h : Hold) : Hold :=
  if h.active ∧ 1 ≤ h.remaining then
    if h.remaining = 1 then Hold.freed else { h with remaining := h.remaining - 1 }
  else h

/-- The entry's lease ends at the next tick. -/
def Hold.ending (h : Hold) : Bool := h.active && h.remaining == 1

/-- R148, R149: a tick. Entries that reach 0 expire in the same change, with one HOLD_EXPIRED. -/
def leaseTick (s : State) : State :=
  let s1 := { s with cp := { s.cp with holds := s.cp.holds.map Hold.tick, leaseMs := 1000 } }
  if s.cp.holds.any Hold.ending then react (setEvent .holdExpired s1) else s1

/-! ### Meanings -/

/-- HOLD (R144, R178): a HOLD card without RENEW. -/
def execHold (s : State) : Host.Outcome State Fault Refusal :=
  done (pathTake .control s.cp.served.isNone (fun w => w.kind == some .hold && !w.flag0) false serveHold s)

/-- HOLD_REQUEST (R145). -/
def execHoldRequest (s : State) : Host.Outcome State Fault Refusal := done (holdRequest s)

/-- HOLD_RENEW (R146, R178): a HOLD card with RENEW. -/
def execHoldRenew (s : State) : Host.Outcome State Fault Refusal :=
  done (pathTake .control s.cp.served.isNone (fun w => w.kind == some .hold && w.flag0) false serveRenew s)

/-- RELEASE (R147, R178). -/
def execRelease (s : State) : Host.Outcome State Fault Refusal :=
  done (pathTake .control s.cp.served.isNone (fun w => w.kind == some .release) false serveRelease s)

/-- TRIM (R142, R178). -/
def execTrim (s : State) : Host.Outcome State Fault Refusal :=
  done (pathTake .control s.cp.served.isNone (fun w => w.kind == some .trim) false serveTrim s)

/-- CENSUS (R185), in READY and UNFORMATTED. -/
def execCensus (s : State) : Host.Outcome State Fault Refusal :=
  done (pathTake .control s.cp.served.isNone (fun w => w.kind == some .census) true serveCensus s)

/-- FORMAT (R170), in READY and UNFORMATTED. -/
def execFormat (s : State) : Host.Outcome State Fault Refusal :=
  done (pathTake .control s.cp.served.isNone (fun w => w.kind == some .format) true serveFormat s)

/-- LEASE_TICK (R148): the lease clock runs in READY only. -/
def execLeaseTick (s : State) : Host.Outcome State Fault Refusal :=
  done (if s.ec.engine = .ready then leaseTick s else s)

/-- HOLD_EXPIRY (R149): the tick at which a lease ends (log 8). -/
def execHoldExpiry (s : State) : Host.Outcome State Fault Refusal :=
  done (if s.ec.engine = .ready ∧ s.cp.holds.any Hold.ending then leaseTick s else s)

end Sys2Proof.Machine
end

