-- ==== Sys2Proof/Machine/Flash.lean ====
section
/-!
DEFINITION. The meanings of the flash bus events (04): phase ends, ready outputs, timer expiries, the probe's operations.
-/
namespace Sys2Proof.Machine

/-- A die becomes busy with its timer running (R64, R72). -/
def Die.startBusy (d : Die) (limit : Nat) : Die := { d with stage := .busy, timer := some limit }

/-- A ready output taken: the timer stops and the last phase becomes pending (R64). -/
def Die.becomeReady (d : Die) : Die := { d with stage := .lastPending, timer := none }

/-- R64, R82: the phase on the bus ends and is not the last of its operation: a soft reset's command, or a phase before a
busy period. The bus is arbitrated again. -/
def Fs.phaseEnd (f : Fs) : Fs :=
  match f.softResets with
  | _ :: rest => { f with softResets := rest }.grant
  | [] =>
    match f.onBus with
    | none => f
    | some c =>
      match (f.die c).queue with
      | [] => f
      | op :: _ =>
        match op.act.busyLimit with
        | none => f
        | some limit => if (f.die c).stage = .first then (f.setDie c ((f.die c).startBusy limit)).grant else f

/-- R64, R72: a die's ready output in the busy period of an operation with a last phase. -/
def Fs.ready (f : Fs) (c : Fin 4) : Fs :=
  match (f.die c).queue with
  | [] => f
  | op :: _ =>
    if (f.die c).stage = .busy ∧ !op.act.isResetDie then (f.setDie c (f.die c).becomeReady).grant else f

/-- The die is in the busy period of a RESET_DIE. -/
def Fs.resetting (f : Fs) (c : Fin 4) : Bool :=
  match (f.die c).queue with
  | [] => false
  | op :: _ => (f.die c).stage == .busy && op.act.isResetDie

/-- The probe record of a chip enable changes (R159). -/
def setProbeRec (c : Fin 4) (r : ProbeRec) (s : State) : State :=
  let p := s.ec.probeRec
  { s with ec := { s.ec with probeRec := match c with
    | 0 => { p with c0 := r }
    | 1 => { p with c1 := r }
    | 2 => { p with c2 := r }
    | 3 => { p with c3 := r } } }

/-- R66, R159: a RESET_DIE is ready: the EC hands PROBE, unless a stop is pending. -/
def resetDieReady (c : Fin 4) (s : State) : State :=
  if s.fs.resetting c then
    let s1 := completeOp c s
    if s.ec.engine = .probing ∧ !s.ec.stopPending then handOp .engine (.probe c) s1 else s1
  else s

/-- R66, R159: a probe's RESET_DIE reaches its limit. -/
def resetDieExpired (c : Fin 4) (s : State) : State :=
  if s.fs.resetting c ∧ !s.fs.present c then setProbeRec c .absent (completeOp c s) else s

/-- The Erkado geometry code (R65). -/
def geometryCode : List Byte := [0x2A, 0x91, 0x40, 0x0C]

/-- R65, R159: the identification phase completes. -/
def probeResult (id : List Byte) (s : State) : State :=
  match s.fs.ending with
  | none => s
  | some (c, op) =>
    match op.act with
    | .probe _ => setProbeRec c (if id = geometryCode then .present else .absent) (completeOp c s)
    | .resetDie _ => s
    | .readRow _ _ => s
    | .readTrailers _ _ => s
    | .programRow _ _ _ _ _ => s
    | .programMark _ _ => s
    | .eraseSegment _ => s

/-- The engine states in which a flash operation is timed against a present die (R181). -/
def EngineState.timed (e : EngineState) : Bool :=
  e == .mounting || e == .ready || e == .formatting || e == .stopping

/-- R73, R181: the busy timer of a present die expires. -/
def dieTimeout (c : Fin 4) (s : State) : State :=
  if (s.fs.die c).timer.isSome ∧ s.fs.present c ∧ s.ec.engine.timed then enterFaulted .dieTimeout s else s

/-- FLASH_PHASE_END (R64, R78, R82). -/
def execFlashPhaseEnd (s : State) : Host.Outcome State Fault Refusal := done { s with fs := s.fs.phaseEnd }

/-- DIE_READY (R64, R72, R74). -/
def execDieReady (c : Fin 4) (s : State) : Host.Outcome State Fault Refusal := done { s with fs := s.fs.ready c }

/-- DIE_TIMEOUT (R73, R74, R181). -/
def execDieTimeout (c : Fin 4) (s : State) : Host.Outcome State Fault Refusal := done (dieTimeout c s)

/-- RESET_DIE_COMPLETE (R66, R159). -/
def execResetDieComplete (c : Fin 4) (s : State) : Host.Outcome State Fault Refusal := done (resetDieReady c s)

/-- RESET_DIE_NO_READY (R66, R159). -/
def execResetDieNoReady (c : Fin 4) (s : State) : Host.Outcome State Fault Refusal := done (resetDieExpired c s)

/-- PROBE (R65, R159). -/
def execProbe (b0 b1 b2 b3 : Byte) (s : State) : Host.Outcome State Fault Refusal := done (probeResult [b0, b1, b2, b3] s)

end Sys2Proof.Machine
end

