-- ==== Sys2Proof/Machine/Query.lean ====
section
/-!
DEFINITION. The meanings of the query path's commands (07): takes, pin requests, and results of the reader's operations.
-/
namespace Sys2Proof.Machine

/-- R120: the checks of a read, then the card is the served card and the read begins. -/
def serveRead (c : CardIx) (w : Work) (s : State) : State :=
  if w.badRead then answerCard c (.plain .badCard) s
  else arStart w { s with ar := { s.ar.released with served := some { card := c, work := w } } }

/-- R123: the RU's answer to a pin request it has taken. -/
def answerPin (granted : Bool) (seg : Nat) (s : State) : State :=
  match s.ar.served, s.ar.act with
  | some v, .awaitPin _ next => if granted then arPinGranted v.work seg next s else arPinRefused v.work next s
  | _, _ => s

/-- R123: the RU takes a pin request: it holds its answer while a removal claim for the segment is outstanding, refuses an
ERASING segment, and consents otherwise. -/
def takePinRequest (seg : Nat) (s : State) : State :=
  if s.ru.claim = some seg then { s with ru := { s.ru with heldPin := some seg } }
  else if (s.cu.entry seg).state = .erasing then answerPin false seg s
  else answerPin true seg s

/-- R123, R124: PIN_REQUEST, while the engine is READY or STOPPING and the request is not already held. -/
def pinRequest (s : State) : State :=
  match s.ar.act with
  | .awaitPin seg _ =>
    if s.ec.engine.running ∧ s.ru.heldPin = none then reactPin s (takePinRequest seg s) else s
  | .idle => s
  | .digest _ => s
  | .scan _ => s
  | .row => s

/-- A result reaches the AR: while FORMATTING its card is aborted and the result not used (R137), otherwise `use` sees
the work record. -/
def readerResult (use : Work → State → State) (s : State) : State :=
  if s.ec.engine = .formatting then arAbort s
  else
    match s.ar.served with
    | some v => if s.ec.engine.running then use v.work s else s
    | none => s

/-- R127, R128: a READ_TRAILERS of the reader completes. -/
def trailersResult (r : ReadSpare) (s : State) : State :=
  match s.fs.ending with
  | none => s
  | some (c, op) =>
    match op.source, op.act with
    | .reader, .readTrailers seg _ =>
      let s1 := completeOp c s
      let s2 := readerResult (fun w t =>
        match t.ar.act with
        | .scan p => arTrailerRead w seg p r t
        | .idle => t
        | .awaitPin _ _ => t
        | .digest _ => t
        | .row => t) s1
      reactPin s s2
    | _, _ => s

/-- R125, R130: a READ_ROW of the reader completes. -/
def readRowResult (r : ReadRow) (s : State) : State :=
  match s.fs.ending with
  | none => s
  | some (c, op) =>
    match op.source, op.act with
    | .reader, .readRow seg row =>
      let s1 := countCorrected r (completeOp c s)
      let s2 := readerResult (fun w t =>
        match t.ar.act with
        | .digest next => arDigestRead w seg next r t
        | .row => arRowRead w seg row r t
        | .idle => t
        | .awaitPin _ _ => t
        | .scan _ => t) s1
      reactPin s s2
    | _, _ => s

/-- READ_SEQ (R120, R122, R178). -/
def execReadSeq (s : State) : Host.Outcome State Fault Refusal :=
  done (pathTake .query s.ar.served.isNone (fun w => w.kind == some .readSeq) false serveRead s)

/-- READ_KEY (R120, R128, R178). -/
def execReadKey (s : State) : Host.Outcome State Fault Refusal :=
  done (pathTake .query s.ar.served.isNone (fun w => w.kind == some .readKey) false serveRead s)

/-- PIN_REQUEST (R123). -/
def execPinRequest (s : State) : Host.Outcome State Fault Refusal := done (pinRequest s)

/-- AR_TRAILERS_RESULT (R127, R128). -/
def execArTrailersResult (r : ReadSpare) (s : State) : Host.Outcome State Fault Refusal := done (trailersResult r s)

/-- AR_READ_ROW_RESULT (R125, R129 to R133). -/
def execArReadRowResult (r : ReadRow) (s : State) : Host.Outcome State Fault Refusal := done (readRowResult r s)

end Sys2Proof.Machine
end

