-- ==== Sys2Proof/Machine/Space.lean ====
section
/-!
DEFINITION. The meanings of removal claims and of the erases and retire marks that follow (05 R91, R93; 06 R111 to R114;
08 R153, R154), for the RU and, for marks, the EC.
-/
namespace Sys2Proof.Machine

/-- R153: the RU answers the requests it held during a claim: the pin first, then the hold. -/
def answerHeld (granted : Bool) (s : State) : State :=
  let s1 := match s.ru.heldPin with
    | none => s
    | some seg => answerPin (!granted) seg { s with ru := { s.ru with heldPin := none } }
  match s1.ru.heldHold with
  | none => s1
  | some _ => decideHold { s1 with ru := { s1.ru with heldHold := none } }

/-- R91, R153: the CU takes the removal claim. -/
def removalClaim (s : State) : State :=
  match s.ru.claim with
  | none => s
  | some seg =>
    if s.ec.engine.running then
      let s1 := { s with ru := { s.ru with claim := none } }
      if removalGranted seg s1 then
        let s2 := ruErase seg (answerHeld true (claimRemoval seg s1))
        judgeChange s2 (reexamineSpace s2)
      else reactPin s (ruJudge (answerHeld false s1))
    else s

/-- The RU's operation ends. -/
def ruEnd (s : State) : State := { s with ru := { s.ru with op := .idle } }

/-- R93, R111, R154: an erase of the RU completes. While FORMATTING its result is not applied and no mark handed (R156). -/
def reclaimErase (p0 p1 : PlaneStatus) (s : State) : State :=
  match s.fs.ending with
  | none => s
  | some (c, op) =>
    match op.source, op.act with
    | .reclaim, .eraseSegment seg =>
      let s1 := completeOp c s
      if s.ec.engine.running then
        if needsMark (s1.cu.entry seg) p0 p1 then
          react (handOp .reclaim (.programMark seg (!bothPass p0 p1)) { s1 with ru := { s1.ru with op := .mark seg } })
        else react (ruEnd (claimFreed seg s1))
      else ruEnd s1
    | _, _ => s

/-- R167, R171, R76: the EC hands the next erase of a die, unless a stop is pending in a mount. The segment is ERASING from
here (log 15). -/
def ecEraseNext (d : Fin 4) (s : State) : State :=
  if s.ec.engine = .mounting ∧ s.ec.stopPending then s
  else
    match s.ec.eraseList.find? fun seg => segDie seg == d with
    | none => s
    | some seg =>
      let s1 := setEntry seg { s.cu.entry seg with state := .erasing, cause := .noCause } s
      handOp .engine (.eraseSegment seg) { s1 with ec := { s1.ec with eraseList := s1.ec.eraseList.filter (· != seg) } }

/-- R114: a mark completes: the segment is retired with the cause the results give. A mark of the RU ends its operation
and makes it judge; its result is not applied while FORMATTING. A mark of the EC is followed by the die's next erase. -/
def markResult (p0 : PlaneStatus) (s : State) : State :=
  match s.fs.ending with
  | none => s
  | some (c, op) =>
    match op.source, op.act with
    | .reclaim, .programMark seg failed =>
      let s1 := ruEnd (completeOp c s)
      if s.ec.engine.running then ruJudge (joinRetired seg (markCause failed p0) s1) else s1
    | .engine, .programMark seg failed => ecEraseNext c (joinRetired seg (markCause failed p0) (completeOp c s))
    | _, _ => s

/-- R112: an erase of the EC completes: a mark, unless a stop is pending in a mount (R115), or a FREE entry and the die's
next erase. -/
def ecErase (p0 p1 : PlaneStatus) (s : State) : State :=
  match s.fs.ending with
  | none => s
  | some (c, op) =>
    match op.source, op.act with
    | .engine, .eraseSegment seg =>
      let s1 := completeOp c s
      if needsMark (s1.cu.entry seg) p0 p1 then
        if s.ec.engine = .mounting ∧ s.ec.stopPending then s1
        else handOp .engine (.programMark seg (!bothPass p0 p1)) s1
      else ecEraseNext c (setEntry seg .freed s1)
    | _, _ => s

/-- REMOVAL_CLAIM (R91, R153). -/
def execRemovalClaim (s : State) : Host.Outcome State Fault Refusal := done (removalClaim s)

/-- RECLAIM_ERASE_COMPLETE (R93, R154). -/
def execReclaimEraseComplete (p0 p1 : PlaneStatus) (s : State) : Host.Outcome State Fault Refusal :=
  done (reclaimErase p0 p1 s)

/-- PROGRAM_MARK_COMPLETE (R114). -/
def execProgramMarkComplete (p0 : PlaneStatus) (s : State) : Host.Outcome State Fault Refusal := done (markResult p0 s)

/-- EC_ERASE_COMPLETE (R112). -/
def execEcEraseComplete (p0 p1 : PlaneStatus) (s : State) : Host.Outcome State Fault Refusal := done (ecErase p0 p1 s)

end Sys2Proof.Machine
end

