-- ==== Sys2Proof/Machine/Mount.lean ====
section
/-!
DEFINITION. The meanings of the mount's commands (09 R158 to R168; 06 R116).
-/
namespace Sys2Proof.Machine

/-! ### End of the probe (R159, R160) -/

/-- The mask bit of a chip enable. -/
def ProbeRec.bit (r : ProbeRec) (n : Nat) : Nat := if r = .present then n else 0

/-- The dies-present mask the probe records give. -/
def ProbeRecs.mask (p : ProbeRecs) : BitVec 4 :=
  BitVec.ofNat 4 (p.c0.bit 1 + p.c1.bit 2 + p.c2.bit 4 + p.c3.bit 8)

/-- No record is pending. -/
def ProbeRecs.complete (p : ProbeRecs) : Bool :=
  p.c0 != .pending && p.c1 != .pending && p.c2 != .pending && p.c3 != .pending

/-- Hand READ_TRAILERS of row 0 of the first segment of each present die, in chip-enable order. -/
def handScans : List (Fin 4) → State → State
  | [], s => s
  | c :: cs, s =>
    handScans cs (if s.fs.present c then handOp .engine (.readTrailers (2048 * c.val) 0) s else s)

/-- R160: MOUNTING: the collections are emptied, oldest_seq is 0, and the scan begins. -/
def startMount (s : State) : State :=
  handScans chipEnables { s with
    cu := { s.cu with orderList := [], freePool := [], retired := [], oldest := 0 }
    ec := { s.ec.noProcedure with engine := .mounting, step := .scan } }

/-- R159: the probe ends: the mask is set, the entries built with the FREE values, and the engine enters MOUNTING, or
FAULTED with NO_MEDIA. -/
def probeEnd (s : State) : State :=
  if s.ec.engine = .probing ∧ s.ec.probeRec.complete ∧ s.fs.quiet ∧ !s.ec.stopPending then
    let s1 := { s with fs := { s.fs with mask := s.ec.probeRec.mask }, cu := { s.cu with catalog := [] } }
    if s.ec.probeRec.mask = 0 then enterFaulted .noMedia s1 else startMount s1
  else s

/-! ### The scan (R160, R161) -/

/-- The scan of a die moves to its next segment. -/
def scanNext (seg : Nat) (s : State) : State :=
  if s.ec.stopPending ∨ (seg + 1) % 2048 = 0 then s else handOp .engine (.readTrailers (seg + 1) 0) s

/-- An UNCLEAN or STALE classification (R84, R85). -/
def classify (seg : Nat) (st : SegState) (s : State) : State := setEntry seg { Entry.freed with state := st } s

/-- R161 test 4: header and row-0 trailer make a possible candidate. -/
def possibleCandidate (seg : Nat) (r : ReadSpare) : Bool :=
  let h := Header.parse r.spare1
  let t := Trailer.parse r.spare0
  headerValid r.spare1 seg && t.wellFormed 0 && decide (t.epoch = h.epoch) && decide (t.firstSeq = h.firstSeq) &&
    (decide (1 ≤ t.count) || (decide (t.count = 0) && decide (h.firstSeq = 1) && h.noCut))

/-- R161: the row-0 spare bytes of a segment have been read. -/
def scanTrailers (seg : Nat) (r : ReadSpare) (s : State) : State :=
  if r.spare0.getD 0 0 ≠ 0xFF ∨ r.spare1.getD 0 0 ≠ 0xFF then scanNext seg (joinRetired seg .factory s)
  else if r.spare0.getD 1 0xFF = 0 ∧ r.spare0.getD 2 0xFF = 0 then scanNext seg (joinRetired seg .found s)
  else if r.spare0.all (· == 0xFF) ∧ r.spare1.all (· == 0xFF) then scanNext seg s
  else if possibleCandidate seg r then
    let c : Candidate := { seg := seg, header := Header.parse r.spare1, trailer := Trailer.parse r.spare0 }
    let s1 := { s with ec := { s.ec with scanHeld := s.ec.scanHeld ++ [c] } }
    if s.ec.stopPending then s1 else handOp .engine (.readRow seg 0) s1
  else scanNext seg (classify seg .unclean s)

/-- R161 test 4: row 0 of a possible candidate has been read. The header is the one READ_TRAILERS returned (log 25). -/
def scanRow0 (seg : Nat) (r : ReadRow) (s : State) : State :=
  match s.ec.scanHeld.find? fun c => c.seg == seg with
  | none => scanNext seg s
  | some c =>
    let s1 := { s with ec := { s.ec with scanHeld := s.ec.scanHeld.filter fun x => x.seg != seg } }
    if rowVerified r 0 then
      scanNext seg { s1 with ec := { s1.ec with
        candidates := s1.ec.candidates ++ [{ seg := seg, header := c.header, trailer := rowTrailer r }] } }
    else scanNext seg (classify seg .unclean s1)

/-- R161: a read of the scan completes. -/
def scanResult (r : FlashRead) (s : State) : State :=
  if s.ec.engine = .mounting ∧ s.ec.step = .scan then
    match s.fs.ending with
    | none => s
    | some (c, op) =>
      match op.source, op.act, r with
      | .engine, .readTrailers seg _, .trailers x => scanTrailers seg x (completeOp c s)
      | .engine, .readRow seg _, .row x => scanRow0 seg x (countCorrected x (completeOp c s))
      | _, _, _ => s
  else s

/-! ### Epoch, order and cuts (R162, R163) -/

/-- The highest epoch among candidates. -/
def currentEpoch (cs : List Candidate) : Nat := cs.foldl (fun e c => max e c.header.epoch) 0

/-- Insert by open_serial, lowest first. -/
def insertSerial (c : Candidate) : List Candidate → List Candidate
  | [] => [c]
  | h :: t => if c.header.openSerial < h.header.openSerial then c :: h :: t else h :: insertSerial c t

/-- Candidates in open_serial order. -/
def sortSerial (cs : List Candidate) : List Candidate := cs.foldl (fun l c => insertSerial c l) []

/-- R163 step 2: no other candidate shares the serial. -/
def uniqueSerial (cs : List Candidate) (c : Candidate) : Bool :=
  decide ((cs.countP fun x => x.header.openSerial == c.header.openSerial) ≤ 1)

/-- R163 step 3: no candidate with a greater serial names the same predecessor. -/
def latestOfPredecessor (cs : List Candidate) (c : Candidate) : Bool :=
  c.header.noCut || !(cs.any fun x => !x.header.noCut && x.header.predecessor == c.header.predecessor &&
    decide (c.header.openSerial < x.header.openSerial))

/-- R116, R163 step 4: the candidate whose cut applies to `p`. -/
def cutOf (cs : List Candidate) (p : Candidate) : Option Candidate :=
  cs.find? fun c => !c.header.noCut && c.header.predecessor == p.seg &&
    decide (p.header.openSerial < c.header.openSerial)

/-- A member of the mount, with row limit and retire_on_reclaim; row 0 was accepted at the scan (R163, R165). -/
def memberOf (cs : List Candidate) (c : Candidate) : Member :=
  let limit := match cutOf cs c with
    | some x => x.header.cutRow
    | none => 63
  let holds := decide (1 ≤ c.trailer.count)
  { seg := c.seg
    header := c.header
    limit := limit
    retire := (cutOf cs c).isSome
    rowsValid := if limit = 0 then 0 else 1
    lastSeq := if holds ∧ limit ≠ 0 then c.trailer.lastSeq else c.header.firstSeq - 1
    keys := if holds ∧ limit ≠ 0 then some (c.trailer.firstKey, c.trailer.lastKey) else none
    full := false
    prog := if limit = 63 then .digestRow else if limit ≤ 1 then .done else .scanRow 1 }

/-- Several segments are classified alike. -/
def classifyAll (st : SegState) : List Nat → State → State
  | [], s => s
  | seg :: t, s => classifyAll st t (classify seg st s)

/-! ### Member reads (R164, R165) -/

/-- The next read of a member. -/
def Member.nextRead (m : Member) : Option FlashAct :=
  match m.prog with
  | .digestRow => some (.readRow m.seg 63)
  | .trailer62 _ => some (.readTrailers m.seg 62)
  | .scanRow r => some (.readRow m.seg r)
  | .done => none

/-- The EC hands the next member read of a die: its members in open_serial order, one read at a time. -/
def handMember (d : Fin 4) (s : State) : State :=
  if s.ec.stopPending then s
  else
    match s.ec.members.find? fun m => segDie m.seg == d && m.prog != .done with
    | none => s
    | some m =>
      match m.nextRead with
      | none => s
      | some act => handOp .engine act s

/-- Hand the first member read of each die. -/
def handMembers : List (Fin 4) → State → State
  | [], s => s
  | c :: cs, s => handMembers cs (handMember c s)

/-- R162: no candidate: the mount ends without an archive. -/
def endUnformatted (s : State) : State :=
  let s1 := rebuildPools s
  setEvent .unformatted { s1 with
    cu := { s1.cu with orderList := [], oldest := 0, epoch := 0, mode := .wrap, nextSerial := 0 }
    rp := { Rp.reset with discardFirst := s.rp.discardFirst, discardLast := s.rp.discardLast }
    cp := { s1.cp with trimPoint := 0 }
    ec := { s1.ec.noProcedure with engine := .unformatted, loaded := false } }

/-- R162, R163: the scan has ended. -/
def scanEnd (s : State) : State :=
  if s.ec.engine = .mounting ∧ s.ec.step = .scan ∧ s.fs.quiet ∧ !s.ec.stopPending then
    if s.ec.candidates.isEmpty then endUnformatted s
    else
      let epoch := currentEpoch s.ec.candidates
      let sorted := sortSerial (s.ec.candidates.filter fun c => c.header.epoch == epoch)
      let single := sorted.filter (uniqueSerial sorted)
      let kept := single.filter (latestOfPredecessor single)
      let stale := (s.ec.candidates.filter fun c => c.header.epoch != epoch).map Candidate.seg
      let dropped := (sorted.filter fun c => !kept.contains c).map Candidate.seg
      let s1 := classifyAll .unclean dropped (classifyAll .stale stale s)
      handMembers chipEnables { s1 with ec := { s1.ec with
        candidates := kept, members := kept.map (memberOf kept), step := .memberRead } }
  else s

/-- R164: the digest entries of a row 63 that meets the first three conditions. -/
def memberDigest (m : Member) (r : ReadRow) : Option (List DigestEntry) :=
  let es := digestEntries r.data
  if digestRowVerified r m.header.epoch ∧ digestChain es ∧ es.head?.map DigestEntry.firstSeq = some m.header.firstSeq then
    some es
  else none

/-- R164: the row-62 trailer agrees with the last digest entry. -/
def digestAgrees (m : Member) (es : List DigestEntry) (t : Trailer) : Bool :=
  t.wellFormed 62 && decide (t.epoch = m.header.epoch) && decide (1 ≤ t.count) &&
    (match es.getLast? with
      | some e => decide (e.firstSeq = t.firstSeq) && decide (e.firstKey = t.firstKey) && decide (e.count = t.count)
      | none => false)

/-- R164: the extent of a FULL member. -/
def Member.asFull (m : Member) (es : List DigestEntry) (t : Trailer) : Member :=
  let firstKey := match es.find? fun e => decide (1 ≤ e.count) with
    | some e => e.firstKey
    | none => 0
  { m with rowsValid := 64, lastSeq := t.lastSeq, keys := some (firstKey, t.lastKey), full := true, prog := .done }

/-- R165: row `r` of a member is accepted. -/
def memberRowAccepted (m : Member) (r : Nat) (x : ReadRow) : Bool :=
  let t := rowTrailer x
  rowVerified x r && decide (t.epoch = m.header.epoch) && decide (1 ≤ t.count) &&
    decide (t.firstSeq = m.lastSeq + 1) &&
    (match m.keys with
      | some k => decide (k.2 ≤ t.firstKey)
      | none => true)

/-- R165: an accepted row extends the member. -/
def Member.extend (m : Member) (r : Nat) (t : Trailer) : Member :=
  { m with
    rowsValid := r + 1
    lastSeq := t.lastSeq
    keys := match m.keys with
      | some k => some (k.1, t.lastKey)
      | none => some (t.firstKey, t.lastKey)
    prog := if r + 1 < m.limit then .scanRow (r + 1) else .done }

/-- A member after one of its reads (R164, R165). -/
def Member.afterRow (m : Member) (row : Nat) (x : ReadRow) : Member :=
  match m.prog with
  | .digestRow => { m with prog := .trailer62 (memberDigest m x) }
  | .scanRow r =>
    if r = row then
      if memberRowAccepted m r x then m.extend r (rowTrailer x) else { m with prog := .done }
    else m
  | .trailer62 _ => m
  | .done => m

/-- A member after the read of its row-62 trailer (R164). -/
def Member.afterTrailer (m : Member) (x : ReadSpare) : Member :=
  let t := Trailer.parse x.spare0
  match m.prog with
  | .trailer62 (some es) => if digestAgrees m es t then m.asFull es t else { m with prog := .scanRow 1 }
  | .trailer62 none => { m with prog := .scanRow 1 }
  | .digestRow => m
  | .scanRow _ => m
  | .done => m

/-- Update the member that a segment is. -/
def updateMember (seg : Nat) (f : Member → Member) (s : State) : State :=
  { s with ec := { s.ec with members := s.ec.members.map fun m => if m.seg = seg then f m else m } }

/-- R164, R165: a member read completes. -/
def memberResult (r : FlashRead) (s : State) : State :=
  if s.ec.engine = .mounting ∧ s.ec.step = .memberRead then
    match s.fs.ending with
    | none => s
    | some (c, op) =>
      match op.source, op.act, r with
      | .engine, .readTrailers seg _, .trailers x =>
        handMember c (updateMember seg (fun m => m.afterTrailer x) (completeOp c s))
      | .engine, .readRow seg row, .row x =>
        handMember c (updateMember seg (fun m => m.afterRow row x) (countCorrected x (completeOp c s)))
      | _, _, _ => s
  else s

/-! ### Empty members, gaps, orphans, erasures (R166, R167) -/

/-- The member holds no record. -/
def Member.empty (m : Member) : Bool := decide (m.lastSeq + 1 = m.header.firstSeq)

/-- R166 step 3: the link of a member to the next older one holds. -/
def linkHolds (newer older : Member) : Bool :=
  decide (newer.header.firstSeq = older.lastSeq + 1) &&
    (match newer.keys, older.keys with
      | some n, some o => decide (o.2 ≤ n.1)
      | _, _ => true)

/-- R166 step 3: from the newest member back, up to the first link that does not hold. -/
def linkedRun : List Member → List Member
  | n :: m :: t => if linkHolds n m then n :: linkedRun (m :: t) else [n]
  | [n] => [n]
  | [] => []

/-- R166 steps 1 and 2: a member stays unless it has no row, or holds no record and is not the newest of those with one. -/
def notEmptied (ms : List Member) (m : Member) : Bool :=
  decide (m.rowsValid ≠ 0) &&
    (!m.empty || ((ms.filter fun x => decide (x.rowsValid ≠ 0)).getLast?.map Member.seg) == some m.seg)

/-- R167: the removed members take the state ERASING, their retire_on_reclaim kept. -/
def eraseMembers : List Member → State → State
  | [], s => s
  | m :: ms, s => eraseMembers ms (setEntry m.seg { Entry.freed with state := .erasing, retire := m.retire } s)

/-- Hand the first erase of each die (R167, R171). -/
def handErases : List (Fin 4) → State → State
  | [], s => s
  | c :: cs, s => handErases cs (ecEraseNext c s)

/-- R166, R167: the member reads have ended. An empty erase list ends the erase step at once (log 19). -/
def readsEnd (s : State) : State :=
  if s.ec.engine = .mounting ∧ s.ec.step = .memberRead ∧ s.fs.quiet ∧ !s.ec.stopPending then
    let left := s.ec.members.filter (notEmptied s.ec.members)
    let kept := (linkedRun left.reverse).reverse
    let removed := s.ec.members.filter fun m => !kept.contains m
    let dirty := (s.cu.catalog.filter fun e => e.2.state == .unclean || e.2.state == .stale).map (·.1)
    let s1 := eraseMembers removed (classifyAll .erasing dirty s)
    let list := (s1.cu.catalog.filter fun e => e.2.state == .erasing).map (·.1)
    handErases chipEnables { s1 with ec := { s1.ec with
      members := kept
      orphans := s1.ec.orphans + BitVec.ofNat 32 (left.length - kept.length)
      eraseList := list
      step := if list.isEmpty then .build else .erase } }
  else s

/-! ### Loading (R168) -/

/-- The entry of a kept member. -/
def Member.entry (m : Member) : Entry where
  state := if m.full then .full else .short
  firstSeq := m.header.firstSeq
  lastSeq := m.lastSeq
  firstKey := (m.keys.map Prod.fst).getD 0
  lastKey := (m.keys.map Prod.snd).getD 0
  openSerial := m.header.openSerial
  rowsValid := m.rowsValid
  hasDigest := m.full
  retire := m.retire
  cause := .noCause

/-- The entries of the kept members. -/
def loadEntries : List Member → State → State
  | [], s => s
  | m :: ms, s => loadEntries ms (setEntry m.seg m.entry s)

/-- The engine enters READY with the catalog loaded (R168, R172). -/
def enterReady (s : State) : State :=
  { s with ec := { s.ec.noProcedure with engine := .ready, loaded := true } }

/-- R168: catalog, marks, RP and flags, in one change. -/
def loadCatalog (head newest : Member) (s : State) : State :=
  let ms := s.ec.members
  let s1 := rebuildPools (loadEntries ms s)
  let key := match ms.reverse.find? fun m => !m.empty with
    | some m => m.entry.lastKey
    | none => 0
  enterReady { s1 with
    cu := { s1.cu with
      orderList := ms.map Member.seg
      oldest := head.header.firstSeq
      epoch := newest.header.epoch
      mode := Retention.ofCode newest.header.mode
      nextSerial := newest.header.openSerial + 1 }
    rp := { Rp.reset with
      discardFirst := s.rp.discardFirst
      discardLast := s.rp.discardLast
      durable := newest.lastSeq
      nextSeq := newest.lastSeq + 1
      keyHigh := key }
    cp := { s1.cp with trimPoint := head.header.firstSeq - 1 } }

/-- R168: the erase step has ended. -/
def catalogLoad (s : State) : State :=
  if s.ec.engine = .mounting ∧ (s.ec.step = .erase ∨ s.ec.step = .build) ∧ s.ec.eraseList = [] ∧ s.fs.quiet ∧
      !s.ec.stopPending then
    match s.ec.members.head?, s.ec.members.getLast? with
    | some h, some n => ruJudge (setEvent .mounted (loadCatalog h n s))
    | _, _ => s
  else s

/-! ### Meanings -/

/-- PROBE_END (R159). -/
def execProbeEnd (s : State) : Host.Outcome State Fault Refusal := done (probeEnd s)

/-- MOUNT_SCAN_RESULT (R160, R161). -/
def execMountScanResult (r : FlashRead) (s : State) : Host.Outcome State Fault Refusal := done (scanResult r s)

/-- MOUNT_SCAN_END (R162, R163). -/
def execMountScanEnd (s : State) : Host.Outcome State Fault Refusal := done (scanEnd s)

/-- MEMBER_READ_RESULT (R164, R165). -/
def execMemberReadResult (r : FlashRead) (s : State) : Host.Outcome State Fault Refusal := done (memberResult r s)

/-- MEMBER_READS_END (R166, R167). -/
def execMemberReadsEnd (s : State) : Host.Outcome State Fault Refusal := done (readsEnd s)

/-- CATALOG_LOAD (R168). -/
def execCatalogLoad (s : State) : Host.Outcome State Fault Refusal := done (catalogLoad s)

end Sys2Proof.Machine
end

