-- ==== Sys2Proof/Machine/Format.lean ====
section
/-!
DEFINITION. The meanings of FORMAT's steps after its taking (09 R171, R172; 05 R99).
-/
namespace Sys2Proof.Machine

/-- R171: an entry FORMAT erases: OPEN, FULL, SHORT, ERASING, UNCLEAN, STALE, or RETIRED with cause MARK. -/
def Entry.formatErases (e : Entry) : Bool :=
  match e.state with
  | .free => false
  | .opened => true
  | .full => true
  | .short => true
  | .erasing => true
  | .retired => e.cause == .mark
  | .unclean => true
  | .stale => true

/-- R171: at the flash quiet report after the take, the erases begin. Where the FS is quiet already at the take, when R77 makes
no report, the standing condition serves as the report: the model's choice (log 34). -/
def formatQuiet (s : State) : State :=
  if s.ec.engine = .formatting ∧ s.ec.step = .formatWait ∧ s.fs.quiet then
    handErases chipEnables { s with ec := { s.ec with
      step := .formatErase
      eraseList := (s.cu.catalog.filter fun e => e.2.formatErases).map (·.1) } }
  else s

/-- R171: the epoch of the new archive: the previous one + 1; past 2^32 − 1 a free value (log 16). -/
def raiseEpoch (s : State) : State :=
  if s.cu.epoch < max32 then { s with cu := { s.cu with epoch := s.cu.epoch + 1 } }
  else { s with cu := { s.cu with epoch := (Config.epochPastMax s.draws).toNat }, draws := s.draws + 1 }

/-- The mode the served FORMAT card names (R170). -/
def formatMode (s : State) : Retention :=
  match s.cp.served with
  | some v => Retention.ofCode v.work.argC
  | none => .wrap

/-- R99: the header row of a segment FORMAT opens. -/
def headerRow (seg : Nat) (s : State) : FlashAct :=
  .programRow seg 0 (erased 4096) (trailerBytes s.cu.epoch 0 0 1 0 0 0 [])
    (headerBytes s.cu.epoch (s.cu.entry seg).openSerial 1 s.cu.mode 0xFF 0xFFFF)

/-- R172: the free pool is empty at the opening: UNFORMATTED, or HALTED with a stop pending (R176), and the card is answered
ARCHIVE_FULL. -/
def formatFailed (s : State) : State :=
  let s1 := { s with
    rp := { s.rp with nextSeq := 0, keyHigh := 0, durable := 0, readOnly := false, fullSeen := false }
    cu := { s.cu with oldest := 0 }
    cp := { s.cp with trimPoint := 0 } }
  let s2 := cpAnswer { outcome := .archiveFull, word := s.cu.epoch } s1
  if s2.ec.stopPending then enterHalted s2
  else { s2 with ec := { s2.ec.noProcedure with engine := .unformatted } }

/-- R99, R172: the head of the pool is opened with its header row. -/
def openFormatSegment (s : State) : State :=
  match s.cu.freePool with
  | seg :: _ =>
    let s1 := joinSegment seg 1 s
    handOp .engine (headerRow seg s1) { s1 with ec := { s1.ec with step := .formatHeader } }
  | [] => formatFailed s

/-- R171, R172: the last erase or mark has completed; with no segment to erase, the erase step ends at once (log 34). -/
def formatErasesEnd (s : State) : State :=
  if s.ec.engine = .formatting ∧ s.ec.step = .formatErase ∧ s.ec.eraseList = [] ∧ s.fs.quiet then
    let s1 := raiseEpoch (rebuildPools s)
    openFormatSegment { s1 with cu := { s1.cu with mode := formatMode s, nextSerial := 1 } }
  else s

/-- R172: the header row passed: marks, RP and flags of a completed FORMAT, the card answered DONE with the new epoch, and
the engine READY, or STOPPING with a stop pending (R176). -/
def formatDone (seg : Nat) (s : State) : State :=
  let s1 := setEntry seg { s.cu.entry seg with rowsValid := 1 } s
  let s2 := { s1 with
    cu := { s1.cu with oldest := 1 }
    cp := { s1.cp with trimPoint := 0 }
    rp := { Rp.reset with
      openSeg := some { seg := seg, nextRow := 1 }
      rowMap := [{ row := 0, firstSeq := 1, firstKey := 0, count := 0 }]
      nextSeq := 1
      discardFirst := s.rp.discardFirst
      discardLast := s.rp.discardLast } }
  let s3 := cpAnswer { outcome := .done, word := s.cu.epoch } s2
  if s.ec.stopPending then ruJudge (enterStopping (enterReady s3)) else ruJudge (enterReady s3)

/-- R172: FORMAT's header row program completes. -/
def headerRowResult (passed : Bool) (s : State) : State :=
  if s.ec.engine = .formatting ∧ s.ec.step = .formatHeader then
    match s.fs.ending with
    | none => s
    | some (c, op) =>
      match op.source, op.act with
      | .engine, .programRow seg _ _ _ _ =>
        let s1 := completeOp c s
        if passed then formatDone seg s1 else openFormatSegment (claimRetireLast seg s1)
      | _, _ => s
  else s

/-- FORMAT_QUIET (R171). -/
def execFormatQuiet (s : State) : Host.Outcome State Fault Refusal := done (formatQuiet s)

/-- FORMAT_ERASES_END (R171, R172). -/
def execFormatErasesEnd (s : State) : Host.Outcome State Fault Refusal := done (formatErasesEnd s)

/-- FORMAT_HEADER_ROW_COMPLETE (R172). -/
def execFormatHeaderRowComplete (p0 p1 : PlaneStatus) (s : State) : Host.Outcome State Fault Refusal :=
  done (headerRowResult (bothPass p0 p1) s)

end Sys2Proof.Machine
end

