-- ==== Sys2Proof/Machine/Port.lean ====
section
/-!
DEFINITION. The meanings of the resets and of the host's accesses to the slave port (01; 10 R175, R176, R183, R184).
-/
namespace Sys2Proof.Machine

/-! ### Reads (R1, R2, R5, R7) -/

/-- A byte as a host read returns it: anchor block or latch, unused region, stored bytes, registers, zero. -/
def hostReadByte (s : State) (a : Nat) : Byte :=
  if a < 0x100 then (s.xp.latch.byte a).getD ((anchorBytes s).getD a 0)
  else if a < 0x400 then 0
  else if a < 0x10000 then xmRead s.xp.mem a
  else (registerBytes s).getD (a - 0x10000) 0

/-- The bytes of a read. -/
def hostReadList (s : State) (a : Nat) : Nat → List Byte
  | 0 => []
  | n + 1 => hostReadByte s a :: hostReadList s (a + 1) n

/-- R5: a read that includes byte 0 of a mark field latches the field's bytes 4 to 7. -/
def captured (s : State) (a : Nat) : SnapLatch :=
  match MarkField.ofOffset a with
  | some f => { field := some f, value := BitVec.ofNat 32 (markValue s f / 4294967296) }
  | none => s.xp.latch

/-- A host read: the data lines carry the bytes, and the latch captures. -/
def hostRead (a n : Nat) (s : State) : State :=
  { s with xp := { s.xp with
    portData := BitVec.ofNat 32 (leNat (hostReadList s a n))
    latch := captured s a } }

/-! ### Register writes (R7, R9, R10, R11) -/

/-- The byte a write carries for an offset, if its lanes cover it. -/
def laneByte (a : Nat) (bytes : List Byte) (off : Nat) : Option Byte :=
  if off < a then none else bytes[off - a]?

/-- A register value with the written lanes replaced (R7). -/
def mergeLanes (a : Nat) (bytes : List Byte) (reg old : Nat) : Nat :=
  leNat [(laneByte a bytes reg).getD (BitVec.ofNat 8 old), (laneByte a bytes (reg + 1)).getD (BitVec.ofNat 8 (old / 256)),
    (laneByte a bytes (reg + 2)).getD (BitVec.ofNat 8 (old / 65536)),
    (laneByte a bytes (reg + 3)).getD (BitVec.ofNat 8 (old / 16777216))]

/-- R10: each bit written 1 is cleared. -/
def clearEvents (v : Byte) (s : State) : State := { s with xp := { s.xp with events := s.xp.events &&& ~~~v } }

/-- R7: a write to the register window, at an offset from 0x10000 aligned to its width. Writes to IDENT, ENGINE and
offsets from 0x18 are ignored. -/
def registerStore (a : Nat) (bytes : List Byte) (s : State) : State :=
  let reg := a - a % 4
  if reg = 0x04 then controlWrite (laneByte a bytes 0x04) (laneByte a bytes 0x05) s
  else if reg = 0x0C then
    match laneByte a bytes 0x0C with
    | some v => clearEvents v s
    | none => s
  else if reg = 0x10 then
    { s with xp := { s.xp with enable := BitVec.ofNat 9 (mergeLanes a bytes 0x10 s.xp.enable.toNat) } }
  else if reg = 0x14 then
    { s with xp := { s.xp with lineMap := BitVec.ofNat 18 (mergeLanes a bytes 0x14 s.xp.lineMap.toNat) } }
  else s

/-! ### Meanings -/

/-- POWER_ON_RESET (R184). -/
def execPowerOnReset (s : State) : Host.Outcome State Fault Refusal := done (resetAll s)

/-- PIN_RESET (R23, R184): the assertion of the pin resets every block; while it is asserted the port accepts no access
(R1); its release ends that (log 6). -/
def execPinReset (asserted : Bool) (s : State) : Host.Outcome State Fault Refusal :=
  done (if asserted then { resetAll s with resetPin := true } else { s with resetPin := false })

/-- SOFT_RESET (R24, R183). -/
def execSoftReset (s : State) : Host.Outcome State Fault Refusal := done (portAccess resetSoft s)

/-- RUN_WRITTEN_1 (R9, R175). -/
def execRunWritten1 (linger : Option Byte) (s : State) : Host.Outcome State Fault Refusal :=
  done (portAccess (writeRun true linger) s)

/-- RUN_WRITTEN_0 (R9, R176). -/
def execRunWritten0 (linger : Option Byte) (s : State) : Host.Outcome State Fault Refusal :=
  done (portAccess (writeRun false linger) s)

/-- LINGER_WRITE (R9): a write of lane 1 of CONTROL alone. -/
def execLingerWrite (value : Byte) (s : State) : Host.Outcome State Fault Refusal :=
  done (portAccess (setLinger value) s)

/-- EVENTS_WRITE (R10). -/
def execEventsWrite (value : Byte) (s : State) : Host.Outcome State Fault Refusal :=
  done (portAccess (clearEvents value) s)

/-- REGISTER_WRITE (R7, R11): any write to the register window; what it does is what its offset says (log 5). -/
def execRegisterWrite (offset : BitVec 16) (w : Width) (data : Word) (s : State) : Host.Outcome State Fault Refusal :=
  done (portAccess (registerStore (alignedOffset w offset.toNat) (accessBytes w data)) s)

/-- HOST_XM_WRITE (R2): any write to the exchange memory window; a lane on a state byte goes through the guard. -/
def execHostXmWrite (offset : BitVec 16) (w : Width) (data : Word) (s : State) : Host.Outcome State Fault Refusal :=
  done (portAccess (xmHostWrite (alignedOffset w offset.toNat) (accessBytes w data)) s)

/-- SNAPSHOT_CAPTURE (R5): a host read; one that includes byte 0 of a mark field captures. -/
def execSnapshotCapture (offset : BitVec 17) (w : Width) (s : State) : Host.Outcome State Fault Refusal :=
  done (portAccess (hostRead (alignedOffset w offset.toNat) (widthSize w)) s)

/-- STATE_BYTE_WRITE (R14, R16): a write from byte 0 of a card, the other lanes stored before the guard decides. -/
def execStateByteWrite (card : Fin 128) (w : Width) (data : Word) (s : State) : Host.Outcome State Fault Refusal :=
  done (portAccess (xmHostWrite (cardBase card) (accessBytes w data)) s)

end Sys2Proof.Machine
end

