-- ==== Sys2Proof/Machine/Program.lean ====
section
/-!
DEFINITION. The meanings of the row program completions (03 R49 to R52, 06 R102 to R109, 09 R170).
-/
namespace Sys2Proof.Machine

/-- R170: a record row program handed before a FORMAT completes: its result is not applied, and the append path's cards
are answered, the served card first. -/
def abortAppend (s : State) : State := answerWaitList .abortedFormat (answerServed .abortedFormat s)

/-- The ending operation is a record row program of the RP: it completes, then `use` sees the buffer and destination while
the catalog is in use, and the append path is aborted while FORMATTING. -/
def recordRowResult (use : BufName → Dest → State → State) (s : State) : State :=
  match s.fs.ending with
  | none => s
  | some (c, op) =>
    if op.isRecordRow then
      let s1 := completeOp c s
      if s.ec.engine.running then
        match s1.rp.find .inFlight with
        | none => s1
        | some n =>
          match (s1.rp.buf n).dest with
          | none => s1
          | some d => use n d s1
      else if s.ec.engine = .formatting then abortAppend s1
      else s1
    else s

/-- R49, R152: a pass; the RU judges a close and any join of a re-examined card. -/
def rowPass (n : BufName) (d : Dest) (s : State) : State :=
  let s1 := rowPassed n d s
  if d.row = 62 then ruJudge s1 else judgeChange s s1

/-- R102, R152: a fail; a replacement taken is an event for the RU and for a card waiting for space, the cut alone one for
the RU. -/
def rowFail (n : BufName) (d : Dest) (s : State) : State :=
  let s1 := relocate n d s
  if s1.cu.freePool.length = s.cu.freePool.length then ruJudge s1 else react s1

/-- R105, R152: a replacement's row 0 fails. -/
def replacementFail (r : Relocation) (n : BufName) (d : Dest) (s : State) : State :=
  let s1 := relocateAgain n r d s
  if s1.cu.freePool.length = s.cu.freePool.length then ruJudge s1 else react s1

/-- R52: a digest program completes; its result is applied while the catalog is in use (R170). -/
def digestResult (passed : Bool) (s : State) : State :=
  match s.fs.ending with
  | none => s
  | some (c, op) =>
    match op.act with
    | .programRow seg _ _ _ _ =>
      if op.isDigestRow then
        let s1 := completeOp c s
        if s.ec.engine.running then nextDigest (claimDigest seg passed s1) else s1
      else s
    | .probe _ => s
    | .resetDie _ => s
    | .readRow _ _ => s
    | .readTrailers _ _ => s
    | .programMark _ _ => s
    | .eraseSegment _ => s

/-- ROW_PROGRAM_PASS (R49, R104). -/
def execRowProgramPass (s : State) : Host.Outcome State Fault Refusal := done (recordRowResult rowPass s)

/-- ROW_PROGRAM_FAIL (R50, R102): a fail on either plane, where no replacement row 0 awaits its result. -/
def execRowProgramFail (_planes : FailPlanes) (s : State) : Host.Outcome State Fault Refusal :=
  match s.rp.relocation with
  | none => done (recordRowResult rowFail s)
  | some _ => done s

/-- REPLACEMENT_ROW0_FAIL (R105): a fail on either plane of the row 0 the relocation record awaits; while FORMATTING the
discard has cleared the record and the result is not applied (R106, R170). -/
def execReplacementRow0Fail (_planes : FailPlanes) (s : State) : Host.Outcome State Fault Refusal :=
  match s.rp.relocation with
  | some r => done (recordRowResult (replacementFail r) s)
  | none => if s.ec.engine = .formatting then done (recordRowResult (fun _ _ t => t) s) else done s

/-- DIGEST_PROGRAM_COMPLETE (R52, R109). -/
def execDigestProgramComplete (p0 p1 : PlaneStatus) (s : State) : Host.Outcome State Fault Refusal :=
  done (digestResult (bothPass p0 p1) s)

end Sys2Proof.Machine
end

