-- ==== Sys2Proof/Machine/Stop.lean ====
section
/-!
DEFINITION. The meanings of the two completions of a stop (10 R176, R180).
-/
namespace Sys2Proof.Machine

/-- R176: a stop pending in PROBING or MOUNTING ends at the flash quiet report. -/
def haltOnQuiet (s : State) : State :=
  if s.ec.stopPending ∧ (s.ec.engine = .probing ∨ s.ec.engine = .mounting) ∧ s.fs.quiet then enterHalted s else s

/-- R180: all five quiet flags are set: the catalog is unloaded, the open segment none, the RU reset, the engine HALTED. -/
def stopComplete (s : State) : State :=
  if s.ec.engine = .stopping ∧ s.ec.quiet.all then enterHalted { closePacker s with ru := .reset } else s

/-- HALT_ON_QUIET (R176). -/
def execHaltOnQuiet (s : State) : Host.Outcome State Fault Refusal := done (haltOnQuiet s)

/-- STOP_COMPLETE (R180). -/
def execStopComplete (s : State) : Host.Outcome State Fault Refusal := done (stopComplete s)

end Sys2Proof.Machine
end

