-- ==== Sys2Proof/Machine/Dispatch.lean ====
section
/-!
DEFINITION. The effect of each command on everything but the queue: one arm for each row of the table.
-/
namespace Sys2Proof.Machine

/-- What a command does, by the rules cited at its meaning. -/
def exec (i : Instr) (s : State) : Host.Outcome State Fault Refusal :=
  match i with
  | .powerOnReset => Sys2Proof.Machine.execPowerOnReset s
  | .pinReset asserted => Sys2Proof.Machine.execPinReset asserted s
  | .softReset => Sys2Proof.Machine.execSoftReset s
  | .runWritten1 linger => Sys2Proof.Machine.execRunWritten1 linger s
  | .runWritten0 linger => Sys2Proof.Machine.execRunWritten0 linger s
  | .lingerWrite value => Sys2Proof.Machine.execLingerWrite value s
  | .eventsWrite value => Sys2Proof.Machine.execEventsWrite value s
  | .registerWrite offset width data => Sys2Proof.Machine.execRegisterWrite offset width data s
  | .hostXmWrite offset width data => Sys2Proof.Machine.execHostXmWrite offset width data s
  | .snapshotCapture offset width => Sys2Proof.Machine.execSnapshotCapture offset width s
  | .stateByteWrite card width data => Sys2Proof.Machine.execStateByteWrite card width data s
  | .append => Sys2Proof.Machine.execAppend s
  | .recordStage => Sys2Proof.Machine.execRecordStage s
  | .flush => Sys2Proof.Machine.execFlush s
  | .lingerExpiry => Sys2Proof.Machine.execLingerExpiry s
  | .rowProgramPass => Sys2Proof.Machine.execRowProgramPass s
  | .rowProgramFail planes => Sys2Proof.Machine.execRowProgramFail planes s
  | .replacementRow0Fail planes => Sys2Proof.Machine.execReplacementRow0Fail planes s
  | .digestProgramComplete plane0 plane1 => Sys2Proof.Machine.execDigestProgramComplete plane0 plane1 s
  | .readSeq => Sys2Proof.Machine.execReadSeq s
  | .readKey => Sys2Proof.Machine.execReadKey s
  | .pinRequest => Sys2Proof.Machine.execPinRequest s
  | .arTrailersResult result => Sys2Proof.Machine.execArTrailersResult result s
  | .arReadRowResult result => Sys2Proof.Machine.execArReadRowResult result s
  | .hold => Sys2Proof.Machine.execHold s
  | .holdRequest => Sys2Proof.Machine.execHoldRequest s
  | .holdRenew => Sys2Proof.Machine.execHoldRenew s
  | .release => Sys2Proof.Machine.execRelease s
  | .trim => Sys2Proof.Machine.execTrim s
  | .census => Sys2Proof.Machine.execCensus s
  | .format => Sys2Proof.Machine.execFormat s
  | .leaseTick => Sys2Proof.Machine.execLeaseTick s
  | .holdExpiry => Sys2Proof.Machine.execHoldExpiry s
  | .removalClaim => Sys2Proof.Machine.execRemovalClaim s
  | .reclaimEraseComplete plane0 plane1 => Sys2Proof.Machine.execReclaimEraseComplete plane0 plane1 s
  | .programMarkComplete plane0 => Sys2Proof.Machine.execProgramMarkComplete plane0 s
  | .ecEraseComplete plane0 plane1 => Sys2Proof.Machine.execEcEraseComplete plane0 plane1 s
  | .flashPhaseEnd => Sys2Proof.Machine.execFlashPhaseEnd s
  | .dieReady die => Sys2Proof.Machine.execDieReady die s
  | .dieTimeout die => Sys2Proof.Machine.execDieTimeout die s
  | .resetDieComplete die => Sys2Proof.Machine.execResetDieComplete die s
  | .resetDieNoReady die => Sys2Proof.Machine.execResetDieNoReady die s
  | .probe b0 b1 b2 b3 => Sys2Proof.Machine.execProbe b0 b1 b2 b3 s
  | .probeEnd => Sys2Proof.Machine.execProbeEnd s
  | .mountScanResult result => Sys2Proof.Machine.execMountScanResult result s
  | .mountScanEnd => Sys2Proof.Machine.execMountScanEnd s
  | .memberReadResult result => Sys2Proof.Machine.execMemberReadResult result s
  | .memberReadsEnd => Sys2Proof.Machine.execMemberReadsEnd s
  | .catalogLoad => Sys2Proof.Machine.execCatalogLoad s
  | .formatQuiet => Sys2Proof.Machine.execFormatQuiet s
  | .formatErasesEnd => Sys2Proof.Machine.execFormatErasesEnd s
  | .formatHeaderRowComplete plane0 plane1 => Sys2Proof.Machine.execFormatHeaderRowComplete plane0 plane1 s
  | .haltOnQuiet => Sys2Proof.Machine.execHaltOnQuiet s
  | .stopComplete => Sys2Proof.Machine.execStopComplete s

end Sys2Proof.Machine
end

