-- ==== Sys2Proof/Machine/Pins.lean ====
section
/-!
DEFINITION. The levels of the output pins, computed from the state (R188, 11.8).
-/
namespace Sys2Proof.Machine

/-- The level of ATTN_A: high while the line is asserted (R12, R188). -/
def attnAPin (s : State) : Bool := s.xp.attnA

/-- The level of ATTN_B. -/
def attnBPin (s : State) : Bool := s.xp.attnB

/-- The level of WAIT_N: low while the port holds an access (R1), high while RESET_N is low (R188). The port holds an access
only while a soft reset is carried out (R183), which is one step here, so it is high in every state (log 22). -/
def waitNPin (_ : State) : Bool := true

/-- The die whose phase is on the bus, an untimed reset command of a soft reset included (R82). -/
def Fs.busPhase (f : Fs) : Option (Fin 4) :=
  match f.softResets with
  | c :: _ => some c
  | [] => f.onBus

/-- The level of a chip enable F_CEn_N: low while a phase of its die is on the bus, high while RESET_N is low (R188). -/
def chipEnableNPin (s : State) (c : Fin 4) : Bool := s.resetPin || s.fs.busPhase != some c

/-- F_IO[7:0] is driven, by the part or the die the phase on the bus belongs to; it is left undriven while RESET_N is low
(R188) and, which the spec does not say, between phases (log 22). -/
def flashIoDriven (s : State) : Bool := !s.resetPin && s.fs.busPhase.isSome

end Sys2Proof.Machine
end

