-- ==== Sys2Proof/Safety.lean ====
section
/-!
DEFINITION. The laws of state that the statements speak of: what holds at reset and what no step breaks.
-/
namespace Sys2Proof.Machine

/-! ### Cards, queues and the answered map (R13, R18, R21, R55) -/

/-- The cards in the three path queues. -/
def queuedCards (s : State) : List CardIx := s.ci.append ++ (s.ci.query ++ s.ci.control)

/-- The cards the paths hold: served, or on the durability wait list. -/
def heldCards (s : State) : List CardIx :=
  (s.rp.served.map RpServed.card).toList ++ (s.rp.waitList.map WaitEntry.card ++
    ((s.ar.served.map ArServed.card).toList ++ (s.cp.served.map CpServed.card).toList))

/-- Exchange memory is in its canonical form, and every card's state byte and answered-map bit agree with its state; a card
is in exactly one queue, once, while POSTED, and held by one path, once, while TAKEN. -/
structure CardsOk (s : State) : Prop where
  canonical : Memory.wf s.xp.mem = true
  stateByte : ∀ c, (cardByte s c).toNat ≤ 3
  answered : ∀ c : CardIx, s.xp.answered.getLsbD c.val = (cardByte s c == CardState.answered.code)
  queuedOnce : (queuedCards s).Nodup
  queued : ∀ c, c ∈ queuedCards s ↔ cardByte s c = CardState.posted.code
  heldOnce : (heldCards s).Nodup
  held : ∀ c, c ∈ heldCards s ↔ cardByte s c = CardState.taken.code

/-! ### The hold table (R143) -/

/-- A tag a hold may carry. -/
def goodTag (tag : Nat) : Prop := 1 ≤ tag ∧ tag ≤ 65535

/-- A low_seq a hold may carry. -/
def goodSeq (q : Nat) : Prop := 1 ≤ q ∧ q ≤ maxSeq

/-- An entry is ACTIVE with a tag and a low_seq, or FREE with every other field 0; its lease fits 32 bits. -/
def Hold.ok (h : Hold) : Prop :=
  h.remaining ≤ max32 ∧ ((h.active = true ∧ goodTag h.tag ∧ goodSeq h.lowSeq) ∨ h = Hold.freed)

/-- Eight entries, each well formed, ACTIVE tags distinct; and a HOLD that waits for the RU's answer has passed checks 1
to 3 of R144, which no card can undo while it is served. -/
structure HoldsOk (s : State) : Prop where
  eight : s.cp.holds.length = 8
  entries : ∀ h ∈ s.cp.holds, h.ok
  distinct : ((s.cp.holds.filter fun h => h.active).map Hold.tag).Nodup
  waiting : ∀ v, s.cp.served = some v → v.job = .hold →
    goodTag v.work.argC ∧ goodSeq v.work.argA ∧ heldBy v.work.argC s.cp.holds = none

/-! ### The flash bus (R64, R72, R75, R78) -/

/-- A die has an operation at its head exactly while a phase or a busy period of it stands, and its timer runs exactly in
a busy period. -/
structure Die.ok (d : Die) : Prop where
  idle : d.stage = .idle ↔ d.queue = []
  timed : d.timer.isSome = true ↔ d.stage = .busy

/-- Each die is as above; the bus carries at most one phase, none while a soft reset's command is on it; and a phase waits
only while the bus is taken. -/
structure BusOk (f : Fs) : Prop where
  dies : ∀ c, (f.die c).ok
  single : ∀ c d, (f.die c).selected = true → (f.die d).selected = true → c = d
  resetFirst : f.softResets ≠ [] → ∀ c, (f.die c).selected = false
  working : f.busBusy = false → f.pendingSet = []

/-! ### Row buffers (R41, R53) -/

/-- A buffer is EMPTY exactly while it holds no record, and exactly while it has no destination. -/
structure RowBuffer.ok (b : RowBuffer) : Prop where
  records : b.state = .empty ↔ b.records = []
  dest : b.state = .empty ↔ b.dest = none

/-- Both buffers are as above, at most one is FILLING, and the linger timer runs only while one is. -/
structure BuffersOk (s : State) : Prop where
  bufA : s.rp.bufA.ok
  bufB : s.rp.bufB.ok
  single : ¬ (s.rp.bufA.state = .filling ∧ s.rp.bufB.state = .filling)
  linger : s.rp.lingerTimer.isSome = true → s.rp.find .filling ≠ none

/-! ### The engine (R85, R174) -/

/-- The catalog is loaded exactly in READY and STOPPING, and a stop is pending only where R176 leaves it so. -/
structure EngineOk (s : State) : Prop where
  loaded : s.ec.loaded = s.ec.engine.running
  stopPending : s.ec.stopPending = true →
    s.ec.engine = .probing ∨ s.ec.engine = .mounting ∨ s.ec.engine = .formatting

/-! ### The paths across the engine states (R59, R170, R179) -/

/-- The RP serves no card and no card waits for durability. -/
def AppendIdle (s : State) : Prop := s.rp.served = none ∧ s.rp.waitList = []

/-- The append path holds cards in READY and STOPPING only, and in FORMATTING until the record row program in flight at
its taking completes; while STOPPING each quiet flag stands as its block's condition does. -/
structure PathsOk (s : State) : Prop where
  appendIdle : s.ec.engine.running = false → s.ec.engine ≠ .formatting → AppendIdle s
  formatting : s.ec.engine = .formatting →
    AppendIdle s ∨ (s.ec.step = .formatWait ∧ recordRowInFlight s = true)
  quiet : s.ec.engine = .stopping → s.ec.quiet = quietNow s

/-! ### The buffer in flight (R41, R48) -/

/-- At most one buffer is IN_FLIGHT, its program stands in a die queue, a buffer's row is one of the record rows, and outside
READY and STOPPING both are EMPTY. -/
structure InFlightOk (s : State) : Prop where
  single : ¬ (s.rp.bufA.state = .inFlight ∧ s.rp.bufB.state = .inFlight)
  handed : s.rp.bufA.state = .inFlight ∨ s.rp.bufB.state = .inFlight → recordRowInFlight s = true
  rows : ∀ n d, (s.rp.buf n).dest = some d → d.row ≤ 62
  idle : s.ec.engine.running = false → s.rp.bufA = .cleared ∧ s.rp.bufB = .cleared

/-! ### The marks (R36) -/

/-- The staged records, those of the buffer with the lower first sequence first. -/
def Rp.staged (p : Rp) : List StagedRec :=
  if p.bufB.records ≠ [] ∧ (p.bufA.records = [] ∨ p.bufB.firstSeq < p.bufA.firstSeq) then
    p.bufB.records ++ p.bufA.records
  else p.bufA.records ++ p.bufB.records

/-- The marks in READY and STOPPING, when the catalog is loaded: their order, the staged records being exactly the
sequences between durable_mark and next_seq, the buffer in flight the first of them and the FILLING one the last, and every
member, and a relocation, beginning at durable_mark + 1 at the latest. -/
structure RunningMarks (s : State) : Prop where
  oldest : s.cu.oldest ≤ s.rp.durable + 1
  durable : s.rp.durable + 1 ≤ s.rp.nextSeq
  next : s.rp.nextSeq ≤ maxSeq + 1
  staged : s.rp.staged.map StagedRec.seq = List.range' (s.rp.durable + 1) (s.rp.nextSeq - (s.rp.durable + 1))
  sent : ∀ n, (s.rp.buf n).state = .inFlight → (s.rp.buf n).firstSeq = s.rp.durable + 1
  filling : ∀ n, (s.rp.buf n).state = .filling → (s.rp.buf n).lastSeq + 1 = s.rp.nextSeq
  members : ∀ m ∈ s.cu.orderList, (s.cu.entry m).firstSeq ≤ s.rp.durable + 1
  replacing : ∀ r, s.rp.relocation = some r → 1 ≤ r.firstSeq ∧ r.firstSeq ≤ s.rp.durable + 1

/-- A member of a mount begins at 1 or above and ends no lower than one below its beginning; a digest kept for it chains from
its beginning. -/
structure Member.ok (m : Member) : Prop where
  first : 1 ≤ m.header.firstSeq
  last : m.header.firstSeq ≤ m.lastSeq + 1
  bound : m.lastSeq ≤ maxSeq
  digest : ∀ es, m.prog = .trailer62 (some es) →
    digestChain es = true ∧ es.head?.map DigestEntry.firstSeq = some m.header.firstSeq

/-- The order of the marks, with what a mount and a FORMAT have found on the way to it. -/
structure MarksOk (s : State) : Prop where
  running : s.ec.engine.running = true → RunningMarks s
  formatEmpty : s.ec.engine = .formatting → s.ec.step ≠ .formatHeader → s.cu.orderList = []
  formatHeader : s.ec.engine = .formatting → ∀ m ∈ s.cu.orderList, (s.cu.entry m).firstSeq ≤ 1
  scanned : s.ec.engine = .mounting → s.ec.step = .scan → ∀ c ∈ s.ec.candidates ++ s.ec.scanHeld,
    1 ≤ c.header.firstSeq ∧ c.trailer.firstSeq = c.header.firstSeq
  bounded : s.ec.engine = .mounting → s.ec.step = .scan → ∀ c ∈ s.ec.candidates, c.trailer.lastSeq ≤ maxSeq
  extents : s.ec.engine = .mounting → s.ec.step = .memberRead → ∀ m ∈ s.ec.members, m.ok
  kept : s.ec.engine = .mounting → s.ec.step = .erase ∨ s.ec.step = .build → ∀ z, s.ec.members.getLast? = some z →
    z.lastSeq ≤ maxSeq ∧ ∀ m ∈ s.ec.members, 1 ≤ m.header.firstSeq ∧ m.header.firstSeq ≤ z.lastSeq + 1

/-- What the medium answers in a mount is sound: no trailer ends above the highest sequence, and the READ_ROW of row 0 gives
the first_seq that READ_TRAILERS gave for it. -/
def readsSound (s : State) : Instr → Prop
  | .mountScanResult (.row r) => (rowTrailer r).lastSeq ≤ maxSeq ∧
      ∀ d seg row, s.fs.ending = some (d, { source := .engine, act := .readRow seg row }) →
        ∀ c ∈ s.ec.scanHeld, c.seg = seg → (rowTrailer r).firstSeq = c.trailer.firstSeq
  | .memberReadResult (.row r) => (rowTrailer r).lastSeq ≤ maxSeq
  | .memberReadResult (.trailers r) => (Trailer.parse r.spare0).lastSeq ≤ maxSeq
  | _ => True

/-! ### The places of the segments (R84, R87, R92, R94) -/

/-- The operations in the die queues. -/
def Fs.ops (f : Fs) : List FlashOp := chipEnables.flatMap fun c => (f.die c).queue

/-- The operations of a source in the die queues. -/
def Fs.acts (f : Fs) (src : Source) : List FlashAct := (f.ops.filter fun op => op.source == src).map FlashOp.act

/-- The collections are in use: the catalog is loaded, or FORMAT has rebuilt them. -/
def collectionsInUse (s : State) : Prop :=
  s.ec.engine.running = true ∨ (s.ec.engine = .formatting ∧ s.ec.step = .formatHeader)

/-- The order list and the free pool hold no segment twice; each segment in them and in the retired set has a state of its
place, and every RETIRED segment is in the retired set. -/
structure Collections (s : State) : Prop where
  orderOnce : s.cu.orderList.Nodup
  poolOnce : s.cu.freePool.Nodup
  members : ∀ x ∈ s.cu.orderList,
    ((s.cu.entry x).state = .opened ∨ (s.cu.entry x).state = .short ∨ (s.cu.entry x).state = .full) ∧
      1 ≤ (s.cu.entry x).firstSeq
  pool : ∀ x ∈ s.cu.freePool, (s.cu.entry x).state = .free
  retired : ∀ x, x ∈ s.cu.retired ↔ (s.cu.entry x).state = .retired

/-- The RU's segments are ERASING, each at one place, and the buffers and the open segment are at the last member. -/
structure RunningPlaces (s : State) : Prop where
  oldest : 1 ≤ s.cu.oldest
  superseded : ∀ x ∈ s.ru.superseded, (s.cu.entry x).state = .erasing
  supersededOnce : s.ru.superseded.Nodup
  operation : ∀ x, s.ru.op = .erase x ∨ s.ru.op = .mark x → (s.cu.entry x).state = .erasing ∧ x ∉ s.ru.superseded
  noEngine : s.fs.acts .engine = []
  buffers : ∀ n, (s.rp.buf n).state ≠ .empty → ∃ d, (s.rp.buf n).dest = some d ∧ s.cu.orderList.getLast? = some d.seg
  openSeg : ∀ o, s.rp.openSeg = some o → s.cu.orderList.getLast? = some o.seg

/-- In a mount's scan no segment is a candidate twice: each die has one read of the scan at most, beyond every segment of the
die that is a candidate already. -/
structure ScanPlaces (s : State) : Prop where
  once : ((s.ec.candidates ++ s.ec.scanHeld).map Candidate.seg).Nodup
  single : ∀ d, (((s.fs.die d).queue).filter fun op => op.source == .engine).length ≤ 1
  reads : ∀ d, ∀ op ∈ (s.fs.die d).queue, op.source = .engine →
    ∃ seg row, op.act = .readTrailers seg row ∨ op.act = .readRow seg row
  trailers : ∀ d, ∀ seg row, { source := .engine, act := .readTrailers seg row } ∈ (s.fs.die d).queue →
    segDie seg = d ∧ ∀ c ∈ s.ec.candidates ++ s.ec.scanHeld, segDie c.seg = d → c.seg < seg
  rows : ∀ d, ∀ seg row, { source := .engine, act := .readRow seg row } ∈ (s.fs.die d).queue →
    segDie seg = d ∧ (∀ c ∈ s.ec.candidates, segDie c.seg = d → c.seg < seg) ∧
      ∀ c ∈ s.ec.scanHeld, segDie c.seg = d → c.seg ≤ seg

/-- Every segment of a collection has the state of its place, with what a mount and a FORMAT have found on the way to it and
the RU's operation being the one in the die queues. -/
structure PlacesOk (s : State) : Prop where
  collections : collectionsInUse s → Collections s
  running : s.ec.engine.running = true → RunningPlaces s
  ruIdle : s.ec.engine.running = false → s.ru.superseded = []
  ruClaim : s.ru.claim.isSome = true → s.ru.op = .idle
  ruOperation : match s.ru.op with
    | .idle => s.fs.acts .reclaim = []
    | .erase seg => s.fs.acts .reclaim = [.eraseSegment seg]
    | .mark seg => ∃ failed, s.fs.acts .reclaim = [.programMark seg failed]
  formatEmpty : s.ec.engine = .formatting → s.ec.step ≠ .formatHeader → s.cu.orderList = []
  formatHeader : s.ec.engine = .formatting → s.ec.step = .formatHeader →
    ∃ seg data sp0 sp1, s.fs.ops = [{ source := .engine, act := .programRow seg 0 data sp0 sp1 }] ∧
      s.cu.orderList = [seg]
  scan : s.ec.engine = .mounting → s.ec.step = .scan → ScanPlaces s
  mounted : s.ec.engine = .mounting → s.ec.step = .memberRead ∨ s.ec.step = .erase ∨ s.ec.step = .build →
    (s.ec.members.map Member.seg).Nodup

/-! ### The catalog's representation (log 27) -/

/-- The catalog is in its canonical form. -/
def CatalogOk (s : State) : Prop := Sparse.wf Entry.freed s.cu.catalog = true

/-! ### What a command does to a card (R19, R20, R21) -/

/-- The card is ANSWERED, its bit of the answered map is 1, and its 32 result bytes hold the answer with durable_mark. -/
structure CardShows (s : State) (c : CardIx) (r : Answer) : Prop where
  state : cardByte s c = CardState.answered.code
  bit : s.xp.answered.getLsbD c.val = true
  result : xmReadList s.xp.mem (cardBase c + 32) 32 = r.bytes s.rp.durable

/-- At the Exchange Port nothing changed but one card's state byte, result bytes and answered-map bit. -/
structure OnlyCard (c : CardIx) (s t : State) : Prop where
  bytes : ∀ a, a ≠ cardBase c → ¬ (cardBase c + 32 ≤ a ∧ a < cardBase c + 64) →
    xmRead t.xp.mem a = xmRead s.xp.mem a
  bits : ∀ d : CardIx, d ≠ c → t.xp.answered.getLsbD d.val = s.xp.answered.getLsbD d.val
  port : { t.xp with mem := s.xp.mem, answered := s.xp.answered } = s.xp

/-- From `s` to `t` the card is answered, and the port changed in nothing else. -/
def AnswersCard (c : CardIx) (r : Answer) (s t : State) : Prop := CardShows t c r ∧ OnlyCard c s t

/-- The bytes of exchange memory that an answer of the card writes. -/
def answerByte (c : CardIx) (a : Nat) : Prop := a = cardBase c ∨ (cardBase c + 32 ≤ a ∧ a < cardBase c + 64)

/-- From `s` to `t` exchange memory and the answered map changed in nothing but the state bytes, result bytes and bits of the
cards that `P` names. -/
structure OnlyCards (P : CardIx → Prop) (s t : State) : Prop where
  bytes : ∀ a, (∀ c, P c → ¬ answerByte c a) → xmRead t.xp.mem a = xmRead s.xp.mem a
  bits : ∀ c : CardIx, ¬ P c → t.xp.answered.getLsbD c.val = s.xp.answered.getLsbD c.val

/-- The card is on the durability wait list. -/
def onWaitList (s : State) (c : CardIx) : Prop := ∃ w ∈ s.rp.waitList, w.card = c

/-- The card is the append path's served card. -/
def servedByAppend (s : State) (c : CardIx) : Prop := ∃ v, s.rp.served = some v ∧ v.card = c

/-- The card is the query path's served card. -/
def servedByQuery (s : State) (c : CardIx) : Prop := ∃ v, s.ar.served = some v ∧ v.card = c

/-- From `s` to `t` the card's state becomes the one given, not ANSWERED, and the port changed in nothing else. -/
structure MovesCard (c : CardIx) (st : CardState) (s t : State) : Prop where
  state : cardByte t c = st.code
  bit : t.xp.answered.getLsbD c.val = false
  bytes : ∀ a, a ≠ cardBase c → xmRead t.xp.mem a = xmRead s.xp.mem a
  bits : ∀ d : CardIx, d ≠ c → t.xp.answered.getLsbD d.val = s.xp.answered.getLsbD d.val
  port : { t.xp with mem := s.xp.mem, answered := s.xp.answered } = s.xp

/-! ### When a path takes a card (R18, R19, R177) -/

/-- The path has no served card. -/
def pathFree (p : CardPath) (s : State) : Prop :=
  match p with
  | .append => s.rp.served = none
  | .query => s.ar.served = none
  | .control => s.cp.served = none

/-- A take command: its path, the cards it takes among those of its path (log 23), and whether it serves them in
UNFORMATTED too. -/
structure TakeRow where
  path   : CardPath
  mine   : Work → Bool
  always : Bool

/-- The take commands of the table. -/
def takeRow (i : Instr) : Option TakeRow :=
  if i = .append then some ⟨.append, fun w => w.kind == some .append, false⟩
  else if i = .flush then some ⟨.append, fun w => w.kind == some .flush, false⟩
  else if i = .readSeq then some ⟨.query, fun w => w.kind == some .readSeq, false⟩
  else if i = .readKey then some ⟨.query, fun w => w.kind == some .readKey, false⟩
  else if i = .hold then some ⟨.control, fun w => w.kind == some .hold && !w.flag0, false⟩
  else if i = .holdRenew then some ⟨.control, fun w => w.kind == some .hold && w.flag0, false⟩
  else if i = .release then some ⟨.control, fun w => w.kind == some .release, false⟩
  else if i = .trim then some ⟨.control, fun w => w.kind == some .trim, false⟩
  else if i = .census then some ⟨.control, fun w => w.kind == some .census, true⟩
  else if i = .format then some ⟨.control, fun w => w.kind == some .format, true⟩
  else none

/-- READY, the path free, card `c` at the head of its queue with a reserved byte of 0, and exchange memory canonical. -/
structure Takes (p : CardPath) (c : CardIx) (s : State) : Prop where
  ready : s.ec.engine = .ready
  head : (s.ci.queue p).head? = some c
  free : pathFree p s
  reserved : (cardWork s c).reserved = 0
  memory : Memory.wf s.xp.mem = true

/-- The Card Intake after the head of a queue has left it. -/
def tailed (p : CardPath) (s : State) : Ci := (setQueue p (s.ci.queue p).tail s).ci

/-- The card is taken and answered in the same step. -/
def TakeAnswers (p : CardPath) (c : CardIx) (r : Answer) (s t : State) : Prop :=
  AnswersCard c r s t ∧ t.ci = tailed p s

/-- The card is taken and stays TAKEN. -/
def TakeKeeps (p : CardPath) (c : CardIx) (s t : State) : Prop := MovesCard c .taken s t ∧ t.ci = tailed p s

/-! ### Results of flash operations (R64) -/

/-- The engine is READY, or STOPPING, where what is in flight runs on and its results count (R59, R137, R156, R179). -/
def Running (s : State) : Prop := s.ec.engine = .ready ∨ s.ec.engine = .stopping

/-- The operation of source `src` and content `act` is the one whose last phase ends, on die `d`, in READY or STOPPING. -/
structure Ends (d : Fin 4) (src : Source) (act : FlashAct) (s : State) : Prop where
  running : Running s
  ending : s.fs.ending = some (d, { source := src, act := act })

/-- From `s` to `t` the completed head of die `d` leaves its queue, the operations given join the tails of their dies'
queues, and the mask, the counter and the soft resets are kept. -/
structure QueuesAfter (d : Fin 4) (acts : List FlashOp) (s t : State) : Prop where
  queue : ∀ e, (t.fs.die e).queue =
    (if e = d then (s.fs.die e).queue.tail else (s.fs.die e).queue) ++ acts.filter fun op => op.act.die == e
  mask : t.fs.mask = s.fs.mask
  corrected : t.fs.corrected = s.fs.corrected
  softResets : t.fs.softResets = s.fs.softResets

/-- From `s` to `t` the operations given join the tails of their dies' queues. -/
structure QueuesGain (acts : List FlashOp) (s t : State) : Prop where
  queue : ∀ e, (t.fs.die e).queue = (s.fs.die e).queue ++ acts.filter fun op => op.act.die == e
  mask : t.fs.mask = s.fs.mask
  corrected : t.fs.corrected = s.fs.corrected
  softResets : t.fs.softResets = s.fs.softResets

/-! ### The checks of trailers, rows and digests (R97, R98, R130, R164, R165) -/

/-- The row trailer in plane-0 spare bytes is well-formed as read from row `row` (R97): magic, epoch and row index, and the
fields of a record row, whose first_seq is 1 or above (log 24), of a FORMAT header row, whose check is over the trailer bytes
alone (log 32), or of a digest row. -/
structure TrailerFormed (sp : List Byte) (row : Nat) : Prop where
  magic : field sp 1 2 = 0x5E54
  epoch : 1 ≤ field sp 3 4
  index : field sp 7 1 = row
  column :
    (row ≤ 62 ∧ 1 ≤ field sp 8 2 ∧ field sp 8 2 ≤ 256 ∧ 1 ≤ field sp 10 6 ∧ field sp 16 4 ≤ field sp 20 4 ∧
      16 ≤ field sp 24 2 ∧ field sp 24 2 ≤ 4096 ∧ 16 * field sp 8 2 ≤ field sp 24 2) ∨
    (row = 0 ∧ field sp 8 2 = 0 ∧ field sp 10 6 = 1 ∧ field sp 16 4 = 0 ∧ field sp 20 4 = 0 ∧ field sp 24 2 = 0 ∧
      field sp 26 2 = crc16 (trailerBody (field sp 3 4) 0 0 1 0 0 0)) ∨
    (row = 63 ∧ field sp 8 2 = 0 ∧ field sp 10 6 = 0 ∧ field sp 16 4 = 0 ∧ field sp 20 4 = 0 ∧ field sp 24 2 = 756)

/-- The row's trailer is verified (R97): well-formed, and its check is right over the 25 trailer bytes before it and the
filled data. -/
structure RowChecked (r : ReadRow) (row : Nat) : Prop where
  formed : TrailerFormed r.spare0 row
  check : crc16 ((r.spare0.drop 1).take 25 ++ r.data.take (field r.spare0 24 2)) = field r.spare0 26 2

/-- The AR knows a row's first sequence and record count: from the held digest, which holds one entry for each row in row
order, else from the copied row map (R130). -/
def RowKnown (a : Ar) (row first count : Nat) : Prop :=
  match a.heldDigest with
  | some es => ∃ k, es[row]? = some { firstSeq := first, firstKey := k, count := count }
  | none => ∃ k, (a.rows.find? fun e => e.row == row) =
      some { row := row, firstSeq := first, firstKey := k, count := count }

/-- A row read is accepted by the AR (R130): verified, the CU's epoch, a record at least, and the first sequence the AR
expects, where it knows one, from the held digest or row map or else from the end of the row walked before. -/
structure RowAcceptable (s : State) (row : Nat) (r : ReadRow) : Prop where
  checked : RowChecked r row
  epoch : field r.spare0 3 4 = s.cu.epoch
  records : 1 ≤ field r.spare0 8 2
  known : ∀ first count, RowKnown s.ar row first count → field r.spare0 10 6 = first
  expected : (∀ first count, ¬ RowKnown s.ar row first count) → ∀ q, s.ar.expected = some q → field r.spare0 10 6 = q

/-- A row read extends a member of a mount (R165). -/
structure MemberRowAcceptable (m : Member) (row : Nat) (r : ReadRow) : Prop where
  checked : RowChecked r row
  epoch : field r.spare0 3 4 = m.header.epoch
  records : 1 ≤ field r.spare0 8 2
  first : field r.spare0 10 6 = m.lastSeq + 1
  keys : ∀ k, m.keys = some k → k.2 ≤ field r.spare0 16 4

/-- The 63 entries of a digest row's data, each a first_seq, a first_key and a record count (R98). -/
def entriesOf (data : List Byte) : List DigestEntry :=
  (List.range 63).map fun i =>
    { firstSeq := field data (12 * i) 6, firstKey := field data (12 * i + 6) 4, count := field data (12 * i + 10) 2 }

/-- A digest row read under an epoch, beginning at a sequence, is sound (R125, R164): verified, without records, filled to 756,
and each entry beginning where the one before it ends. -/
structure DigestSound (r : ReadRow) (epoch first : Nat) : Prop where
  checked : RowChecked r 63
  epoch : field r.spare0 3 4 = epoch
  records : field r.spare0 8 2 = 0
  fill : field r.spare0 24 2 = 756
  first : field r.data 0 6 = first
  chain : ∀ i < 62, field r.data (12 * (i + 1)) 6 = field r.data (12 * i) 6 + field r.data (12 * i + 10) 2

/-- The trailer of row 62 agrees with the last entry of a digest under an epoch (R164). -/
structure LastRowAgrees (sp : List Byte) (epoch : Nat) (es : List DigestEntry) : Prop where
  formed : TrailerFormed sp 62
  epoch : field sp 3 4 = epoch
  records : 1 ≤ field sp 8 2
  last : es.getLast? = some { firstSeq := field sp 10 6, firstKey := field sp 16 4, count := field sp 8 2 }

/-- A chosen row of the served query card has been read and is accepted, in READY or STOPPING, with exchange memory
canonical. -/
structure ReadsRow (d : Fin 4) (seg row : Nat) (v : ArServed) (r : ReadRow) (s : State) : Prop where
  ends : Ends d .reader (.readRow seg row) s
  memory : Memory.wf s.xp.mem = true
  served : s.ar.served = some v
  work : v.work.badRead = false
  act : s.ar.act = .row
  accepted : RowAcceptable s row r

/-- From `s` to `t` the hold card `v` is decided against an oldest sequence (R145): GONE below it, NO_HOLD_SLOT where no entry
is FREE, and else the lowest-numbered FREE entry becomes ACTIVE and the card is answered DONE. -/
def HoldDecided (oldest : Nat) (v : CpServed) (s t : State) : Prop :=
  if v.work.argA < oldest then
    AnswersCard v.card { outcome := .gone, seq1 := oldest } s t ∧ t.cp = { s.cp with served := none }
  else if ∀ h ∈ s.cp.holds, h.active = true then
    AnswersCard v.card (.plain .noHoldSlot) s t ∧ t.cp = { s.cp with served := none }
  else ∀ pre h post, s.cp.holds = pre ++ h :: post → (∀ x ∈ pre, x.active = true) → h.active = false →
    AnswersCard v.card { outcome := .done, seq1 := v.work.argA, word := v.work.argD } s t ∧
    t.cp = { s.cp with
      served := none
      holds := pre ++ { active := true, tag := v.work.argC, lowSeq := v.work.argA, remaining := v.work.argD } :: post }

/-- A record's fields fit their places in a stored image (R25, R27). -/
def HostRecord.storable (h : HostRecord) : Prop := h.payload.length ≤ 4080 ∧ h.class_ ≤ 255 ∧ h.key ≤ max32

/-- The stored images of records with consecutive sequences from `q`, one after another (R29). -/
def imagesFrom (q : Nat) : List HostRecord → List Byte
  | [] => []
  | h :: t => storedImage h.class_ h.key q h.payload ++ imagesFrom (q + 1) t

/-- From `s` to `t` the FILLING buffer, if there is one, leaves FILLING with its records and destination: it stays CLOSED
while a record row program is in flight; otherwise, unless the other buffer is CLOSED and goes first, it is handed over and is
IN_FLIGHT (R48). -/
def ClosesFilling (s t : State) : Prop :=
  match s.rp.find .filling with
  | none => t.rp.bufA = s.rp.bufA ∧ t.rp.bufB = s.rp.bufB ∧ t.fs = s.fs
  | some n =>
    (t.rp.buf n).records = (s.rp.buf n).records ∧ (t.rp.buf n).dest = (s.rp.buf n).dest ∧
    (recordRowInFlight s = true →
      (t.rp.buf n).state = .closed ∧ t.rp.buf n.other = s.rp.buf n.other ∧ t.fs = s.fs) ∧
    (recordRowInFlight s = false → (s.rp.buf n.other).state ≠ .closed → ∀ d, (s.rp.buf n).dest = some d →
      (t.rp.buf n).state = .inFlight ∧ t.rp.buf n.other = s.rp.buf n.other ∧
      QueuesGain [{ source := .packer, act := bufferProgram s (s.rp.buf n) d }] s t)

/-- Buffer `n`, EMPTY, becomes FILLING for the next row of the open segment, and the linger timer starts unless LINGER is 0
(R43, R53). -/
def startsFilling (n : BufName) (o : OpenSeg) (s : State) : State :=
  setBuf n { state := .filling, records := [], dest := some { seg := o.seg, row := o.nextRow } } { s with rp := { s.rp with
    openSeg := some { o with nextRow := o.nextRow + 1 }
    lingerTimer := if s.xp.linger = 0 then none else some s.xp.linger.toNat } }

/-- The record takes the next sequence and joins buffer `n` with its stored image (R27, R30, R31). -/
def recordJoins (n : BufName) (h : HostRecord) (s : State) : State :=
  setBuf n { s.rp.buf n with records := (s.rp.buf n).records ++
      [{ seq := s.rp.nextSeq, key := h.key, image := storedImage h.class_ h.key s.rp.nextSeq h.payload }] }
    { s with rp := { s.rp with nextSeq := s.rp.nextSeq + 1, keyHigh := h.key } }

/-- From `s` to `t` the record of card `v` is staged into FILLING buffer `n`, which has room (R27, R30, R39, R42, R56): the
buffer closes where its fill reaches 4096 or the record is the last of a SYNC card, or of any card in STOPPING (R59); the last
counted record ends the staging, a card without SYNC answered DONE, a SYNC card answered when its last sequence is durable. -/
structure Stages (n : BufName) (v : RpServed) (h : HostRecord) (s t : State) : Prop where
  marks : t.rp.nextSeq = s.rp.nextSeq + 1 ∧ t.rp.keyHigh = h.key
  closes : (s.rp.buf n).fill + imageSize h.payload.length = 4096 ∨
      (v.staged + 1 = v.work.argC ∧ (v.work.flag0 = true ∨ s.ec.engine = .stopping)) →
    ClosesFilling (recordJoins n h s) t ∧ t.rp.find .filling = none ∧ t.rp.lingerTimer = none
  stays : (s.rp.buf n).fill + imageSize h.payload.length < 4096 →
      ¬ (v.staged + 1 = v.work.argC ∧ (v.work.flag0 = true ∨ s.ec.engine = .stopping)) →
    t.rp.bufA = (recordJoins n h s).rp.bufA ∧ t.rp.bufB = (recordJoins n h s).rp.bufB ∧
      t.rp.lingerTimer = s.rp.lingerTimer ∧ t.fs = s.fs
  goesOn : v.staged + 1 ≠ v.work.argC → t.xp = s.xp ∧ t.rp.waitList = s.rp.waitList ∧
    t.rp.served = some { v with
      staged := v.staged + 1, first := if v.staged = 0 then s.rp.nextSeq else v.first, last := s.rp.nextSeq
      offset := h.next, wait := .staging }
  ends : v.staged + 1 = v.work.argC →
    let r : Answer := {
      outcome := .done, count := v.staged + 1, seq1 := if v.staged = 0 then s.rp.nextSeq else v.first
      seq2 := s.rp.nextSeq }
    t.rp.served = none ∧
      if v.work.flag0 = false ∨ s.rp.nextSeq ≤ s.rp.durable then
        AnswersCard v.card r s t ∧ t.rp.waitList = s.rp.waitList
      else t.xp = s.xp ∧
        t.rp.waitList = s.rp.waitList ++ [{ card := v.card, work := v.work, target := s.rp.nextSeq, answer := r }]
  frame : { t with
    rp := { t.rp with
      served := s.rp.served, bufA := s.rp.bufA, bufB := s.rp.bufB, lingerTimer := s.rp.lingerTimer
      waitList := s.rp.waitList, nextSeq := s.rp.nextSeq, keyHigh := s.rp.keyHigh }
    xp := s.xp, fs := s.fs } = s

/-- The head of the order list may be removed (R151): another member is behind it, it is FULL or SHORT, no hold and not the
read pin keeps it, and it is trimmed or the pool of a WRAP archive is below 6. -/
structure Removable (s : State) (head : Nat) : Prop where
  first : ∃ next rest, s.cu.orderList = head :: next :: rest
  complete : (s.cu.entry head).state = .full ∨ (s.cu.entry head).state = .short
  unheld : ∀ h ∈ s.cp.holds, h.active = true → (s.cu.entry head).lastSeq < h.lowSeq
  unpinned : s.ar.pin ≠ some head
  due : (s.cu.entry head).lastSeq ≤ s.cp.trimPoint ∨ (s.cu.mode = .wrap ∧ s.cu.freePool.length < 6)

/-- RECORD_STAGE answers the served card, which comes to wait, STOPPED with what it had staged, in STOPPING (R59). -/
def EndsStopped (v : RpServed) (s : State) : Prop :=
  ∃ t, exec .recordStage s = .next (settle t) ∧
    AnswersCard v.card { outcome := .stopped, count := v.staged, seq1 := v.first, seq2 := v.last } s t ∧
    t.rp = { s.rp with served := none } ∧ { t with xp := s.xp, rp := s.rp } = s

/-- From `s` to `t` the catalog changed in one entry only. -/
def OnlyEntry (seg : Nat) (e : Entry) (s t : State) : Prop :=
  t.cu.entry seg = e ∧ ∀ x, x ≠ seg → t.cu.entry x = s.cu.entry x

/-- From `s` to `t` the archive becomes read-only (R37, R57, R107): every staged record is discarded and named by the discard
range, the packer is closed, its cards are answered READ_ONLY with what they had, and READ_ONLY is set. -/
structure BecomesReadOnly (s t : State) : Prop where
  flag : t.rp.readOnly = true
  buffers : t.rp.bufA = .cleared ∧ t.rp.bufB = .cleared
  closed : t.rp.openSeg = none ∧ t.rp.rowMap = [] ∧ t.rp.lingerTimer = none ∧ t.rp.relocation = none
  cards : t.rp.served = none ∧ t.rp.waitList = []
  discard : t.rp.discardFirst = s.rp.durable + 1 ∧ t.rp.discardLast = s.rp.nextSeq - 1
  marks : t.rp.nextSeq = s.rp.durable + 1 ∧ t.rp.keyHigh = durableKey s
  kept : t.rp.durable = s.rp.durable ∧ t.rp.digests = s.rp.digests ∧ t.rp.fullSeen = s.rp.fullSeen
  event : t.xp.events = s.xp.events ||| 0x08
  servedShows : ∀ v, s.rp.served = some v →
    CardShows t v.card { outcome := .readOnly, count := v.staged, seq1 := v.first, seq2 := v.last }
  waitingShow : ∀ w ∈ s.rp.waitList, CardShows t w.card { w.answer with outcome := .readOnly }
  others : OnlyCards (fun c => servedByAppend s c ∨ onWaitList s c) s t
  port : { t.xp with mem := s.xp.mem, answered := s.xp.answered, events := s.xp.events } = s.xp

/-- From `s` to `t` the engine enters FAULTED (R181): every bus phase and queued operation is dropped, every POSTED and
TAKEN card is answered FAULTED, staged records are discarded, the packer and the RU are closed. -/
structure EntersFaulted (cause : FaultCause) (s t : State) : Prop where
  engine : t.ec.engine = .faulted ∧ t.ec.cause = cause ∧ t.ec.stopPending = false ∧ t.ec.loaded = false
  event : t.xp.events = s.xp.events ||| 0x04
  dies : ∀ e, t.fs.die e = .cleared
  queues : t.ci = Ci.reset
  posted : ∀ c ∈ queuedCards s, CardShows t c (.plain .faulted)
  servedShows : ∀ v, s.rp.served = some v →
    CardShows t v.card { outcome := .faulted, count := v.staged, seq1 := v.first, seq2 := v.last }
  waitingShow : ∀ w ∈ s.rp.waitList, CardShows t w.card { w.answer with outcome := .faulted }
  queryShows : ∀ v, s.ar.served = some v → CardShows t v.card (.plain .faulted) ∧ t.ar.served = none ∧ t.ar.pin = none
  controlShows : ∀ v, s.cp.served = some v → CardShows t v.card (.plain .faulted)
  others : OnlyCards (fun c => cardByte s c = CardState.posted.code ∨ cardByte s c = CardState.taken.code) s t
  packer : t.rp.served = none ∧ t.rp.waitList = [] ∧ t.rp.openSeg = none ∧ t.rp.rowMap = [] ∧ t.rp.digests = [] ∧
    t.rp.lingerTimer = none ∧ t.rp.relocation = none ∧ t.rp.bufA = .cleared ∧ t.rp.bufB = .cleared
  discard : s.rp.bufA.records ≠ [] ∨ s.rp.bufB.records ≠ [] →
    t.rp.discardFirst = s.rp.durable + 1 ∧ t.rp.discardLast = s.rp.nextSeq - 1 ∧ t.rp.nextSeq = s.rp.durable + 1
  noDiscard : s.rp.bufA.records = [] → s.rp.bufB.records = [] →
    t.rp.discardFirst = s.rp.discardFirst ∧ t.rp.discardLast = s.rp.discardLast ∧ t.rp.nextSeq = s.rp.nextSeq
  reclaim : t.ru = Ru.reset
  control : t.cp = { s.cp with served := none }
  outside : t.pending = s.pending ∧ t.resetPin = s.resetPin ∧ t.draws = s.draws
  kept : t.rp.durable = s.rp.durable ∧ t.rp.readOnly = s.rp.readOnly ∧ t.fs.corrected = s.fs.corrected ∧
    t.ar.damagedRecords = s.ar.damagedRecords ∧ t.ar.damagedRows = s.ar.damagedRows ∧ t.ec.orphans = s.ec.orphans
  port : { t.xp with mem := s.xp.mem, answered := s.xp.answered, events := s.xp.events } = s.xp

/-- The probe record of a chip enable. -/
def probeRecOf (p : ProbeRecs) (c : Fin 4) : ProbeRec :=
  match c with
  | 0 => p.c0
  | 1 => p.c1
  | 2 => p.c2
  | 3 => p.c3

/-! ### CONTROL and the register lanes (R7, R176) -/

/-- From `s` to `t` the engine enters HALTED as RUN written 0 does: stop pending and LOADED clear, the procedure ended,
STOPPED set, and nothing else changed but CONTROL, as `x` holds it. -/
def haltsWith (x : Xp) (s t : State) : Prop :=
  t.xp = { x with events := x.events ||| 0x80 } ∧ t.ec.engine = .halted ∧ t.ec.stopPending = false ∧
    t.ec.loaded = false ∧ t.ec.step = .noStep ∧ t.ec.cause = s.ec.cause ∧ t.ec.probeRec = s.ec.probeRec ∧
    t.ec.orphans = s.ec.orphans ∧ { t with xp := s.xp, ec := s.ec } = s

/-- The bit a register holds after a write of `w` bytes of `d` at offset `a`: from `d` where byte lane `lane` of the register
window is written, the old value elsewhere. -/
def laneBit (a w : Nat) (d : Word) (lane n : Nat) (old : Bool) : Bool :=
  if a ≤ lane ∧ lane < a + w then d.getLsbD (8 * (lane - a) + n) else old

/-- From `s` to `t` a FORMAT that finds no segment to open ends (R172, R176): its card is answered ARCHIVE_FULL with the
epoch, the marks and trim_point are 0 and the archive is not read-only, and the engine is UNFORMATTED, or HALTED with STOPPED
set where a stop is pending. -/
structure FormatFails (v : CpServed) (epoch : Nat) (s t : State) : Prop where
  card : AnswersCard v.card { outcome := .archiveFull, word := epoch }
    (if s.ec.stopPending = true then { s with xp := { s.xp with events := s.xp.events ||| 0x80 } } else s) t
  control : t.cp = { s.cp with served := none, trimPoint := 0 }
  marks : t.rp = { s.rp with nextSeq := 0, keyHigh := 0, durable := 0, readOnly := false, fullSeen := false }
  collections : t.cu.freePool = [] ∧ t.cu.orderList = [] ∧ t.cu.oldest = 0
  engine : t.ec.engine = (if s.ec.stopPending = true then .halted else .unformatted) ∧ t.ec.stopPending = false ∧
    t.ec.step = .noStep ∧ t.ec.loaded = (if s.ec.stopPending = true then false else s.ec.loaded) ∧
    t.ec.cause = s.ec.cause ∧ t.ec.probeRec = s.ec.probeRec ∧ t.ec.orphans = s.ec.orphans ∧ t.ec.quiet = s.ec.quiet

/-- The value the state-byte lane of a write carries. -/
def laneZero (d : Word) : Byte := d.setWidth 8

end Sys2Proof.Machine
end

