-- ==== Sys2Proof/Certificates/Slice0/Obligations.lean ====
section
/-!
DEFINITION. The statements about the EK-112 that are to be proved.
-/

open Sys2Proof Sys2Proof.Machine

/-! ### The block as a whole -/

/-- A step runs the command at the front of the queue on the state with the queue's rest; on an empty queue the block idles
(log 4). -/
def Obligations.StepRunsFrontCommand : Prop :=
  (∀ (c : Instr) (rest : List Instr) (s : State), s.pending = c :: rest → step s = exec c { s with pending := rest }) ∧
  (∀ s : State, s.pending = [] → step s = .next s)

/-- Every command answers a next state and leaves the queue of waiting commands as it is: the block has no stop. -/
def Obligations.EveryCommandCompletes : Prop :=
  ∀ (c : Instr) (s : State), ∃ t, exec c s = .next t ∧ t.pending = s.pending

/-- The laws kept by every step hold right after reset. -/
def Obligations.ResetMeetsEveryLaw : Prop :=
  CardsOk State.reset ∧ HoldsOk State.reset ∧ BusOk State.reset.fs ∧ BuffersOk State.reset ∧ EngineOk State.reset ∧
    PathsOk State.reset ∧ CatalogOk State.reset ∧ InFlightOk State.reset ∧ MarksOk State.reset ∧ PlacesOk State.reset

/-- Every step keeps the laws of cards, queues, answered map and exchange memory. `PathsOk` is kept by every step too
(`StepKeepsPaths`). -/
def Obligations.StepKeepsCards : Prop :=
  ∀ s t : State, PathsOk s → CardsOk s → step s = .next t → CardsOk t

/-- Every step keeps the laws of the hold table. -/
def Obligations.StepKeepsHolds : Prop :=
  ∀ s t : State, HoldsOk s → step s = .next t → HoldsOk t

/-- Every step keeps the laws of the flash bus, the die queues and the busy timers. -/
def Obligations.StepKeepsBus : Prop :=
  ∀ s t : State, BusOk s.fs → step s = .next t → BusOk t.fs

/-- Every step keeps the laws of where the append path may hold cards and of the quiet flags. -/
def Obligations.StepKeepsPaths : Prop :=
  ∀ s t : State, PathsOk s → step s = .next t → PathsOk t

/-- Every step keeps the laws of the two row buffers and the linger timer; that at most one buffer is IN_FLIGHT, with its
program in a die queue; and the order of the marks, oldest_seq ≤ durable_mark + 1 ≤ next_seq ≤ 2^48 while the catalog is
loaded, the staged records being the sequences between the last two. The marks' law asks that what the medium answers in a
mount is sound (`readsSound`), and the catalog's canonical form, which every step keeps (`StepKeepsEngineAndCatalogForm`). -/
def Obligations.StepKeepsBuffers : Prop :=
  (∀ s t : State, BuffersOk s → step s = .next t → BuffersOk t) ∧
  (∀ s t : State, PathsOk s → BuffersOk s → InFlightOk s → step s = .next t → InFlightOk t) ∧
  (∀ s t : State, BuffersOk s → InFlightOk s → CatalogOk s → MarksOk s → (∀ c, s.pending.head? = some c → readsSound s c) →
    step s = .next t → MarksOk t)

/-- Every step keeps the laws of LOADED and stop pending, the catalog's canonical form (log 27), and the places of the
segments: while the collections are in use no segment is twice in the order list or the free pool, each has the state of its
place, the retired set is the RETIRED segments, and the RU's segments are ERASING. -/
def Obligations.StepKeepsEngineAndCatalogForm : Prop :=
  (∀ s t : State, EngineOk s → step s = .next t → EngineOk t) ∧
  (∀ s t : State, CatalogOk s → step s = .next t → CatalogOk t) ∧
  (∀ s t : State, PathsOk s → BuffersOk s → InFlightOk s → CatalogOk s → MarksOk s → PlacesOk s → step s = .next t →
    PlacesOk t)

/-! ### Resets (R23, R24, R82, R183, R184) -/

/-- A power-on reset and an assertion of the RESET pin bring every block to its reset state, the queue of waiting commands
and the model's own counter kept; while the pin is asserted no host access has an effect, and its release ends that. With the
pin asserted the attention lines are low, the chip enables and WAIT_N high and the flash bus undriven. Two values are the
model's choice: the word on the data pins after these resets, 0 (portData, log 17), and the level of the RESET pin, which
power-on keeps and PIN_RESET sets (log 6). -/
def Obligations.PowerOnAndPinReset : Prop :=
  (∀ s : State, ∃ t, exec (.pinReset true) s = .next t ∧ attnAPin t = false ∧ attnBPin t = false) ∧
  (∀ s : State, s.resetPin = true →
    waitNPin s = true ∧ flashIoDriven s = false ∧ ∀ c, chipEnableNPin s c = true) ∧
  (∀ s : State, exec .powerOnReset s =
    .next { State.reset with pending := s.pending, resetPin := s.resetPin, draws := s.draws }) ∧
  (∀ s : State, exec (.pinReset true) s =
    .next { State.reset with pending := s.pending, resetPin := true, draws := s.draws }) ∧
  (∀ s : State, ∃ t, exec (.pinReset false) s = .next t ∧ t.resetPin = false ∧
    { t with resetPin := s.resetPin, ec := { t.ec with quiet := s.ec.quiet } } = s) ∧
  (∀ (i : Instr) (s : State), s.resetPin = true →
    (i = .softReset ∨ (∃ l, i = .runWritten1 l) ∨ (∃ l, i = .runWritten0 l) ∨ (∃ v, i = .lingerWrite v) ∨
      (∃ v, i = .eventsWrite v) ∨ (∃ o w d, i = .registerWrite o w d) ∨ (∃ o w d, i = .hostXmWrite o w d) ∨
      (∃ o w, i = .snapshotCapture o w) ∨ (∃ c w d, i = .stateByteWrite c w d)) →
    ∃ t, exec i s = .next t ∧ { t with ec := { t.ec with quiet := s.ec.quiet } } = s)

/-- A soft reset makes every card IDLE and keeps every other byte of exchange memory; every other field takes its reset
value, but that the FS has an untimed reset command to send to each die that was present. The word on the data pins is kept
(log 17), and a die whose command of an earlier soft reset was not yet sent is among those to be sent one (log 18). -/
def Obligations.SoftResetKeepsMemory : Prop :=
  ∀ s : State, s.resetPin = false → ∃ t, exec .softReset s = .next t ∧
    (∀ c, cardByte t c = 0) ∧
    (∀ a, stateByteCard a = none → xmRead t.xp.mem a = xmRead s.xp.mem a) ∧
    (∀ c, c ∈ t.fs.softResets ↔ s.fs.mask.getLsbD c.val = true ∨ c ∈ s.fs.softResets) ∧
    t.xp.portData = s.xp.portData ∧
    { t with xp := { t.xp with mem := [], portData := 0 }, fs := { t.fs with softResets := [] } } =
      { State.reset with pending := s.pending, draws := s.draws }

/-! ### CONTROL and the other registers (R7, R9, R10, R11, R175, R176) -/

/-- RUN written 1 is stored in every engine state. In HALTED the engine enters PROBING with cause none and the probe begins:
mask and catalog entries cleared, RESET_DIE joins each die queue. In every other state the engine is not affected. -/
def Obligations.RunWrittenOneStartsProbe : Prop :=
  ∀ (l : Option Byte) (s : State), s.resetPin = false → ∃ t, exec (.runWritten1 l) s = .next t ∧
    t.xp = { s.xp with run := true, linger := l.getD s.xp.linger } ∧
    (if s.ec.engine = .halted then
      t.ec.engine = .probing ∧ t.ec.cause = .noCause ∧ t.ec.step = .probe ∧ t.ec.probeRec = .allPending ∧
      t.fs.mask = 0 ∧ t.cu = { s.cu with catalog := [] } ∧
      (∀ c, (t.fs.die c).queue = (s.fs.die c).queue ++ [{ source := .engine, act := .resetDie c }]) ∧
      t.ec.stopPending = s.ec.stopPending ∧ t.ec.loaded = s.ec.loaded ∧ t.ec.orphans = s.ec.orphans ∧
      { t with xp := s.xp, ec := s.ec, cu := s.cu, fs := s.fs } = s
    else { t with xp := s.xp, ec := { t.ec with quiet := s.ec.quiet } } = s)

/-- RUN written 0 is stored in every engine state and acts as the table of R176 says; entering STOPPING answers a waiting
APPEND card STOPPED, closes the FILLING buffer and hands it over where R48 allows, and clears and reports the quiet flags. -/
def Obligations.RunWrittenZeroByState : Prop :=
  ∀ (l : Option Byte) (s : State), s.resetPin = false → Memory.wf s.xp.mem = true → BuffersOk s →
    let x : Xp := { s.xp with run := false, linger := l.getD s.xp.linger }
    ∃ t, exec (.runWritten0 l) s = .next t ∧
      match s.ec.engine with
      | .halted => t = { s with xp := x }
      | .probing => if s.fs.quiet then haltsWith x s t
                    else t = { s with xp := x, ec := { s.ec with stopPending := true } }
      | .mounting => if s.fs.quiet then haltsWith x s t
                     else t = { s with xp := x, ec := { s.ec with stopPending := true } }
      | .unformatted => haltsWith x s t
      | .faulted => haltsWith x s t
      | .formatting => t = { s with xp := x, ec := { s.ec with stopPending := true } }
      | .stopping => t = { s with xp := x, ec := { s.ec with quiet := quietNow t } }
      | .ready =>
        t.ec.engine = .stopping ∧ t.ec.stopPending = false ∧ t.ec.quiet = quietNow t ∧ t.ec.loaded = s.ec.loaded ∧
        t.ec.step = .noStep ∧ t.ec.orphans = s.ec.orphans ∧
        ClosesFilling s t ∧ t.rp.find .filling = none ∧ t.rp.lingerTimer = none ∧
        (match s.rp.served with
          | none => t.xp = x ∧ t.rp.served = none
          | some v =>
            if v.wait = .staging then t.xp = x ∧ t.rp.served = some v
            else AnswersCard v.card { outcome := .stopped, count := v.staged, seq1 := v.first, seq2 := v.last }
                { s with xp := x } t ∧ t.rp.served = none) ∧
        { t.rp with served := s.rp.served, bufA := s.rp.bufA, bufB := s.rp.bufB, lingerTimer := s.rp.lingerTimer } =
          s.rp ∧
        { t with xp := s.xp, rp := s.rp, fs := s.fs, ec := s.ec } = s

/-- LINGER is stored; each EVENTS bit written 1 is cleared and no other. A write to EVENT_ENABLE or LINE_MAP changes the
fields in its lanes and keeps the others; a write to IDENT, ENGINE or an offset from 0x18 on, or to lanes of CONTROL and
EVENTS that hold no field, is ignored. Nothing else changes. What these registers hold decides the attention lines: a line is
asserted while some EVENTS bit, or ANSWERS while a card is ANSWERED, is enabled and routed to it. -/
def Obligations.RegisterWritesByField : Prop :=
  (∀ s : State,
    let asserts := fun bit : Nat => ∃ n < 9, s.xp.enable.getLsbD n = true ∧ s.xp.lineMap.getLsbD (2 * n + bit) = true ∧
      (if n = 8 then s.xp.answered ≠ 0 else s.xp.events.getLsbD n = true)
    (attnAPin s = true ↔ asserts 0) ∧ (attnBPin s = true ↔ asserts 1)) ∧
  (∀ (v : Byte) (s : State), s.resetPin = false → ∃ t, exec (.lingerWrite v) s = .next t ∧ t.xp.linger = v ∧
    { t with xp := { t.xp with linger := s.xp.linger }, ec := { t.ec with quiet := s.ec.quiet } } = s) ∧
  (∀ (v : Byte) (s : State), s.resetPin = false → ∃ t, exec (.eventsWrite v) s = .next t ∧
    (∀ n < 8, t.xp.events.getLsbD n = (s.xp.events.getLsbD n && !v.getLsbD n)) ∧
    { t with xp := { t.xp with events := s.xp.events }, ec := { t.ec with quiet := s.ec.quiet } } = s) ∧
  (∀ (o : BitVec 16) (w : Width) (d : Word) (s : State), s.resetPin = false →
    let a := o.toNat - o.toNat % widthSize w
    ∃ t, exec (.registerWrite o w d) s = .next t ∧
      (0x10 ≤ a → a < 0x14 →
        (∀ n < 9, t.xp.enable.getLsbD n =
          laneBit a (widthSize w) d (0x10 + n / 8) (n % 8) (s.xp.enable.getLsbD n)) ∧
        { t with xp := { t.xp with enable := s.xp.enable }, ec := { t.ec with quiet := s.ec.quiet } } = s) ∧
      (0x14 ≤ a → a < 0x18 →
        (∀ n < 18, t.xp.lineMap.getLsbD n =
          laneBit a (widthSize w) d (0x14 + n / 8) (n % 8) (s.xp.lineMap.getLsbD n)) ∧
        { t with xp := { t.xp with lineMap := s.xp.lineMap }, ec := { t.ec with quiet := s.ec.quiet } } = s) ∧
      (a < 4 ∨ (8 ≤ a ∧ a < 0x0C) ∨ 0x18 ≤ a ∨ a = 6 ∨ a = 7 ∨ (0x0D ≤ a ∧ a < 0x10) →
        { t with ec := { t.ec with quiet := s.ec.quiet } } = s))

/-- A write to CONTROL with 1 in the SOFT_RESET position is the soft reset and discards its other fields; any other write of
lane 0 is RUN written 1 or 0, with LINGER where lane 1 is written too; lane 1 alone is LINGER; a write to lane 0 of EVENTS is
the write-1-to-clear (log 5). -/
def Obligations.ControlWriteByFields : Prop :=
  ∀ (o : BitVec 16) (w : Width) (d : Word) (s : State),
    let a := o.toNat - o.toNat % widthSize w
    (a = 4 → exec (.registerWrite o w d) s =
      if d.getLsbD 1 then exec .softReset s
      else if d.getLsbD 0 then exec (.runWritten1 (if w = .w8 then none else some (d.extractLsb' 8 8))) s
      else exec (.runWritten0 (if w = .w8 then none else some (d.extractLsb' 8 8))) s) ∧
    (a = 5 → exec (.registerWrite o w d) s = exec (.lingerWrite (d.setWidth 8)) s) ∧
    (a = 0x0C → exec (.registerWrite o w d) s = exec (.eventsWrite (d.setWidth 8)) s)

/-! ### Exchange memory and the snapshot latch (R2, R5) -/

/-- A host write that covers no state byte stores its bytes in the card array and the parcel area, is ignored below them,
and changes nothing else. One whose first byte is a card's state byte, which no other lane can be, is the state-byte write of
that card (log 5). -/
def Obligations.HostWriteStoresItsBytes : Prop :=
  (∀ (o : BitVec 16) (w : Width) (d : Word) (s : State) (c : CardIx),
    o.toNat - o.toNat % widthSize w = cardBase c → exec (.hostXmWrite o w d) s = exec (.stateByteWrite c w d) s) ∧
  (∀ a c, stateByteCard a = some c ↔ a = cardBase c) ∧
  (∀ (o : BitVec 16) (w : Width) (k : Nat), 1 ≤ k → k < widthSize w →
    stateByteCard (o.toNat - o.toNat % widthSize w + k) = none) ∧
  ∀ (o : BitVec 16) (w : Width) (d : Word) (s : State), s.resetPin = false → Memory.wf s.xp.mem = true →
    let a := o.toNat - o.toNat % widthSize w
    stateByteCard a = none →
    ∃ t, exec (.hostXmWrite o w d) s = .next t ∧
      (∀ j, xmRead t.xp.mem j =
        if 0x400 ≤ j ∧ a ≤ j ∧ j < a + widthSize w then d.extractLsb' (8 * (j - a)) 8 else xmRead s.xp.mem j) ∧
      { t with xp := { t.xp with mem := s.xp.mem }, ec := { t.ec with quiet := s.ec.quiet } } = s

/-- A 32-bit read of the lower half of a mark field returns that half and latches the upper half; a later 32-bit read of the
upper half returns the latched half, whatever happened in between, as long as the latch stands. A host read of any width
returns each byte of the word it is aligned to: of the anchor block, of the registers, 0 in the regions without contents, the
stored byte in the card array and the parcel area; the upper half of a mark field is the latched one where the latch names
the field and the live one otherwise. A read of a mark's first byte makes the latch name that field; any other read keeps the
latch. Model's choices: the data pins keep the word read (log 17), right-justified (log 5), and a next_seq of 2^48 shows its
low 48 bits (log 33). -/
def Obligations.SnapshotLatchPairsHalves : Prop :=
  (∀ (f : MarkField) (s : State), s.resetPin = false →
    ∃ t, exec (.snapshotCapture (BitVec.ofNat 17 f.offset) .w32) s = .next t ∧
      t.xp.portData = BitVec.ofNat 32 (markValue s f) ∧
      t.xp.latch = { field := some f, value := BitVec.ofNat 32 (markValue s f / 4294967296) } ∧
      { t with xp := { t.xp with portData := s.xp.portData, latch := s.xp.latch },
               ec := { t.ec with quiet := s.ec.quiet } } = s ∧
      ∀ u : State, u.resetPin = false → u.xp.latch = t.xp.latch →
        ∃ v, exec (.snapshotCapture (BitVec.ofNat 17 (f.offset + 4)) .w32) u = .next v ∧
          v.xp.portData = BitVec.ofNat 32 (markValue s f / 4294967296) ∧
          { v with xp := { v.xp with portData := u.xp.portData }, ec := { v.ec with quiet := u.ec.quiet } } = u) ∧
  ∀ (o : BitVec 17) (w : Width) (s : State), s.resetPin = false →
    let a := o.toNat - o.toNat % widthSize w
    let bit := fun b : Bool => if b = true then 1 else 0
    let mark := fun v : Nat => v % 281474976710656
    let fields : List (Nat × Nat × Nat) := [
      (0x00, 1, 1), (0x01, 1, bit s.rp.readOnly + 2 * bit s.rp.fullSeen + 4 * bit s.ec.loaded),
      (0x02, 2, s.cu.freePool.length), (0x04, 4, s.xp.slips.toNat), (0x08, 8, 0), (0x10, 16, s.xp.answered.toNat),
      (0x20, 8, mark s.rp.nextSeq), (0x28, 8, mark s.rp.durable), (0x30, 8, mark s.cu.oldest),
      (0x38, 8, mark s.cp.trimPoint), (0x40, 8, mark s.rp.discardFirst), (0x48, 8, mark s.rp.discardLast),
      (0x50, 0x3B0, 0), (0x10000, 4, 0x4D447001), (0x10004, 1, bit s.xp.run), (0x10005, 1, s.xp.linger.toNat),
      (0x10006, 2, 0), (0x10008, 1, s.ec.engine.code + 16 * s.ec.cause.code),
      (0x10009, 1, s.cu.mode.code + 2 * bit s.rp.readOnly), (0x1000A, 2, s.fs.mask.toNat),
      (0x1000C, 4, s.xp.events.toNat), (0x10010, 4, s.xp.enable.toNat), (0x10014, 4, s.xp.lineMap.toNat),
      (0x10018, 0xFFE8, 0)]
    let latched := fun j : Nat => ∃ f : MarkField, s.xp.latch.field = some f ∧ f.offset + 4 ≤ j ∧ j < f.offset + 8
    ∃ t, exec (.snapshotCapture o w) s = .next t ∧
      (∀ k < widthSize w,
        let byte : Byte := t.xp.portData.extractLsb' (8 * k) 8
        (∀ e ∈ fields, e.1 ≤ a + k → a + k < e.1 + e.2.1 → ¬ latched (a + k) →
          byte = BitVec.ofNat 8 (e.2.2 / 256 ^ (a + k - e.1))) ∧
        (0x400 ≤ a + k → a + k < 0x10000 → byte = xmRead s.xp.mem (a + k)) ∧
        (∀ f : MarkField, s.xp.latch.field = some f → f.offset + 4 ≤ a + k → a + k < f.offset + 8 →
          byte = s.xp.latch.value.extractLsb' (8 * (a + k - f.offset - 4)) 8)) ∧
      t.xp.portData.toNat < 256 ^ widthSize w ∧
      (∀ f : MarkField, a = f.offset →
        t.xp.latch = { field := some f, value := BitVec.ofNat 32 (markValue s f / 4294967296) }) ∧
      ((∀ f : MarkField, a ≠ f.offset) → t.xp.latch = s.xp.latch) ∧
      { t with xp := { t.xp with portData := s.xp.portData, latch := s.xp.latch },
               ec := { t.ec with quiet := s.ec.quiet } } = s

/-- A write of POSTED or IDLE to a card that is IDLE or ANSWERED, the other lanes of the write stored first: a posted card
of unknown kind is answered BAD_KIND at once, in FAULTED any other is answered FAULTED at once, and otherwise it becomes
POSTED at the tail of its path's queue; a write of IDLE makes the card IDLE. -/
def Obligations.AcceptedStateWrite : Prop :=
  ∀ (c : CardIx) (w : Width) (d : Word) (s : State), s.resetPin = false → Memory.wf s.xp.mem = true →
    (cardByte s c = 0 ∨ cardByte s c = 3) →
    let u := hostStoreList (cardBase c) (accessBytes w d) s
    (∀ j, xmRead u.xp.mem j =
      if cardBase c < j ∧ j < cardBase c + widthSize w then d.extractLsb' (8 * (j - cardBase c)) 8
      else xmRead s.xp.mem j) ∧
    ∃ t, exec (.stateByteWrite c w d) s = .next t ∧
      (laneZero d = 1 →
        match Kind.ofCode (xmRead u.xp.mem (cardBase c + 1)) with
        | none => AnswersCard c (.plain .badKind) u t ∧
            { t with xp := s.xp, ec := { t.ec with quiet := s.ec.quiet } } = s
        | some k =>
          if s.ec.engine = .faulted then AnswersCard c (.plain .faulted) u t ∧ { t with xp := s.xp } = s
          else MovesCard c .posted u t ∧ t.ci = (setQueue k.path (s.ci.queue k.path ++ [c]) s).ci ∧
            { t with xp := s.xp, ci := s.ci, ec := { t.ec with quiet := s.ec.quiet } } = s) ∧
      (laneZero d = 0 →
        MovesCard c .idle u t ∧ { t with xp := s.xp, ec := { t.ec with quiet := s.ec.quiet } } = s)

/-- A state-byte write that is not accepted is a slip: the state byte keeps its value, the slip count rises by 1, wrapping
(32 bits), and shows in the anchor block, SLIP is set, and only the other lanes of the write change exchange memory; queue
membership, work records and the answered map are kept. The slip count reads 0 after every reset. -/
def Obligations.SlipIsCountedOnly : Prop :=
  (∀ (c : CardIx) (w : Width) (d : Word) (s : State), s.resetPin = false → Memory.wf s.xp.mem = true →
    (laneZero d ≠ 0 ∧ laneZero d ≠ 1) ∨ cardByte s c = 1 ∨ cardByte s c = 2 →
    ∃ t, exec (.stateByteWrite c w d) s = .next t ∧
      t.xp.slips = s.xp.slips + 1 ∧ field (anchorBytes t) 4 4 = (s.xp.slips + 1).toNat ∧
      t.xp.events = s.xp.events ||| 0x20 ∧
      (∀ j, xmRead t.xp.mem j =
        if cardBase c < j ∧ j < cardBase c + widthSize w then d.extractLsb' (8 * (j - cardBase c)) 8
        else xmRead s.xp.mem j) ∧
      { t with xp := { t.xp with mem := s.xp.mem, slips := s.xp.slips, events := s.xp.events },
               ec := { t.ec with quiet := s.ec.quiet } } = s) ∧
  (∀ s t : State, exec .powerOnReset s = .next t ∨ exec (.pinReset true) s = .next t ∨
    (s.resetPin = false ∧ exec .softReset s = .next t) → t.xp.slips = 0 ∧ field (anchorBytes t) 4 4 = 0)

/-! ### Takes (R18, R19, R177, R178) -/

/-- A take command has no effect while the engine state admits no take, the path's queue is empty or the path has a served
card. Otherwise a card whose kind is none of the path's is answered BAD_KIND, a card of another row of the path is left for
that row (log 23), a card with a reserved byte that is not 0 is answered BAD_CARD, and in UNFORMATTED a card that is neither
CENSUS nor FORMAT is answered UNFORMATTED: nothing else changes. -/
def Obligations.TakesIdleOrRefused : Prop :=
  ∀ (i : Instr) (r : TakeRow) (s : State), takeRow i = some r →
    ((s.ec.engine ≠ .ready ∧ s.ec.engine ≠ .unformatted) ∨ s.ci.queue r.path = [] ∨ ¬ pathFree r.path s →
      ∃ t, exec i s = .next t ∧ { t with ec := { t.ec with quiet := s.ec.quiet } } = s) ∧
    (∀ c, (s.ec.engine = .ready ∨ s.ec.engine = .unformatted) → (s.ci.queue r.path).head? = some c →
      pathFree r.path s → Memory.wf s.xp.mem = true →
      let w := cardWork s c
      if w.kind.map Kind.path ≠ some r.path then
        ∃ t, exec i s = .next t ∧ TakeAnswers r.path c (.plain .badKind) s t ∧ { t with xp := s.xp, ci := s.ci } = s
      else if r.mine w = false then exec i s = .next s
      else if w.reserved ≠ 0 then
        ∃ t, exec i s = .next t ∧ TakeAnswers r.path c (.plain .badCard) s t ∧ { t with xp := s.xp, ci := s.ci } = s
      else if s.ec.engine = .unformatted ∧ r.always = false then
        ∃ t, exec i s = .next t ∧ TakeAnswers r.path c (.plain .unformatted) s t ∧
          { t with xp := s.xp, ci := s.ci } = s
      else True)

/-! ### The append path (R25 to R31, R38 to R46, R53 to R56) -/

/-- An APPEND card is refused READ_ONLY or BAD_CARD with zero fields, or becomes the served card with nothing staged. -/
def Obligations.AppendIsServedOrRefused : Prop :=
  ∀ (c : CardIx) (s : State), Takes .append c s →
    let w := cardWork s c
    w.kind = some .append →
    ∃ t, exec .append s = .next t ∧
      (if s.rp.readOnly = true then
        TakeAnswers .append c (.plain .readOnly) s t ∧ { t with xp := s.xp, ci := s.ci } = s
      else if w.argC = 0 ∨ 255 < w.argC ∨ w.parcelCount = 0 ∨ 110 < w.parcelFirst + w.parcelCount then
        TakeAnswers .append c (.plain .badCard) s t ∧ { t with xp := s.xp, ci := s.ci } = s
      else
        TakeKeeps .append c s t ∧
        t.rp.served = some { card := c, work := w, staged := 0, first := 0, last := 0, offset := 0, wait := .staging } ∧
        { t.rp with served := s.rp.served } = s.rp ∧
        { t with xp := s.xp, ci := s.ci, rp := s.rp } = s)

/-- A record is refused by the first check of R26 that fails. A record that fails a check ends the staging, answered with the
check's outcome and what the card had staged: at once without SYNC; with SYNC the buffer closes and the answer waits until
the last staged sequence is durable. A record that passes its checks and fits the FILLING buffer without filling it takes the
next sequence and joins the buffer with its stored image; next_seq rises by 1 and key_high becomes its key. The last counted
record ends the staging: a card without SYNC is answered DONE at once; a SYNC card closes the buffer and waits until its last
sequence is durable. A record that fills the buffer to 4096 bytes closes it. A record that does not fit closes the buffer and
becomes the first of the other one, at the open segment's next row, or waits for a buffer while the other is not EMPTY. With
no buffer FILLING it becomes the first of an EMPTY one, A before B, at the open segment's next row. Wherever it is staged, a
full buffer closes and so does that of the last record of a SYNC card (`Stages`). Staging goes on in STOPPING (R59) with two
differences: a card that comes to wait is answered STOPPED with what it had staged, and the step that ends a card's staging
closes the FILLING buffer without SYNC too. `settle` sets the quiet flags of a stop as `StopsEndInHalted` says. -/
def Obligations.RecordIsStagedOrRefused : Prop :=
  (∀ (s : State) (v : RpServed),
    let span := 512 * v.work.parcelCount
    let start := 0x2400 + 512 * v.work.parcelFirst + v.offset
    let head := xmReadList s.xp.mem start 8
    let length := field head 0 2
    let key := field head 4 4
    readRecord s v =
      if span < v.offset + 8 ∨ 4080 < length ∨ field head 3 1 ≠ 0 ∨ span < v.offset + 8 + pad4 length then
        .error .badRecord
      else if key < s.rp.keyHigh then .error .keyOrder
      else if s.rp.nextSeq = 281474976710656 then .error .seqLimit
      else .ok { class_ := field head 2 1, key := key, payload := xmReadList s.xp.mem (start + 8) length,
                 next := v.offset + 8 + pad4 length }) ∧
  (∀ (s : State) (v : RpServed) (o : CardOutcome),
    Running s → Memory.wf s.xp.mem = true → s.rp.served = some v → v.wait = .staging →
    readRecord s v = .error o → v.work.flag0 = false →
    ∃ t, exec .recordStage s = .next (settle t) ∧
      AnswersCard v.card { outcome := o, count := v.staged, seq1 := v.first, seq2 := v.last } s t ∧
      t.rp.served = none ∧
      (s.ec.engine = .ready → { t with xp := s.xp, rp := { t.rp with served := s.rp.served } } = s) ∧
      (s.ec.engine = .stopping → BuffersOk s →
        ClosesFilling s t ∧ t.rp.find .filling = none ∧ t.rp.lingerTimer = none) ∧
      { t.rp with
        served := s.rp.served, bufA := s.rp.bufA, bufB := s.rp.bufB, lingerTimer := s.rp.lingerTimer } = s.rp ∧
      { t with xp := s.xp, rp := s.rp, fs := s.fs } = s) ∧
  (∀ (s : State) (v : RpServed) (o : CardOutcome),
    Running s → Memory.wf s.xp.mem = true → BuffersOk s → s.rp.served = some v → v.wait = .staging →
    readRecord s v = .error o → v.work.flag0 = true →
    let target := s.rp.nextSeq - 1
    let r : Answer := { outcome := o, count := v.staged, seq1 := v.first, seq2 := v.last }
    ∃ t, exec .recordStage s = .next (settle t) ∧ ClosesFilling s t ∧ t.rp.find .filling = none ∧ t.rp.lingerTimer = none ∧
      t.rp.served = none ∧
      (if target ≤ s.rp.durable then AnswersCard v.card r s t ∧ t.rp.waitList = s.rp.waitList
      else t.xp = s.xp ∧
        t.rp.waitList = s.rp.waitList ++ [{ card := v.card, work := v.work, target := target, answer := r }]) ∧
      { t.rp with
        served := s.rp.served, bufA := s.rp.bufA, bufB := s.rp.bufB, lingerTimer := s.rp.lingerTimer,
        waitList := s.rp.waitList } = s.rp ∧
      { t with xp := s.xp, rp := s.rp, fs := s.fs } = s) ∧
  (∀ (s : State) (v : RpServed) (h : HostRecord) (n : BufName),
    Running s → Memory.wf s.xp.mem = true → s.rp.served = some v → v.wait = .staging →
    readRecord s v = .ok h → s.rp.find .filling = some n →
    (s.rp.buf n).fill + imageSize h.payload.length < 4096 →
    let q := s.rp.nextSeq
    let first := if v.staged = 0 then q else v.first
    let recs := (s.rp.buf n).records ++
      [{ seq := q, key := h.key, image := storedImage h.class_ h.key q h.payload }]
    let r : Answer := { outcome := .done, count := v.staged + 1, seq1 := first, seq2 := q }
    ∃ t, exec .recordStage s = .next (settle t) ∧ t.rp.nextSeq = q + 1 ∧ t.rp.keyHigh = h.key ∧
      (t.rp.buf n).records = recs ∧ (t.rp.buf n).dest = (s.rp.buf n).dest ∧
      (if v.staged + 1 ≠ v.work.argC then
        t.rp.served = some { v with staged := v.staged + 1, first := first, last := q, offset := h.next } ∧
        t.xp = s.xp
      else
        t.rp.served = none ∧
        (if v.work.flag0 = false ∨ q ≤ s.rp.durable then AnswersCard v.card r s t else t.xp = s.xp)) ∧
      (if v.staged + 1 = v.work.argC ∧ (v.work.flag0 = true ∨ s.ec.engine = .stopping) then
        (t.rp.buf n).state ≠ .filling ∧ t.rp.lingerTimer = none
      else
        (t.rp.buf n).state = .filling ∧ t.rp.buf n.other = s.rp.buf n.other ∧ t.rp.lingerTimer = s.rp.lingerTimer ∧
        t.fs = s.fs) ∧
      t.rp.waitList = (if v.staged + 1 = v.work.argC ∧ v.work.flag0 = true ∧ s.rp.durable < q then
        s.rp.waitList ++ [{ card := v.card, work := v.work, target := q, answer := r }] else s.rp.waitList) ∧
      { t.rp with
        served := s.rp.served, bufA := s.rp.bufA, bufB := s.rp.bufB, lingerTimer := s.rp.lingerTimer,
        waitList := s.rp.waitList, nextSeq := s.rp.nextSeq, keyHigh := s.rp.keyHigh } = s.rp ∧
      { t with xp := s.xp, rp := s.rp, fs := s.fs } = s) ∧
  (∀ (s : State) (v : RpServed) (h : HostRecord) (n : BufName),
    Running s → s.rp.served = some v → v.wait = .staging → readRecord s v = .ok h →
    s.rp.find .filling = some n → (s.rp.buf n).fill + imageSize h.payload.length = 4096 →
    v.staged + 1 ≠ v.work.argC →
    let q := s.rp.nextSeq
    let m := setBuf n { s.rp.buf n with records := (s.rp.buf n).records ++
      [{ seq := q, key := h.key, image := storedImage h.class_ h.key q h.payload }] } s
    ∃ t, exec .recordStage s = .next (settle t) ∧ ClosesFilling m t ∧ t.rp.lingerTimer = none ∧ t.rp.nextSeq = q + 1 ∧
      t.rp.keyHigh = h.key ∧
      t.rp.served = some { v with
        staged := v.staged + 1, first := if v.staged = 0 then q else v.first, last := q, offset := h.next } ∧
      { t.rp with
        served := s.rp.served, bufA := s.rp.bufA, bufB := s.rp.bufB, lingerTimer := s.rp.lingerTimer,
        nextSeq := s.rp.nextSeq, keyHigh := s.rp.keyHigh } = s.rp ∧
      { t with rp := s.rp, fs := s.fs } = s) ∧
  (∀ (s : State) (v : RpServed) (h : HostRecord) (n : BufName) (o : OpenSeg),
    Running s → s.rp.served = some v → v.wait = .staging → readRecord s v = .ok h →
    s.rp.find .filling = some n → 4096 < (s.rp.buf n).fill + imageSize h.payload.length →
    (s.rp.buf n.other).state = .empty → s.rp.openSeg = some o → o.nextRow ≤ 62 → imageSize h.payload.length < 4096 →
    v.staged + 1 ≠ v.work.argC →
    let q := s.rp.nextSeq
    ∃ t, exec .recordStage s = .next (settle t) ∧
      (t.rp.buf n).records = (s.rp.buf n).records ∧ (t.rp.buf n).dest = (s.rp.buf n).dest ∧
      (recordRowInFlight s = true → (t.rp.buf n).state = .closed ∧ t.fs = s.fs) ∧
      (recordRowInFlight s = false → ∀ d, (s.rp.buf n).dest = some d → (t.rp.buf n).state = .inFlight ∧
        QueuesGain [{ source := .packer, act := bufferProgram s (s.rp.buf n) d }] s t) ∧
      t.rp.buf n.other = {
        state := .filling, dest := some { seg := o.seg, row := o.nextRow }
        records := [{ seq := q, key := h.key, image := storedImage h.class_ h.key q h.payload }] } ∧
      t.rp.openSeg = some { o with nextRow := o.nextRow + 1 } ∧
      t.rp.lingerTimer = (if s.xp.linger = 0 then none else some s.xp.linger.toNat) ∧ t.rp.nextSeq = q + 1 ∧
      t.rp.keyHigh = h.key ∧
      t.rp.served = some { v with
        staged := v.staged + 1, first := if v.staged = 0 then q else v.first, last := q, offset := h.next } ∧
      { t.rp with
        served := s.rp.served, bufA := s.rp.bufA, bufB := s.rp.bufB, openSeg := s.rp.openSeg,
        lingerTimer := s.rp.lingerTimer, nextSeq := s.rp.nextSeq, keyHigh := s.rp.keyHigh } = s.rp ∧
      { t with rp := s.rp, fs := s.fs } = s) ∧
  (∀ (s : State) (v : RpServed) (h : HostRecord) (n : BufName),
    Running s → s.rp.served = some v → v.wait = .staging → readRecord s v = .ok h →
    s.rp.find .filling = some n → 4096 < (s.rp.buf n).fill + imageSize h.payload.length →
    (s.rp.buf n.other).state ≠ .empty →
    let stopped : Answer := { outcome := .stopped, count := v.staged, seq1 := v.first, seq2 := v.last }
    ∃ t, exec .recordStage s = .next (settle t) ∧ ClosesFilling s t ∧ t.rp.lingerTimer = none ∧
      (s.ec.engine = .ready → t.rp.served = some { v with wait := .buffer } ∧ t.xp = s.xp) ∧
      (s.ec.engine = .stopping → t.rp.served = none ∧ (Memory.wf s.xp.mem = true → AnswersCard v.card stopped s t)) ∧
      { t.rp with
        served := s.rp.served, bufA := s.rp.bufA, bufB := s.rp.bufB, lingerTimer := s.rp.lingerTimer } = s.rp ∧
      { t with xp := s.xp, rp := s.rp, fs := s.fs } = s) ∧
  (∀ (s : State) (v : RpServed) (h : HostRecord) (n : BufName),
    Running s → Memory.wf s.xp.mem = true → BuffersOk s → s.rp.served = some v → v.wait = .staging →
    readRecord s v = .ok h →
    (s.rp.find .filling = some n → (s.rp.buf n).fill + imageSize h.payload.length ≤ 4096 →
      ∃ t, exec .recordStage s = .next (settle t) ∧ Stages n v h s t) ∧
    (∀ o, s.rp.openSeg = some o → o.nextRow ≤ 62 →
      (s.rp.find .filling = some n → 4096 < (s.rp.buf n).fill + imageSize h.payload.length →
        (s.rp.buf n.other).state = .empty →
        ∃ m t, exec .recordStage s = .next (settle t) ∧ ClosesFilling s m ∧ m.rp.buf n.other = s.rp.buf n.other ∧
          { m with
            rp := { m.rp with bufA := s.rp.bufA, bufB := s.rp.bufB, lingerTimer := s.rp.lingerTimer }, fs := s.fs } =
            s ∧
          Stages n.other v h (startsFilling n.other o m) t) ∧
      (s.rp.find .filling = none →
        (n = .a ∧ s.rp.bufA.state = .empty) ∨ (n = .b ∧ s.rp.bufA.state ≠ .empty ∧ s.rp.bufB.state = .empty) →
        ∃ t, exec .recordStage s = .next (settle t) ∧ Stages n v h (startsFilling n o s) t)))

/-- Both buffers EMPTY and no row left in an open segment: above the reserve of 2, while a serial is left, the head of the
pool joins as the open segment at next_seq with the record as its first, FULL_SEEN cleared and an empty last member
superseded: ERASING, its erase the RU's next operation; otherwise the card waits for space while space may come back, or ends
with ARCHIVE_FULL, the event and FULL_SEEN set: answered at once without SYNC, and with SYNC when its last sequence is
durable. While the other buffer is not EMPTY a record that needs a segment waits for a buffer. Space may come back while the
RU has an erase in flight or a removal claim outstanding, or while the head is a candidate, be it pinned. In STOPPING a
record is given a segment as in READY, and a card that comes to wait is answered STOPPED with what it had staged (R59). -/
def Obligations.NewSegmentOrArchiveFull : Prop :=
  (∀ s : State, spaceMayReturn s = true ↔ (∃ x, s.ru.op = .erase x) ∨ s.ru.claim ≠ none ∨
    ∃ head next rest, s.cu.orderList = head :: next :: rest ∧
      ((s.cu.entry head).state = .full ∨ (s.cu.entry head).state = .short) ∧
      (∀ h ∈ s.cp.holds, h.active = true → (s.cu.entry head).lastSeq < h.lowSeq) ∧
      ((s.cu.entry head).lastSeq ≤ s.cp.trimPoint ∨ (s.cu.mode = .wrap ∧ s.cu.freePool.length < 6))) ∧
  (∀ (s : State) (v : RpServed) (h : HostRecord) (n : BufName),
    Running s → s.rp.served = some v → v.wait = .staging → readRecord s v = .ok h →
    s.rp.find .filling = none → (s.rp.buf n).state = .empty → (s.rp.buf n.other).state ≠ .empty →
    (∀ o, s.rp.openSeg = some o → 62 < o.nextRow) →
    (s.ec.engine = .ready →
      exec .recordStage s = .next { s with rp := { s.rp with served := some { v with wait := .buffer } } }) ∧
    (s.ec.engine = .stopping → Memory.wf s.xp.mem = true → EndsStopped v s)) ∧
  ∀ (s : State) (v : RpServed) (h : HostRecord),
    Running s → Memory.wf s.xp.mem = true → CatalogOk s → s.rp.served = some v → v.wait = .staging →
    readRecord s v = .ok h → s.rp.bufA.state = .empty → s.rp.bufB.state = .empty →
    (∀ o, s.rp.openSeg = some o → 62 < o.nextRow) →
    (∀ seg rest, s.cu.freePool = seg :: rest → 2 ≤ rest.length → s.cu.nextSerial ≤ max32 →
      ∃ t, exec .recordStage s = .next (settle t) ∧
        t.cu.freePool = rest ∧ t.cu.nextSerial = s.cu.nextSerial + 1 ∧ t.cu.oldest = s.cu.oldest ∧
        t.cu.entry seg = { Entry.freed with
          state := .opened, firstSeq := s.rp.nextSeq, lastSeq := s.rp.nextSeq - 1, openSerial := s.cu.nextSerial } ∧
        t.cu.orderList = (match s.cu.orderList.getLast? with
          | some m => if (s.cu.entry m).empty then s.cu.orderList.dropLast else s.cu.orderList
          | none => s.cu.orderList) ++ [seg] ∧
        t.rp.openSeg = some { seg := seg, nextRow := 1 } ∧ t.rp.rowMap = [] ∧ t.rp.fullSeen = false ∧
        t.rp.bufA.records = [{ seq := s.rp.nextSeq, key := h.key,
                               image := storedImage h.class_ h.key s.rp.nextSeq h.payload }] ∧
        t.rp.bufA.dest = some { seg := seg, row := 0 } ∧ t.rp.nextSeq = s.rp.nextSeq + 1 ∧ t.rp.keyHigh = h.key ∧
        (∀ m, s.cu.orderList.getLast? = some m → (s.cu.entry m).lastSeq + 1 = (s.cu.entry m).firstSeq → m ≠ seg →
          t.cu.entry m = { s.cu.entry m with state := .erasing } ∧
          (s.ru.op = .idle → s.ru.claim = none → s.ru.superseded = [] → s.ar.pin ≠ some m →
            t.ru = { s.ru with op := .erase m } ∧
            { source := .reclaim, act := .eraseSegment m } ∈ (t.fs.die (segDie m)).queue) ∧
          (s.ru.op ≠ .idle ∨ s.ru.claim ≠ none → t.ru = { s.ru with superseded := s.ru.superseded ++ [m] })) ∧
        t.ci = s.ci ∧ t.ar = s.ar ∧ t.cp = s.cp ∧ t.ec = s.ec) ∧
    (s.cu.freePool.length ≤ 2 ∨ max32 < s.cu.nextSerial →
      (spaceMayReturn s = true → s.ec.engine = .ready →
        exec .recordStage s = .next { s with rp := { s.rp with served := some { v with wait := .space } } }) ∧
      (spaceMayReturn s = true → s.ec.engine = .stopping → EndsStopped v s) ∧
      (spaceMayReturn s = false → v.work.flag0 = false →
        ∃ t, exec .recordStage s = .next (settle t) ∧
          AnswersCard v.card { outcome := .archiveFull, count := v.staged, seq1 := v.first, seq2 := v.last }
            { s with xp := { s.xp with events := s.xp.events ||| 0x40 } } t ∧
          t.rp = { s.rp with served := none, fullSeen := true } ∧ { t with xp := s.xp, rp := s.rp } = s) ∧
      (spaceMayReturn s = false → v.work.flag0 = true →
        let full : State := { s with xp := { s.xp with events := s.xp.events ||| 0x40 } }
        let target := s.rp.nextSeq - 1
        let r : Answer := { outcome := .archiveFull, count := v.staged, seq1 := v.first, seq2 := v.last }
        let wait : WaitEntry := { card := v.card, work := v.work, target := target, answer := r }
        ∃ t, exec .recordStage s = .next (settle t) ∧
          (if target ≤ s.rp.durable then AnswersCard v.card r full t else t.xp = full.xp) ∧
          t.rp = { s.rp with
            served := none, fullSeen := true
            waitList := if target ≤ s.rp.durable then s.rp.waitList else s.rp.waitList ++ [wait] } ∧
          { t with xp := s.xp, rp := s.rp } = s))

/-- The stored image of a record is 16 bytes and the padded payload; read back from the start of any bytes, its header gives
the record's length, class, key and sequence and flags 0, its check is right, and its payload is the record's. -/
def Obligations.StoredImageReadsBackIntact : Prop :=
  ∀ (class_ key seq : Nat) (payload rest : List Byte),
    payload.length ≤ 4080 → class_ ≤ 255 → key ≤ max32 → seq ≤ maxSeq →
    let img := storedImage class_ key seq payload
    let h := StoredHeader.parse (img ++ rest)
    img.length = 16 + pad4 payload.length ∧ h.length = payload.length ∧
      field (img ++ rest) 2 1 = class_ ∧ h.flags = 0 ∧ h.key = key ∧ h.seq = seq ∧
      h.intact (img ++ rest) = true ∧ ((img ++ rest).drop 16).take payload.length = payload

/-- A FLUSH card closes the FILLING buffer, stops the linger timer and takes next_seq − 1 as its target: it is answered DONE
at once when durable_mark has reached the target, and otherwise joins the tail of the wait list; in the read-only archive it
is answered READ_ONLY. -/
def Obligations.FlushAnswersOrWaits : Prop :=
  ∀ (c : CardIx) (s : State), Takes .append c s → BuffersOk s →
    let w := cardWork s c
    w.kind = some .flush →
    (s.rp.readOnly = true → ∃ t, exec .flush s = .next t ∧ TakeAnswers .append c (.plain .readOnly) s t ∧
      { t with xp := s.xp, ci := s.ci } = s) ∧
    (s.rp.readOnly = false → ∃ t, exec .flush s = .next t ∧
      ClosesFilling s t ∧ t.rp.find .filling = none ∧ t.rp.lingerTimer = none ∧ t.rp.served = none ∧
      (let target := s.rp.nextSeq - 1
       let r : Answer := { outcome := .done, seq1 := target }
       if target ≤ s.rp.durable then TakeAnswers .append c r s t ∧ t.rp.waitList = s.rp.waitList
       else TakeKeeps .append c s t ∧
         t.rp.waitList = s.rp.waitList ++ [{ card := c, work := w, target := target, answer := r }]) ∧
      { t.rp with bufA := s.rp.bufA, bufB := s.rp.bufB, lingerTimer := s.rp.lingerTimer, waitList := s.rp.waitList } =
        s.rp ∧
      { t with xp := s.xp, ci := s.ci, rp := s.rp, fs := s.fs } = s)

/-- On its expiry the linger timer stops and the FILLING buffer closes, handed over where no record row program is in flight;
no card is answered. So too in STOPPING, for a buffer that became FILLING there. -/
def Obligations.LingerExpiryClosesBuffer : Prop :=
  ∀ (s : State) (ms : Nat), Running s → BuffersOk s → s.rp.lingerTimer = some ms →
    ∃ t, exec .lingerExpiry s = .next (settle t) ∧ ClosesFilling s t ∧ t.rp.find .filling = none ∧
      t.rp.lingerTimer = none ∧
      { t.rp with bufA := s.rp.bufA, bufB := s.rp.bufB, lingerTimer := s.rp.lingerTimer } = s.rp ∧
      { t with rp := s.rp, fs := s.fs } = s

/-! ### Row programs (R49 to R52, R102 to R109) -/

/-- A passed record row is durable: durable_mark becomes its last sequence, its segment's entry grows by the row, the row map
gains it, the relocation record clears, the buffer is EMPTY, and the wait-list entries reached are answered, and no byte or
answered-map bit of exchange memory changes but theirs. Stated for a row before the last, with no buffer CLOSED and no card
waiting for a buffer. A CLOSED other buffer is handed over at the pass, where no other record row program is in flight; and a
card waiting for a buffer then has its record staged into the buffer that has become EMPTY, at the open segment's next row. A
pass in STOPPING does the same (R59). -/
def Obligations.RowPassMakesRowDurable : Prop :=
  (∀ (s : State) (d : Fin 4) (sg row : Nat) (data sp0 sp1 : List Byte) (n : BufName) (dst : Dest),
    Ends d .packer (.programRow sg row data sp0 sp1) s → row ≠ 63 → CatalogOk s → CardsOk s →
    s.rp.find .inFlight = some n → (s.rp.buf n).dest = some dst → dst.row ≠ 62 →
    (s.rp.buf n.other).state ≠ .closed → (∀ v, s.rp.served = some v → v.wait ≠ .buffer) →
    let b := s.rp.buf n
    let e := s.cu.entry dst.seg
    let reached := s.rp.waitList.takeWhile fun w => decide (w.target ≤ b.lastSeq)
    ∃ t, exec .rowProgramPass s = .next (settle t) ∧
      t.rp.durable = b.lastSeq ∧ t.rp.buf n = .cleared ∧ t.rp.buf n.other = s.rp.buf n.other ∧
      t.rp.relocation = none ∧
      t.rp.rowMap = s.rp.rowMap ++
        [{ row := dst.row, firstSeq := b.firstSeq, firstKey := b.firstKey, count := b.records.length }] ∧
      OnlyEntry dst.seg { e with
        rowsValid := e.rowsValid + 1, lastSeq := b.lastSeq, lastKey := b.lastKey,
        firstKey := if e.lastSeq + 1 = e.firstSeq then b.firstKey else e.firstKey } s t ∧
      t.rp.waitList = s.rp.waitList.drop reached.length ∧
      (∀ w ∈ reached, CardShows t w.card w.answer) ∧
      OnlyCards (fun c => ∃ w ∈ reached, w.card = c) s t ∧
      QueuesAfter d [] s t ∧
      { t.xp with mem := s.xp.mem, answered := s.xp.answered } = s.xp ∧
      { t.rp with
        bufA := s.rp.bufA, bufB := s.rp.bufB, durable := s.rp.durable, rowMap := s.rp.rowMap,
        waitList := s.rp.waitList, relocation := s.rp.relocation } = s.rp ∧
      { t with xp := s.xp, rp := s.rp, cu := { t.cu with catalog := s.cu.catalog }, fs := s.fs } = s) ∧
  (∀ (s : State) (d : Fin 4) (sg row : Nat) (data sp0 sp1 : List Byte) (n : BufName) (dst dst2 : Dest),
    Ends d .packer (.programRow sg row data sp0 sp1) s → row ≠ 63 → CatalogOk s → CardsOk s →
    s.rp.find .inFlight = some n → (s.rp.buf n).dest = some dst → dst.row ≠ 62 →
    (s.rp.buf n.other).state = .closed → (s.rp.buf n.other).dest = some dst2 →
    (∀ e, ∀ op ∈ (if e = d then (s.fs.die e).queue.tail else (s.fs.die e).queue), op.isRecordRow = false) →
    let b := s.rp.buf n
    let e := s.cu.entry dst.seg
    let passed := fun t : State =>
      t.rp.durable = b.lastSeq ∧ t.rp.relocation = none ∧
      t.rp.rowMap = s.rp.rowMap ++
        [{ row := dst.row, firstSeq := b.firstSeq, firstKey := b.firstKey, count := b.records.length }] ∧
      OnlyEntry dst.seg { e with
        rowsValid := e.rowsValid + 1, lastSeq := b.lastSeq, lastKey := b.lastKey,
        firstKey := if e.lastSeq + 1 = e.firstSeq then b.firstKey else e.firstKey } s t ∧
      t.rp.buf n.other = { s.rp.buf n.other with state := .inFlight } ∧
      QueuesAfter d [{ source := .packer, act := bufferProgram t (s.rp.buf n.other) dst2 }] s t
    ((∀ v, s.rp.served = some v → v.wait ≠ .buffer) →
      let reached := s.rp.waitList.takeWhile fun w => decide (w.target ≤ b.lastSeq)
      ∃ t, exec .rowProgramPass s = .next (settle t) ∧ passed t ∧ t.rp.buf n = .cleared ∧
        t.rp.waitList = s.rp.waitList.drop reached.length ∧ (∀ w ∈ reached, CardShows t w.card w.answer) ∧
        OnlyCards (fun c => ∃ w ∈ reached, w.card = c) s t ∧
        { t.xp with mem := s.xp.mem, answered := s.xp.answered } = s.xp ∧
        { t.rp with
          bufA := s.rp.bufA, bufB := s.rp.bufB, durable := s.rp.durable, rowMap := s.rp.rowMap,
          waitList := s.rp.waitList, relocation := s.rp.relocation } = s.rp ∧
        { t with xp := s.xp, rp := s.rp, cu := { t.cu with catalog := s.cu.catalog }, fs := s.fs } = s) ∧
    (∀ (v : RpServed) (h : HostRecord) (o : OpenSeg), s.rp.served = some v → v.wait = .buffer →
      readRecord s v = .ok h → s.rp.waitList = [] → s.rp.openSeg = some o → o.nextRow ≤ 62 →
      imageSize h.payload.length < 4096 → v.staged + 1 ≠ v.work.argC →
      let q := s.rp.nextSeq
      ∃ t, exec .rowProgramPass s = .next (settle t) ∧ passed t ∧
        t.rp.buf n = {
          state := .filling, dest := some { seg := o.seg, row := o.nextRow }
          records := [{ seq := q, key := h.key, image := storedImage h.class_ h.key q h.payload }] } ∧
        t.rp.openSeg = some { o with nextRow := o.nextRow + 1 } ∧
        t.rp.lingerTimer = (if s.xp.linger = 0 then none else some s.xp.linger.toNat) ∧ t.rp.nextSeq = q + 1 ∧
        t.rp.keyHigh = h.key ∧
        t.rp.served = some { v with
          staged := v.staged + 1, first := if v.staged = 0 then q else v.first, last := q, offset := h.next,
          wait := .staging } ∧
        { t.rp with
          served := s.rp.served, bufA := s.rp.bufA, bufB := s.rp.bufB, openSeg := s.rp.openSeg,
          lingerTimer := s.rp.lingerTimer, nextSeq := s.rp.nextSeq, keyHigh := s.rp.keyHigh, durable := s.rp.durable,
          rowMap := s.rp.rowMap, relocation := s.rp.relocation } = s.rp ∧
        { t with rp := s.rp, cu := { t.cu with catalog := s.cu.catalog }, fs := s.fs } = s))

/-- When row 62 passes the segment is closed: OPEN becomes SHORT with 63 rows, the RP has no open segment and an empty row
map, and the digest of the 63 rows is handed over, or waits in the pending digest slot while another is in flight. The RU
then judges (R152). A pass in STOPPING does the same (R59). -/
def Obligations.LastRowClosesSegment : Prop :=
  ∀ (s : State) (d : Fin 4) (sg row : Nat) (data sp0 sp1 : List Byte) (n : BufName) (dst : Dest),
    Ends d .packer (.programRow sg row data sp0 sp1) s → row ≠ 63 → CatalogOk s →
    s.rp.find .inFlight = some n → (s.rp.buf n).dest = some dst → dst.row = 62 →
    (s.rp.buf n.other).state ≠ .closed → (∀ v, s.rp.served = some v → v.wait ≠ .buffer) → s.rp.waitList = [] →
    let b := s.rp.buf n
    let e := s.cu.entry dst.seg
    let es : List DigestEntry := (s.rp.rowMap.map fun m =>
      { firstSeq := m.firstSeq, firstKey := m.firstKey, count := m.count }) ++
      [{ firstSeq := b.firstSeq, firstKey := b.firstKey, count := b.records.length }]
    let act : FlashAct := .programRow dst.seg 63 (digestData es)
      (trailerBytes s.cu.epoch 63 0 0 0 0 756 (digestData es)) (erased 31)
    ∃ u, exec .rowProgramPass s = .next (settle (ruJudge u)) ∧
      OnlyEntry dst.seg { e with
        state := .short, rowsValid := 63, hasDigest := false, retire := false, lastSeq := b.lastSeq,
        lastKey := b.lastKey, firstKey := if e.lastSeq + 1 = e.firstSeq then b.firstKey else e.firstKey } s u ∧
      u.rp.durable = b.lastSeq ∧ u.rp.openSeg = none ∧ u.rp.rowMap = [] ∧ u.rp.buf n = .cleared ∧
      (if digestInFlight s = true then
        u.rp.digests = s.rp.digests ++ [{ seg := dst.seg, entries := es }] ∧ QueuesAfter d [] s u
      else u.rp.digests = s.rp.digests ∧ QueuesAfter d [{ source := .packer, act := act }] s u) ∧
      { u.rp with
        bufA := s.rp.bufA, bufB := s.rp.bufB, durable := s.rp.durable, rowMap := s.rp.rowMap,
        openSeg := s.rp.openSeg, digests := s.rp.digests, relocation := s.rp.relocation } = s.rp ∧
      { u with rp := s.rp, cu := { u.cu with catalog := s.cu.catalog }, fs := s.fs } = s

/-- A failed record row begins a relocation: its segment is cut at the row, SHORT with retire_on_reclaim. With a segment in
the pool and a serial left, the head of the pool joins at the buffer's first sequence and the buffer is handed again as its
row 0, IN_FLIGHT with its records unchanged, the other buffer re-aimed to row 1; an empty last member leaves the order list
for the supersession list and oldest_seq is kept; the RU judges and a card waiting for space is re-examined. Otherwise the
archive becomes read-only. FULL_SEEN is cleared as the replacement is taken. `react`, the RU judging before the card is
re-examined, is the model's choice (log 9), and so is that the packer's program is handed before the RU's erase (log 11);
that key_high becomes `durableKey` in the read-only archive is read from R31 by inference (log 21). Relocation and the
read-only archive apply in STOPPING as in READY (R107, R179). -/
def Obligations.RowFailRelocates : Prop :=
  ∀ (s : State) (p : FailPlanes) (d : Fin 4) (sg row : Nat) (data sp0 sp1 : List Byte) (n : BufName) (dst : Dest),
    Ends d .packer (.programRow sg row data sp0 sp1) s → row ≠ 63 → CatalogOk s → CardsOk s → BuffersOk s →
    s.rp.relocation = none → s.rp.find .inFlight = some n → (s.rp.buf n).dest = some dst →
    let b := s.rp.buf n
    let e := s.cu.entry dst.seg
    let cut : Entry := { e with state := .short, rowsValid := dst.row, hasDigest := false, retire := true }
    (∀ seg rest, s.cu.freePool = seg :: rest → seg ≠ dst.seg → s.cu.nextSerial ≤ max32 →
      ∃ u, exec (.rowProgramFail p) s = .next (settle (react u)) ∧
        u.rp.relocation = some { predecessor := dst.seg, cutRow := dst.row, firstSeq := b.firstSeq } ∧
        u.rp.buf n = { b with dest := some { seg := seg, row := 0 } } ∧
        (if (s.rp.buf n.other).state = .filling ∨ (s.rp.buf n.other).state = .closed then
          u.rp.buf n.other = { s.rp.buf n.other with dest := some { seg := seg, row := 1 } } ∧
          u.rp.openSeg = some { seg := seg, nextRow := 2 }
        else u.rp.buf n.other = s.rp.buf n.other ∧ u.rp.openSeg = some { seg := seg, nextRow := 1 }) ∧
        u.rp.rowMap = [] ∧ u.rp.fullSeen = false ∧
        (e.lastSeq + 1 ≠ e.firstSeq → u.cu.entry dst.seg = cut) ∧
        u.cu.entry seg = { Entry.freed with
          state := .opened, firstSeq := b.firstSeq, lastSeq := b.firstSeq - 1, openSerial := s.cu.nextSerial } ∧
        u.cu.freePool = rest ∧ u.cu.nextSerial = s.cu.nextSerial + 1 ∧ u.cu.oldest = s.cu.oldest ∧
        (match s.cu.orderList.getLast? with
          | none => u.cu.orderList = [seg] ∧ u.ru.superseded = s.ru.superseded
          | some m =>
            if (s.cu.entry m).lastSeq + 1 = (s.cu.entry m).firstSeq then
              u.cu.orderList = s.cu.orderList.dropLast ++ [seg] ∧ u.ru.superseded = s.ru.superseded ++ [m] ∧
              (m ≠ seg → (u.cu.entry m).state = .erasing)
            else u.cu.orderList = s.cu.orderList ++ [seg] ∧ u.ru.superseded = s.ru.superseded) ∧
        QueuesAfter d [{ source := .packer, act := bufferProgram u b { seg := seg, row := 0 } }] s u ∧
        { u.rp with
          bufA := s.rp.bufA, bufB := s.rp.bufB, openSeg := s.rp.openSeg, rowMap := s.rp.rowMap,
          fullSeen := s.rp.fullSeen, relocation := s.rp.relocation } = s.rp ∧
        { u with rp := s.rp, cu := s.cu, ru := { u.ru with superseded := s.ru.superseded }, fs := s.fs } = s) ∧
    (s.cu.freePool = [] ∨ max32 < s.cu.nextSerial →
      ∃ u, exec (.rowProgramFail p) s = .next (settle (ruJudge u)) ∧ OnlyEntry dst.seg cut s u ∧ BecomesReadOnly s u ∧
        QueuesAfter d [] s u ∧
        { u with xp := s.xp, rp := s.rp, cu := { u.cu with catalog := s.cu.catalog }, fs := s.fs } = s)

/-- When the row 0 of a relocation's replacement fails, a further segment is taken in its place as the open segment, with the
same relocation record, the other buffer re-aimed to its row 1, and the failed one is RETIRED with cause PROGRAM, out of the
order list, with no erase and no mark; a member left empty at the end of the list is superseded. With no segment to take, the
failed one stays as the empty last member, SHORT with retire_on_reclaim, and the archive becomes read-only. FULL_SEEN is
cleared as the further segment is taken. `react`, the RU judging before a waiting card is re-examined, is the model's choice
(log 9), and so is that the packer's program is handed before the RU's erase (log 11); that key_high becomes `durableKey` in
the read-only archive is read from R31 by inference (log 21). All of this applies in STOPPING as in READY (R107, R179). -/
def Obligations.ReplacementFailTakesAnother : Prop :=
  ∀ (s : State) (p : FailPlanes) (r : Relocation) (d : Fin 4) (sg row : Nat) (data sp0 sp1 : List Byte) (n : BufName)
    (dst : Dest),
    Ends d .packer (.programRow sg row data sp0 sp1) s → row ≠ 63 → CatalogOk s → CardsOk s → BuffersOk s →
    s.rp.relocation = some r → s.rp.find .inFlight = some n → (s.rp.buf n).dest = some dst →
    let b := s.rp.buf n
    (∀ seg rest, s.cu.freePool = seg :: rest → seg ≠ dst.seg → s.cu.nextSerial ≤ max32 →
      ∃ u, exec (.replacementRow0Fail p) s = .next (settle (react u)) ∧
        u.rp.relocation = some r ∧ u.rp.buf n = { b with dest := some { seg := seg, row := 0 } } ∧
        (if (s.rp.buf n.other).state = .filling ∨ (s.rp.buf n.other).state = .closed then
          u.rp.buf n.other = { s.rp.buf n.other with dest := some { seg := seg, row := 1 } } ∧
          u.rp.openSeg = some { seg := seg, nextRow := 2 }
        else u.rp.buf n.other = s.rp.buf n.other ∧ u.rp.openSeg = some { seg := seg, nextRow := 1 }) ∧
        u.rp.rowMap = [] ∧ u.rp.fullSeen = false ∧
        (let left := s.cu.orderList.filter (· != dst.seg)
         match left.getLast? with
          | none => u.cu.orderList = [seg] ∧ u.ru.superseded = s.ru.superseded
          | some m =>
            if (s.cu.entry m).lastSeq + 1 = (s.cu.entry m).firstSeq then
              u.cu.orderList = left.dropLast ++ [seg] ∧ u.ru.superseded = s.ru.superseded ++ [m]
            else u.cu.orderList = left ++ [seg] ∧ u.ru.superseded = s.ru.superseded) ∧
        u.cu.entry dst.seg = { Entry.freed with state := .retired, cause := .program } ∧
        dst.seg ∈ u.cu.retired ∧ dst.seg ∉ u.cu.orderList ∧
        u.cu.entry seg = { Entry.freed with
          state := .opened, firstSeq := r.firstSeq, lastSeq := r.firstSeq - 1, openSerial := s.cu.nextSerial } ∧
        u.cu.freePool = rest ∧ u.cu.nextSerial = s.cu.nextSerial + 1 ∧ u.cu.oldest = s.cu.oldest ∧
        QueuesAfter d [{ source := .packer, act := bufferProgram u b { seg := seg, row := 0 } }] s u ∧
        u.rp.durable = s.rp.durable ∧ u.rp.nextSeq = s.rp.nextSeq ∧ u.rp.waitList = s.rp.waitList ∧
        { u.rp with
          bufA := s.rp.bufA, bufB := s.rp.bufB, openSeg := s.rp.openSeg, rowMap := s.rp.rowMap,
          fullSeen := s.rp.fullSeen } = s.rp ∧
        { u with rp := s.rp, cu := s.cu, ru := { u.ru with superseded := s.ru.superseded }, fs := s.fs } = s) ∧
    (s.cu.freePool = [] ∨ max32 < s.cu.nextSerial →
      ∃ u, exec (.replacementRow0Fail p) s = .next (settle (ruJudge u)) ∧
        OnlyEntry dst.seg
          { s.cu.entry dst.seg with state := .short, rowsValid := 0, hasDigest := false, retire := true } s u ∧
        BecomesReadOnly s u ∧ QueuesAfter d [] s u ∧
        { u with xp := s.xp, rp := s.rp, cu := { u.cu with catalog := s.cu.catalog }, fs := s.fs } = s)

/-- The result of a digest program makes a SHORT member with 63 rows FULL with 64 on a pass of both planes, and sets its
retire_on_reclaim otherwise; it changes no other segment. The next waiting digest is then handed over. A result in STOPPING
does the same (R59). -/
def Obligations.DigestResultSettlesSegment : Prop :=
  ∀ (s : State) (p0 p1 : PlaneStatus) (d : Fin 4) (seg : Nat) (data sp0 sp1 : List Byte),
    Ends d .packer (.programRow seg 63 data sp0 sp1) s → CatalogOk s →
    let e := s.cu.entry seg
    ∃ t, exec (.digestProgramComplete p0 p1) s = .next (settle t) ∧
      OnlyEntry seg
        (if seg ∈ s.cu.orderList ∧ e.state = .short ∧ e.rowsValid = 63 then
          if p0 = .pass ∧ p1 = .pass then { e with state := .full, rowsValid := 64, hasDigest := true }
          else { e with retire := true }
        else e) s t ∧
      (match s.rp.digests with
        | [] => t.rp.digests = [] ∧ QueuesAfter d [] s t
        | j :: js => t.rp.digests = js ∧
          let act : FlashAct := .programRow j.seg 63 (digestData j.entries)
            (trailerBytes s.cu.epoch 63 0 0 0 0 756 (digestData j.entries)) (erased 31)
          QueuesAfter d [{ source := .packer, act := act }] s t) ∧
      { t with rp := { t.rp with digests := s.rp.digests }, cu := { t.cu with catalog := s.cu.catalog }, fs := s.fs } =
        s

/-! ### The query path (R120 to R134) -/

/-- A READ_SEQ card is refused BAD_CARD where its run is bad (parcel_count 0, or parcel_first + parcel_count above 110), its
limit is above 65,535, from_seq is 0 or above 2^48 − 1, to_seq is above 2^48 − 1 or to_seq is below from_seq. One that passes
its checks starts its read at max(from_seq, oldest_seq): an empty range or a start above
durable_mark is answered DONE at once with that cursor as result sequence 2; otherwise the AR asks for the pin on the member
with the greatest first_seq at or below the cursor. -/
def Obligations.ReadSeqStarts : Prop :=
  ∀ (c : CardIx) (s : State), Takes .query c s →
    let w := cardWork s c
    w.kind = some .readSeq →
    let cur := max w.argA s.cu.oldest
    let cut : Byte := if w.argA < s.cu.oldest then 0x01 else 0x00
    let seq2 := if cur = maxSeq + 1 then 0 else cur
    let idle : Ar := { Ar.reset with damagedRecords := s.ar.damagedRecords, damagedRows := s.ar.damagedRows }
    let bad := w.parcelCount = 0 ∨ 110 < w.parcelFirst + w.parcelCount ∨ 65535 < w.argC ∨ w.argA = 0 ∨
      281474976710655 < w.argA ∨ 281474976710655 < w.argB ∨ w.argB < w.argA
    (bad → ∃ t, exec .readSeq s = .next t ∧ TakeAnswers .query c (.plain .badCard) s t ∧
      { t with xp := s.xp, ci := s.ci } = s) ∧
    (¬ bad → w.argB < cur → ∃ t, exec .readSeq s = .next t ∧
      TakeAnswers .query c { outcome := .done, flags := cut, seq2 := seq2 } s t ∧ t.ar = idle ∧
      { t with xp := s.xp, ci := s.ci, ar := s.ar } = s) ∧
    (¬ bad → cur ≤ w.argB → s.rp.durable < cur → ∃ t, exec .readSeq s = .next t ∧
      TakeAnswers .query c { outcome := .done, flags := cut ||| 0x02, seq2 := seq2 } s t ∧ t.ar = idle ∧
      { t with xp := s.xp, ci := s.ci, ar := s.ar } = s) ∧
    (¬ bad → cur ≤ w.argB → cur ≤ s.rp.durable →
      (∃ m ∈ s.cu.orderList, (s.cu.entry m).firstSeq ≤ cur) →
      ∃ t m, exec .readSeq s = .next t ∧ TakeKeeps .query c s t ∧
        m ∈ s.cu.orderList ∧ (s.cu.entry m).firstSeq ≤ cur ∧
        (∀ x ∈ s.cu.orderList, (s.cu.entry x).firstSeq ≤ cur → (s.cu.entry x).firstSeq ≤ (s.cu.entry m).firstSeq) ∧
        t.ar = { idle with
          served := some { card := c, work := w }, mark := s.rp.durable, cursor := some cur, flags := cut,
          act := .awaitPin m false } ∧
        { t with xp := s.xp, ci := s.ci, ar := s.ar } = s)

/-- A READ_KEY card is refused BAD_CARD where its run is bad, its limit is above 65,535 or to_key is below from_key. One that
passes its checks asks for the pin on the first member in list order that holds a record and whose
last_key reaches from_key; with no such member it is answered DONE with END_OF_ARCHIVE and result sequence 2 after
durable_mark. -/
def Obligations.ReadKeyStarts : Prop :=
  ∀ (c : CardIx) (s : State), Takes .query c s →
    let w := cardWork s c
    w.kind = some .readKey →
    let bad := w.parcelCount = 0 ∨ 110 < w.parcelFirst + w.parcelCount ∨ 65535 < w.argA ∨ w.argD < w.argC
    let reaches := fun m => (s.cu.entry m).lastSeq + 1 ≠ (s.cu.entry m).firstSeq ∧ w.argC ≤ (s.cu.entry m).lastKey
    let idle : Ar := { Ar.reset with damagedRecords := s.ar.damagedRecords, damagedRows := s.ar.damagedRows }
    let cut : Byte := match s.cu.orderList with
      | h :: _ => if 1 < s.cu.oldest ∧ w.argC ≤ (s.cu.entry h).firstKey then 0x01 else 0x00
      | [] => 0x00
    let after := if s.rp.durable = maxSeq then 0 else s.rp.durable + 1
    (bad → ∃ t, exec .readKey s = .next t ∧ TakeAnswers .query c (.plain .badCard) s t ∧
      { t with xp := s.xp, ci := s.ci } = s) ∧
    (¬ bad → (∀ m ∈ s.cu.orderList, ¬ reaches m) → ∃ t, exec .readKey s = .next t ∧
      TakeAnswers .query c { outcome := .done, flags := 0x02, seq2 := after } s t ∧ t.ar = idle ∧
      { t with xp := s.xp, ci := s.ci, ar := s.ar } = s) ∧
    (∀ pre m post, ¬ bad → s.cu.orderList = pre ++ m :: post → (∀ x ∈ pre, ¬ reaches x) → reaches m →
      ∃ t, exec .readKey s = .next t ∧ TakeKeeps .query c s t ∧
        t.ar = { idle with
          served := some { card := c, work := w }, mark := s.rp.durable, act := .awaitPin m false, flags := cut } ∧
        { t with xp := s.xp, ci := s.ci, ar := s.ar } = s)

/-- The RU's answer to a pin request: held while a removal claim for the segment is outstanding; otherwise, unless the
segment is ERASING, consent: the pin names the segment. At a start the AR then locates its row, in a FULL member by reading
its digest row, in a SHORT one by reading the trailer of row 0, and in the OPEN one from the row map, which it copies: the
row of the greatest first sequence at or below the cursor. On the way to the next member the pin moves and the AR reads its
digest row, its row 0, or the first row of the row map that holds a record. An ERASING segment is refused and the start is
repeated. At a start the segment must still be the member the lookup named, in the order list and beginning at the D of the
start or below: where it was removed meanwhile, and even where it is a member again, the start is repeated after the consent,
which is the model's choice (log 35). The pin's move is an event for the RU and for a card waiting for space (R124): `react`,
the RU judging first, is the model's choice (log 9), and so is the position held while a digest or a trailer is read (log
36). A read served in STOPPING goes on in the same way (R137). -/
def Obligations.PinRequestIsAnswered : Prop :=
  ∀ (s : State) (v : ArServed) (seg : Nat) (next : Bool),
    Running s → s.ar.served = some v → s.ar.act = .awaitPin seg next → s.ru.heldPin = none →
    s.ar.pin ≠ some seg →
    let consents := fun (a : Ar) (acts : List FlashOp) => ∃ u, exec .pinRequest s = .next (settle (react u)) ∧ u.ar = a ∧
      QueuesGain acts s u ∧ { u with ar := s.ar, fs := s.fs } = s
    let entered : Ar := { s.ar with pin := some seg, heldDigest := none, rows := [], expected := none, resync := false }
    let named := seg ∈ s.cu.orderList ∧ (s.cu.entry seg).firstSeq ≤ s.ar.mark
    (s.ru.claim = some seg → exec .pinRequest s = .next (settle { s with ru := { s.ru with heldPin := some seg } })) ∧
    (s.ru.claim ≠ some seg → (s.cu.entry seg).state = .erasing → next = false → s.ar.pin = none →
      exec .pinRequest s = .next (settle (arStart v.work s))) ∧
    (s.ru.claim ≠ some seg → (s.cu.entry seg).state ≠ .erasing → next = false → ¬ named →
      let u := arStart v.work { s with ar := { s.ar with pin := some seg } }
      exec .pinRequest s = .next (settle (if u.ar.pin = s.ar.pin then u else react u))) ∧
    (s.ru.claim ≠ some seg → (s.cu.entry seg).state ≠ .erasing → next = false → ¬ named → v.work.byKey = false →
      let cur := max v.work.argA s.cu.oldest
      cur ≤ v.work.argB → cur ≤ s.rp.durable → ∀ m ∈ s.cu.orderList, (s.cu.entry m).firstSeq ≤ cur →
      (∀ x ∈ s.cu.orderList, x ≠ m → (s.cu.entry x).firstSeq ≤ cur →
        (s.cu.entry x).firstSeq < (s.cu.entry m).firstSeq) →
      consents { s.ar with
          pin := some seg, mark := s.rp.durable, cursor := some cur, act := .awaitPin m false
          flags := if v.work.argA < s.cu.oldest then s.ar.flags ||| 0x01 else s.ar.flags } []) ∧
    (s.ru.claim ≠ some seg → (s.cu.entry seg).state = .full → next = false → named →
      consents { s.ar with pin := some seg, pos := some { seg := seg, row := 63, offset := 0 }, act := .digest false }
        [{ source := .reader, act := .readRow seg 63 }]) ∧
    (s.ru.claim ≠ some seg → (s.cu.entry seg).state = .short → next = false → named →
      consents { s.ar with
          pin := some seg, pos := some { seg := seg, row := 0, offset := 0 },
          act := .scan { row := 0, bad := none, prev := none } }
        [{ source := .reader, act := .readTrailers seg 0 }]) ∧
    (s.ru.claim ≠ some seg → (s.cu.entry seg).state = .opened → next = false → named → v.work.byKey = false →
      ∀ pre e post, s.rp.rowMap = pre ++ e :: post → 1 ≤ e.count → e.firstSeq ≤ s.ar.cur →
        (∀ x ∈ post, 1 ≤ x.count → s.ar.cur < x.firstSeq) →
        consents { s.ar with
            pin := some seg, rows := s.rp.rowMap, pos := some { seg := seg, row := e.row, offset := 0 }, act := .row }
          [{ source := .reader, act := .readRow seg e.row }]) ∧
    (s.ru.claim ≠ some seg → (s.cu.entry seg).state = .full → next = true →
      consents { entered with pos := some { seg := seg, row := 63, offset := 0 }, act := .digest true }
        [{ source := .reader, act := .readRow seg 63 }]) ∧
    (s.ru.claim ≠ some seg → (s.cu.entry seg).state = .short → next = true →
      consents { entered with pos := some { seg := seg, row := 0, offset := 0 }, act := .row }
        [{ source := .reader, act := .readRow seg 0 }]) ∧
    (s.ru.claim ≠ some seg → (s.cu.entry seg).state = .opened → next = true →
      ∀ pre e post, s.rp.rowMap = pre ++ e :: post → (∀ x ∈ pre, x.count = 0) → e.count ≠ 0 →
        consents { entered with rows := s.rp.rowMap, pos := some { seg := seg, row := e.row, offset := 0 }, act := .row }
          [{ source := .reader, act := .readRow seg e.row }])

/-- One trailer of a READ_SEQ scan: a row whose trailer is not well-formed, before the last valid row, makes the scan read
ahead; a well-formed trailer whose records reach the cursor stops the scan and its row is read; one whose records lie below
the cursor sends the scan on; and one that begins above the cursor behind rows that are not well-formed has the first of
those read. Nothing but the AR and the die queues changes. In a READ_KEY scan a well-formed trailer whose last key reaches
from_key stops the scan: its row is read where its first key is below from_key or no earlier record row was seen, the record
row before it otherwise (log 13), and the cursor becomes the row's first sequence. A digest row read at a start that is
accepted is kept, and the row of the greatest first sequence at or below the cursor is read; one that is not accepted is
followed by a trailer scan. Which trailer is well-formed and which digest row accepted is spelled out (`TrailerFormed`,
`DigestSound`): that a record row begins at 1 or above (log 24) and a header row's check is judged with its trailer (log 32)
is read from R97 by inference. The position held during a scan is the model's choice (log 36). In STOPPING the scan goes on
(R137). -/
def Obligations.TrailerScanFindsRow : Prop :=
  (∀ (s : State) (v : ArServed) (r : ReadSpare) (d : Fin 4) (seg row : Nat) (prev : Option (Nat × Nat × Nat)),
    Ends d .reader (.readTrailers seg row) s → s.ar.served = some v → v.work.byKey = true →
    s.ar.act = .scan { row := row, bad := none, prev := prev } →
    let x := Trailer.parse r.spare0
    let starts := fun (k q : Nat) => ∃ t, exec (.arTrailersResult r) s = .next (settle t) ∧
      { t with ar := s.ar, fs := s.fs } = s ∧
      t.ar = { s.ar with cursor := some q, pos := some { seg := seg, row := k, offset := 0 }, act := .row } ∧
      QueuesAfter d [{ source := .reader, act := .readRow seg k }] s t
    TrailerFormed r.spare0 row → 1 ≤ x.count → v.work.fromKey ≤ x.lastKey →
    (x.firstKey < v.work.fromKey ∨ prev = none → x.firstSeq ≤ s.ar.mark → starts row x.firstSeq) ∧
    (∀ p, v.work.fromKey ≤ x.firstKey → prev = some p → p.2.1 ≤ s.ar.mark → starts p.1 p.2.1)) ∧
  (∀ (s : State) (v : ArServed) (r : ReadRow) (d : Fin 4) (seg : Nat),
    Ends d .reader (.readRow seg 63) s → s.ar.served = some v → v.work.byKey = false → s.ar.act = .digest false →
    let es := entriesOf r.data
    let e := s.cu.entry seg
    let good := DigestSound r s.cu.epoch e.firstSeq ∧ field r.data (12 * 62) 6 + field r.data (12 * 62 + 10) 2 = e.lastSeq + 1
    let goesOn := fun (a : Ar) (act : FlashAct) => ∃ t, exec (.arReadRowResult r) s = .next (settle t) ∧ t.ar = a ∧
      (∀ k, (t.fs.die k).queue = (if k = d then (s.fs.die k).queue.tail else (s.fs.die k).queue) ++
        [{ source := .reader, act := act }].filter fun op => op.act.die == k) ∧
      { t with ar := s.ar, fs := s.fs } = s
    (good → ∀ pre x post, es = pre ++ x :: post → 1 ≤ x.count → x.firstSeq ≤ s.ar.cur →
      (∀ y ∈ post, 1 ≤ y.count → s.ar.cur < y.firstSeq) →
      goesOn { s.ar with
          heldRow := some r, heldDigest := some es, pos := some { seg := seg, row := pre.length, offset := 0 }, act := .row }
        (.readRow seg pre.length)) ∧
    (¬ good →
      goesOn { s.ar with
          heldRow := some r, heldDigest := none, pos := some { seg := seg, row := 0, offset := 0 },
          act := .scan { row := 0, bad := none, prev := none } }
        (.readTrailers seg 0))) ∧
  ∀ (s : State) (v : ArServed) (r : ReadSpare) (d : Fin 4) (seg row : Nat) (bad : Option Nat)
    (prev : Option (Nat × Nat × Nat)),
    Ends d .reader (.readTrailers seg row) s → s.ar.served = some v → v.work.byKey = false →
    s.ar.act = .scan { row := row, bad := bad, prev := prev } →
    let x := Trailer.parse r.spare0
    let last := (s.cu.entry seg).lastValidRow
    let reads := fun (k : Nat) (u : State) =>
      u.ar = { s.ar with pos := some { seg := seg, row := k, offset := 0 }, act := .row } ∧
      QueuesAfter d [{ source := .reader, act := .readRow seg k }] s u
    let scans := fun (p : ScanPos) (u : State) =>
      u.ar = { s.ar with pos := some { seg := seg, row := p.row, offset := 0 }, act := .scan p } ∧
      QueuesAfter d [{ source := .reader, act := .readTrailers seg p.row }] s u
    ∃ t, exec (.arTrailersResult r) s = .next (settle t) ∧ { t with ar := s.ar, fs := s.fs } = s ∧
      (¬ TrailerFormed r.spare0 row → row < last → scans { row := row + 1, bad := some (bad.getD row), prev := prev } t) ∧
      (TrailerFormed r.spare0 row → bad = none → 1 ≤ x.count → s.ar.cur ≤ x.firstSeq + x.count - 1 → reads row t) ∧
      (TrailerFormed r.spare0 row → bad = none → 1 ≤ x.count → x.firstSeq + x.count - 1 < s.ar.cur → row < last →
        scans { row := row + 1, bad := none, prev := some (row, x.firstSeq, x.firstSeq + x.count - 1) } t) ∧
      (∀ b, TrailerFormed r.spare0 row → bad = some b → s.ar.cur < x.firstSeq → reads b t)

/-- A row with one intact record at the cursor, read for a READ_SEQ with a limit of one record and room in its parcels: the
stored image is copied to the run, and the card is answered DONE with count 1, that sequence as result sequence 1 and the
next as result sequence 2, COUNT_LIMIT unless the range ended with the record. The AR is free again, and the cleared pin is
an event for the RU and for a card waiting for space: `react`, the RU judging first, is the model's choice (log 9). A row of
any number of intact records in the range is copied whole, also by a read whose cursor waits for the next accepted row, which
it then takes up: at the end of the range the card is answered without a stop flag; otherwise the row choice ends the read
above durable_mark, takes the member's next row, or asks for the pin on the next member. An image that does not fit stops the
read with DEST_FULL; a damaged record counts 1 where its header leads on, and the rest of the row where it does not; READ_KEY
passes over a key below from_key and stops with KEY_END above to_key. While the pin for the next member is awaited the
position keeps the row read last, which is the model's choice (log 36). Which row is accepted (R130, R97) is spelled out,
field by field (`RowAcceptable`): that a record row begins at 1 or above (log 24) and a header row's check is judged with its
trailer (log 32) is read from R97 by inference. A read served in STOPPING completes in the same way (R137). -/
def Obligations.ReadCopiesRecordAndAnswers : Prop :=
  (∀ (s : State) (v : ArServed) (r : ReadRow) (d : Fin 4) (seg row pin : Nat),
     Ends d .reader (.readRow seg row) s → Memory.wf s.xp.mem = true → s.ar.served = some v →
     v.work.kind = some .readSeq → v.work.argC = 1 → v.work.badRead = false →
     s.ar.act = .row → s.ar.pin = some pin → s.ar.resync = false → s.ar.count = 0 →
     RowAcceptable s row r →
     let x := rowTrailer r
     let h := StoredHeader.parse r.data
     let size := 16 + pad4 h.length
     x.count = 1 → s.ar.cursor = some x.firstSeq → x.firstSeq ≤ v.work.argB → h.seq = x.firstSeq →
     h.intact r.data = true → size ≤ x.fill → size ≤ r.data.length → s.ar.destOff + size ≤ v.work.span →
     ∃ u, exec (.arReadRowResult r) s = .next (settle (react u)) ∧
       (∀ k < size, xmRead u.xp.mem (v.work.runBase + s.ar.destOff + k) = r.data.getD k 0) ∧
       CardShows u v.card {
         outcome := .done, flags := s.ar.flags ||| (if v.work.argB = x.firstSeq then 0x00 else 0x08), count := 1,
         seq1 := x.firstSeq, seq2 := if x.firstSeq = maxSeq then 0 else x.firstSeq + 1, word := s.ar.damaged } ∧
       (∀ a, a ≠ cardBase v.card → ¬ (cardBase v.card + 32 ≤ a ∧ a < cardBase v.card + 64) →
         ¬ (v.work.runBase + s.ar.destOff ≤ a ∧ a < v.work.runBase + s.ar.destOff + size) →
         xmRead u.xp.mem a = xmRead s.xp.mem a) ∧
       u.ar = { Ar.reset with damagedRecords := s.ar.damagedRecords, damagedRows := s.ar.damagedRows } ∧
       u.fs.corrected = s.fs.corrected + BitVec.ofNat 32 (r.chunks.countP fun k => match k with
         | .clean => false
         | .corrected _ => true
         | .uncorrectable => false) ∧
       u.fs.mask = s.fs.mask ∧
       (∀ e, (u.fs.die e).queue = if e = d then (s.fs.die e).queue.tail else (s.fs.die e).queue) ∧
       { u.xp with mem := s.xp.mem, answered := s.xp.answered } = s.xp ∧
       { u with xp := s.xp, ar := s.ar, fs := s.fs } = s) ∧
  (∀ (s : State) (v : ArServed) (r : ReadRow) (d : Fin 4) (seg row : Nat) (rs : List HostRecord) (rest : List Byte),
    ReadsRow d seg row v r s → v.work.kind = some .readSeq → v.work.argC = 0 → rs ≠ [] → (∀ h ∈ rs, h.storable) →
    let q := (rowTrailer r).firstSeq
    let stop := q + rs.length
    let images := imagesFrom q rs
    r.data = images ++ rest → (rowTrailer r).count = rs.length → (rowTrailer r).fill = images.length →
    (s.ar.resync = false ∧ s.ar.cursor = some q) ∨ (s.ar.resync = true ∧ s.ar.cur ≤ q) →
    s.ar.count = 0 → stop ≤ maxSeq + 1 → stop ≤ v.work.argB + 1 → s.ar.destOff + images.length ≤ v.work.span →
    let walked : Ar := { s.ar with
      heldRow := some r, cursor := some stop, destOff := s.ar.destOff + images.length, count := rs.length, first := q,
      expected := some stop, resync := false }
    let copied := fun (u : State) =>
      (∀ k < images.length, xmRead u.xp.mem (v.work.runBase + s.ar.destOff + k) = images.getD k 0) ∧
      ∀ a, a ≠ cardBase v.card → ¬ (cardBase v.card + 32 ≤ a ∧ a < cardBase v.card + 64) →
        ¬ (v.work.runBase + s.ar.destOff ≤ a ∧ a < v.work.runBase + s.ar.destOff + images.length) →
        xmRead u.xp.mem a = xmRead s.xp.mem a
    let answers := fun (flag : Byte) => ∃ u, exec (.arReadRowResult r) s = .next (settle (react u)) ∧ copied u ∧
      CardShows u v.card {
        outcome := .done, flags := s.ar.flags ||| flag, count := rs.length, seq1 := q,
        seq2 := if stop = maxSeq + 1 then 0 else stop, word := s.ar.damaged } ∧
      u.ar = { Ar.reset with damagedRecords := s.ar.damagedRecords, damagedRows := s.ar.damagedRows } ∧
      { u with xp := s.xp, ar := s.ar, fs := s.fs } = s
    let goesOn := fun (a : Ar) (acts : List FlashOp) => ∃ t, exec (.arReadRowResult r) s = .next (settle t) ∧
      copied t ∧ t.ar = a ∧
      (∀ e, (t.fs.die e).queue = (if e = d then (s.fs.die e).queue.tail else (s.fs.die e).queue) ++
        acts.filter fun op => op.act.die == e) ∧
      { t with xp := s.xp, ar := s.ar, fs := s.fs } = s
    let e := s.cu.entry seg
    (v.work.argB + 1 = stop → s.ar.pin ≠ none → answers 0x00) ∧
    (stop ≤ v.work.argB → s.rp.durable < stop → e.lastSeq < stop → s.ar.pin ≠ none → answers 0x02) ∧
    (stop ≤ v.work.argB → stop ≤ s.rp.durable → stop ≤ e.lastSeq → row + 1 ≤ e.lastValidRow →
      goesOn { walked with pos := some { seg := seg, row := row + 1, offset := 0 } }
        [{ source := .reader, act := .readRow seg (row + 1) }]) ∧
    (stop ≤ v.work.argB → stop ≤ s.rp.durable → e.lastSeq < stop →
      ∀ pre m post, s.cu.orderList = pre ++ seg :: m :: post → seg ∉ pre →
        goesOn { walked with act := .awaitPin m true } [])) ∧
  (∀ (s : State) (v : ArServed) (r : ReadRow) (d : Fin 4) (seg row : Nat),
    ReadsRow d seg row v r s → s.ar.pin ≠ none → s.ar.resync = false →
    let x := rowTrailer r
    let q := x.firstSeq
    let h := StoredHeader.parse r.data
    s.ar.cursor = some q → q + x.count ≤ maxSeq + 1 → v.work.limit = 0 ∨ s.ar.count ≠ v.work.limit →
    let trusted := h.seq = q ∧ h.length ≤ 4080 ∧ imageSize h.length ≤ x.fill
    let answers := fun (flag : Byte) (cursor damage : Nat) => ∃ u, exec (.arReadRowResult r) s = .next (settle (react u)) ∧
      AnswersCard v.card {
        outcome := .done, flags := s.ar.flags ||| flag, count := s.ar.count, seq1 := s.ar.first,
        seq2 := if cursor = maxSeq + 1 then 0 else cursor, word := s.ar.damaged + damage } s u ∧
      u.ar = { Ar.reset with
        damagedRecords := s.ar.damagedRecords + BitVec.ofNat 32 damage, damagedRows := s.ar.damagedRows } ∧
      { u with xp := s.xp, ar := s.ar, fs := s.fs } = s
    (v.work.kind = some .readSeq → trusted → h.intact r.data = true → q ≤ v.work.argB → imageSize h.length ≤ r.data.length →
      v.work.span < s.ar.destOff + imageSize h.length → answers 0x04 q 0) ∧
    (v.work.kind = some .readSeq → trusted → h.intact r.data = false → x.count = 1 → v.work.argB = q →
      answers 0x00 (q + 1) 1) ∧
    (v.work.kind = some .readSeq → ¬ trusted → v.work.argB + 1 = q + x.count → answers 0x00 (q + x.count) x.count) ∧
    (v.work.kind = some .readKey → trusted → h.intact r.data = true → v.work.toKey < h.key → v.work.fromKey ≤ h.key →
      answers 0x10 q 0) ∧
    (v.work.kind = some .readKey → trusted → h.intact r.data = true → h.key < v.work.fromKey → x.count = 1 →
      s.rp.durable = q → (s.cu.entry seg).lastSeq ≤ q → answers 0x02 (q + 1) 0))

/-- A chosen row that is not accepted under R130, as `RowAcceptable` spells it field by field, counts one damaged row, and
its records where their number is known, one otherwise, in the AR's counters and in the read's own damaged count. The cursor
moves past a row whose number of records is known, and past the member after its last valid row; otherwise it waits for the
next row that is accepted. The read then goes on at the row choice: it stops at the end of the range, at the record limit or
above durable_mark, takes the member's next row, or asks for the pin on the next member. Model's choices: the cursor does not
move back (log 14), the RU judges first once the pin clears (`react`, log 9), and the position is kept while the next pin is
awaited (log 36). Read from R97 by inference: a record row begins at 1 or above (log 24), and a header row's check is judged
with its trailer (log 32). A read served in STOPPING goes on in the same way (R137). -/
def Obligations.DamagedRowIsCounted : Prop :=
  (∀ (s : State) (v : ArServed) (r : ReadRow) (d : Fin 4) (seg row : Nat),
    Ends d .reader (.readRow seg row) s → s.ar.served = some v → s.ar.act = .row → ¬ RowAcceptable s row r →
    ∃ t, exec (.arReadRowResult r) s = .next (settle t) ∧ t.ar.damagedRows = s.ar.damagedRows + 1 ∧
      (∀ first count, RowKnown s.ar row first count →
        t.ar.damagedRecords = s.ar.damagedRecords + BitVec.ofNat 32 count) ∧
      ((∀ first count, ¬ RowKnown s.ar row first count) → t.ar.damagedRecords = s.ar.damagedRecords + 1)) ∧
  ∀ (s : State) (v : ArServed) (r : ReadRow) (d : Fin 4) (seg row : Nat),
    Ends d .reader (.readRow seg row) s → Memory.wf s.xp.mem = true → s.ar.served = some v → s.ar.act = .row →
    s.ar.pin ≠ none → ¬ RowAcceptable s row r →
    let m := s.cu.entry seg
    let resumes := fun (n : Nat) (cursor : Option Nat) (resync : Bool) =>
      let cur := cursor.getD 0
      let pastRange := v.work.byKey = false ∧ v.work.argB < cur
      let atLimit := v.work.limit ≠ 0 ∧ s.ar.count = v.work.limit
      let damaged : Ar := { s.ar with
        heldRow := some r, cursor := cursor, expected := none, resync := resync, damaged := s.ar.damaged + n
        damagedRecords := s.ar.damagedRecords + BitVec.ofNat 32 n, damagedRows := s.ar.damagedRows + 1 }
      let answers := fun (flag : Byte) => ∃ u, exec (.arReadRowResult r) s = .next (settle (react u)) ∧
        AnswersCard v.card {
          outcome := .done, flags := s.ar.flags ||| flag, count := s.ar.count, seq1 := s.ar.first
          seq2 := if cur = maxSeq + 1 then 0 else cur, word := s.ar.damaged + n } s u ∧
        u.ar = { Ar.reset with damagedRecords := damaged.damagedRecords, damagedRows := damaged.damagedRows } ∧
        (∀ e, (u.fs.die e).queue = if e = d then (s.fs.die e).queue.tail else (s.fs.die e).queue) ∧
        { u with xp := s.xp, ar := s.ar, fs := s.fs } = s
      let goesOn := fun (a : Ar) (acts : List FlashOp) => ∃ t, exec (.arReadRowResult r) s = .next (settle t) ∧ t.ar = a ∧
        (∀ e, (t.fs.die e).queue = (if e = d then (s.fs.die e).queue.tail else (s.fs.die e).queue) ++
          acts.filter fun op => op.act.die == e) ∧
        { t with ar := s.ar, fs := s.fs } = s
      (pastRange → answers 0x00) ∧
      (¬ pastRange → atLimit → answers 0x08) ∧
      (¬ pastRange → ¬ atLimit → s.rp.durable < cur → m.lastSeq < cur ∨ row + 1 ≤ m.lastValidRow → answers 0x02) ∧
      (¬ pastRange → ¬ atLimit → cur ≤ s.rp.durable → cur ≤ m.lastSeq → row + 1 ≤ m.lastValidRow →
        goesOn { damaged with pos := some { seg := seg, row := row + 1, offset := 0 } }
          [{ source := .reader, act := .readRow seg (row + 1) }]) ∧
      (¬ pastRange → ¬ atLimit → cur ≤ s.rp.durable → m.lastSeq < cur →
        ∀ pre next post, s.cu.orderList = pre ++ seg :: next :: post → seg ∉ pre →
          goesOn { damaged with act := .awaitPin next true } [])
    let unknown := ∀ first count, ¬ RowKnown s.ar row first count
    (∀ first count, RowKnown s.ar row first count → resumes count (some (max s.ar.cur (first + count))) s.ar.resync) ∧
    (unknown → m.lastValidRow ≤ row → resumes 1 (some (max s.ar.cur (m.lastSeq + 1))) false) ∧
    (unknown → row < m.lastValidRow → resumes 1 s.ar.cursor true)

/-! ### The control path (R140 to R149, R170, R185) -/

/-- A HOLD card is checked in the order of R144: tag, low_seq, and a tag in use, answered with the low_seq held; a card that
passes stays the served card until the RU has decided. -/
def Obligations.HoldIsCheckedInOrder : Prop :=
  ∀ (c : CardIx) (s : State), Takes .control c s →
    let w := cardWork s c
    w.kind = some .hold → w.flag0 = false →
    ((w.argC = 0 ∨ 65535 < w.argC ∨ w.argA = 0 ∨ maxSeq < w.argA) → ∃ t, exec .hold s = .next t ∧
      TakeAnswers .control c (.plain .badCard) s t ∧ { t with xp := s.xp, ci := s.ci } = s) ∧
    (1 ≤ w.argC → w.argC ≤ 65535 → 1 ≤ w.argA → w.argA ≤ maxSeq →
      (∀ pre h post, s.cp.holds = pre ++ h :: post → h.active = true → h.tag = w.argC →
        (∀ x ∈ pre, ¬ (x.active = true ∧ x.tag = w.argC)) → ∃ t, exec .hold s = .next t ∧
          TakeAnswers .control c { outcome := .tagInUse, seq1 := h.lowSeq } s t ∧
          { t with xp := s.xp, ci := s.ci } = s) ∧
      ((∀ x ∈ s.cp.holds, ¬ (x.active = true ∧ x.tag = w.argC)) → ∃ t, exec .hold s = .next t ∧
        TakeKeeps .control c s t ∧ t.cp = { s.cp with served := some { card := c, work := w, job := .hold } } ∧
        { t with xp := s.xp, ci := s.ci, cp := s.cp } = s))

/-- The RU's decision of a hold request: held while a removal claim is outstanding; otherwise GONE where low_seq is below
oldest_seq, NO_HOLD_SLOT where no entry is FREE, and else the lowest-numbered FREE entry becomes ACTIVE with the card's tag,
low_seq and lease and the card is answered DONE. A HOLD served in STOPPING is decided in the same way (R145, R179). -/
def Obligations.HoldRequestIsDecided : Prop :=
  ∀ (s : State) (v : CpServed), Running s → Memory.wf s.xp.mem = true → s.cp.served = some v →
    v.job = .hold → s.ru.heldHold = none →
    (s.ru.claim.isSome = true →
      exec .holdRequest s = .next (settle { s with ru := { s.ru with heldHold := some v.work.argA } })) ∧
    (s.ru.claim = none → v.work.argA < s.cu.oldest → ∃ t, exec .holdRequest s = .next (settle t) ∧
      AnswersCard v.card { outcome := .gone, seq1 := s.cu.oldest } s t ∧ t.cp = { s.cp with served := none } ∧
      { t with xp := s.xp, cp := s.cp } = s) ∧
    (s.ru.claim = none → s.cu.oldest ≤ v.work.argA → (∀ h ∈ s.cp.holds, h.active = true) →
      ∃ t, exec .holdRequest s = .next (settle t) ∧ AnswersCard v.card (.plain .noHoldSlot) s t ∧
        t.cp = { s.cp with served := none } ∧ { t with xp := s.xp, cp := s.cp } = s) ∧
    (∀ pre h post, s.ru.claim = none → s.cu.oldest ≤ v.work.argA → s.cp.holds = pre ++ h :: post →
      (∀ x ∈ pre, x.active = true) → h.active = false → ∃ t, exec .holdRequest s = .next (settle t) ∧
        AnswersCard v.card { outcome := .done, seq1 := v.work.argA, word := v.work.argD } s t ∧
        t.cp.served = none ∧
        t.cp.holds = pre ++
          { active := true, tag := v.work.argC, lowSeq := v.work.argA, remaining := v.work.argD } :: post ∧
        { t with xp := s.xp, cp := { t.cp with served := s.cp.served, holds := s.cp.holds } } = s)

/-- A HOLD card with RENEW and a RELEASE card: a bad tag is BAD_CARD; without an ACTIVE entry of the tag the answer is
NOT_HELD and the table is unchanged. RENEW gives the entry of the tag argument D as its lease and keeps its low_seq, both
reported in the answer. RELEASE makes the entry FREE, reports the low_seq it held, and the RU and a card waiting for space
are told: `react`, the RU judging before the card is re-examined, is the model's choice (log 9). -/
def Obligations.RenewAndReleaseByTag : Prop :=
  (∀ (c : CardIx) (s : State), Takes .control c s →
    let w := cardWork s c
    w.kind = some .hold → w.flag0 = true →
    ((w.argC = 0 ∨ 65535 < w.argC) → ∃ t, exec .holdRenew s = .next t ∧
      TakeAnswers .control c (.plain .badCard) s t ∧ { t with xp := s.xp, ci := s.ci } = s) ∧
    (1 ≤ w.argC → w.argC ≤ 65535 →
      (∀ pre h post, s.cp.holds = pre ++ h :: post → h.active = true → h.tag = w.argC →
        (∀ x ∈ pre, ¬ (x.active = true ∧ x.tag = w.argC)) → ∃ t, exec .holdRenew s = .next t ∧
          TakeAnswers .control c { outcome := .done, seq1 := h.lowSeq, word := w.argD } s t ∧
          t.cp.holds = pre ++ { h with remaining := w.argD } :: post ∧
          { t with xp := s.xp, ci := s.ci, cp := { t.cp with holds := s.cp.holds } } = s) ∧
      ((∀ x ∈ s.cp.holds, ¬ (x.active = true ∧ x.tag = w.argC)) → ∃ t, exec .holdRenew s = .next t ∧
        TakeAnswers .control c (.plain .notHeld) s t ∧ { t with xp := s.xp, ci := s.ci } = s))) ∧
  (∀ (c : CardIx) (s : State), Takes .control c s →
    let w := cardWork s c
    w.kind = some .release →
    ((w.argC = 0 ∨ 65535 < w.argC) → ∃ t, exec .release s = .next t ∧
      TakeAnswers .control c (.plain .badCard) s t ∧ { t with xp := s.xp, ci := s.ci } = s) ∧
    (1 ≤ w.argC → w.argC ≤ 65535 →
      (∀ pre h post, s.cp.holds = pre ++ h :: post → h.active = true → h.tag = w.argC →
        (∀ x ∈ pre, ¬ (x.active = true ∧ x.tag = w.argC)) → ∃ u, exec .release s = .next (react u) ∧
          TakeAnswers .control c { outcome := .done, seq1 := h.lowSeq } s u ∧
          u.cp.holds = pre ++ { active := false, tag := 0, lowSeq := 0, remaining := 0 } :: post ∧
          { u with xp := s.xp, ci := s.ci, cp := { u.cp with holds := s.cp.holds } } = s) ∧
      ((∀ x ∈ s.cp.holds, ¬ (x.active = true ∧ x.tag = w.argC)) → ∃ t, exec .release s = .next t ∧
        TakeAnswers .control c (.plain .notHeld) s t ∧ { t with xp := s.xp, ci := s.ci } = s)))

/-- A TRIM card above 2^48 − 1 is BAD_CARD; any other raises trim_point to the lesser of argument A and durable_mark, never
lowering it, and is answered DONE with the trim point, which the anchor block then shows; a change is told to the RU and to a
card waiting for space: `react`, the RU judging before the card is re-examined, is the model's choice (log 9). -/
def Obligations.TrimRaisesTrimPoint : Prop :=
  ∀ (c : CardIx) (s : State), Takes .control c s →
    let w := cardWork s c
    w.kind = some .trim →
    (maxSeq < w.argA → ∃ t, exec .trim s = .next t ∧ TakeAnswers .control c (.plain .badCard) s t ∧
      { t with xp := s.xp, ci := s.ci } = s) ∧
    (w.argA ≤ maxSeq →
      let tp := max s.cp.trimPoint (min w.argA s.rp.durable)
      ∃ u, TakeAnswers .control c { outcome := .done, seq1 := tp } s u ∧ u.cp.trimPoint = tp ∧
        field (anchorBytes u) 0x38 8 = tp % 281474976710656 ∧
        { u with xp := s.xp, ci := s.ci, cp := { u.cp with trimPoint := s.cp.trimPoint } } = s ∧
        exec .trim s = .next (if tp = s.cp.trimPoint then u else react u))

/-- A CENSUS card whose run is good has the 88 census bytes written at the start of its run, each value at its place (11.6),
and is answered DONE with zero fields; no other byte changes but its own state and result bytes. A bad run is BAD_CARD. A
mark shows its low 48 bits, which for a next_seq of 2^48 is the model's choice (log 33). -/
def Obligations.CensusIsWrittenToItsRun : Prop :=
  ∀ (c : CardIx) (s : State), Takes .control c s →
    let w := cardWork s c
    w.kind = some .census →
    ((w.parcelCount = 0 ∨ 110 < w.parcelFirst + w.parcelCount) → ∃ t, exec .census s = .next t ∧
      TakeAnswers .control c (.plain .badCard) s t ∧ { t with xp := s.xp, ci := s.ci } = s) ∧
    (1 ≤ w.parcelCount → w.parcelFirst + w.parcelCount ≤ 110 → ∃ t, exec .census s = .next t ∧
      xmReadList t.xp.mem (0x2400 + 512 * w.parcelFirst) 88 = censusBytes s ∧ CardShows t c (.plain .done) ∧
      (let bytes := xmReadList t.xp.mem (0x2400 + 512 * w.parcelFirst) 88
       let inState := fun st : SegState => s.cu.catalog.countP fun e => e.2.state == st
       let mark := fun v : Nat => v % 281474976710656
       field bytes 0x00 2 = (2048 * ([0, 1, 2, 3].countP fun d => s.fs.mask.getLsbD d) -
         s.cu.catalog.countP fun e => e.2.state != .free) % 65536 ∧
       field bytes 0x02 2 = inState .opened % 65536 ∧ field bytes 0x04 2 = inState .full % 65536 ∧
       field bytes 0x06 2 = inState .short % 65536 ∧ field bytes 0x08 2 = inState .erasing % 65536 ∧
       field bytes 0x0A 2 = inState .retired % 65536 ∧
       field bytes 0x0C 1 = (s.cp.holds.countP fun h => h.active) % 256 ∧
       field bytes 0x0D 1 = (if s.cu.mode = .keep then 1 else 0) ∧ field bytes 0x0E 1 = s.fs.mask.toNat ∧
       field bytes 0x0F 1 = 0 ∧ field bytes 0x10 4 = s.cu.epoch % 4294967296 ∧
       field bytes 0x14 4 = s.xp.slips.toNat ∧ field bytes 0x18 8 = mark s.rp.nextSeq ∧
       field bytes 0x20 8 = mark s.rp.durable ∧ field bytes 0x28 8 = mark s.cu.oldest ∧
       field bytes 0x30 8 = mark s.cp.trimPoint ∧ field bytes 0x38 8 = mark s.rp.discardFirst ∧
       field bytes 0x40 8 = mark s.rp.discardLast ∧ field bytes 0x48 4 = s.fs.corrected.toNat ∧
       field bytes 0x4C 4 = s.ar.damagedRecords.toNat ∧ field bytes 0x50 4 = s.ar.damagedRows.toNat ∧
       field bytes 0x54 4 = s.ec.orphans.toNat) ∧
      (∀ a, a ≠ cardBase c → ¬ (cardBase c + 32 ≤ a ∧ a < cardBase c + 64) →
        ¬ (0x2400 + 512 * w.parcelFirst ≤ a ∧ a < 0x2400 + 512 * w.parcelFirst + 88) →
        xmRead t.xp.mem a = xmRead s.xp.mem a) ∧
      t.ci = tailed .control s ∧ { t.xp with mem := s.xp.mem, answered := s.xp.answered } = s.xp ∧
      { t with xp := s.xp, ci := s.ci } = s)

/-- A FORMAT card with a mode other than 0 or 1 is BAD_CARD. Any other is taken, in READY and in UNFORMATTED: the engine is
FORMATTING with the catalog unloaded, the append and query queues are answered ABORTED_FORMAT, staged records are dropped,
named by the discard range, with next_seq and key_high set back (key_high: log 21), the packer is closed, its cards answered
ABORTED_FORMAT unless a record row program is in flight, holds and collections cleared, oldest_seq 0 (log 7); every catalog
entry is kept. A reader with no operation outstanding, as while it waits for the RU's answer to a pin request (log 30), has
its card answered ABORTED_FORMAT; one with an operation outstanding goes on. No other byte or answered-map bit of exchange
memory changes but those of the cards answered and the FORMAT card's state byte. -/
def Obligations.FormatIsTaken : Prop :=
  ∀ (c : CardIx) (s : State), s.ec.engine = .ready ∨ s.ec.engine = .unformatted →
    (s.ci.queue .control).head? = some c → pathFree .control s → (cardWork s c).reserved = 0 → CardsOk s →
    let w := cardWork s c
    w.kind = some .format →
    (1 < w.argC → ∃ t, exec .format s = .next t ∧ TakeAnswers .control c (.plain .badCard) s t ∧
      { t with xp := s.xp, ci := s.ci } = s) ∧
    (w.argC ≤ 1 → ∃ t, exec .format s = .next t ∧
      t.ec = { s.ec with engine := .formatting, loaded := false, step := .formatWait } ∧
      t.cp = { s.cp with
        served := some { card := c, work := w, job := .format }, holds := List.replicate 8 Hold.freed } ∧
      cardByte t c = 0x02 ∧
      t.ci.append = [] ∧ t.ci.query = [] ∧ t.ci.control = s.ci.control.tail ∧
      (∀ x, x ∈ s.ci.append ∨ x ∈ s.ci.query → CardShows t x (.plain .abortedFormat)) ∧
      t.cu = { s.cu with orderList := [], freePool := [], retired := [], oldest := 0 } ∧
      t.ru = { s.ru with claim := none, superseded := [], heldPin := none, heldHold := none } ∧
      t.rp.bufA = .cleared ∧ t.rp.bufB = .cleared ∧ t.rp.openSeg = none ∧ t.rp.rowMap = [] ∧ t.rp.digests = [] ∧
      t.rp.lingerTimer = none ∧ t.rp.relocation = none ∧ t.rp.durable = s.rp.durable ∧
      t.rp.readOnly = s.rp.readOnly ∧ t.rp.fullSeen = s.rp.fullSeen ∧
      (if s.rp.bufA.records = [] ∧ s.rp.bufB.records = [] then
        t.rp.discardFirst = s.rp.discardFirst ∧ t.rp.discardLast = s.rp.discardLast ∧ t.rp.nextSeq = s.rp.nextSeq ∧
        t.rp.keyHigh = s.rp.keyHigh
      else
        t.rp.discardFirst = s.rp.durable + 1 ∧ t.rp.discardLast = s.rp.nextSeq - 1 ∧
        t.rp.nextSeq = s.rp.durable + 1 ∧ t.rp.keyHigh = durableKey s) ∧
      (if recordRowInFlight s = true then t.rp.served = s.rp.served ∧ t.rp.waitList = s.rp.waitList
      else
        t.rp.served = none ∧ t.rp.waitList = [] ∧
        (∀ v, s.rp.served = some v →
          CardShows t v.card { outcome := .abortedFormat, count := v.staged, seq1 := v.first, seq2 := v.last }) ∧
        (∀ x ∈ s.rp.waitList, CardShows t x.card { x.answer with outcome := .abortedFormat })) ∧
      (∀ v, s.ar.served = some v → (s.ar.act = .idle ∨ ∃ seg next, s.ar.act = .awaitPin seg next) →
        t.ar = { Ar.reset with damagedRecords := s.ar.damagedRecords, damagedRows := s.ar.damagedRows } ∧
        CardShows t v.card (s.ar.answer .abortedFormat)) ∧
      (s.ar.act ≠ .idle → (∀ seg next, s.ar.act ≠ .awaitPin seg next) → t.ar = s.ar) ∧
      (let answered := fun x : CardIx => x ∈ s.ci.append ∨ x ∈ s.ci.query ∨
         (recordRowInFlight s = false ∧ (servedByAppend s x ∨ onWaitList s x)) ∨
         (servedByQuery s x ∧ (s.ar.act = .idle ∨ ∃ seg next, s.ar.act = .awaitPin seg next))
       (∀ a, a ≠ cardBase c → (∀ x, answered x → ¬ answerByte x a) → xmRead t.xp.mem a = xmRead s.xp.mem a) ∧
       (∀ x : CardIx, ¬ answered x → t.xp.answered.getLsbD x.val = s.xp.answered.getLsbD x.val)) ∧
      { t.xp with mem := s.xp.mem, answered := s.xp.answered } = s.xp ∧
      { t with
        xp := s.xp, ci := s.ci, rp := s.rp, ar := s.ar, cp := s.cp, cu := s.cu, ru := s.ru, ec := s.ec } = s)

/-- A lease tick lowers every ACTIVE entry's remaining of 1 or more by 1 and restarts the clock at 1000 ms; an entry that
reaches 0 becomes FREE, with one HOLD_EXPIRED and the RU and a card waiting for space told: `react`, the RU judging before the
card is re-examined, is the model's choice (log 9). Both the tick's command and the expiry's command do this, the latter only
where an entry expires (log 8); outside READY the clock is paused. -/
def Obligations.LeaseTickLowersLeases : Prop :=
  ∀ s : State,
    let expires := ∃ h ∈ s.cp.holds, h.active = true ∧ h.remaining = 1
    let ticked : State → Prop := fun u =>
      u.cp.leaseMs = 1000 ∧ u.cp.served = s.cp.served ∧ u.cp.trimPoint = s.cp.trimPoint ∧
      (∀ n : Nat, u.cp.holds[n]? = s.cp.holds[n]?.map fun (h : Hold) =>
        if h.active = true ∧ h.remaining = 1 then { active := false, tag := 0, lowSeq := 0, remaining := 0 }
        else if h.active = true ∧ 1 < h.remaining then { h with remaining := h.remaining - 1 } else h) ∧
      { u with xp := s.xp, cp := s.cp } = s
    (s.ec.engine = .ready → ¬ expires →
      (∃ t, exec .leaseTick s = .next t ∧ ticked t ∧ t.xp = s.xp) ∧ exec .holdExpiry s = .next s) ∧
    (s.ec.engine = .ready → expires →
      ∃ u, exec .leaseTick s = .next (react u) ∧ exec .holdExpiry s = .next (react u) ∧ ticked u ∧
        u.xp = { s.xp with events := s.xp.events ||| 0x10 }) ∧
    (s.ec.engine ≠ .ready → exec .leaseTick s = .next (settle s) ∧ exec .holdExpiry s = .next (settle s))

/-! ### Removal, erases and retire marks (R91, R93, R111 to R114, R153, R154) -/

/-- A removal claim for the head of the order list, FULL or SHORT with another member behind it, is granted: the head becomes
ERASING with its fields kept, the next member gives oldest_seq, and the RU's erase is handed over. A pin request held
meanwhile is refused, so that its read starts anew against the archive as the claim left it, and a held hold request is then
decided against the new oldest_seq. Any other claim is refused: a held pin request is then consented, a held hold request is
decided, and the RU judges; the pin's move is an event for the RU and for a card waiting for space (`react`, the RU judging
before the card, is the model's choice, log 9). A consented segment that is no longer the member the start's lookup named has
the start repeated (log 35). Model's choices too: the position held while a digest or a trailer is read (log 36), and that
the reader's operation is handed before the RU's (log 11). A card that waits for space and still needs a segment that the
pool does not give goes on waiting, since the RU's erase is in flight; in STOPPING, where the RU goes on reclaiming (R156),
no card waits (R59). -/
def Obligations.RemovalClaimTakesHead : Prop :=
  ∀ (s : State) (seg : Nat), Running s → s.ec.loaded = true → CatalogOk s → Memory.wf s.xp.mem = true →
    s.ru.claim = some seg →
    (∀ x, s.ru.heldPin = some x → ∃ a y, s.ar.served = some a ∧ s.ar.act = .awaitPin y false) →
    (∀ x, s.ru.heldHold = some x → ∃ v, s.cp.served = some v ∧ v.job = .hold) →
    let e := s.cu.entry seg
    let answered : Ru := { s.ru with claim := none, heldPin := none, heldHold := none }
    let holdPart := fun (oldest : Nat) (u t : State) =>
      (s.ru.heldHold = none → t.xp = u.xp ∧ t.cp = s.cp) ∧
      (∀ x v, s.ru.heldHold = some x → s.cp.served = some v → HoldDecided oldest v u t)
    (∀ next rest, s.cu.orderList = seg :: next :: rest → (e.state = .full ∨ e.state = .short) →
      (∀ v, s.rp.served = some v → v.wait = .space → s.ec.engine = .ready ∧ (∃ h, readRecord s v = .ok h) ∧
        s.rp.bufA.state = .empty ∧ s.rp.bufB.state = .empty ∧ (∀ o, s.rp.openSeg = some o → 62 < o.nextRow) ∧
        s.cu.freePool.length ≤ 2) →
      ∃ t u w, exec .removalClaim s = .next (settle t) ∧ OnlyEntry seg { e with state := .erasing } s w ∧
        w.cu.orderList = next :: rest ∧ w.cu.oldest = (s.cu.entry next).firstSeq ∧
        { w with
          cu := { w.cu with catalog := s.cu.catalog, orderList := s.cu.orderList, oldest := s.cu.oldest } } = s ∧
        (s.ru.heldPin = none → u = w) ∧
        (∀ x a, s.ru.heldPin = some x → s.ar.served = some a → u = arStart a.work w) ∧
        holdPart w.cu.oldest u t ∧ t.ar = u.ar ∧ t.cu = w.cu ∧ t.ru = { answered with op := .erase seg } ∧
        QueuesGain [{ source := .reclaim, act := .eraseSegment seg }] s t ∧
        { t with xp := s.xp, ar := s.ar, cu := s.cu, cp := s.cp, ru := s.ru, fs := s.fs } = s) ∧
    ((∀ next rest, s.cu.orderList ≠ seg :: next :: rest) ∨ (e.state ≠ .full ∧ e.state ≠ .short) →
      (s.ru.heldPin = none → ∃ u, exec .removalClaim s = .next (settle (ruJudge u)) ∧ u.ru = answered ∧
        holdPart s.cu.oldest s u ∧ { u with xp := s.xp, cp := s.cp, ru := s.ru } = s) ∧
      (∀ x, s.ru.heldPin = some x → s.ar.pin ≠ some x →
        let consents := fun (a : Ar) (act : FlashAct) => ∃ u, exec .removalClaim s = .next (settle (react (ruJudge u))) ∧
          u.ru = answered ∧ u.ar = a ∧ QueuesGain [{ source := .reader, act := act }] s u ∧ holdPart s.cu.oldest s u ∧
          { u with xp := s.xp, ar := s.ar, cp := s.cp, ru := s.ru, fs := s.fs } = s
        let named := x ∈ s.cu.orderList ∧ (s.cu.entry x).firstSeq ≤ s.ar.mark
        (named → (s.cu.entry x).state = .full →
          consents { s.ar with pin := some x, pos := some { seg := x, row := 63, offset := 0 }, act := .digest false }
            (.readRow x 63)) ∧
        (named → (s.cu.entry x).state = .short →
          consents { s.ar with
              pin := some x, pos := some { seg := x, row := 0, offset := 0 },
              act := .scan { row := 0, bad := none, prev := none } }
            (.readTrailers x 0)) ∧
        (∀ a, ¬ named → s.ar.served = some a →
          let w := arStart a.work { s with
            ar := { s.ar with pin := some x }, ru := { s.ru with claim := none, heldPin := none } }
          ∃ u, exec .removalClaim s = .next (settle (if u.ar.pin = s.ar.pin then ruJudge u else react (ruJudge u))) ∧
            u.ru = answered ∧ u.ar = w.ar ∧ holdPart s.cu.oldest w u ∧
            { u with xp := s.xp, ar := s.ar, cp := s.cp, ru := s.ru } = s)))

/-- The RU's erase: passed on both planes without retire_on_reclaim the segment is FREE at the tail of the pool and the RU is
idle; otherwise a retire mark is its next operation and the segment stays ERASING. Either is an event for the RU and for a
card waiting for space: `react`, the RU judging before the card is re-examined, is the model's choice (log 9). The RU's
judgement, in READY and STOPPING while it has no operation and no claim outstanding: the erase of the first superseded
segment is handed unless the pin names it; with none superseded the head is claimed exactly where R151's five conditions
hold; otherwise nothing happens. A result in STOPPING is applied in the same way (R156). -/
def Obligations.ReclaimEraseFreesOrMarks : Prop :=
  (∀ s : State,
    let judges := Running s ∧ s.ru.op = .idle ∧ s.ru.claim = none
    (¬ judges → ruJudge s = s) ∧
    (∀ x rest, judges → s.ru.superseded = x :: rest → s.ar.pin = some x → ruJudge s = s) ∧
    (∀ x rest, judges → s.ru.superseded = x :: rest → s.ar.pin ≠ some x →
      (ruJudge s).ru = { s.ru with op := .erase x, superseded := rest } ∧
      QueuesGain [{ source := .reclaim, act := .eraseSegment x }] s (ruJudge s) ∧
      { ruJudge s with ru := s.ru, fs := s.fs } = s) ∧
    (judges → s.ru.superseded = [] →
      (∀ head, Removable s head → ruJudge s = { s with ru := { s.ru with claim := some head } }) ∧
      ((∀ head, ¬ Removable s head) → ruJudge s = s)) ∧
    ((∀ v, s.rp.served = some v → v.wait ≠ .space) → react s = ruJudge (ruJudge s))) ∧
  ∀ (s : State) (p0 p1 : PlaneStatus) (d : Fin 4) (seg : Nat), Ends d .reclaim (.eraseSegment seg) s → CatalogOk s →
    let e := s.cu.entry seg
    let passed := p0 = .pass ∧ p1 = .pass
    (passed → e.retire = false → ∃ u, exec (.reclaimEraseComplete p0 p1) s = .next (settle (react u)) ∧
      OnlyEntry seg Entry.freed s u ∧ u.cu.freePool = s.cu.freePool ++ [seg] ∧ u.ru.op = .idle ∧
      QueuesAfter d [] s u ∧
      { u with
        cu := { u.cu with catalog := s.cu.catalog, freePool := s.cu.freePool }
        ru := { u.ru with op := s.ru.op }, fs := s.fs } = s) ∧
    (¬ passed ∨ e.retire = true → ∃ u, exec (.reclaimEraseComplete p0 p1) s = .next (settle (react u)) ∧
      u.ru = { s.ru with op := .mark seg } ∧
      QueuesAfter d [{ source := .reclaim, act := .programMark seg (decide (¬ passed)) }] s u ∧
      { u with ru := s.ru, fs := s.fs } = s)

/-- A retire mark's result retires the segment, with cause MARK where the mark failed, ERASE where the erase before it had
failed, PROGRAM otherwise. A mark of the RU, in READY or STOPPING, ends its operation and makes it judge. A mark of the EC,
while mounting or formatting, is followed by the die's next erase, if one is left: its segment leaves the erase list and is
ERASING from its handing (log 15). -/
def Obligations.RetireMarkRetires : Prop :=
  ∀ (s : State) (p : PlaneStatus) (d : Fin 4) (seg : Nat) (failed : Bool), CatalogOk s →
    let retired : Entry := { Entry.freed with
      state := .retired, cause := if p = .fail then .mark else if failed = true then .erase else .program }
    (Ends d .reclaim (.programMark seg failed) s → ∃ u, exec (.programMarkComplete p) s = .next (settle (ruJudge u)) ∧
      OnlyEntry seg retired s u ∧ (∀ x, x ∈ u.cu.retired ↔ x = seg ∨ x ∈ s.cu.retired) ∧ u.ru.op = .idle ∧
      QueuesAfter d [] s u ∧
      { u with
        cu := { u.cu with catalog := s.cu.catalog, retired := s.cu.retired }
        ru := { u.ru with op := s.ru.op }, fs := s.fs } = s) ∧
    (s.ec.engine = .mounting ∨ s.ec.engine = .formatting →
      s.fs.ending = some (d, { source := .engine, act := .programMark seg failed }) →
      (∀ x ∈ s.ec.eraseList, segDie x ≠ d) → ∃ t, exec (.programMarkComplete p) s = .next t ∧
        OnlyEntry seg retired s t ∧ (∀ x, x ∈ t.cu.retired ↔ x = seg ∨ x ∈ s.cu.retired) ∧ QueuesAfter d [] s t ∧
        { t with cu := { t.cu with catalog := s.cu.catalog, retired := s.cu.retired }, fs := s.fs } = s) ∧
    (∀ pre x post, s.ec.engine = .mounting ∨ s.ec.engine = .formatting → s.ec.stopPending = false →
      s.fs.ending = some (d, { source := .engine, act := .programMark seg failed }) →
      s.ec.eraseList = pre ++ x :: post → (∀ y ∈ pre, segDie y ≠ d) → segDie x = d → x ≠ seg →
      ∃ t, exec (.programMarkComplete p) s = .next t ∧ t.cu.entry seg = retired ∧
        t.cu.entry x = { s.cu.entry x with state := .erasing, cause := .noCause } ∧
        (∀ y, y ≠ seg → y ≠ x → t.cu.entry y = s.cu.entry y) ∧
        (∀ y, y ∈ t.cu.retired ↔ y = seg ∨ y ∈ s.cu.retired) ∧
        (∀ y, y ∈ t.ec.eraseList ↔ y ∈ s.ec.eraseList ∧ y ≠ x) ∧
        QueuesAfter d [{ source := .engine, act := .eraseSegment x }] s t ∧
        { t with
          cu := { t.cu with catalog := s.cu.catalog, retired := s.cu.retired }
          ec := { t.ec with eraseList := s.ec.eraseList }, fs := s.fs } = s)

/-- An erase of the EC, while mounting or formatting with no stop pending: passed on both planes without retire_on_reclaim the
segment is FREE and the die's next erase is handed, its segment ERASING; otherwise a retire mark is handed. -/
def Obligations.EcEraseFreesOrMarks : Prop :=
  ∀ (s : State) (p0 p1 : PlaneStatus) (d : Fin 4) (seg : Nat),
    s.ec.engine = .mounting ∨ s.ec.engine = .formatting → s.ec.stopPending = false → CatalogOk s →
    s.fs.ending = some (d, { source := .engine, act := .eraseSegment seg }) →
    let e := s.cu.entry seg
    let passed := p0 = .pass ∧ p1 = .pass
    (passed → e.retire = false → (∀ x ∈ s.ec.eraseList, segDie x ≠ d) →
      ∃ t, exec (.ecEraseComplete p0 p1) s = .next t ∧ OnlyEntry seg Entry.freed s t ∧ QueuesAfter d [] s t ∧
        { t with cu := { t.cu with catalog := s.cu.catalog }, fs := s.fs } = s) ∧
    (∀ pre x post, passed → e.retire = false → s.ec.eraseList = pre ++ x :: post → (∀ y ∈ pre, segDie y ≠ d) →
      segDie x = d → x ≠ seg → ∃ t, exec (.ecEraseComplete p0 p1) s = .next t ∧ t.cu.entry seg = Entry.freed ∧
        t.cu.entry x = { s.cu.entry x with state := .erasing, cause := .noCause } ∧
        (∀ y, y ≠ seg → y ≠ x → t.cu.entry y = s.cu.entry y) ∧
        (∀ y, y ∈ t.ec.eraseList ↔ y ∈ s.ec.eraseList ∧ y ≠ x) ∧
        QueuesAfter d [{ source := .engine, act := .eraseSegment x }] s t ∧
        { t with
          cu := { t.cu with catalog := s.cu.catalog }
          ec := { t.ec with eraseList := s.ec.eraseList }, fs := s.fs } = s) ∧
    (¬ passed ∨ e.retire = true → ∃ t, exec (.ecEraseComplete p0 p1) s = .next t ∧
      QueuesAfter d [{ source := .engine, act := .programMark seg (decide (¬ passed)) }] s t ∧
      { t with fs := s.fs } = s)

/-! ### The flash bus (R64 to R66, R72 to R78, R181) -/

/-- At the end of a phase that a busy period follows, the die is busy with its timer at the operation's limit, and the bus is
granted to the first die after the last granted one that has a phase pending; a soft reset's untimed command ends without a
busy period. At a die's ready output its timer stops and its last phase runs, at once when the bus is free. -/
def Obligations.PhaseEndsAndReady : Prop :=
  (∀ (s : State) (d : Fin 4) (op : FlashOp) (rest : List FlashOp) (limit : Nat), BusOk s.fs →
    (s.fs.die d).queue = op :: rest → s.fs.softResets = [] → (s.fs.die d).stage = .first →
    op.act.busyLimit = some limit →
    ∃ t, exec .flashPhaseEnd s = .next t ∧
      t.fs.die d = { queue := op :: rest, stage := .busy, timer := some limit } ∧
      (∀ e, (t.fs.die e).queue = (s.fs.die e).queue) ∧
      (match [s.fs.lastGranted + 1, s.fs.lastGranted + 2, s.fs.lastGranted + 3, s.fs.lastGranted].find? fun e =>
          (s.fs.die e).stage == .firstPending || (s.fs.die e).stage == .lastPending with
        | some e => t.fs.lastGranted = e ∧ (∀ x, (t.fs.die x).selected = true ↔ x = e)
        | none => t.fs.lastGranted = s.fs.lastGranted ∧ ∀ x, (t.fs.die x).selected = false) ∧
      t.fs.mask = s.fs.mask ∧ t.fs.corrected = s.fs.corrected ∧ t.fs.softResets = [] ∧
      { t with fs := s.fs, ec := { t.ec with quiet := s.ec.quiet } } = s) ∧
  (∀ (s : State) (c : Fin 4) (cs : List (Fin 4)), s.fs.softResets = c :: cs →
    ∃ t, exec .flashPhaseEnd s = .next t ∧ t.fs.softResets = cs ∧
      (∀ e, (t.fs.die e).queue = (s.fs.die e).queue) ∧ t.fs.mask = s.fs.mask ∧ t.fs.corrected = s.fs.corrected ∧
      { t with fs := s.fs, ec := { t.ec with quiet := s.ec.quiet } } = s) ∧
  (∀ (s : State) (d : Fin 4) (op : FlashOp) (rest : List FlashOp), BusOk s.fs →
    (s.fs.die d).queue = op :: rest → (s.fs.die d).stage = .busy → op.act.isResetDie = false →
    ∃ t, exec (.dieReady d) s = .next t ∧
      t.fs.die d = { queue := op :: rest, stage := if s.fs.busBusy = true then .lastPending else .last, timer := none } ∧
      (∀ e, e ≠ d → t.fs.die e = s.fs.die e) ∧
      t.fs.lastGranted = (if s.fs.busBusy = true then s.fs.lastGranted else d) ∧
      t.fs.mask = s.fs.mask ∧ t.fs.corrected = s.fs.corrected ∧ t.fs.softResets = s.fs.softResets ∧
      { t with fs := s.fs, ec := { t.ec with quiet := s.ec.quiet } } = s)

/-- A busy timer that expires on a present die in MOUNTING, READY, FORMATTING or STOPPING takes the engine to FAULTED with
cause DIE_TIMEOUT; mask, catalog and collections are kept. -/
def Obligations.DieTimeoutFaults : Prop :=
  ∀ (s : State) (d : Fin 4), CardsOk s → (s.fs.die d).timer.isSome = true → s.fs.mask.getLsbD d.val = true →
    (s.ec.engine = .mounting ∨ s.ec.engine = .ready ∨ s.ec.engine = .formatting ∨ s.ec.engine = .stopping) →
    ∃ t, exec (.dieTimeout d) s = .next t ∧ EntersFaulted .dieTimeout s t ∧ t.fs.mask = s.fs.mask ∧ t.cu = s.cu

/-- While probing, a RESET_DIE that ends ready is followed by PROBE on its die, one that never gets ready records the die
absent, and the four identification bytes record it present where they are the Erkado geometry code and absent otherwise. -/
def Obligations.ProbeRecordsEachDie : Prop :=
  ∀ (s : State) (d : Fin 4) (op : FlashOp) (rest : List FlashOp), s.ec.engine = .probing → s.ec.stopPending = false →
    s.fs.mask = 0 → (s.fs.die d).queue = op :: rest →
    let records := fun (r : ProbeRec) (t : State) =>
      (∀ e, probeRecOf t.ec.probeRec e = if e = d then r else probeRecOf s.ec.probeRec e) ∧ QueuesAfter d [] s t ∧
      { t with ec := { t.ec with probeRec := s.ec.probeRec }, fs := s.fs } = s
    (op.act = .resetDie d → (s.fs.die d).stage = .busy →
      (∃ t, exec (.resetDieComplete d) s = .next t ∧ QueuesAfter d [{ source := .engine, act := .probe d }] s t ∧
        { t with fs := s.fs } = s) ∧
      (∃ t, exec (.resetDieNoReady d) s = .next t ∧ records .absent t)) ∧
    (op.act = .probe d → s.fs.ending = some (d, op) → ∀ b0 b1 b2 b3 : Byte,
      ∃ t, exec (.probe b0 b1 b2 b3) s = .next t ∧
        records (if b0 = 0x2A ∧ b1 = 0x91 ∧ b2 = 0x40 ∧ b3 = 0x0C then .present else .absent) t)

/-! ### Mounting (R159 to R168) -/

/-- With no probe record pending and the bus quiet the probe ends: with no die present the engine is FAULTED with cause
NO_MEDIA; otherwise the mask shows the present dies, the engine enters MOUNTING with empty collections, and each present die
gets the first read of its scan. That the CU's oldest_seq becomes 0 with them is read from R160 by inference (log 7). -/
def Obligations.ProbeEndStartsMount : Prop :=
  ∀ s : State, CardsOk s → s.ec.engine = .probing → s.ec.stopPending = false → s.fs.quiet = true →
    (∀ c, probeRecOf s.ec.probeRec c ≠ .pending) →
    ((∀ c, probeRecOf s.ec.probeRec c = .absent) → ∃ t, exec .probeEnd s = .next t ∧ EntersFaulted .noMedia s t ∧
      t.fs.mask = 0 ∧ t.cu = { s.cu with catalog := [] }) ∧
    ((∃ c, probeRecOf s.ec.probeRec c = .present) → ∃ t, exec .probeEnd s = .next t ∧
      t.ec.engine = .mounting ∧ t.ec.step = .scan ∧ t.ec.candidates = [] ∧ t.ec.members = [] ∧ t.ec.eraseList = [] ∧
      t.ec.loaded = s.ec.loaded ∧ t.ec.cause = s.ec.cause ∧ t.ec.orphans = s.ec.orphans ∧
      (∀ c : Fin 4, t.fs.mask.getLsbD c.val = decide (probeRecOf s.ec.probeRec c = .present)) ∧
      (∀ c : Fin 4, (t.fs.die c).queue = if probeRecOf s.ec.probeRec c = .present then
        [{ source := .engine, act := .readTrailers (2048 * c.val) 0 }] else []) ∧
      t.fs.corrected = s.fs.corrected ∧
      t.cu = { s.cu with catalog := [], orderList := [], freePool := [], retired := [], oldest := 0 } ∧
      { t with ec := s.ec, fs := s.fs, cu := s.cu } = s)

/-- The scan classifies a segment by the first test its row-0 spare bytes meet: factory marker, retire mark, erased, possible
candidate (whose row 0 is then read), otherwise UNCLEAN; each but the possible candidate sends the scan to the die's next
segment. A verified row 0 makes the candidate, any other makes the segment UNCLEAN. A possible candidate has a valid header in
its plane-1 spare bytes and a trailer of row 0 in its plane-0 spare bytes that agree on epoch and first_seq, with a record, or
with none at first_seq 1 and no cut. Read from the spec by inference: a record row has a first_seq of 1 or above (log 24), the
header kept is the one read with the trailers (log 25), and a header row's row check is judged with its trailer (log 32). -/
def Obligations.ScanClassifiesSegment : Prop :=
  ∀ (s : State) (d : Fin 4) (seg : Nat), s.ec.engine = .mounting → s.ec.step = .scan → s.ec.stopPending = false →
    CatalogOk s →
    let nextRead : List FlashOp :=
      if (seg + 1) % 2048 = 0 then [] else [{ source := .engine, act := .readTrailers (seg + 1) 0 }]
    let validHeader := fun sp : List Byte =>
      field sp 1 2 = 0x5E48 ∧ crc16 ((sp.drop 1).take 20) = field sp 21 2 ∧ 1 ≤ field sp 3 4 ∧ 1 ≤ field sp 7 4 ∧
      1 ≤ field sp 11 6 ∧ field sp 17 1 ≤ 1 ∧
      ((field sp 18 1 = 0xFF ∧ field sp 19 2 = 0xFFFF) ∨
        (field sp 18 1 ≤ 62 ∧ field sp 19 2 ≤ 8191 ∧ field sp 19 2 ≠ seg))
    let rowZeroTrailer := fun sp : List Byte => field sp 1 2 = 0x5E54 ∧ 1 ≤ field sp 3 4 ∧ field sp 7 1 = 0 ∧
      ((1 ≤ field sp 8 2 ∧ field sp 8 2 ≤ 256 ∧ 1 ≤ field sp 10 6 ∧ field sp 16 4 ≤ field sp 20 4 ∧
          16 ≤ field sp 24 2 ∧ field sp 24 2 ≤ 4096 ∧ 16 * field sp 8 2 ≤ field sp 24 2) ∨
        (field sp 8 2 = 0 ∧ field sp 10 6 = 1 ∧ field sp 16 4 = 0 ∧ field sp 20 4 = 0 ∧ field sp 24 2 = 0 ∧
          field sp 26 2 = crc16 (trailerBody (field sp 3 4) 0 0 1 0 0 0)))
    let candidate := fun r : ReadSpare => validHeader r.spare1 ∧ rowZeroTrailer r.spare0 ∧
      field r.spare0 3 4 = field r.spare1 3 4 ∧ field r.spare0 10 6 = field r.spare1 11 6 ∧
      (1 ≤ field r.spare0 8 2 ∨ (field r.spare1 11 6 = 1 ∧ field r.spare1 18 1 = 0xFF ∧ field r.spare1 19 2 = 0xFFFF))
    let retiredAs := fun (cause : RetireCause) (t : State) =>
      OnlyEntry seg { Entry.freed with state := .retired, cause := cause } s t ∧
      (∀ x, x ∈ t.cu.retired ↔ x = seg ∨ x ∈ s.cu.retired) ∧ QueuesAfter d nextRead s t ∧
      { t with cu := { t.cu with catalog := s.cu.catalog, retired := s.cu.retired }, fs := s.fs } = s
    (∀ (r : ReadSpare) (row : Nat), s.fs.ending = some (d, { source := .engine, act := .readTrailers seg row }) →
      ∃ t, exec (.mountScanResult (.trailers r)) s = .next t ∧
        (if r.spare0.getD 0 0 ≠ 0xFF ∨ r.spare1.getD 0 0 ≠ 0xFF then retiredAs .factory t
        else if r.spare0.getD 1 0xFF = 0 ∧ r.spare0.getD 2 0xFF = 0 then retiredAs .found t
        else if (∀ b ∈ r.spare0, b = 0xFF) ∧ (∀ b ∈ r.spare1, b = 0xFF) then
          QueuesAfter d nextRead s t ∧ { t with fs := s.fs } = s
        else if candidate r then
          t.ec.scanHeld = s.ec.scanHeld ++
            [{ seg := seg, header := Header.parse r.spare1, trailer := Trailer.parse r.spare0 }] ∧
          QueuesAfter d [{ source := .engine, act := .readRow seg 0 }] s t ∧
          { t with ec := { t.ec with scanHeld := s.ec.scanHeld }, fs := s.fs } = s
        else
          OnlyEntry seg { Entry.freed with state := .unclean } s t ∧ QueuesAfter d nextRead s t ∧
          { t with cu := { t.cu with catalog := s.cu.catalog }, fs := s.fs } = s)) ∧
    (∀ (r : ReadRow) (row : Nat) (c : Candidate) (pre post : List Candidate),
      s.fs.ending = some (d, { source := .engine, act := .readRow seg row }) → s.ec.scanHeld = pre ++ c :: post →
      c.seg = seg → (∀ x ∈ pre, x.seg ≠ seg) → (∀ x ∈ post, x.seg ≠ seg) →
      ∃ t, exec (.mountScanResult (.row r)) s = .next t ∧ t.ec.scanHeld = pre ++ post ∧
        (∀ e, (t.fs.die e).queue = (if e = d then (s.fs.die e).queue.tail else (s.fs.die e).queue) ++
          nextRead.filter fun op => op.act.die == e) ∧
        (RowChecked r 0 → OnlyEntry seg (s.cu.entry seg) s t ∧
          t.ec.candidates = s.ec.candidates ++ [{ seg := seg, header := c.header, trailer := rowTrailer r }]) ∧
        (¬ RowChecked r 0 → OnlyEntry seg { Entry.freed with state := .unclean } s t ∧
          t.ec.candidates = s.ec.candidates) ∧
        { t with
          cu := { t.cu with catalog := s.cu.catalog }
          ec := { t.ec with scanHeld := s.ec.scanHeld, candidates := s.ec.candidates }
          fs := s.fs } = s)

/-- When the scan has ended with no candidate the engine is UNFORMATTED with the pool of the FREE segments, the marks 0 and
the event set. Otherwise the members are the candidates of the highest epoch whose serial no other has and, of those whose
cut names the same predecessor, the one with the greatest serial; they stand in order of open_serial. The other candidates of
that epoch are UNCLEAN, those of a lower one STALE. A member that the cut of another names from a greater serial has the
cut's row limit and retire_on_reclaim; any other has the limit 63. The first read of each die's members is handed over. -/
def Obligations.ScanEndOrdersMembers : Prop :=
  ∀ s : State, s.ec.engine = .mounting → s.ec.step = .scan → s.ec.stopPending = false → s.fs.quiet = true →
    CatalogOk s →
    (s.ec.candidates = [] → ∃ t, exec .mountScanEnd s = .next t ∧ t.ec.engine = .unformatted ∧ t.ec.loaded = false ∧
      t.xp = { s.xp with events := s.xp.events ||| 0x02 } ∧
      (∀ x, x ∈ t.cu.freePool ↔
        x < 8192 ∧ s.fs.mask.getLsbD (x / 2048) = true ∧ (s.cu.entry x).state = .free) ∧
      (∀ x, x ∈ t.cu.retired ↔ (s.cu.entry x).state = .retired) ∧
      t.cu.catalog = s.cu.catalog ∧ t.cu.orderList = [] ∧ t.cu.oldest = 0 ∧ t.cu.epoch = 0 ∧ t.cu.mode = .wrap ∧
      t.cu.nextSerial = 0 ∧
      t.rp = { Rp.reset with discardFirst := s.rp.discardFirst, discardLast := s.rp.discardLast } ∧
      t.cp = { s.cp with trimPoint := 0 } ∧
      { t with xp := s.xp, cu := s.cu, rp := s.rp, cp := s.cp, ec := s.ec } = s) ∧
    (s.ec.candidates ≠ [] → (s.ec.candidates.map Candidate.seg).Nodup →
      let top := s.ec.candidates.foldl (fun e c => max e c.header.epoch) 0
      let hasCut := fun c : Candidate => ¬ (c.header.cutRow = 0xFF ∧ c.header.predecessor = 0xFFFF)
      let unique := fun c : Candidate => c ∈ s.ec.candidates ∧ c.header.epoch = top ∧
        ∀ y ∈ s.ec.candidates, y.header.epoch = top → y.header.openSerial = c.header.openSerial → y = c
      let remains := fun c : Candidate => unique c ∧ (hasCut c → ∀ y, unique y → hasCut y →
        y.header.predecessor = c.header.predecessor → y.header.openSerial ≤ c.header.openSerial)
      let cuts := fun x c : Candidate => remains x ∧ hasCut x ∧ x.header.predecessor = c.seg ∧
        c.header.openSerial < x.header.openSerial
      ∃ t, exec .mountScanEnd s = .next t ∧ t.ec.engine = .mounting ∧ t.ec.step = .memberRead ∧
        (∀ c ∈ s.ec.candidates, remains c ↔ c.seg ∈ t.ec.members.map Member.seg) ∧
        (∀ m ∈ t.ec.members, ∃ c, remains c ∧ c.seg = m.seg ∧ c.header = m.header ∧
          (∀ x, cuts x c → m.limit = x.header.cutRow ∧ m.retire = true) ∧
          ((∀ x, ¬ cuts x c) → m.limit = 63 ∧ m.retire = false) ∧
          m.rowsValid = (if m.limit = 0 then 0 else 1)) ∧
        (t.ec.members.map fun m => m.header.openSerial).Pairwise (· < ·) ∧
        (∀ c ∈ s.ec.candidates, ¬ remains c →
          t.cu.entry c.seg = { Entry.freed with state := if c.header.epoch = top then .unclean else .stale }) ∧
        (∀ x, (∀ c ∈ s.ec.candidates, ¬ remains c → c.seg ≠ x) → t.cu.entry x = s.cu.entry x) ∧
        (∀ d, (t.fs.die d).queue =
          match (t.ec.members.find? fun m => segDie m.seg == d && m.prog != .done).bind Member.nextRead with
          | none => []
          | some act => [{ source := .engine, act := act }]) ∧
        { t with
          cu := { t.cu with catalog := s.cu.catalog }
          ec := { t.ec with step := s.ec.step, candidates := s.ec.candidates, members := s.ec.members }
          fs := s.fs } = s)

/-- A row read of a member's scan that is accepted extends the member by the row and, below its row limit, the next row of
the same member is read; one that is not ends the member, and so does the last row below its limit. A row 63 read first is
followed by the trailer of row 62, and then by the member's end as FULL where the digest agrees with it, or by the scan from
row 1. A FULL member's first_key is that of the first digest entry with a record, its last_key that of the row-62 trailer. At
a member's end the next member of its die, in order, is read, if one is left. The conditions of R164 and R165 are spelled
out, field by field (`MemberRowAcceptable`, `DigestSound`, `LastRowAgrees`). Read from R97 by inference: a record row begins
at 1 or above (log 24), and a header row's check is judged with its trailer (log 32). -/
def Obligations.MemberReadExtendsMember : Prop :=
  ∀ (s : State) (d : Fin 4) (seg : Nat) (m : Member) (pre post : List Member),
    s.ec.engine = .mounting → s.ec.step = .memberRead → s.ec.stopPending = false → segDie seg = d →
    s.ec.members = pre ++ m :: post → m.seg = seg → (∀ x ∈ pre, x.seg ≠ seg) → (∀ x ∈ post, x.seg ≠ seg) →
    (∀ x ∈ pre, segDie x.seg = d → x.prog = .done) →
    let goesOn := fun (m' : Member) (act : FlashAct) (t : State) =>
      t.ec.members = pre ++ m' :: post ∧
      (∀ e, (t.fs.die e).queue = (if e = d then (s.fs.die e).queue.tail ++ [{ source := .engine, act := act }]
        else (s.fs.die e).queue)) ∧
      { t with ec := { t.ec with members := s.ec.members }, fs := s.fs } = s
    let ends := fun (m' : Member) (t : State) =>
      t.ec.members = pre ++ m' :: post ∧
      (∀ e, (t.fs.die e).queue = (if e = d then
        (s.fs.die e).queue.tail ++ (match (post.find? fun x => segDie x.seg == d && x.prog != .done).map Member.nextRead with
          | some (some act) => [{ source := .engine, act := act }]
          | _ => [])
        else (s.fs.die e).queue)) ∧
      { t with ec := { t.ec with members := s.ec.members }, fs := s.fs } = s
    let extended := fun (row : Nat) (r : ReadRow) (prog : MemberProg) =>
      let x := rowTrailer r
      { m with
        rowsValid := row + 1, lastSeq := x.firstSeq + x.count - 1
        keys := some ((m.keys.map Prod.fst).getD x.firstKey, x.lastKey), prog := prog }
    (∀ (r : ReadRow) (row : Nat), s.fs.ending = some (d, { source := .engine, act := .readRow seg row }) →
      ∃ t, exec (.memberReadResult (.row r)) s = .next t ∧
        (m.prog = .scanRow row → MemberRowAcceptable m row r → row + 1 < m.limit →
          goesOn (extended row r (.scanRow (row + 1))) (.readRow seg (row + 1)) t) ∧
        (m.prog = .scanRow row → MemberRowAcceptable m row r → m.limit ≤ row + 1 → ends (extended row r .done) t) ∧
        (m.prog = .scanRow row → ¬ MemberRowAcceptable m row r → ends { m with prog := .done } t) ∧
        (m.prog = .digestRow → row = 63 → DigestSound r m.header.epoch m.header.firstSeq →
          goesOn { m with prog := .trailer62 (some (entriesOf r.data)) } (.readTrailers seg 62) t) ∧
        (m.prog = .digestRow → row = 63 → ¬ DigestSound r m.header.epoch m.header.firstSeq →
          goesOn { m with prog := .trailer62 none } (.readTrailers seg 62) t)) ∧
    (∀ (r : ReadSpare) (es : Option (List DigestEntry)), m.prog = .trailer62 es →
      s.fs.ending = some (d, { source := .engine, act := .readTrailers seg 62 }) →
      ∃ t, exec (.memberReadResult (.trailers r)) s = .next t ∧
        ((∀ l, es = some l → ¬ LastRowAgrees r.spare0 m.header.epoch l) →
          goesOn { m with prog := .scanRow 1 } (.readRow seg 1) t) ∧
        (∀ l, es = some l → LastRowAgrees r.spare0 m.header.epoch l →
          let x := Trailer.parse r.spare0
          let firstKey := ((l.filter fun e => decide (1 ≤ e.count)).head?.map DigestEntry.firstKey).getD 0
          ends { m with
            rowsValid := 64, lastSeq := x.firstSeq + x.count - 1, keys := some (firstKey, x.lastKey), full := true
            prog := .done } t))

/-- When the member reads have ended, the members without a row and those without a record but the newest are removed; the
rest are kept from the newest back as far as the links hold: each begins one above the last sequence of the one before it,
with no lower key, and the member before the first one kept does not link to it. Members before that are orphans, which
orphans_erased counts. Every member not kept and every UNCLEAN or STALE segment is ERASING, and each ERASING segment is on
the erase list, which ascends, or its erase is handed over, the lowest of its die. With nothing to erase the catalog is ready
to be built (log 19). -/
def Obligations.MemberReadsEndLinksMembers : Prop :=
  ∀ s : State, s.ec.engine = .mounting → s.ec.step = .memberRead → s.ec.stopPending = false → s.fs.quiet = true →
    CatalogOk s → (s.ec.members.map Member.seg).Nodup →
    let withRow := s.ec.members.filter fun m => decide (m.rowsValid ≠ 0)
    let left := withRow.filter fun m => decide (m.lastSeq + 1 ≠ m.header.firstSeq ∨ withRow.getLast? = some m)
    let links := fun older newer : Member => newer.header.firstSeq = older.lastSeq + 1 ∧
      ∀ o n, older.keys = some o → newer.keys = some n → o.2 ≤ n.1
    ∃ t gone, exec .memberReadsEnd s = .next t ∧ t.ec.engine = .mounting ∧ left = gone ++ t.ec.members ∧
      (left ≠ [] → t.ec.members ≠ []) ∧
      (∀ pre a b post, t.ec.members = pre ++ a :: b :: post → links a b) ∧
      (∀ pre a b post, gone = pre ++ [a] → t.ec.members = b :: post → ¬ links a b) ∧
      (∀ z, s.ec.members.getLast? = some z → z.rowsValid ≠ 0 → t.ec.members.getLast? = some z) ∧
      (∀ m ∈ s.ec.members, m ∉ t.ec.members →
        (t.cu.entry m.seg).state = .erasing ∧ (t.cu.entry m.seg).retire = m.retire) ∧
      (∀ x, (s.cu.entry x).state = .unclean ∨ (s.cu.entry x).state = .stale → (t.cu.entry x).state = .erasing) ∧
      (∀ x, (t.cu.entry x).state = .erasing ↔ x ∈ t.ec.eraseList ∨
        (t.fs.die (segDie x)).queue = [{ source := .engine, act := .eraseSegment x }]) ∧
      t.ec.eraseList.Pairwise (· < ·) ∧
      (∀ x ∈ t.ec.eraseList, ∃ y < x, (t.fs.die (segDie x)).queue = [{ source := .engine, act := .eraseSegment y }]) ∧
      t.ec.orphans = s.ec.orphans + BitVec.ofNat 32 gone.length ∧
      ((∃ x, (t.cu.entry x).state = .erasing) → t.ec.step = .erase) ∧
      ((∀ x, (t.cu.entry x).state ≠ .erasing) →
        t = { s with ec := { s.ec with
          members := t.ec.members, orphans := t.ec.orphans, step := .build, eraseList := [] } }) ∧
      { t with
        cu := { t.cu with catalog := s.cu.catalog }
        ec := { t.ec with
          members := s.ec.members, orphans := s.ec.orphans, eraseList := s.ec.eraseList, step := s.ec.step }
        fs := s.fs } = s

/-- The catalog is loaded in one change when the erases have ended: the members give the order list, their entries, the
marks, epoch, mode and serial, and key_high is the last key of the newest member that holds a record, or 0; the pool is the
FREE segments in interleaved order, block by block and each block over the dies; the retired set is the RETIRED segments; the
packer starts anew; the engine is READY with MOUNTED set. The RU then judges. -/
def Obligations.CatalogLoadEntersReady : Prop :=
  ∀ (s : State) (h z : Member), s.ec.engine = .mounting → s.ec.step = .erase ∨ s.ec.step = .build →
    s.ec.eraseList = [] → s.fs.quiet = true → s.ec.stopPending = false → CatalogOk s →
    (s.ec.members.map Member.seg).Nodup → s.ec.members.head? = some h → s.ec.members.getLast? = some z →
    ∃ u, exec .catalogLoad s = .next (ruJudge u) ∧
      u.ec.engine = .ready ∧ u.ec.loaded = true ∧ u.ec.step = .noStep ∧ u.ec.stopPending = false ∧
      u.ec.orphans = s.ec.orphans ∧ u.xp = { s.xp with events := s.xp.events ||| 0x01 } ∧
      u.cu.orderList = s.ec.members.map Member.seg ∧ u.cu.oldest = h.header.firstSeq ∧
      u.cu.epoch = z.header.epoch ∧ u.cu.nextSerial = z.header.openSerial + 1 ∧
      u.cu.mode = (if z.header.mode = 1 then .keep else .wrap) ∧
      u.cp = { s.cp with trimPoint := h.header.firstSeq - 1 } ∧
      (∀ m ∈ s.ec.members, u.cu.entry m.seg = {
        state := if m.full = true then .full else .short, firstSeq := m.header.firstSeq, lastSeq := m.lastSeq,
        firstKey := (m.keys.map Prod.fst).getD 0, lastKey := (m.keys.map Prod.snd).getD 0,
        openSerial := m.header.openSerial, rowsValid := m.rowsValid, hasDigest := m.full, retire := m.retire,
        cause := .noCause }) ∧
      (∀ x, x ∉ s.ec.members.map Member.seg → u.cu.entry x = s.cu.entry x) ∧
      (∀ x, x ∈ u.cu.freePool ↔ x < 8192 ∧ s.fs.mask.getLsbD (x / 2048) = true ∧ (u.cu.entry x).state = .free) ∧
      u.cu.freePool.Pairwise (fun x y => x % 2048 < y % 2048 ∨ (x % 2048 = y % 2048 ∧ x / 2048 < y / 2048)) ∧
      (∀ x, x ∈ u.cu.retired ↔ (u.cu.entry x).state = .retired) ∧
      (∀ pre m post, s.ec.members = pre ++ m :: post → m.lastSeq + 1 ≠ m.header.firstSeq →
        (∀ x ∈ post, x.lastSeq + 1 = x.header.firstSeq) → u.rp.keyHigh = (m.keys.map Prod.snd).getD 0) ∧
      ((∀ x ∈ s.ec.members, x.lastSeq + 1 = x.header.firstSeq) → u.rp.keyHigh = 0) ∧
      u.rp.durable = z.lastSeq ∧ u.rp.nextSeq = z.lastSeq + 1 ∧
      { u.rp with
        durable := 0, nextSeq := 0, keyHigh := 0, discardFirst := 0, discardLast := 0 } = Rp.reset ∧
      u.rp.discardFirst = s.rp.discardFirst ∧ u.rp.discardLast = s.rp.discardLast ∧
      { u with xp := s.xp, cu := s.cu, rp := s.rp, cp := s.cp, ec := s.ec } = s

/-! ### FORMAT after its taking (R99, R171, R172) -/

/-- Once the FS is quiet after the take, the segments FORMAT erases, which are the OPEN, FULL, SHORT, ERASING, UNCLEAN and
STALE ones and the RETIRED ones of cause MARK, are divided between the erase list, which ascends, and the die queues: each
die has the erase of one of them, ERASING from its handing (log 15), below every segment of the die left on the list, or
nothing. With the erases ended the retired set is the RETIRED segments, the epoch rises by one (past 2^32 − 1 it is a free
value, log 16), the mode is the card's, the first of the FREE segments in interleaved order is opened with serial 1 and its
header row handed over, the rest being the pool; with none FREE the card is answered ARCHIVE_FULL and the engine is
UNFORMATTED, or HALTED where a stop is pending. That a quiet FS serves where no report comes, and that an erase step with
nothing to erase ends at once, is the model's choice (log 34). -/
def Obligations.FormatErasesThenOpens : Prop :=
  (∀ s : State, s.ec.engine = .formatting → s.ec.step = .formatWait → s.fs.quiet = true → CatalogOk s →
    let erases := fun x : Nat =>
      (s.cu.entry x).state ∈ [SegState.opened, .full, .short, .erasing, .unclean, .stale] ∨
        ((s.cu.entry x).state = .retired ∧ (s.cu.entry x).cause = .mark)
    let handed := fun (x : Nat) (t : State) =>
      (t.fs.die (segDie x)).queue = [{ source := .engine, act := .eraseSegment x }]
    ∃ t, exec .formatQuiet s = .next t ∧ t.ec.step = .formatErase ∧
      (∀ x, erases x ↔ x ∈ t.ec.eraseList ∨ handed x t) ∧ t.ec.eraseList.Pairwise (· < ·) ∧
      (∀ x ∈ t.ec.eraseList, ∃ y < x, segDie y = segDie x ∧ handed y t) ∧
      (∀ e, (t.fs.die e).queue = [] ∨ ∃ x, segDie x = e ∧ handed x t) ∧
      (∀ x, handed x t → x ∉ t.ec.eraseList ∧
        t.cu.entry x = { s.cu.entry x with state := .erasing, cause := .noCause }) ∧
      (∀ x, ¬ handed x t → t.cu.entry x = s.cu.entry x) ∧
      t.fs.mask = s.fs.mask ∧ t.fs.corrected = s.fs.corrected ∧ t.fs.softResets = s.fs.softResets ∧
      { t with
        cu := { t.cu with catalog := s.cu.catalog }
        ec := { t.ec with step := s.ec.step, eraseList := s.ec.eraseList }, fs := s.fs } = s) ∧
  (∀ (s : State) (v : CpServed), s.ec.engine = .formatting → s.ec.step = .formatErase → s.ec.eraseList = [] →
    s.fs.quiet = true → CatalogOk s → Memory.wf s.xp.mem = true → s.cu.orderList = [] → s.cp.served = some v →
    let free := fun x : Nat => x < 8192 ∧ s.fs.mask.getLsbD (x / 2048) = true ∧ (s.cu.entry x).state = .free
    let mode : Retention := if v.work.argC = 1 then .keep else .wrap
    ∃ t, exec .formatErasesEnd s = .next t ∧ t.cu.mode = mode ∧ t.cu.epoch ≤ max32 ∧
      (s.cu.epoch < max32 → t.cu.epoch = s.cu.epoch + 1 ∧ t.draws = s.draws) ∧
      (∀ x, x ∈ t.cu.retired ↔ (s.cu.entry x).state = .retired) ∧
      ((∃ x, free x) → ∃ seg,
        t.cu.orderList = [seg] ∧ (∀ x, x = seg ∨ x ∈ t.cu.freePool ↔ free x) ∧
        (seg :: t.cu.freePool).Pairwise (fun x y => x % 2048 < y % 2048 ∨ (x % 2048 = y % 2048 ∧ x / 2048 < y / 2048)) ∧
        t.cu.nextSerial = 2 ∧ t.cu.oldest = s.cu.oldest ∧
        OnlyEntry seg { Entry.freed with state := .opened, firstSeq := 1, lastSeq := 0, openSerial := 1 } s t ∧
        t.ec = { s.ec with step := .formatHeader } ∧
        QueuesGain [{ source := .engine, act := .programRow seg 0 (erased 4096)
                        (trailerBytes t.cu.epoch 0 0 1 0 0 0 []) (headerBytes t.cu.epoch 1 1 mode 0xFF 0xFFFF) }]
          s t ∧
        { t with cu := s.cu, ec := s.ec, fs := s.fs, draws := s.draws } = s) ∧
      ((∀ x, ¬ free x) → FormatFails v t.cu.epoch s t ∧ t.cu.nextSerial = 1 ∧ t.cu.catalog = s.cu.catalog ∧
        { t with xp := s.xp, rp := s.rp, cu := s.cu, cp := s.cp, ec := s.ec, draws := s.draws } = s))

/-- The header row passed: the archive is empty with next_seq 1, oldest_seq 1 and durable_mark 0, the card is answered DONE
with the epoch, and the engine is READY, or STOPPING where a stop is pending; the RU judges. The header row failed: its
segment is RETIRED with cause PROGRAM and the next of the pool is opened in its place; with the pool empty the card is
answered ARCHIVE_FULL and the engine is UNFORMATTED, or HALTED where a stop is pending. -/
def Obligations.HeaderRowResultEndsFormat : Prop :=
  ∀ (s : State) (v : CpServed) (d : Fin 4) (seg row : Nat) (data sp0 sp1 : List Byte),
    s.ec.engine = .formatting → s.ec.step = .formatHeader → CatalogOk s → Memory.wf s.xp.mem = true →
    s.cp.served = some v → s.fs.ending = some (d, { source := .engine, act := .programRow seg row data sp0 sp1 }) →
    (∃ u, exec (.formatHeaderRowComplete .pass .pass) s = .next (settle (ruJudge u)) ∧
      u.ec.engine = (if s.ec.stopPending = true then .stopping else .ready) ∧ u.ec.loaded = true ∧
      u.ec.stopPending = false ∧ u.ec.step = .noStep ∧
      AnswersCard v.card { outcome := .done, word := s.cu.epoch } s u ∧
      u.cp = { s.cp with served := none, trimPoint := 0 } ∧
      OnlyEntry seg { s.cu.entry seg with rowsValid := 1 } s u ∧ u.cu.oldest = 1 ∧
      u.rp = { Rp.reset with
        openSeg := some { seg := seg, nextRow := 1 }, nextSeq := 1
        rowMap := [{ row := 0, firstSeq := 1, firstKey := 0, count := 0 }]
        discardFirst := s.rp.discardFirst, discardLast := s.rp.discardLast } ∧
      QueuesAfter d [] s u ∧
      { u with
        xp := s.xp, cp := s.cp, rp := s.rp, ec := s.ec, fs := s.fs
        cu := { u.cu with catalog := s.cu.catalog, oldest := s.cu.oldest } } = s) ∧
    (∀ (p0 p1 : PlaneStatus) (nxt : Nat) (rest : List Nat), ¬ (p0 = .pass ∧ p1 = .pass) →
      s.cu.freePool = nxt :: rest → nxt ≠ seg → s.cu.orderList = [seg] →
      ∃ t, exec (.formatHeaderRowComplete p0 p1) s = .next t ∧
        t.cu.entry seg = { Entry.freed with state := .retired, cause := .program } ∧
        (∀ x, x ∈ t.cu.retired ↔ x = seg ∨ x ∈ s.cu.retired) ∧ t.cu.orderList = [nxt] ∧ t.cu.freePool = rest ∧
        t.cu.entry nxt = { Entry.freed with
          state := .opened, firstSeq := 1, lastSeq := 0, openSerial := s.cu.nextSerial } ∧
        t.cu.nextSerial = s.cu.nextSerial + 1 ∧ t.ec = s.ec ∧ t.cp = s.cp ∧ t.xp = s.xp ∧
        QueuesAfter d [{ source := .engine, act := .programRow nxt 0 (erased 4096)
                           (trailerBytes s.cu.epoch 0 0 1 0 0 0 [])
                           (headerBytes s.cu.epoch s.cu.nextSerial 1 s.cu.mode 0xFF 0xFFFF) }] s t) ∧
    (∀ p0 p1 : PlaneStatus, ¬ (p0 = .pass ∧ p1 = .pass) → s.cu.freePool = [] → s.cu.orderList = [seg] →
      ∃ t, exec (.formatHeaderRowComplete p0 p1) s = .next t ∧ FormatFails v s.cu.epoch s t ∧
        OnlyEntry seg { Entry.freed with state := .retired, cause := .program } s t ∧
        (∀ x, x ∈ t.cu.retired ↔ x = seg ∨ x ∈ s.cu.retired) ∧ QueuesAfter d [] s t ∧
        { t.cu with
          catalog := s.cu.catalog, retired := s.cu.retired, orderList := s.cu.orderList, oldest := s.cu.oldest } = s.cu ∧
        { t with xp := s.xp, rp := s.rp, cu := s.cu, cp := s.cp, ec := s.ec, fs := s.fs } = s)

/-! ### The completions of a stop (R176, R180) -/

/-- A stop pending in PROBING or MOUNTING ends at the flash quiet report with the engine HALTED. A stop completes when all
five quiet flags are set: the open segment becomes none, the row map is emptied, the linger timer and the relocation record
clear, the RU takes its reset values and the engine enters HALTED with LOADED clear and STOPPED set; everything else is kept.
While a flag is clear the stop goes on. Each flag stands in STOPPING as its block's condition does after every command
(`settle`): the append path by the six conditions of R59, the query path with no served card and no operation, the control
path with no served card, the RU idle with no superseded segment and no candidate, the flash with every queue empty and no
phase; in any other state the flags stay. -/
def Obligations.StopsEndInHalted : Prop :=
  (∀ s : State, s.ec.stopPending = true → s.ec.engine = .probing ∨ s.ec.engine = .mounting → s.fs.quiet = true →
    ∃ t, exec .haltOnQuiet s = .next t ∧ haltsWith s.xp s t) ∧
  (∀ s : State, s.ec.engine = .stopping → s.ec.quiet.append = true → s.ec.quiet.query = true →
    s.ec.quiet.control = true → s.ec.quiet.reclaim = true → s.ec.quiet.flash = true →
    ∃ t, exec .stopComplete s = .next t ∧ t.rp.openSeg = none ∧ t.rp.rowMap = [] ∧ t.rp.lingerTimer = none ∧
      t.rp.relocation = none ∧ t.ru = Ru.reset ∧
      { t.rp with
        openSeg := s.rp.openSeg, rowMap := s.rp.rowMap, lingerTimer := s.rp.lingerTimer,
        relocation := s.rp.relocation } = s.rp ∧
      haltsWith s.xp { s with rp := t.rp, ru := Ru.reset } t) ∧
  (∀ s : State, s.ec.engine = .stopping → s.ec.quiet.all = false → exec .stopComplete s = .next (settle s)) ∧
  (∀ s : State, s.ec.engine ≠ .stopping → settle s = s) ∧
  ∀ s : State, s.ec.engine = .stopping →
    let q := (settle s).ec.quiet
    settle s = { s with ec := { s.ec with quiet := q } } ∧ quietNow s = q ∧
    (q.append = true ↔ s.rp.served = none ∧ (s.rp.bufA.state = .empty ∧ s.rp.bufB.state = .empty) ∧
      (∀ e, ∀ op ∈ (s.fs.die e).queue, op.source = .packer → ∀ seg row data sp0 sp1,
        op.act ≠ .programRow seg row data sp0 sp1) ∧
      s.rp.digests = [] ∧ s.rp.waitList = []) ∧
    (q.query = true ↔ s.ar.served = none ∧ s.ar.act = .idle) ∧
    (q.control = true ↔ s.cp.served = none) ∧
    (q.reclaim = true ↔ s.ru.op = .idle ∧ s.ru.claim = none ∧ s.ru.superseded = [] ∧ ∀ head, ¬ Removable s head) ∧
    (q.flash = true ↔ s.fs.softResets = [] ∧ ∀ e, (s.fs.die e).queue = [])
end

