-- ==== Sys2Proof/Laws/State.lean ====
section
/-!
SUPPORT. Each named update of the state: the field it writes and what it leaves, by `rfl`, so that no proof unfolds a
record update.
-/
namespace Sys2Proof.Machine

@[simp] theorem setEvent_events (e : Event) (s : State) : (setEvent e s).xp.events = s.xp.events ||| e.mask := rfl

@[simp] theorem setEvent_frame (e : Event) (s : State) :
    (setEvent e s).pending = s.pending ∧ (setEvent e s).resetPin = s.resetPin ∧ (setEvent e s).draws = s.draws ∧
    (setEvent e s).ci = s.ci ∧ (setEvent e s).rp = s.rp ∧ (setEvent e s).ar = s.ar ∧ (setEvent e s).cp = s.cp ∧
    (setEvent e s).cu = s.cu ∧ (setEvent e s).ru = s.ru ∧ (setEvent e s).fs = s.fs ∧ (setEvent e s).ec = s.ec ∧
    (setEvent e s).xp.mem = s.xp.mem ∧ (setEvent e s).xp.answered = s.xp.answered ∧
    (setEvent e s).xp.latch = s.xp.latch ∧ (setEvent e s).xp.run = s.xp.run ∧
    (setEvent e s).xp.linger = s.xp.linger ∧ (setEvent e s).xp.enable = s.xp.enable ∧
    (setEvent e s).xp.lineMap = s.xp.lineMap ∧ (setEvent e s).xp.slips = s.xp.slips ∧
    (setEvent e s).xp.portData = s.xp.portData := by
  repeat' constructor

@[simp] theorem setMem_mem (m : Memory) (s : State) : (setMem m s).xp.mem = m := rfl

@[simp] theorem setMem_frame (m : Memory) (s : State) :
    (setMem m s).pending = s.pending ∧ (setMem m s).resetPin = s.resetPin ∧ (setMem m s).draws = s.draws ∧
    (setMem m s).ci = s.ci ∧ (setMem m s).rp = s.rp ∧ (setMem m s).ar = s.ar ∧ (setMem m s).cp = s.cp ∧
    (setMem m s).cu = s.cu ∧ (setMem m s).ru = s.ru ∧ (setMem m s).fs = s.fs ∧ (setMem m s).ec = s.ec ∧
    (setMem m s).xp.answered = s.xp.answered ∧ (setMem m s).xp.latch = s.xp.latch ∧ (setMem m s).xp.run = s.xp.run ∧
    (setMem m s).xp.linger = s.xp.linger ∧ (setMem m s).xp.events = s.xp.events ∧
    (setMem m s).xp.enable = s.xp.enable ∧ (setMem m s).xp.lineMap = s.xp.lineMap ∧
    (setMem m s).xp.slips = s.xp.slips ∧ (setMem m s).xp.portData = s.xp.portData := by
  repeat' constructor

@[simp] theorem setCardState_mem (c : CardIx) (st : CardState) (s : State) :
    (setCardState c st s).xp.mem = xmStore s.xp.mem (cardBase c) st.code := rfl

@[simp] theorem setCardState_answered (c : CardIx) (st : CardState) (s : State) :
    (setCardState c st s).xp.answered =
      if st = .answered then s.xp.answered ||| answeredBit c else s.xp.answered &&& ~~~answeredBit c := rfl

@[simp] theorem setCardState_frame (c : CardIx) (st : CardState) (s : State) :
    (setCardState c st s).pending = s.pending ∧ (setCardState c st s).resetPin = s.resetPin ∧
    (setCardState c st s).draws = s.draws ∧ (setCardState c st s).ci = s.ci ∧ (setCardState c st s).rp = s.rp ∧
    (setCardState c st s).ar = s.ar ∧ (setCardState c st s).cp = s.cp ∧ (setCardState c st s).cu = s.cu ∧
    (setCardState c st s).ru = s.ru ∧ (setCardState c st s).fs = s.fs ∧ (setCardState c st s).ec = s.ec ∧
    (setCardState c st s).xp.latch = s.xp.latch ∧ (setCardState c st s).xp.run = s.xp.run ∧
    (setCardState c st s).xp.linger = s.xp.linger ∧ (setCardState c st s).xp.events = s.xp.events ∧
    (setCardState c st s).xp.enable = s.xp.enable ∧ (setCardState c st s).xp.lineMap = s.xp.lineMap ∧
    (setCardState c st s).xp.slips = s.xp.slips ∧ (setCardState c st s).xp.portData = s.xp.portData := by
  repeat' constructor

@[simp] theorem setLinger_linger (v : Byte) (s : State) : (setLinger v s).xp.linger = v := rfl

@[simp] theorem setLinger_frame (v : Byte) (s : State) :
    (setLinger v s).pending = s.pending ∧ (setLinger v s).resetPin = s.resetPin ∧ (setLinger v s).draws = s.draws ∧
    (setLinger v s).ci = s.ci ∧ (setLinger v s).rp = s.rp ∧ (setLinger v s).ar = s.ar ∧ (setLinger v s).cp = s.cp ∧
    (setLinger v s).cu = s.cu ∧ (setLinger v s).ru = s.ru ∧ (setLinger v s).fs = s.fs ∧ (setLinger v s).ec = s.ec ∧
    (setLinger v s).xp.mem = s.xp.mem ∧ (setLinger v s).xp.answered = s.xp.answered ∧
    (setLinger v s).xp.latch = s.xp.latch ∧ (setLinger v s).xp.run = s.xp.run ∧
    (setLinger v s).xp.events = s.xp.events ∧ (setLinger v s).xp.enable = s.xp.enable ∧
    (setLinger v s).xp.lineMap = s.xp.lineMap ∧ (setLinger v s).xp.slips = s.xp.slips ∧
    (setLinger v s).xp.portData = s.xp.portData := by
  repeat' constructor

@[simp] theorem clearEvents_events (v : Byte) (s : State) : (clearEvents v s).xp.events = s.xp.events &&& ~~~v := rfl

@[simp] theorem clearEvents_frame (v : Byte) (s : State) :
    (clearEvents v s).pending = s.pending ∧ (clearEvents v s).resetPin = s.resetPin ∧
    (clearEvents v s).draws = s.draws ∧ (clearEvents v s).ci = s.ci ∧ (clearEvents v s).rp = s.rp ∧
    (clearEvents v s).ar = s.ar ∧ (clearEvents v s).cp = s.cp ∧ (clearEvents v s).cu = s.cu ∧
    (clearEvents v s).ru = s.ru ∧ (clearEvents v s).fs = s.fs ∧ (clearEvents v s).ec = s.ec ∧
    (clearEvents v s).xp.mem = s.xp.mem ∧ (clearEvents v s).xp.answered = s.xp.answered ∧
    (clearEvents v s).xp.latch = s.xp.latch ∧ (clearEvents v s).xp.run = s.xp.run ∧
    (clearEvents v s).xp.linger = s.xp.linger ∧ (clearEvents v s).xp.enable = s.xp.enable ∧
    (clearEvents v s).xp.lineMap = s.xp.lineMap ∧ (clearEvents v s).xp.slips = s.xp.slips ∧
    (clearEvents v s).xp.portData = s.xp.portData := by
  repeat' constructor

@[simp] theorem setEntry_catalog (seg : Nat) (e : Entry) (s : State) :
    (setEntry seg e s).cu.catalog = Sparse.set Entry.freed s.cu.catalog seg e := rfl

@[simp] theorem setEntry_frame (seg : Nat) (e : Entry) (s : State) :
    (setEntry seg e s).pending = s.pending ∧ (setEntry seg e s).resetPin = s.resetPin ∧
    (setEntry seg e s).draws = s.draws ∧ (setEntry seg e s).xp = s.xp ∧ (setEntry seg e s).ci = s.ci ∧
    (setEntry seg e s).rp = s.rp ∧ (setEntry seg e s).ar = s.ar ∧ (setEntry seg e s).cp = s.cp ∧
    (setEntry seg e s).ru = s.ru ∧ (setEntry seg e s).fs = s.fs ∧ (setEntry seg e s).ec = s.ec ∧
    (setEntry seg e s).cu.orderList = s.cu.orderList ∧ (setEntry seg e s).cu.freePool = s.cu.freePool ∧
    (setEntry seg e s).cu.retired = s.cu.retired ∧ (setEntry seg e s).cu.oldest = s.cu.oldest ∧
    (setEntry seg e s).cu.epoch = s.cu.epoch ∧ (setEntry seg e s).cu.mode = s.cu.mode ∧
    (setEntry seg e s).cu.nextSerial = s.cu.nextSerial := by
  repeat' constructor

@[simp] theorem setHolds_holds (hs : List Hold) (s : State) : (setHolds hs s).cp.holds = hs := rfl

@[simp] theorem setHolds_frame (hs : List Hold) (s : State) :
    (setHolds hs s).pending = s.pending ∧ (setHolds hs s).resetPin = s.resetPin ∧ (setHolds hs s).draws = s.draws ∧
    (setHolds hs s).xp = s.xp ∧ (setHolds hs s).ci = s.ci ∧ (setHolds hs s).rp = s.rp ∧ (setHolds hs s).ar = s.ar ∧
    (setHolds hs s).cu = s.cu ∧ (setHolds hs s).ru = s.ru ∧ (setHolds hs s).fs = s.fs ∧ (setHolds hs s).ec = s.ec ∧
    (setHolds hs s).cp.served = s.cp.served ∧ (setHolds hs s).cp.trimPoint = s.cp.trimPoint ∧
    (setHolds hs s).cp.leaseMs = s.cp.leaseMs := by
  repeat' constructor

@[simp] theorem clearServed_served (s : State) : (clearServed s).rp.served = none := rfl

@[simp] theorem clearServed_frame (s : State) :
    (clearServed s).pending = s.pending ∧ (clearServed s).resetPin = s.resetPin ∧ (clearServed s).draws = s.draws ∧
    (clearServed s).xp = s.xp ∧ (clearServed s).ci = s.ci ∧ (clearServed s).ar = s.ar ∧ (clearServed s).cp = s.cp ∧
    (clearServed s).cu = s.cu ∧ (clearServed s).ru = s.ru ∧ (clearServed s).fs = s.fs ∧ (clearServed s).ec = s.ec ∧
    (clearServed s).rp.bufA = s.rp.bufA ∧ (clearServed s).rp.bufB = s.rp.bufB ∧
    (clearServed s).rp.openSeg = s.rp.openSeg ∧ (clearServed s).rp.rowMap = s.rp.rowMap ∧
    (clearServed s).rp.digests = s.rp.digests ∧ (clearServed s).rp.lingerTimer = s.rp.lingerTimer ∧
    (clearServed s).rp.waitList = s.rp.waitList ∧ (clearServed s).rp.readOnly = s.rp.readOnly ∧
    (clearServed s).rp.fullSeen = s.rp.fullSeen ∧ (clearServed s).rp.nextSeq = s.rp.nextSeq ∧
    (clearServed s).rp.keyHigh = s.rp.keyHigh ∧ (clearServed s).rp.durable = s.rp.durable ∧
    (clearServed s).rp.discardFirst = s.rp.discardFirst ∧ (clearServed s).rp.discardLast = s.rp.discardLast ∧
    (clearServed s).rp.relocation = s.rp.relocation := by
  repeat' constructor

@[simp] theorem arMoveTo_cursor (c : Nat) (s : State) : (arMoveTo c s).ar.cursor = some (max s.ar.cur c) := rfl

@[simp] theorem arMoveTo_frame (c : Nat) (s : State) :
    (arMoveTo c s).pending = s.pending ∧ (arMoveTo c s).resetPin = s.resetPin ∧ (arMoveTo c s).draws = s.draws ∧
    (arMoveTo c s).xp = s.xp ∧ (arMoveTo c s).ci = s.ci ∧ (arMoveTo c s).rp = s.rp ∧ (arMoveTo c s).cp = s.cp ∧
    (arMoveTo c s).cu = s.cu ∧ (arMoveTo c s).ru = s.ru ∧ (arMoveTo c s).fs = s.fs ∧ (arMoveTo c s).ec = s.ec ∧
    (arMoveTo c s).ar.served = s.ar.served ∧ (arMoveTo c s).ar.pos = s.ar.pos ∧
    (arMoveTo c s).ar.heldRow = s.ar.heldRow ∧ (arMoveTo c s).ar.heldDigest = s.ar.heldDigest ∧
    (arMoveTo c s).ar.rows = s.ar.rows ∧ (arMoveTo c s).ar.destOff = s.ar.destOff ∧
    (arMoveTo c s).ar.count = s.ar.count ∧ (arMoveTo c s).ar.first = s.ar.first ∧
    (arMoveTo c s).ar.damaged = s.ar.damaged ∧ (arMoveTo c s).ar.flags = s.ar.flags ∧
    (arMoveTo c s).ar.pin = s.ar.pin ∧ (arMoveTo c s).ar.act = s.ar.act ∧ (arMoveTo c s).ar.mark = s.ar.mark ∧
    (arMoveTo c s).ar.expected = s.ar.expected ∧ (arMoveTo c s).ar.resync = s.ar.resync ∧
    (arMoveTo c s).ar.damagedRecords = s.ar.damagedRecords ∧ (arMoveTo c s).ar.damagedRows = s.ar.damagedRows := by
  repeat' constructor

@[simp] theorem ruEnd_op (s : State) : (ruEnd s).ru.op = .idle := rfl

@[simp] theorem ruEnd_frame (s : State) :
    (ruEnd s).pending = s.pending ∧ (ruEnd s).resetPin = s.resetPin ∧ (ruEnd s).draws = s.draws ∧
    (ruEnd s).xp = s.xp ∧ (ruEnd s).ci = s.ci ∧ (ruEnd s).rp = s.rp ∧ (ruEnd s).ar = s.ar ∧ (ruEnd s).cp = s.cp ∧
    (ruEnd s).cu = s.cu ∧ (ruEnd s).fs = s.fs ∧ (ruEnd s).ec = s.ec ∧ (ruEnd s).ru.claim = s.ru.claim ∧
    (ruEnd s).ru.superseded = s.ru.superseded ∧ (ruEnd s).ru.heldPin = s.ru.heldPin ∧
    (ruEnd s).ru.heldHold = s.ru.heldHold := by
  repeat' constructor

@[simp] theorem setQueue_queue (p : CardPath) (q : List CardIx) (s : State) : (setQueue p q s).ci.queue p = q := by
  cases p <;> rfl

theorem setQueue_queue_other {p r : CardPath} (h : r ≠ p) (q : List CardIx) (s : State) :
    (setQueue p q s).ci.queue r = s.ci.queue r := by
  cases p <;> cases r <;> first | rfl | exact absurd rfl h

@[simp] theorem setQueue_frame (p : CardPath) (q : List CardIx) (s : State) :
    (setQueue p q s).pending = s.pending ∧ (setQueue p q s).resetPin = s.resetPin ∧
    (setQueue p q s).draws = s.draws ∧ (setQueue p q s).xp = s.xp ∧ (setQueue p q s).rp = s.rp ∧
    (setQueue p q s).ar = s.ar ∧ (setQueue p q s).cp = s.cp ∧ (setQueue p q s).cu = s.cu ∧
    (setQueue p q s).ru = s.ru ∧ (setQueue p q s).fs = s.fs ∧ (setQueue p q s).ec = s.ec := by
  cases p <;> (repeat' constructor)

@[simp] theorem setBuf_buf (n : BufName) (b : RowBuffer) (s : State) : (setBuf n b s).rp.buf n = b := by
  cases n <;> rfl

@[simp] theorem setBuf_other (n : BufName) (b : RowBuffer) (s : State) :
    (setBuf n b s).rp.buf n.other = s.rp.buf n.other := by
  cases n <;> rfl

@[simp] theorem setBuf_frame (n : BufName) (b : RowBuffer) (s : State) :
    (setBuf n b s).pending = s.pending ∧ (setBuf n b s).resetPin = s.resetPin ∧ (setBuf n b s).draws = s.draws ∧
    (setBuf n b s).xp = s.xp ∧ (setBuf n b s).ci = s.ci ∧ (setBuf n b s).ar = s.ar ∧ (setBuf n b s).cp = s.cp ∧
    (setBuf n b s).cu = s.cu ∧ (setBuf n b s).ru = s.ru ∧ (setBuf n b s).fs = s.fs ∧ (setBuf n b s).ec = s.ec ∧
    (setBuf n b s).rp.served = s.rp.served ∧ (setBuf n b s).rp.openSeg = s.rp.openSeg ∧
    (setBuf n b s).rp.rowMap = s.rp.rowMap ∧ (setBuf n b s).rp.digests = s.rp.digests ∧
    (setBuf n b s).rp.lingerTimer = s.rp.lingerTimer ∧ (setBuf n b s).rp.waitList = s.rp.waitList ∧
    (setBuf n b s).rp.readOnly = s.rp.readOnly ∧ (setBuf n b s).rp.fullSeen = s.rp.fullSeen ∧
    (setBuf n b s).rp.nextSeq = s.rp.nextSeq ∧ (setBuf n b s).rp.keyHigh = s.rp.keyHigh ∧
    (setBuf n b s).rp.durable = s.rp.durable ∧ (setBuf n b s).rp.discardFirst = s.rp.discardFirst ∧
    (setBuf n b s).rp.discardLast = s.rp.discardLast ∧ (setBuf n b s).rp.relocation = s.rp.relocation := by
  cases n <;> (repeat' constructor)

@[simp] theorem noProcedure_frame (e : Ec) :
    e.noProcedure.engine = e.engine ∧ e.noProcedure.cause = e.cause ∧ e.noProcedure.stopPending = e.stopPending ∧
    e.noProcedure.quiet = e.quiet ∧ e.noProcedure.loaded = e.loaded ∧ e.noProcedure.probeRec = e.probeRec ∧
    e.noProcedure.orphans = e.orphans := by
  repeat' constructor

/-- What the quiet reports of a step leave: everything but the quiet flags. -/
@[simp] theorem settle_frame (s : State) :
    (settle s).pending = s.pending ∧ (settle s).resetPin = s.resetPin ∧ (settle s).draws = s.draws ∧
    (settle s).xp = s.xp ∧ (settle s).ci = s.ci ∧ (settle s).rp = s.rp ∧ (settle s).ar = s.ar ∧
    (settle s).cp = s.cp ∧ (settle s).cu = s.cu ∧ (settle s).ru = s.ru ∧ (settle s).fs = s.fs ∧
    (settle s).ec.engine = s.ec.engine ∧ (settle s).ec.cause = s.ec.cause ∧
    (settle s).ec.stopPending = s.ec.stopPending ∧ (settle s).ec.loaded = s.ec.loaded ∧
    (settle s).ec.step = s.ec.step ∧ (settle s).ec.probeRec = s.ec.probeRec ∧
    (settle s).ec.candidates = s.ec.candidates ∧ (settle s).ec.scanHeld = s.ec.scanHeld ∧
    (settle s).ec.members = s.ec.members ∧ (settle s).ec.eraseList = s.ec.eraseList ∧
    (settle s).ec.orphans = s.ec.orphans := by
  unfold settle
  split <;> (repeat' constructor)

theorem settle_of_ne {s : State} (h : s.ec.engine ≠ .stopping) : settle s = s := if_neg h

theorem settle_quiet {s : State} (h : s.ec.engine = .stopping) : (settle s).ec.quiet = quietNow s := by
  unfold settle
  rw [if_pos h]

end Sys2Proof.Machine
end

