-- ==== Sys2Proof/Laws/Memory.lean ====
section
/-!
SUPPORT. Sparse tables and exchange memory: every store keeps the canonical form, and a read after a store.
-/
namespace Sys2Proof.Machine

/-! ### Sparse tables -/

section Sparse
variable {α : Type} [DecidableEq α] {d : α}

/-- Listed keys lie above the bound. -/
theorem Sparse.get_below {lo : Nat} {m : List (Nat × α)} (h : Sparse.wfFrom d (some lo) m = true) {k : Nat}
    (hk : k ≤ lo) : Sparse.get d m k = d := by
  induction m generalizing lo with
  | nil => rfl
  | cons e t ih =>
    obtain ⟨a, v⟩ := e
    simp only [Sparse.wfFrom, Option.all_some, Bool.and_eq_true, decide_eq_true_eq] at h
    have hne : a ≠ k := by omega
    simp only [Sparse.get, if_neg hne]
    exact ih h.2 (by omega)

theorem Sparse.wfFrom_weaken {lo : Option Nat} {b : Nat} {m : List (Nat × α)} (h : Sparse.wfFrom d (some b) m = true)
    (hlo : ∀ l ∈ lo, l ≤ b) : Sparse.wfFrom d lo m = true := by
  cases m with
  | nil => rfl
  | cons e t =>
    obtain ⟨a, v⟩ := e
    simp only [Sparse.wfFrom, Option.all_some, Bool.and_eq_true, decide_eq_true_eq] at h ⊢
    refine ⟨⟨?_, h.1.2⟩, h.2⟩
    cases lo with
    | none => rfl
    | some l => simp only [Option.all_some, decide_eq_true_eq]; have := hlo l rfl; omega

theorem Sparse.wfFrom_set {lo : Option Nat} {m : List (Nat × α)} (h : Sparse.wfFrom d lo m = true) {k : Nat}
    (hk : ∀ l ∈ lo, l < k) (v : α) : Sparse.wfFrom d lo (Sparse.set d m k v) = true := by
  have hlo : lo.all (fun l => decide (l < k)) = true := by
    cases lo with
    | none => rfl
    | some l => simpa using hk l rfl
  induction m generalizing lo with
  | nil =>
    unfold Sparse.set
    split
    · rfl
    next hv => simp only [Sparse.wfFrom, hlo, Bool.true_and, Bool.and_true, decide_eq_true_eq]; exact hv
  | cons e t ih =>
    obtain ⟨a, w⟩ := e
    have h0 := h
    simp only [Sparse.wfFrom, Bool.and_eq_true, decide_eq_true_eq] at h
    unfold Sparse.set
    split
    next hlt =>
      split
      · exact h0
      next hv =>
        simp only [Sparse.wfFrom, hlo, Bool.and_eq_true, decide_eq_true_eq, Option.all_some, true_and]
        exact ⟨hv, ⟨hlt, h.1.2⟩, h.2⟩
    next hlt =>
      split
      next heq =>
        subst heq
        split
        · exact Sparse.wfFrom_weaken h.2 (fun l hl => by have := hk l hl; omega)
        next hv =>
          simp only [Sparse.wfFrom, hlo, Bool.and_eq_true, decide_eq_true_eq, true_and]
          exact ⟨hv, h.2⟩
      next hne =>
        simp only [Sparse.wfFrom, Bool.and_eq_true, decide_eq_true_eq]
        exact ⟨h.1, ih h.2 (fun l hl => by cases hl; omega) (by simp; omega)⟩

/-- A store keeps the canonical form. -/
theorem Sparse.wf_set {m : List (Nat × α)} (h : Sparse.wf d m = true) (k : Nat) (v : α) :
    Sparse.wf d (Sparse.set d m k v) = true :=
  Sparse.wfFrom_set h (fun _ hl => by cases hl) v

theorem Sparse.get_set_from {lo : Option Nat} {m : List (Nat × α)} (h : Sparse.wfFrom d lo m = true) (k j : Nat)
    (v : α) : Sparse.get d (Sparse.set d m k v) j = if j = k then v else Sparse.get d m j := by
  induction m generalizing lo with
  | nil =>
    unfold Sparse.set
    split
    next hv => simp only [Sparse.get]; split <;> simp_all
    next hv =>
      simp only [Sparse.get]
      by_cases hj : k = j
      · rw [if_pos hj, if_pos hj.symm]
      · rw [if_neg hj, if_neg (Ne.symm hj)]
  | cons e t ih =>
    obtain ⟨a, w⟩ := e
    simp only [Sparse.wfFrom, Bool.and_eq_true, decide_eq_true_eq] at h
    unfold Sparse.set
    split
    next hlt =>
      split
      next hv =>
        split
        next hj =>
          subst hj
          have hne : a ≠ j := by omega
          simp only [Sparse.get, if_neg hne]
          rw [hv]
          exact Sparse.get_below h.2 (by omega)
        · rfl
      next hv =>
        by_cases hj : k = j
        · simp only [Sparse.get, if_pos hj, if_pos hj.symm]
        · simp only [Sparse.get, if_neg hj, if_neg (Ne.symm hj)]
    next hlt =>
      split
      next heq =>
        subst heq
        split
        next hv =>
          by_cases hj : k = j
          · subst hj
            rw [if_pos rfl, hv]
            exact Sparse.get_below h.2 (Nat.le_refl k)
          · simp only [Sparse.get, if_neg hj, if_neg (Ne.symm hj)]
        next hv =>
          by_cases hj : k = j
          · simp only [Sparse.get, if_pos hj, if_pos hj.symm]
          · simp only [Sparse.get, if_neg hj, if_neg (Ne.symm hj)]
      next hne =>
        by_cases hj : a = j
        · simp only [Sparse.get, if_pos hj]
          rw [if_neg (by omega)]
        · simp only [Sparse.get, if_neg hj]
          exact ih h.2

/-- A read after a store. -/
theorem Sparse.get_set {m : List (Nat × α)} (h : Sparse.wf d m = true) (k j : Nat) (v : α) :
    Sparse.get d (Sparse.set d m k v) j = if j = k then v else Sparse.get d m j :=
  Sparse.get_set_from h k j v

/-- A store lists no address but its own. -/
theorem Sparse.mem_set {m : List (Nat × α)} {k : Nat} {v : α} {e : Nat × α} (h : e ∈ Sparse.set d m k v) :
    e ∈ m ∨ e.1 = k := by
  induction m with
  | nil =>
    unfold Sparse.set at h
    split at h
    · exact absurd h (by simp)
    · right; simp at h; rw [h]
  | cons x t ih =>
    obtain ⟨a, w⟩ := x
    unfold Sparse.set at h
    (repeat' split at h) <;> simp only [List.mem_cons] at h ⊢
    · tauto
    · rcases h with h | h
      · right; rw [h]
      · tauto
    · tauto
    · rcases h with h | h
      · right; rw [h]
      · tauto
    · rcases h with h | h
      · tauto
      · rcases ih h with h | h <;> tauto

end Sparse

/-! ### Exchange memory -/

/-- A store of one byte keeps the canonical form. -/
theorem Memory.wf_store {m : Memory} (h : Memory.wf m = true) (a : Nat) (b : Byte) :
    Memory.wf (xmStore m a b) = true := by
  unfold xmStore
  split
  next ha =>
    simp only [Memory.wf, Bool.and_eq_true, List.all_eq_true, decide_eq_true_eq] at h ⊢
    refine ⟨Sparse.wf_set h.1 a b, fun e he => ?_⟩
    rcases Sparse.mem_set he with he | he
    · exact h.2 e he
    · rw [he]; exact ha
  · exact h

/-- A store of several bytes keeps the canonical form. -/
theorem Memory.wf_storeList {m : Memory} (h : Memory.wf m = true) (a : Nat) (bs : List Byte) :
    Memory.wf (xmStoreList m a bs) = true := by
  induction bs generalizing m a with
  | nil => exact h
  | cons b t ih => exact ih (Memory.wf_store h a b) (a + 1)

/-- A read of a byte after a store of a byte. -/
theorem xmRead_store {m : Memory} (h : Memory.wf m = true) {a : Nat} (ha : a < 0x10000) (b : Byte) (j : Nat) :
    xmRead (xmStore m a b) j = if j = a then b else xmRead m j := by
  unfold xmStore xmRead
  rw [if_pos ha]
  simp only [Memory.wf, Bool.and_eq_true] at h
  exact Sparse.get_set h.1 a j b

theorem xmRead_store_ne {m : Memory} (h : Memory.wf m = true) {a j : Nat} (b : Byte) (hj : j ≠ a) :
    xmRead (xmStore m a b) j = xmRead m j := by
  by_cases ha : a < 0x10000
  · rw [xmRead_store h ha, if_neg hj]
  · unfold xmStore; rw [if_neg ha]

/-- A read outside the stored bytes. -/
theorem xmRead_storeList_outside {m : Memory} (h : Memory.wf m = true) {a j : Nat} {bs : List Byte}
    (hj : j < a ∨ a + bs.length ≤ j) : xmRead (xmStoreList m a bs) j = xmRead m j := by
  induction bs generalizing m a with
  | nil => rfl
  | cons b t ih =>
    simp only [List.length_cons] at hj
    rw [xmStoreList, ih (Memory.wf_store h a b) (by omega), xmRead_store_ne h b (by omega)]

/-- A read inside the stored bytes. -/
theorem xmRead_storeList_inside {m : Memory} (h : Memory.wf m = true) {a : Nat} {bs : List Byte}
    (ha : a + bs.length ≤ 0x10000) {i : Nat} (hi : i < bs.length) :
    xmRead (xmStoreList m a bs) (a + i) = bs.getD i 0 := by
  induction bs generalizing m a i with
  | nil => exact absurd hi (Nat.not_lt_zero i)
  | cons b t ih =>
    simp only [List.length_cons] at hi ha
    rw [xmStoreList]
    cases i with
    | zero =>
      rw [xmRead_storeList_outside (Memory.wf_store h a b) (by omega), xmRead_store h (by omega)]
      simp
    | succ i =>
      have e : a + (i + 1) = (a + 1) + i := by omega
      rw [e, ih (Memory.wf_store h a b) (by omega) (by omega)]
      simp

theorem xmReadList_eq_of {m n : Memory} {a k : Nat} (h : ∀ j, a ≤ j → j < a + k → xmRead m j = xmRead n j) :
    xmReadList m a k = xmReadList n a k := by
  induction k generalizing a with
  | zero => rfl
  | succ k ih =>
    simp only [xmReadList]
    rw [h a (by omega) (by omega), ih (fun j h1 h2 => h j (by omega) (by omega))]

/-- Stored bytes read back. -/
theorem xmReadList_storeList {m : Memory} (h : Memory.wf m = true) {a : Nat} {bs : List Byte}
    (ha : a + bs.length ≤ 0x10000) : xmReadList (xmStoreList m a bs) a bs.length = bs := by
  induction bs generalizing m a with
  | nil => rfl
  | cons b t ih =>
    simp only [List.length_cons] at ha
    simp only [List.length_cons, xmReadList, xmStoreList]
    rw [xmRead_storeList_outside (Memory.wf_store h a b) (by omega), xmRead_store h (by omega), if_pos rfl,
      ih (Memory.wf_store h a b) (by omega)]

/-! ### Cards -/

/-- A card lies in the card array, at a multiple of 64. -/
theorem cardBase_range (c : CardIx) : 0x400 ≤ cardBase c ∧ cardBase c + 64 ≤ 0x2400 ∧ cardBase c % 64 = 0 := by
  unfold cardBase
  have := c.isLt
  omega

theorem cardBase_ne {c d : CardIx} (h : c ≠ d) : cardBase c + 64 ≤ cardBase d ∨ cardBase d + 64 ≤ cardBase c := by
  unfold cardBase
  have : c.val ≠ d.val := fun e => h (Fin.ext e)
  omega

/-- The state bytes are the multiples of 64 in the card array. -/
theorem stateByteCard_base (c : CardIx) : stateByteCard (cardBase c) = some c := by
  have h := cardBase_range c
  unfold stateByteCard
  rw [if_pos ⟨h.1, by omega, h.2.2⟩]
  congr 1
  apply Fin.ext
  unfold cardBase
  have := c.isLt
  simp only [Fin.ofNat]
  omega

theorem stateByteCard_some {a : Nat} {c : CardIx} (h : stateByteCard a = some c) : a = cardBase c := by
  unfold stateByteCard at h
  split at h
  next hr =>
    simp only [Option.some.injEq] at h
    have hv : c.val = (a - 0x400) / 64 % 128 := by rw [← h]; rfl
    unfold cardBase
    omega
  · exact absurd h (by simp)

theorem leBytes_length (n v : Nat) : (leBytes n v).length = n := by
  induction n generalizing v with
  | zero => rfl
  | succ n ih => simp [leBytes, ih]

/-- The result fields are the 32 bytes of the card's second half. -/
theorem Answer.bytes_length (r : Answer) (d : Nat) : (r.bytes d).length = 32 := by
  simp [Answer.bytes, leBytes_length]

theorem xmReadList_length (m : Memory) (a n : Nat) : (xmReadList m a n).length = n := by
  induction n generalizing a with
  | zero => rfl
  | succ n ih => simp [xmReadList, ih]

/-- After an answer the card is ANSWERED and its result fields read as the answer; every byte outside the state byte and
the result fields is kept (R20). -/
theorem answerCard_reads {s : State} (h : Memory.wf s.xp.mem = true) (c : CardIx) (r : Answer) :
    cardByte (answerCard c r s) c = CardState.answered.code ∧
    xmReadList (answerCard c r s).xp.mem (cardBase c + 32) 32 = r.bytes s.rp.durable ∧
    (∀ a, a ≠ cardBase c → (a < cardBase c + 32 ∨ cardBase c + 64 ≤ a) →
      xmRead (answerCard c r s).xp.mem a = xmRead s.xp.mem a) ∧
    Memory.wf (answerCard c r s).xp.mem = true := by
  have hb := cardBase_range c
  have hl := Answer.bytes_length r s.rp.durable
  have hm : (answerCard c r s).xp.mem =
      xmStore (xmStoreList s.xp.mem (cardBase c + 32) (r.bytes s.rp.durable)) (cardBase c) CardState.answered.code := rfl
  have hw := Memory.wf_storeList h (cardBase c + 32) (r.bytes s.rp.durable)
  unfold cardByte
  rw [hm]
  refine ⟨by rw [xmRead_store hw (by omega), if_pos rfl], ?_, ?_, Memory.wf_store hw _ _⟩
  · rw [xmReadList_eq_of (n := xmStoreList s.xp.mem (cardBase c + 32) (r.bytes s.rp.durable))
      (fun j h1 h2 => xmRead_store_ne hw _ (by omega))]
    have := xmReadList_storeList h (a := cardBase c + 32) (bs := r.bytes s.rp.durable) (by omega)
    rwa [hl] at this
  · intro a ha hr
    rw [xmRead_store_ne hw _ ha, xmRead_storeList_outside h (by omega)]

/-- The state byte of a card after a change of a card's state. -/
theorem cardByte_setCardState {s : State} (h : Memory.wf s.xp.mem = true) (c d : CardIx) (st : CardState) :
    cardByte (setCardState c st s) d = if d = c then st.code else cardByte s d := by
  have hb := cardBase_range c
  unfold cardByte
  rw [setCardState_mem, xmRead_store h (by omega)]
  by_cases hd : d = c
  · rw [if_pos hd, if_pos (by rw [hd])]
  · have := cardBase_ne hd
    rw [if_neg hd, if_neg (by omega)]

/-- The state byte of a card after an answer to a card. -/
theorem cardByte_answerCard {s : State} (h : Memory.wf s.xp.mem = true) (c d : CardIx) (r : Answer) :
    cardByte (answerCard c r s) d = if d = c then CardState.answered.code else cardByte s d := by
  by_cases hd : d = c
  · rw [if_pos hd, hd]; exact (answerCard_reads h c r).1
  · have := cardBase_ne hd
    have hb := cardBase_range d
    rw [if_neg hd]
    exact (answerCard_reads h c r).2.2.1 (cardBase d) (by omega) (by omega)

/-- The answered-map bit of a card. -/
theorem answeredBit_getLsbD (c d : CardIx) : (answeredBit c).getLsbD d.val = decide (d = c) := by
  unfold answeredBit
  have hc := c.isLt
  have hd := d.isLt
  rw [Bool.eq_iff_iff]
  simp [Fin.ext_iff]
  omega

/-- The answered map after a change of a card's state. -/
theorem answered_setCardState (c d : CardIx) (st : CardState) (s : State) :
    (setCardState c st s).xp.answered.getLsbD d.val =
      if d = c then decide (st = .answered) else s.xp.answered.getLsbD d.val := by
  have hd := d.isLt
  rw [setCardState_answered]
  by_cases hs : st = .answered
  · rw [if_pos hs, BitVec.getLsbD_or, answeredBit_getLsbD]
    by_cases h : d = c <;> simp [h, hs]
  · rw [if_neg hs, BitVec.getLsbD_and, BitVec.getLsbD_not, answeredBit_getLsbD]
    by_cases h : d = c <;> simp [h, hs]

end Sys2Proof.Machine
end

