-- ==== Sys2Proof/Laws/Cards.lean ====
section
/-!
SUPPORT. What an answer changes at the Exchange Port (R20, R21), for one card and for the entries of the wait list, and when the
paths' commands go on (R59, R179).
-/
namespace Sys2Proof.Machine

theorem running_iff (s : State) : Running s ↔ s.ec.engine.running = true := by
  unfold Running EngineState.running
  cases s.ec.engine <;> decide

theorem OnlyCards.refl (P : CardIx → Prop) (s : State) : OnlyCards P s s := ⟨fun _ _ => rfl, fun _ _ => rfl⟩

theorem OnlyCards.trans {P : CardIx → Prop} {s t u : State} (h : OnlyCards P s t) (k : OnlyCards P t u) : OnlyCards P s u :=
  ⟨fun a ha => (k.bytes a ha).trans (h.bytes a ha), fun c hc => (k.bits c hc).trans (h.bits c hc)⟩

theorem OnlyCards.mono {P Q : CardIx → Prop} {s t : State} (h : OnlyCards P s t) (i : ∀ c, P c → Q c) : OnlyCards Q s t :=
  ⟨fun a ha => h.bytes a fun c hc => ha c (i c hc), fun c hc => h.bits c fun hp => hc (i c hp)⟩

/-- The answered map's bits after an answer (R21). -/
theorem answered_answerCard (c d : CardIx) (r : Answer) (s : State) :
    (answerCard c r s).xp.answered.getLsbD d.val = if d = c then true else s.xp.answered.getLsbD d.val := by
  unfold answerCard
  rw [answered_setCardState]
  rfl

/-- R20: an answer gives the card its state, result and bit, and changes nothing else at the port. -/
theorem answersCard_answerCard {s : State} (h : Memory.wf s.xp.mem = true) (c : CardIx) (r : Answer) :
    AnswersCard c r s (answerCard c r s) := by
  have k := answerCard_reads h c r
  exact ⟨⟨k.1, by rw [answered_answerCard, if_pos rfl], k.2.1⟩,
    ⟨fun a h1 h2 => k.2.2.1 a h1 (by omega), fun d hd => by rw [answered_answerCard, if_neg hd], rfl⟩⟩

theorem onlyCards_answerCard {s : State} (h : Memory.wf s.xp.mem = true) (c : CardIx) (r : Answer) :
    OnlyCards (fun d => d = c) s (answerCard c r s) := by
  refine ⟨fun a ha => ?_, fun d hd => by rw [answered_answerCard, if_neg hd]⟩
  have hn := ha c rfl
  unfold answerByte at hn
  exact (answerCard_reads h c r).2.2.1 a (by omega) (by omega)

/-- R55: answering entries of the wait list changes nothing at the port outside their cards, and keeps the canonical form. -/
theorem onlyCards_answerEntries (ws : List WaitEntry) {s : State} (h : Memory.wf s.xp.mem = true) :
    OnlyCards (fun c => ∃ w ∈ ws, w.card = c) s (answerEntries ws s) ∧ Memory.wf (answerEntries ws s).xp.mem = true := by
  induction ws generalizing s with
  | nil => exact ⟨.refl _ s, h⟩
  | cons w ws ih =>
    have k := ih (s := answerCard w.card w.answer s) (answerCard_reads h _ _).2.2.2
    refine ⟨.trans ((onlyCards_answerCard h w.card w.answer).mono ?_) (k.1.mono ?_), k.2⟩
    · rintro c rfl; exact ⟨w, .head _, rfl⟩
    · rintro c ⟨v, hv, rfl⟩; exact ⟨v, .tail _ hv, rfl⟩

end Sys2Proof.Machine
end

