-- ==== Sys2Proof/Laws/Checks.lean ====
section
/-!
SUPPORT. What the checks made of several fields ask for, spelled out once: a read card's (R120), a possible candidate's (R96,
R97, R161), a row's and a digest's (R97, R98, R130, R164, R165), and how a granted pin's read goes on (R122, R123).
-/
namespace Sys2Proof.Machine

/-- Checks 3 to 6 of R120 for READ_SEQ. -/
theorem badRead_readSeq (w : Work) (h : w.kind = some .readSeq) : w.badRead = true ↔
    w.parcelCount = 0 ∨ 110 < w.parcelFirst + w.parcelCount ∨ 65535 < w.argC ∨ w.argA = 0 ∨ 281474976710655 < w.argA ∨
      281474976710655 < w.argB ∨ w.argB < w.argA := by
  simp [Work.badRead, Work.badRun, Work.limit, Work.byKey, h, or_assoc]; simp only [maxSeq]

/-- Checks 3 to 6 of R120 for READ_KEY. -/
theorem badRead_readKey (w : Work) (h : w.kind = some .readKey) : w.badRead = true ↔
    w.parcelCount = 0 ∨ 110 < w.parcelFirst + w.parcelCount ∨ 65535 < w.argA ∨ w.argD < w.argC := by
  simp [Work.badRead, Work.badRun, Work.limit, Work.byKey, h, or_assoc]; simp only [Work.toKey, Work.fromKey]

/-- A segment that is no longer the member a start's lookup named has the start repeated (log 35). -/
theorem arLocate_notNamed (w : Work) (seg : Nat) (s : State) (h : stillNamed seg s = false) :
    arLocate w seg s = arStart w s := by simp [arLocate, h]

theorem stillNamed_iff (seg : Nat) (s : State) : stillNamed seg s = true ↔
    seg ∈ s.cu.orderList ∧ (s.cu.entry seg).firstSeq ≤ s.ar.mark := by simp [stillNamed]

/-- The conditions of R161's test 4 on the bytes of the two spare areas. -/
theorem possibleCandidate_iff (seg : Nat) (r : ReadSpare) : possibleCandidate seg r = true ↔
    (field r.spare1 1 2 = 0x5E48 ∧ crc16 ((r.spare1.drop 1).take 20) = field r.spare1 21 2 ∧ 1 ≤ field r.spare1 3 4 ∧
      1 ≤ field r.spare1 7 4 ∧ 1 ≤ field r.spare1 11 6 ∧ field r.spare1 17 1 ≤ 1 ∧
      ((field r.spare1 18 1 = 0xFF ∧ field r.spare1 19 2 = 0xFFFF) ∨
        (field r.spare1 18 1 ≤ 62 ∧ field r.spare1 19 2 ≤ 8191 ∧ field r.spare1 19 2 ≠ seg))) ∧
    (field r.spare0 1 2 = 0x5E54 ∧ 1 ≤ field r.spare0 3 4 ∧ field r.spare0 7 1 = 0 ∧
      ((1 ≤ field r.spare0 8 2 ∧ field r.spare0 8 2 ≤ 256 ∧ 1 ≤ field r.spare0 10 6 ∧
          field r.spare0 16 4 ≤ field r.spare0 20 4 ∧ 16 ≤ field r.spare0 24 2 ∧ field r.spare0 24 2 ≤ 4096 ∧
          16 * field r.spare0 8 2 ≤ field r.spare0 24 2) ∨
        (field r.spare0 8 2 = 0 ∧ field r.spare0 10 6 = 1 ∧ field r.spare0 16 4 = 0 ∧ field r.spare0 20 4 = 0 ∧
          field r.spare0 24 2 = 0 ∧ field r.spare0 26 2 = crc16 (trailerBody (field r.spare0 3 4) 0 0 1 0 0 0)))) ∧
    field r.spare0 3 4 = field r.spare1 3 4 ∧ field r.spare0 10 6 = field r.spare1 11 6 ∧
    (1 ≤ field r.spare0 8 2 ∨
      (field r.spare1 11 6 = 1 ∧ field r.spare1 18 1 = 0xFF ∧ field r.spare1 19 2 = 0xFFFF)) := by
  simp only [possibleCandidate, headerValid, Trailer.wellFormed, Trailer.recordColumn, Trailer.headerColumn,
    Trailer.digestColumn, Header.noCut, Header.hasCut, Bool.and_eq_true, Bool.or_eq_true, decide_eq_true_eq]
  simp only [Header.parse, Trailer.parse]
  generalize field r.spare0 1 2 = t1
  generalize field r.spare0 3 4 = t2
  generalize field r.spare0 7 1 = t3
  generalize field r.spare0 8 2 = t4
  generalize field r.spare0 10 6 = t5
  generalize field r.spare0 16 4 = t6
  generalize field r.spare0 20 4 = t7
  generalize field r.spare0 24 2 = t8
  generalize field r.spare0 26 2 = t9
  generalize field r.spare1 1 2 = h1
  generalize field r.spare1 3 4 = h2
  generalize field r.spare1 11 6 = h4
  generalize field r.spare1 17 1 = h5
  generalize field r.spare1 18 1 = h6
  generalize field r.spare1 19 2 = h7
  constructor
  · rintro ⟨⟨⟨⟨hv, ht⟩, he⟩, hf⟩, hc⟩
    obtain ⟨⟨⟨⟨⟨⟨a1, a2⟩, a3⟩, a4⟩, a5⟩, a6⟩, a7⟩ := hv
    obtain ⟨⟨⟨b1, b2⟩, b3⟩, (b4 | b4) | b4⟩ := ht
    · refine ⟨⟨a1, a2, a3, a4, a5, a6, ?_⟩, ⟨b1, b2, b3, Or.inl ?_⟩, he, hf, ?_⟩ <;> omega
    · obtain ⟨⟨⟨⟨⟨⟨c1, c2⟩, c3⟩, c4⟩, c5⟩, c6⟩, c7⟩ := b4
      subst c1 c2 c3 c4 c5 c6
      refine ⟨⟨a1, a2, a3, a4, a5, a6, ?_⟩, ⟨b1, b2, b3, Or.inr ⟨rfl, rfl, rfl, rfl, rfl, c7⟩⟩, he, hf, ?_⟩ <;> omega
    · omega
  · rintro ⟨⟨a1, a2, a3, a4, a5, a6, a7⟩, ⟨b1, b2, b3, b4⟩, he, hf, hc⟩
    refine ⟨⟨⟨⟨⟨⟨⟨⟨⟨⟨a1, a2⟩, a3⟩, a4⟩, a5⟩, a6⟩, by omega⟩, ⟨⟨⟨b1, b2⟩, b3⟩, ?_⟩⟩, he⟩, hf⟩, by omega⟩
    rcases b4 with b4 | ⟨c2, c3, c4, c5, c6, c7⟩
    · left; left; omega
    · left; right; subst b3 c2 c3 c4 c5 c6; exact ⟨⟨⟨⟨⟨⟨rfl, rfl⟩, rfl⟩, rfl⟩, rfl⟩, rfl⟩, c7⟩

/-- R97's well-formed trailer, field by field. -/
theorem wellFormed_iff (sp : List Byte) (row : Nat) :
    (Trailer.parse sp).wellFormed row = true ↔ TrailerFormed sp row := by
  simp only [Trailer.wellFormed, Trailer.recordColumn, Trailer.headerColumn, Trailer.digestColumn, Bool.and_eq_true,
    Bool.or_eq_true, decide_eq_true_eq]
  simp only [Trailer.parse]
  constructor
  · rintro ⟨⟨⟨h1, h2⟩, h3⟩, (h | h) | h⟩
    · exact ⟨h1, h2, h3, .inl (by omega)⟩
    · obtain ⟨⟨⟨⟨⟨⟨a, b⟩, c⟩, d⟩, e⟩, f⟩, g⟩ := h
      exact ⟨h1, h2, h3, .inr (.inl ⟨by omega, b, c, d, e, f, by rw [g, a, b, c, d, e, f]⟩)⟩
    · exact ⟨h1, h2, h3, .inr (.inr (by omega))⟩
  · rintro ⟨h1, h2, h3, h | ⟨a, b, c, d, e, f, g⟩ | h⟩
    · exact ⟨⟨⟨h1, h2⟩, h3⟩, .inl (.inl (by omega))⟩
    · exact ⟨⟨⟨h1, h2⟩, h3⟩, .inl (.inr ⟨⟨⟨⟨⟨⟨by omega, b⟩, c⟩, d⟩, e⟩, f⟩, by rw [g, h3, a, b, c, d, e, f]⟩)⟩
    · exact ⟨⟨⟨h1, h2⟩, h3⟩, .inr (by omega)⟩

/-- R97's verified row, field by field. -/
theorem rowVerified_iff (r : ReadRow) (row : Nat) : rowVerified r row = true ↔ RowChecked r row := by
  simp only [rowVerified, Bool.and_eq_true, decide_eq_true_eq]
  exact ⟨fun h => ⟨(wellFormed_iff _ _).1 h.1, h.2⟩, fun h => ⟨(wellFormed_iff _ _).2 h.1, h.2⟩⟩

/-- Among digest entries numbered from `k` the one of a row is found by its place. -/
theorem find_zipIdx (es : List DigestEntry) (row k : Nat) (hk : k ≤ row) :
    ((es.zipIdx k).map fun e => RowMapEntry.mk e.2 e.1.firstSeq e.1.firstKey e.1.count).find? (fun e => e.row == row) =
      es[row - k]?.map fun e => RowMapEntry.mk row e.firstSeq e.firstKey e.count := by
  induction es generalizing k with
  | nil => simp
  | cons e t ih =>
    rw [List.zipIdx_cons, List.map_cons, List.find?_cons]
    by_cases hr : k = row
    · subst hr; simp
    · have : (k == row) = false := by simpa using hr
      simp only [this]
      rw [ih (k + 1) (by omega), show row - k = (row - (k + 1)) + 1 by omega, List.getElem?_cons_succ]

/-- The rows a digest tells of are its entries, in row order. -/
theorem find_digestRows (es : List DigestEntry) (row : Nat) : (digestRows es).find? (fun e => e.row == row) =
    es[row]?.map fun e => RowMapEntry.mk row e.firstSeq e.firstKey e.count := find_zipIdx es row 0 (Nat.zero_le _)

/-- What the AR knows of a row (R130). -/
theorem known_iff (a : Ar) (row first count : Nat) : RowKnown a row first count ↔
    ∃ e, a.known.find? (fun e => e.row == row) = some e ∧ e.firstSeq = first ∧ e.count = count := by
  unfold RowKnown Ar.known
  cases a.heldDigest with
  | some es =>
    simp only [find_digestRows]
    cases h : es[row]? with
    | none => simp
    | some e => cases e; simp
  | none =>
    cases h : a.rows.find? (fun e => e.row == row) with
    | none => simp
    | some e =>
      have hr : e.row = row := by simpa using List.find?_some h
      cases e; cases hr; simp

/-- R130's acceptance, field by field. -/
theorem rowAccepted_iff (s : State) (row : Nat) (r : ReadRow) : rowAccepted s row r = true ↔ RowAcceptable s row r := by
  have hk := known_iff s.ar row
  simp only [rowAccepted, Ar.expectedFirst, Bool.and_eq_true, decide_eq_true_eq, rowVerified_iff]
  cases h : s.ar.known.find? (fun e => e.row == row) with
  | some e =>
    simp only [decide_eq_true_eq]
    have he : RowKnown s.ar row e.firstSeq e.count := (hk _ _).2 ⟨e, h, rfl, rfl⟩
    constructor
    · rintro ⟨⟨⟨a, b⟩, c⟩, d⟩
      refine ⟨a, b, c, fun f n hf => ?_, fun hf => absurd he (hf _ _)⟩
      obtain ⟨x, hx, rfl, -⟩ := (hk _ _).1 hf
      rw [h] at hx; cases hx; exact d
    · intro x; exact ⟨⟨⟨x.checked, x.epoch⟩, x.records⟩, x.known _ _ he⟩
  | none =>
    have hn : ∀ f n, ¬ RowKnown s.ar row f n := fun f n hf => by
      obtain ⟨x, hx, -⟩ := (hk _ _).1 hf
      rw [h] at hx; cases hx
    constructor
    · rintro ⟨⟨⟨a, b⟩, c⟩, d⟩
      refine ⟨a, b, c, fun f n hf => absurd hf (hn _ _), fun _ q hq => ?_⟩
      rw [hq] at d; exact of_decide_eq_true d
    · intro x
      refine ⟨⟨⟨x.checked, x.epoch⟩, x.records⟩, ?_⟩
      cases hq : s.ar.expected with
      | none => rfl
      | some q => exact decide_eq_true (x.expected hn q hq)

/-- R165's acceptance, field by field. -/
theorem memberRowAccepted_iff (m : Member) (row : Nat) (r : ReadRow) :
    memberRowAccepted m row r = true ↔ MemberRowAcceptable m row r := by
  simp only [memberRowAccepted, Bool.and_eq_true, decide_eq_true_eq, rowVerified_iff]
  cases h : m.keys with
  | none => exact ⟨fun x => ⟨x.1.1.1.1, x.1.1.1.2, x.1.1.2, x.1.2, fun k hk => by rw [h] at hk; cases hk⟩,
      fun x => ⟨⟨⟨⟨x.1, x.2⟩, x.3⟩, x.4⟩, rfl⟩⟩
  | some k =>
    simp only [decide_eq_true_eq]
    exact ⟨fun x => ⟨x.1.1.1.1, x.1.1.1.2, x.1.1.2, x.1.2, fun l hl => by rw [h] at hl; cases hl; exact x.2⟩,
      fun x => ⟨⟨⟨⟨x.1, x.2⟩, x.3⟩, x.4⟩, x.5 k h⟩⟩

/-- A digest chains where each entry begins where the one before it ends. -/
theorem digestChain_iff (es : List DigestEntry) : digestChain es = true ↔
    ∀ i e f, es[i]? = some e → es[i + 1]? = some f → f.firstSeq = e.firstSeq + e.count := by
  induction es with
  | nil => simp [digestChain]
  | cons e t ih =>
    cases t with
    | nil => simp [digestChain]
    | cons f t =>
      simp only [digestChain, Bool.and_eq_true, decide_eq_true_eq, ih]
      constructor
      · rintro ⟨h, ht⟩ i a b ha hb
        cases i with
        | zero => simp only [List.getElem?_cons_zero, List.getElem?_cons_succ, Option.some.injEq] at ha hb; rw [← ha, ← hb, h]
        | succ i => exact ht i a b (by simpa using ha) (by simpa using hb)
      · intro h
        exact ⟨h 0 e f rfl rfl, fun i a b ha hb => h (i + 1) a b (by simpa using ha) (by simpa using hb)⟩

theorem entriesOf_eq (data : List Byte) : entriesOf data = digestEntries data := rfl

theorem getElem?_entriesOf (data : List Byte) (i : Nat) : (entriesOf data)[i]? = if i < 63 then
    some { firstSeq := field data (12 * i) 6, firstKey := field data (12 * i + 6) 4, count := field data (12 * i + 10) 2 }
    else none := by
  unfold entriesOf
  split <;> simp_all

/-- A digest row's conditions of R125 and R164 up to its end, field by field. -/
theorem digestSound_iff (r : ReadRow) (epoch first : Nat) : DigestSound r epoch first ↔
    digestRowVerified r epoch = true ∧ digestChain (digestEntries r.data) = true ∧
      (digestEntries r.data).head?.map DigestEntry.firstSeq = some first := by
  have hh : (digestEntries r.data).head?.map DigestEntry.firstSeq = some (field r.data 0 6) := rfl
  rw [hh, digestChain_iff, ← entriesOf_eq, digestRowVerified]
  simp only [Bool.and_eq_true, decide_eq_true_eq, rowVerified_iff, getElem?_entriesOf]
  constructor
  · intro h
    refine ⟨⟨⟨⟨h.checked, h.epoch⟩, h.records⟩, h.fill⟩, fun i e f he hf => ?_, congrArg some h.first⟩
    split at hf
    · split at he
      · cases he; cases hf; exact h.chain i (by omega)
      · cases he
    · cases hf
  · rintro ⟨⟨⟨⟨a, b⟩, c⟩, d⟩, e, f⟩
    exact ⟨a, b, c, d, Option.some.inj f, fun i hi =>
      e i _ _ (if_pos (by omega)) (if_pos (by omega))⟩

/-- R164's agreement of the row-62 trailer with the last digest entry, field by field. -/
theorem digestAgrees_iff (m : Member) (es : List DigestEntry) (sp : List Byte) :
    digestAgrees m es (Trailer.parse sp) = true ↔ LastRowAgrees sp m.header.epoch es := by
  simp only [digestAgrees, Bool.and_eq_true, decide_eq_true_eq, wellFormed_iff]
  cases h : es.getLast? with
  | none => exact ⟨fun x => (nomatch x.2), fun x => absurd x.last (by rw [h]; nofun)⟩
  | some e =>
    simp only [Bool.and_eq_true, decide_eq_true_eq]
    constructor
    · rintro ⟨⟨⟨a, b⟩, c⟩, ⟨d, f⟩, g⟩
      refine ⟨a, b, c, ?_⟩
      rw [h]; cases e; cases d; cases f; cases g; rfl
    · intro x
      have := x.last
      rw [h] at this; cases this
      exact ⟨⟨⟨x.formed, x.epoch⟩, x.records⟩, ⟨rfl, rfl⟩, rfl⟩

end Sys2Proof.Machine
end

