-- ==== Sys2Proof/Laws/FrameOps.lean ====
section
/-!
SUPPORT. What the shared operations over memory, cards, queues, die queues and the catalog leave unchanged, as equations for simp.
-/
namespace Sys2Proof.Machine

@[simp] theorem answerCard_frame (c : CardIx) (r : Answer) (s : State) :
    (answerCard c r s).pending = s.pending ∧ (answerCard c r s).ci = s.ci ∧ (answerCard c r s).rp = s.rp ∧
    (answerCard c r s).ar = s.ar ∧ (answerCard c r s).cp = s.cp ∧ (answerCard c r s).cu = s.cu ∧
    (answerCard c r s).ru = s.ru ∧ (answerCard c r s).fs = s.fs ∧ (answerCard c r s).ec = s.ec := by
  unfold answerCard
  (repeat' split) <;> simp

@[simp] theorem answerAll_frame (r : Answer) (x : List CardIx) (s : State) :
    (answerAll r x s).pending = s.pending ∧ (answerAll r x s).ci = s.ci ∧ (answerAll r x s).rp = s.rp ∧
    (answerAll r x s).ar = s.ar ∧ (answerAll r x s).cp = s.cp ∧ (answerAll r x s).cu = s.cu ∧
    (answerAll r x s).ru = s.ru ∧ (answerAll r x s).fs = s.fs ∧ (answerAll r x s).ec = s.ec := by
  induction x generalizing s <;> simp_all [answerAll]

@[simp] theorem postCard_frame (c : CardIx) (s : State) :
    (postCard c s).pending = s.pending ∧ (postCard c s).rp = s.rp ∧ (postCard c s).ar = s.ar ∧
    (postCard c s).cp = s.cp ∧ (postCard c s).cu = s.cu ∧ (postCard c s).ru = s.ru ∧ (postCard c s).fs = s.fs ∧
    (postCard c s).ec = s.ec := by
  unfold postCard
  (repeat' split) <;> simp

@[simp] theorem slip_frame (s : State) :
    (slip s).pending = s.pending ∧ (slip s).xp.mem = s.xp.mem ∧ (slip s).xp.answered = s.xp.answered ∧
    (slip s).ci = s.ci ∧ (slip s).rp = s.rp ∧ (slip s).ar = s.ar ∧ (slip s).cp = s.cp ∧ (slip s).cu = s.cu ∧
    (slip s).ru = s.ru ∧ (slip s).fs = s.fs ∧ (slip s).ec = s.ec := by
  unfold slip
  (repeat' split) <;> simp

@[simp] theorem guardWrite_frame (c : CardIx) (v : Byte) (s : State) :
    (guardWrite c v s).pending = s.pending ∧ (guardWrite c v s).rp = s.rp ∧ (guardWrite c v s).ar = s.ar ∧
    (guardWrite c v s).cp = s.cp ∧ (guardWrite c v s).cu = s.cu ∧ (guardWrite c v s).ru = s.ru ∧
    (guardWrite c v s).fs = s.fs ∧ (guardWrite c v s).ec = s.ec := by
  unfold guardWrite
  (repeat' split) <;> simp

@[simp] theorem takeHead_frame (p : CardPath) (c : CardIx) (s : State) :
    (takeHead p c s).pending = s.pending ∧ (takeHead p c s).rp = s.rp ∧ (takeHead p c s).ar = s.ar ∧
    (takeHead p c s).cp = s.cp ∧ (takeHead p c s).cu = s.cu ∧ (takeHead p c s).ru = s.ru ∧
    (takeHead p c s).fs = s.fs ∧ (takeHead p c s).ec = s.ec := by
  unfold takeHead
  (repeat' split) <;> simp

@[simp] theorem answerQueue_frame (p : CardPath) (r : Answer) (s : State) :
    (answerQueue p r s).pending = s.pending ∧ (answerQueue p r s).rp = s.rp ∧ (answerQueue p r s).ar = s.ar ∧
    (answerQueue p r s).cp = s.cp ∧ (answerQueue p r s).cu = s.cu ∧ (answerQueue p r s).ru = s.ru ∧
    (answerQueue p r s).fs = s.fs ∧ (answerQueue p r s).ec = s.ec := by
  unfold answerQueue
  (repeat' split) <;> simp

@[simp] theorem hostStoreByte_frame (a : Nat) (b : Byte) (s : State) :
    (hostStoreByte a b s).pending = s.pending ∧ (hostStoreByte a b s).xp.answered = s.xp.answered ∧
    (hostStoreByte a b s).ci = s.ci ∧ (hostStoreByte a b s).rp = s.rp ∧ (hostStoreByte a b s).ar = s.ar ∧
    (hostStoreByte a b s).cp = s.cp ∧ (hostStoreByte a b s).cu = s.cu ∧ (hostStoreByte a b s).ru = s.ru ∧
    (hostStoreByte a b s).fs = s.fs ∧ (hostStoreByte a b s).ec = s.ec := by
  unfold hostStoreByte
  (repeat' split) <;> simp

@[simp] theorem hostStoreList_frame (a : Nat) (x : List Byte) (s : State) :
    (hostStoreList a x s).pending = s.pending ∧ (hostStoreList a x s).xp.answered = s.xp.answered ∧
    (hostStoreList a x s).ci = s.ci ∧ (hostStoreList a x s).rp = s.rp ∧ (hostStoreList a x s).ar = s.ar ∧
    (hostStoreList a x s).cp = s.cp ∧ (hostStoreList a x s).cu = s.cu ∧ (hostStoreList a x s).ru = s.ru ∧
    (hostStoreList a x s).fs = s.fs ∧ (hostStoreList a x s).ec = s.ec := by
  induction x generalizing s a <;> simp_all [hostStoreList]

@[simp] theorem xmHostWrite_frame (a : Nat) (bytes : List Byte) (s : State) :
    (xmHostWrite a bytes s).pending = s.pending ∧ (xmHostWrite a bytes s).rp = s.rp ∧
    (xmHostWrite a bytes s).ar = s.ar ∧ (xmHostWrite a bytes s).cp = s.cp ∧ (xmHostWrite a bytes s).cu = s.cu ∧
    (xmHostWrite a bytes s).ru = s.ru ∧ (xmHostWrite a bytes s).fs = s.fs ∧ (xmHostWrite a bytes s).ec = s.ec := by
  unfold xmHostWrite
  (repeat' split) <;> simp

@[simp] theorem handOp_frame (src : Source) (act : FlashAct) (s : State) :
    (handOp src act s).pending = s.pending ∧ (handOp src act s).xp = s.xp ∧ (handOp src act s).ci = s.ci ∧
    (handOp src act s).rp = s.rp ∧ (handOp src act s).ar = s.ar ∧ (handOp src act s).cp = s.cp ∧
    (handOp src act s).cu = s.cu ∧ (handOp src act s).ru = s.ru ∧ (handOp src act s).ec = s.ec := by
  unfold handOp
  (repeat' split) <;> simp

@[simp] theorem completeOp_frame (c : Fin 4) (s : State) :
    (completeOp c s).pending = s.pending ∧ (completeOp c s).xp = s.xp ∧ (completeOp c s).ci = s.ci ∧
    (completeOp c s).rp = s.rp ∧ (completeOp c s).ar = s.ar ∧ (completeOp c s).cp = s.cp ∧
    (completeOp c s).cu = s.cu ∧ (completeOp c s).ru = s.ru ∧ (completeOp c s).ec = s.ec := by
  unfold completeOp
  (repeat' split) <;> simp

@[simp] theorem countCorrected_frame (r : ReadRow) (s : State) :
    (countCorrected r s).pending = s.pending ∧ (countCorrected r s).xp = s.xp ∧ (countCorrected r s).ci = s.ci ∧
    (countCorrected r s).rp = s.rp ∧ (countCorrected r s).ar = s.ar ∧ (countCorrected r s).cp = s.cp ∧
    (countCorrected r s).cu = s.cu ∧ (countCorrected r s).ru = s.ru ∧ (countCorrected r s).ec = s.ec := by
  unfold countCorrected
  (repeat' split) <;> simp

@[simp] theorem joinRetired_frame (seg : Nat) (cause : RetireCause) (s : State) :
    (joinRetired seg cause s).pending = s.pending ∧ (joinRetired seg cause s).xp = s.xp ∧
    (joinRetired seg cause s).ci = s.ci ∧ (joinRetired seg cause s).rp = s.rp ∧ (joinRetired seg cause s).ar = s.ar ∧
    (joinRetired seg cause s).cp = s.cp ∧ (joinRetired seg cause s).ru = s.ru ∧ (joinRetired seg cause s).fs = s.fs ∧
    (joinRetired seg cause s).ec = s.ec := by
  unfold joinRetired
  (repeat' split) <;> simp

@[simp] theorem rebuildPools_frame (s : State) :
    (rebuildPools s).pending = s.pending ∧ (rebuildPools s).xp = s.xp ∧ (rebuildPools s).ci = s.ci ∧
    (rebuildPools s).rp = s.rp ∧ (rebuildPools s).ar = s.ar ∧ (rebuildPools s).cp = s.cp ∧
    (rebuildPools s).cu.catalog = s.cu.catalog ∧ (rebuildPools s).ru = s.ru ∧ (rebuildPools s).fs = s.fs ∧
    (rebuildPools s).ec = s.ec := by
  unfold rebuildPools
  (repeat' split) <;> simp

@[simp] theorem supersede_frame (s : State) :
    (supersede s).pending = s.pending ∧ (supersede s).xp = s.xp ∧ (supersede s).ci = s.ci ∧ (supersede s).rp = s.rp ∧
    (supersede s).ar = s.ar ∧ (supersede s).cp = s.cp ∧ (supersede s).fs = s.fs ∧ (supersede s).ec = s.ec := by
  unfold supersede
  dsimp only
  (repeat' split) <;> simp

@[simp] theorem joinSegment_frame (seg firstSeq : Nat) (s : State) :
    (joinSegment seg firstSeq s).pending = s.pending ∧ (joinSegment seg firstSeq s).xp = s.xp ∧
    (joinSegment seg firstSeq s).ci = s.ci ∧ (joinSegment seg firstSeq s).rp = s.rp ∧
    (joinSegment seg firstSeq s).ar = s.ar ∧ (joinSegment seg firstSeq s).cp = s.cp ∧
    (joinSegment seg firstSeq s).fs = s.fs ∧ (joinSegment seg firstSeq s).ec = s.ec := by
  unfold joinSegment
  (repeat' split) <;> simp

@[simp] theorem claimRowPass_frame (seg firstKey lastSeq lastKey : Nat) (s : State) :
    (claimRowPass seg firstKey lastSeq lastKey s).pending = s.pending ∧
    (claimRowPass seg firstKey lastSeq lastKey s).xp = s.xp ∧
    (claimRowPass seg firstKey lastSeq lastKey s).ci = s.ci ∧
    (claimRowPass seg firstKey lastSeq lastKey s).rp = s.rp ∧
    (claimRowPass seg firstKey lastSeq lastKey s).ar = s.ar ∧
    (claimRowPass seg firstKey lastSeq lastKey s).cp = s.cp ∧
    (claimRowPass seg firstKey lastSeq lastKey s).ru = s.ru ∧
    (claimRowPass seg firstKey lastSeq lastKey s).fs = s.fs ∧
    (claimRowPass seg firstKey lastSeq lastKey s).ec = s.ec := by
  unfold claimRowPass
  (repeat' split) <;> simp

@[simp] theorem claimClose_frame (seg : Nat) (s : State) :
    (claimClose seg s).pending = s.pending ∧ (claimClose seg s).xp = s.xp ∧ (claimClose seg s).ci = s.ci ∧
    (claimClose seg s).rp = s.rp ∧ (claimClose seg s).ar = s.ar ∧ (claimClose seg s).cp = s.cp ∧
    (claimClose seg s).ru = s.ru ∧ (claimClose seg s).fs = s.fs ∧ (claimClose seg s).ec = s.ec := by
  unfold claimClose
  (repeat' split) <;> simp

@[simp] theorem claimDigest_frame (seg : Nat) (passed : Bool) (s : State) :
    (claimDigest seg passed s).pending = s.pending ∧ (claimDigest seg passed s).xp = s.xp ∧
    (claimDigest seg passed s).ci = s.ci ∧ (claimDigest seg passed s).rp = s.rp ∧
    (claimDigest seg passed s).ar = s.ar ∧ (claimDigest seg passed s).cp = s.cp ∧
    (claimDigest seg passed s).ru = s.ru ∧ (claimDigest seg passed s).fs = s.fs ∧
    (claimDigest seg passed s).ec = s.ec := by
  unfold claimDigest
  dsimp only
  (repeat' split) <;> simp

@[simp] theorem claimCut_frame (seg k : Nat) (s : State) :
    (claimCut seg k s).pending = s.pending ∧ (claimCut seg k s).xp = s.xp ∧ (claimCut seg k s).ci = s.ci ∧
    (claimCut seg k s).rp = s.rp ∧ (claimCut seg k s).ar = s.ar ∧ (claimCut seg k s).cp = s.cp ∧
    (claimCut seg k s).ru = s.ru ∧ (claimCut seg k s).fs = s.fs ∧ (claimCut seg k s).ec = s.ec := by
  unfold claimCut
  (repeat' split) <;> simp

@[simp] theorem claimRetireLast_frame (seg : Nat) (s : State) :
    (claimRetireLast seg s).pending = s.pending ∧ (claimRetireLast seg s).xp = s.xp ∧
    (claimRetireLast seg s).ci = s.ci ∧ (claimRetireLast seg s).rp = s.rp ∧ (claimRetireLast seg s).ar = s.ar ∧
    (claimRetireLast seg s).cp = s.cp ∧ (claimRetireLast seg s).ru = s.ru ∧ (claimRetireLast seg s).fs = s.fs ∧
    (claimRetireLast seg s).ec = s.ec := by
  unfold claimRetireLast
  (repeat' split) <;> simp

@[simp] theorem claimRemoval_frame (seg : Nat) (s : State) :
    (claimRemoval seg s).pending = s.pending ∧ (claimRemoval seg s).xp = s.xp ∧ (claimRemoval seg s).ci = s.ci ∧
    (claimRemoval seg s).rp = s.rp ∧ (claimRemoval seg s).ar = s.ar ∧ (claimRemoval seg s).cp = s.cp ∧
    (claimRemoval seg s).ru = s.ru ∧ (claimRemoval seg s).fs = s.fs ∧ (claimRemoval seg s).ec = s.ec := by
  unfold claimRemoval
  (repeat' split) <;> simp

@[simp] theorem claimFreed_frame (seg : Nat) (s : State) :
    (claimFreed seg s).pending = s.pending ∧ (claimFreed seg s).xp = s.xp ∧ (claimFreed seg s).ci = s.ci ∧
    (claimFreed seg s).rp = s.rp ∧ (claimFreed seg s).ar = s.ar ∧ (claimFreed seg s).cp = s.cp ∧
    (claimFreed seg s).ru = s.ru ∧ (claimFreed seg s).fs = s.fs ∧ (claimFreed seg s).ec = s.ec := by
  unfold claimFreed
  (repeat' split) <;> simp

end Sys2Proof.Machine
end

