-- ==== Sys2Proof/Laws/FramePacker.lean ====
section
/-!
SUPPORT. What the operations of the RP and the RU leave unchanged.
-/
namespace Sys2Proof.Machine

@[simp] theorem handBuffer_frame (n : BufName) (s : State) :
    (handBuffer n s).pending = s.pending ∧ (handBuffer n s).xp = s.xp ∧ (handBuffer n s).ci = s.ci ∧
    (handBuffer n s).rp.served = s.rp.served ∧ (handBuffer n s).rp.waitList = s.rp.waitList ∧
    (handBuffer n s).rp.lingerTimer = s.rp.lingerTimer ∧ (handBuffer n s).ar = s.ar ∧ (handBuffer n s).cp = s.cp ∧
    (handBuffer n s).cu = s.cu ∧ (handBuffer n s).ru = s.ru ∧ (handBuffer n s).ec = s.ec := by
  unfold handBuffer
  dsimp only
  (repeat' split) <;> simp

@[simp] theorem handClosed_frame (s : State) :
    (handClosed s).pending = s.pending ∧ (handClosed s).xp = s.xp ∧ (handClosed s).ci = s.ci ∧
    (handClosed s).rp.served = s.rp.served ∧ (handClosed s).rp.waitList = s.rp.waitList ∧
    (handClosed s).rp.lingerTimer = s.rp.lingerTimer ∧ (handClosed s).ar = s.ar ∧ (handClosed s).cp = s.cp ∧
    (handClosed s).cu = s.cu ∧ (handClosed s).ru = s.ru ∧ (handClosed s).ec = s.ec := by
  unfold handClosed
  (repeat' split) <;> simp

@[simp] theorem closeFilling_frame (s : State) :
    (closeFilling s).pending = s.pending ∧ (closeFilling s).xp = s.xp ∧ (closeFilling s).ci = s.ci ∧
    (closeFilling s).rp.served = s.rp.served ∧ (closeFilling s).rp.waitList = s.rp.waitList ∧
    (closeFilling s).ar = s.ar ∧ (closeFilling s).cp = s.cp ∧ (closeFilling s).cu = s.cu ∧
    (closeFilling s).ru = s.ru ∧ (closeFilling s).ec = s.ec := by
  unfold closeFilling
  (repeat' split) <;> simp

@[simp] theorem answerServed_frame (o : CardOutcome) (s : State) :
    (answerServed o s).pending = s.pending ∧ (answerServed o s).ci = s.ci ∧
    (answerServed o s).rp.waitList = s.rp.waitList ∧ (answerServed o s).rp.bufA = s.rp.bufA ∧
    (answerServed o s).rp.bufB = s.rp.bufB ∧ (answerServed o s).rp.lingerTimer = s.rp.lingerTimer ∧
    (answerServed o s).ar = s.ar ∧ (answerServed o s).cp = s.cp ∧ (answerServed o s).cu = s.cu ∧
    (answerServed o s).ru = s.ru ∧ (answerServed o s).fs = s.fs ∧ (answerServed o s).ec = s.ec := by
  unfold answerServed
  (repeat' split) <;> simp

@[simp] theorem answerEntries_frame  (x : List WaitEntry) (s : State) :
    (answerEntries x s).pending = s.pending ∧ (answerEntries x s).ci = s.ci ∧ (answerEntries x s).rp = s.rp ∧
    (answerEntries x s).ar = s.ar ∧ (answerEntries x s).cp = s.cp ∧ (answerEntries x s).cu = s.cu ∧
    (answerEntries x s).ru = s.ru ∧ (answerEntries x s).fs = s.fs ∧ (answerEntries x s).ec = s.ec := by
  induction x generalizing s <;> simp_all [answerEntries]

@[simp] theorem answerReached_frame (s : State) :
    (answerReached s).pending = s.pending ∧ (answerReached s).ci = s.ci ∧ (answerReached s).rp.served = s.rp.served ∧
    (answerReached s).rp.bufA = s.rp.bufA ∧ (answerReached s).rp.bufB = s.rp.bufB ∧
    (answerReached s).rp.lingerTimer = s.rp.lingerTimer ∧ (answerReached s).ar = s.ar ∧ (answerReached s).cp = s.cp ∧
    (answerReached s).cu = s.cu ∧ (answerReached s).ru = s.ru ∧ (answerReached s).fs = s.fs ∧
    (answerReached s).ec = s.ec := by
  unfold answerReached
  (repeat' split) <;> simp

@[simp] theorem answerWaitList_frame (o : CardOutcome) (s : State) :
    (answerWaitList o s).pending = s.pending ∧ (answerWaitList o s).ci = s.ci ∧
    (answerWaitList o s).rp.served = s.rp.served ∧ (answerWaitList o s).rp.bufA = s.rp.bufA ∧
    (answerWaitList o s).rp.bufB = s.rp.bufB ∧ (answerWaitList o s).rp.lingerTimer = s.rp.lingerTimer ∧
    (answerWaitList o s).ar = s.ar ∧ (answerWaitList o s).cp = s.cp ∧ (answerWaitList o s).cu = s.cu ∧
    (answerWaitList o s).ru = s.ru ∧ (answerWaitList o s).fs = s.fs ∧ (answerWaitList o s).ec = s.ec := by
  unfold answerWaitList
  (repeat' split) <;> simp

@[simp] theorem awaitDurable_frame (c : CardIx) (w : Work) (target : Nat) (r : Answer) (s : State) :
    (awaitDurable c w target r s).pending = s.pending ∧ (awaitDurable c w target r s).ci = s.ci ∧
    (awaitDurable c w target r s).rp.served = s.rp.served ∧ (awaitDurable c w target r s).rp.bufA = s.rp.bufA ∧
    (awaitDurable c w target r s).rp.bufB = s.rp.bufB ∧
    (awaitDurable c w target r s).rp.lingerTimer = s.rp.lingerTimer ∧ (awaitDurable c w target r s).ar = s.ar ∧
    (awaitDurable c w target r s).cp = s.cp ∧ (awaitDurable c w target r s).cu = s.cu ∧
    (awaitDurable c w target r s).ru = s.ru ∧ (awaitDurable c w target r s).fs = s.fs ∧
    (awaitDurable c w target r s).ec = s.ec := by
  unfold awaitDurable
  (repeat' split) <;> simp

@[simp] theorem endStaging_frame (v : RpServed) (o : CardOutcome) (s : State) :
    (endStaging v o s).pending = s.pending ∧ (endStaging v o s).ci = s.ci ∧ (endStaging v o s).ar = s.ar ∧
    (endStaging v o s).cp = s.cp ∧ (endStaging v o s).cu = s.cu ∧ (endStaging v o s).ru = s.ru ∧
    (endStaging v o s).ec = s.ec := by
  unfold endStaging
  dsimp only
  (repeat' split) <;> simp

@[simp] theorem serveWait_frame (v : RpServed) (w : RpWait) (s : State) :
    (serveWait v w s).pending = s.pending ∧ (serveWait v w s).ci = s.ci ∧
    (serveWait v w s).rp.waitList = s.rp.waitList ∧ (serveWait v w s).rp.bufA = s.rp.bufA ∧
    (serveWait v w s).rp.bufB = s.rp.bufB ∧ (serveWait v w s).rp.lingerTimer = s.rp.lingerTimer ∧
    (serveWait v w s).ar = s.ar ∧ (serveWait v w s).cp = s.cp ∧ (serveWait v w s).cu = s.cu ∧
    (serveWait v w s).ru = s.ru ∧ (serveWait v w s).fs = s.fs ∧ (serveWait v w s).ec = s.ec := by
  unfold serveWait
  (repeat' split) <;> simp

@[simp] theorem stageInto_frame (n : BufName) (v : RpServed) (h : HostRecord) (s : State) :
    (stageInto n v h s).pending = s.pending ∧ (stageInto n v h s).ci = s.ci ∧ (stageInto n v h s).ar = s.ar ∧
    (stageInto n v h s).cp = s.cp ∧ (stageInto n v h s).cu = s.cu ∧ (stageInto n v h s).ru = s.ru ∧
    (stageInto n v h s).ec = s.ec := by
  unfold stageInto
  dsimp only
  (repeat' split) <;> simp

@[simp] theorem startFilling_frame (n : BufName) (d : Dest) (s : State) :
    (startFilling n d s).pending = s.pending ∧ (startFilling n d s).xp = s.xp ∧ (startFilling n d s).ci = s.ci ∧
    (startFilling n d s).rp.served = s.rp.served ∧ (startFilling n d s).rp.waitList = s.rp.waitList ∧
    (startFilling n d s).ar = s.ar ∧ (startFilling n d s).cp = s.cp ∧ (startFilling n d s).cu = s.cu ∧
    (startFilling n d s).ru = s.ru ∧ (startFilling n d s).fs = s.fs ∧ (startFilling n d s).ec = s.ec := by
  unfold startFilling
  (repeat' split) <;> simp

@[simp] theorem openFresh_frame (seg next : Nat) (s : State) :
    (openFresh seg next s).pending = s.pending ∧ (openFresh seg next s).xp = s.xp ∧
    (openFresh seg next s).ci = s.ci ∧ (openFresh seg next s).rp.served = s.rp.served ∧
    (openFresh seg next s).rp.waitList = s.rp.waitList ∧ (openFresh seg next s).rp.bufA = s.rp.bufA ∧
    (openFresh seg next s).rp.bufB = s.rp.bufB ∧ (openFresh seg next s).rp.lingerTimer = s.rp.lingerTimer ∧
    (openFresh seg next s).ar = s.ar ∧ (openFresh seg next s).cp = s.cp ∧ (openFresh seg next s).cu = s.cu ∧
    (openFresh seg next s).ru = s.ru ∧ (openFresh seg next s).fs = s.fs ∧ (openFresh seg next s).ec = s.ec := by
  unfold openFresh
  (repeat' split) <;> simp

@[simp] theorem takeForRecords_frame (seg : Nat) (s : State) :
    (takeForRecords seg s).pending = s.pending ∧ (takeForRecords seg s).xp = s.xp ∧
    (takeForRecords seg s).ci = s.ci ∧ (takeForRecords seg s).rp.served = s.rp.served ∧
    (takeForRecords seg s).rp.waitList = s.rp.waitList ∧ (takeForRecords seg s).rp.bufA = s.rp.bufA ∧
    (takeForRecords seg s).rp.bufB = s.rp.bufB ∧ (takeForRecords seg s).rp.lingerTimer = s.rp.lingerTimer ∧
    (takeForRecords seg s).ar = s.ar ∧ (takeForRecords seg s).cp = s.cp ∧ (takeForRecords seg s).fs = s.fs ∧
    (takeForRecords seg s).ec = s.ec := by
  unfold takeForRecords
  (repeat' split) <;> simp

@[simp] theorem placeInEmpty_frame (n : BufName) (v : RpServed) (h : HostRecord) (s : State) :
    (placeInEmpty n v h s).pending = s.pending ∧ (placeInEmpty n v h s).ci = s.ci ∧
    (placeInEmpty n v h s).ar = s.ar ∧ (placeInEmpty n v h s).cp = s.cp ∧ (placeInEmpty n v h s).ec = s.ec := by
  unfold placeInEmpty
  (repeat' split) <;> simp

@[simp] theorem placeFresh_frame (v : RpServed) (h : HostRecord) (s : State) :
    (placeFresh v h s).pending = s.pending ∧ (placeFresh v h s).ci = s.ci ∧ (placeFresh v h s).ar = s.ar ∧
    (placeFresh v h s).cp = s.cp ∧ (placeFresh v h s).ec = s.ec := by
  unfold placeFresh
  (repeat' split) <;> simp

@[simp] theorem placeRecord_frame (v : RpServed) (h : HostRecord) (s : State) :
    (placeRecord v h s).pending = s.pending ∧ (placeRecord v h s).ci = s.ci ∧ (placeRecord v h s).ar = s.ar ∧
    (placeRecord v h s).cp = s.cp ∧ (placeRecord v h s).ec = s.ec := by
  unfold placeRecord
  (repeat' split) <;> simp

@[simp] theorem stageNext_frame (v : RpServed) (s : State) :
    (stageNext v s).pending = s.pending ∧ (stageNext v s).ci = s.ci ∧ (stageNext v s).ar = s.ar ∧
    (stageNext v s).cp = s.cp ∧ (stageNext v s).ec = s.ec := by
  unfold stageNext
  (repeat' split) <;> simp

@[simp] theorem reexamineBuffer_frame (s : State) :
    (reexamineBuffer s).pending = s.pending ∧ (reexamineBuffer s).ci = s.ci ∧ (reexamineBuffer s).ar = s.ar ∧
    (reexamineBuffer s).cp = s.cp ∧ (reexamineBuffer s).ec = s.ec := by
  unfold reexamineBuffer
  (repeat' split) <;> simp

@[simp] theorem reexamineSpace_frame (s : State) :
    (reexamineSpace s).pending = s.pending ∧ (reexamineSpace s).ci = s.ci ∧ (reexamineSpace s).ar = s.ar ∧
    (reexamineSpace s).cp = s.cp ∧ (reexamineSpace s).ec = s.ec := by
  unfold reexamineSpace
  (repeat' split) <;> simp

@[simp] theorem discardStaged_frame (s : State) :
    (discardStaged s).pending = s.pending ∧ (discardStaged s).xp = s.xp ∧ (discardStaged s).ci = s.ci ∧
    (discardStaged s).rp.served = s.rp.served ∧ (discardStaged s).rp.waitList = s.rp.waitList ∧
    (discardStaged s).rp.lingerTimer = s.rp.lingerTimer ∧ (discardStaged s).ar = s.ar ∧ (discardStaged s).cp = s.cp ∧
    (discardStaged s).cu = s.cu ∧ (discardStaged s).ru = s.ru ∧ (discardStaged s).fs = s.fs ∧
    (discardStaged s).ec = s.ec := by
  unfold discardStaged
  (repeat' split) <;> simp

@[simp] theorem closePacker_frame (s : State) :
    (closePacker s).pending = s.pending ∧ (closePacker s).xp = s.xp ∧ (closePacker s).ci = s.ci ∧
    (closePacker s).rp.served = s.rp.served ∧ (closePacker s).rp.waitList = s.rp.waitList ∧
    (closePacker s).rp.bufA = s.rp.bufA ∧ (closePacker s).rp.bufB = s.rp.bufB ∧ (closePacker s).ar = s.ar ∧
    (closePacker s).cp = s.cp ∧ (closePacker s).cu = s.cu ∧ (closePacker s).ru = s.ru ∧ (closePacker s).fs = s.fs ∧
    (closePacker s).ec = s.ec := by
  unfold closePacker
  (repeat' split) <;> simp

@[simp] theorem enterReadOnly_frame (s : State) :
    (enterReadOnly s).pending = s.pending ∧ (enterReadOnly s).ci = s.ci ∧ (enterReadOnly s).ar = s.ar ∧
    (enterReadOnly s).cp = s.cp ∧ (enterReadOnly s).cu = s.cu ∧ (enterReadOnly s).ru = s.ru ∧
    (enterReadOnly s).fs = s.fs ∧ (enterReadOnly s).ec = s.ec := by
  unfold enterReadOnly
  (repeat' split) <;> simp

@[simp] theorem handDigest_frame (j : DigestJob) (s : State) :
    (handDigest j s).pending = s.pending ∧ (handDigest j s).xp = s.xp ∧ (handDigest j s).ci = s.ci ∧
    (handDigest j s).rp = s.rp ∧ (handDigest j s).ar = s.ar ∧ (handDigest j s).cp = s.cp ∧
    (handDigest j s).cu = s.cu ∧ (handDigest j s).ru = s.ru ∧ (handDigest j s).ec = s.ec := by
  unfold handDigest
  (repeat' split) <;> simp

@[simp] theorem closeSegment_frame (seg : Nat) (s : State) :
    (closeSegment seg s).pending = s.pending ∧ (closeSegment seg s).xp = s.xp ∧ (closeSegment seg s).ci = s.ci ∧
    (closeSegment seg s).rp.served = s.rp.served ∧ (closeSegment seg s).rp.waitList = s.rp.waitList ∧
    (closeSegment seg s).rp.bufA = s.rp.bufA ∧ (closeSegment seg s).rp.bufB = s.rp.bufB ∧
    (closeSegment seg s).rp.lingerTimer = s.rp.lingerTimer ∧ (closeSegment seg s).ar = s.ar ∧
    (closeSegment seg s).cp = s.cp ∧ (closeSegment seg s).ru = s.ru ∧ (closeSegment seg s).ec = s.ec := by
  unfold closeSegment
  dsimp only
  (repeat' split) <;> simp

@[simp] theorem nextDigest_frame (s : State) :
    (nextDigest s).pending = s.pending ∧ (nextDigest s).xp = s.xp ∧ (nextDigest s).ci = s.ci ∧
    (nextDigest s).rp.served = s.rp.served ∧ (nextDigest s).rp.waitList = s.rp.waitList ∧
    (nextDigest s).rp.bufA = s.rp.bufA ∧ (nextDigest s).rp.bufB = s.rp.bufB ∧
    (nextDigest s).rp.lingerTimer = s.rp.lingerTimer ∧ (nextDigest s).ar = s.ar ∧ (nextDigest s).cp = s.cp ∧
    (nextDigest s).cu = s.cu ∧ (nextDigest s).ru = s.ru ∧ (nextDigest s).ec = s.ec := by
  unfold nextDigest
  (repeat' split) <;> simp

@[simp] theorem applyRowPass_frame (n : BufName) (d : Dest) (s : State) :
    (applyRowPass n d s).pending = s.pending ∧ (applyRowPass n d s).xp = s.xp ∧ (applyRowPass n d s).ci = s.ci ∧
    (applyRowPass n d s).rp.served = s.rp.served ∧ (applyRowPass n d s).rp.waitList = s.rp.waitList ∧
    (applyRowPass n d s).rp.lingerTimer = s.rp.lingerTimer ∧ (applyRowPass n d s).ar = s.ar ∧
    (applyRowPass n d s).cp = s.cp ∧ (applyRowPass n d s).ru = s.ru ∧ (applyRowPass n d s).fs = s.fs ∧
    (applyRowPass n d s).ec = s.ec := by
  unfold applyRowPass
  (repeat' split) <;> simp

@[simp] theorem rowPassed_frame (n : BufName) (d : Dest) (s : State) :
    (rowPassed n d s).pending = s.pending ∧ (rowPassed n d s).ci = s.ci ∧ (rowPassed n d s).ar = s.ar ∧
    (rowPassed n d s).cp = s.cp ∧ (rowPassed n d s).ec = s.ec := by
  unfold rowPassed
  (repeat' split) <;> simp

@[simp] theorem reaimOther_frame (n : BufName) (seg : Nat) (s : State) :
    (reaimOther n seg s).pending = s.pending ∧ (reaimOther n seg s).xp = s.xp ∧ (reaimOther n seg s).ci = s.ci ∧
    (reaimOther n seg s).rp.served = s.rp.served ∧ (reaimOther n seg s).rp.waitList = s.rp.waitList ∧
    (reaimOther n seg s).rp.lingerTimer = s.rp.lingerTimer ∧ (reaimOther n seg s).ar = s.ar ∧
    (reaimOther n seg s).cp = s.cp ∧ (reaimOther n seg s).cu = s.cu ∧ (reaimOther n seg s).ru = s.ru ∧
    (reaimOther n seg s).fs = s.fs ∧ (reaimOther n seg s).ec = s.ec := by
  unfold reaimOther
  dsimp only
  (repeat' split) <;> simp

@[simp] theorem takeReplacement_frame (n : BufName) (seg firstSeq : Nat) (s : State) :
    (takeReplacement n seg firstSeq s).pending = s.pending ∧ (takeReplacement n seg firstSeq s).xp = s.xp ∧
    (takeReplacement n seg firstSeq s).ci = s.ci ∧ (takeReplacement n seg firstSeq s).rp.served = s.rp.served ∧
    (takeReplacement n seg firstSeq s).rp.waitList = s.rp.waitList ∧
    (takeReplacement n seg firstSeq s).rp.lingerTimer = s.rp.lingerTimer ∧
    (takeReplacement n seg firstSeq s).ar = s.ar ∧ (takeReplacement n seg firstSeq s).cp = s.cp ∧
    (takeReplacement n seg firstSeq s).ec = s.ec := by
  unfold takeReplacement
  (repeat' split) <;> simp

@[simp] theorem relocate_frame (n : BufName) (d : Dest) (s : State) :
    (relocate n d s).pending = s.pending ∧ (relocate n d s).ci = s.ci ∧ (relocate n d s).ar = s.ar ∧
    (relocate n d s).cp = s.cp ∧ (relocate n d s).ec = s.ec := by
  unfold relocate
  dsimp only
  (repeat' split) <;> simp

@[simp] theorem relocateAgain_frame (n : BufName) (r : Relocation) (d : Dest) (s : State) :
    (relocateAgain n r d s).pending = s.pending ∧ (relocateAgain n r d s).ci = s.ci ∧
    (relocateAgain n r d s).ar = s.ar ∧ (relocateAgain n r d s).cp = s.cp ∧ (relocateAgain n r d s).ec = s.ec := by
  unfold relocateAgain
  (repeat' split) <;> simp

@[simp] theorem ruErase_frame (seg : Nat) (s : State) :
    (ruErase seg s).pending = s.pending ∧ (ruErase seg s).xp = s.xp ∧ (ruErase seg s).ci = s.ci ∧
    (ruErase seg s).rp = s.rp ∧ (ruErase seg s).ar = s.ar ∧ (ruErase seg s).cp = s.cp ∧ (ruErase seg s).cu = s.cu ∧
    (ruErase seg s).ec = s.ec := by
  unfold ruErase
  (repeat' split) <;> simp

@[simp] theorem ruJudge_frame (s : State) :
    (ruJudge s).pending = s.pending ∧ (ruJudge s).xp = s.xp ∧ (ruJudge s).ci = s.ci ∧ (ruJudge s).rp = s.rp ∧
    (ruJudge s).ar = s.ar ∧ (ruJudge s).cp = s.cp ∧ (ruJudge s).cu = s.cu ∧ (ruJudge s).ec = s.ec := by
  unfold ruJudge
  (repeat' split) <;> simp

@[simp] theorem react_frame (s : State) :
    (react s).pending = s.pending ∧ (react s).ci = s.ci ∧ (react s).ar = s.ar ∧ (react s).cp = s.cp ∧
    (react s).ec = s.ec := by
  unfold react
  (repeat' split) <;> simp

@[simp] theorem judgeChange_frame (old s : State) :
    (judgeChange old s).pending = s.pending ∧ (judgeChange old s).xp = s.xp ∧ (judgeChange old s).ci = s.ci ∧
    (judgeChange old s).rp = s.rp ∧ (judgeChange old s).ar = s.ar ∧ (judgeChange old s).cp = s.cp ∧
    (judgeChange old s).cu = s.cu ∧ (judgeChange old s).ec = s.ec := by
  unfold judgeChange
  (repeat' split) <;> simp

@[simp] theorem reactPin_frame (old s : State) :
    (reactPin old s).pending = s.pending ∧ (reactPin old s).ci = s.ci ∧ (reactPin old s).ar = s.ar ∧
    (reactPin old s).cp = s.cp ∧ (reactPin old s).ec = s.ec := by
  unfold reactPin
  (repeat' split) <;> simp

end Sys2Proof.Machine
end

