-- ==== Sys2Proof/Laws/FrameReader.lean ====
section
/-!
SUPPORT. What the operations of the AR leave unchanged.
-/
namespace Sys2Proof.Machine

@[simp] theorem arAnswer_frame (r : Answer) (s : State) :
    (arAnswer r s).pending = s.pending ∧ (arAnswer r s).ci = s.ci ∧ (arAnswer r s).rp = s.rp ∧
    (arAnswer r s).cp = s.cp ∧ (arAnswer r s).cu = s.cu ∧ (arAnswer r s).ru = s.ru ∧ (arAnswer r s).fs = s.fs ∧
    (arAnswer r s).ec = s.ec := by
  unfold arAnswer
  (repeat' split) <;> simp

@[simp] theorem arStop_frame (st : ReadStop) (s : State) :
    (arStop st s).pending = s.pending ∧ (arStop st s).ci = s.ci ∧ (arStop st s).rp = s.rp ∧ (arStop st s).cp = s.cp ∧
    (arStop st s).cu = s.cu ∧ (arStop st s).ru = s.ru ∧ (arStop st s).fs = s.fs ∧ (arStop st s).ec = s.ec := by
  unfold arStop
  (repeat' split) <;> simp

@[simp] theorem arAbort_frame (s : State) :
    (arAbort s).pending = s.pending ∧ (arAbort s).ci = s.ci ∧ (arAbort s).rp = s.rp ∧ (arAbort s).cp = s.cp ∧
    (arAbort s).cu = s.cu ∧ (arAbort s).ru = s.ru ∧ (arAbort s).fs = s.fs ∧ (arAbort s).ec = s.ec := by
  unfold arAbort
  (repeat' split) <;> simp

@[simp] theorem arAskPin_frame (seg : Nat) (next : Bool) (s : State) :
    (arAskPin seg next s).pending = s.pending ∧ (arAskPin seg next s).xp = s.xp ∧ (arAskPin seg next s).ci = s.ci ∧
    (arAskPin seg next s).rp = s.rp ∧ (arAskPin seg next s).ar.served = s.ar.served ∧
    (arAskPin seg next s).cp = s.cp ∧ (arAskPin seg next s).cu = s.cu ∧ (arAskPin seg next s).ru = s.ru ∧
    (arAskPin seg next s).fs = s.fs ∧ (arAskPin seg next s).ec = s.ec := by
  unfold arAskPin
  (repeat' split) <;> simp

@[simp] theorem arStartSeq_frame (w : Work) (s : State) :
    (arStartSeq w s).pending = s.pending ∧ (arStartSeq w s).ci = s.ci ∧ (arStartSeq w s).rp = s.rp ∧
    (arStartSeq w s).cp = s.cp ∧ (arStartSeq w s).cu = s.cu ∧ (arStartSeq w s).ru = s.ru ∧
    (arStartSeq w s).fs = s.fs ∧ (arStartSeq w s).ec = s.ec := by
  unfold arStartSeq
  dsimp only
  (repeat' split) <;> simp

@[simp] theorem arStartKey_frame (w : Work) (s : State) :
    (arStartKey w s).pending = s.pending ∧ (arStartKey w s).ci = s.ci ∧ (arStartKey w s).rp = s.rp ∧
    (arStartKey w s).cp = s.cp ∧ (arStartKey w s).cu = s.cu ∧ (arStartKey w s).ru = s.ru ∧
    (arStartKey w s).fs = s.fs ∧ (arStartKey w s).ec = s.ec := by
  unfold arStartKey
  (repeat' split) <;> simp

@[simp] theorem arStart_frame (w : Work) (s : State) :
    (arStart w s).pending = s.pending ∧ (arStart w s).ci = s.ci ∧ (arStart w s).rp = s.rp ∧ (arStart w s).cp = s.cp ∧
    (arStart w s).cu = s.cu ∧ (arStart w s).ru = s.ru ∧ (arStart w s).fs = s.fs ∧ (arStart w s).ec = s.ec := by
  unfold arStart
  (repeat' split) <;> simp

@[simp] theorem arReadRow_frame (seg row : Nat) (s : State) :
    (arReadRow seg row s).pending = s.pending ∧ (arReadRow seg row s).xp = s.xp ∧ (arReadRow seg row s).ci = s.ci ∧
    (arReadRow seg row s).rp = s.rp ∧ (arReadRow seg row s).ar.served = s.ar.served ∧
    (arReadRow seg row s).cp = s.cp ∧ (arReadRow seg row s).cu = s.cu ∧ (arReadRow seg row s).ru = s.ru ∧
    (arReadRow seg row s).ec = s.ec := by
  unfold arReadRow
  (repeat' split) <;> simp

@[simp] theorem arReadDigest_frame (seg : Nat) (next : Bool) (s : State) :
    (arReadDigest seg next s).pending = s.pending ∧ (arReadDigest seg next s).xp = s.xp ∧
    (arReadDigest seg next s).ci = s.ci ∧ (arReadDigest seg next s).rp = s.rp ∧
    (arReadDigest seg next s).ar.served = s.ar.served ∧ (arReadDigest seg next s).cp = s.cp ∧
    (arReadDigest seg next s).cu = s.cu ∧ (arReadDigest seg next s).ru = s.ru ∧
    (arReadDigest seg next s).ec = s.ec := by
  unfold arReadDigest
  (repeat' split) <;> simp

@[simp] theorem arScan_frame (seg : Nat) (p : ScanPos) (s : State) :
    (arScan seg p s).pending = s.pending ∧ (arScan seg p s).xp = s.xp ∧ (arScan seg p s).ci = s.ci ∧
    (arScan seg p s).rp = s.rp ∧ (arScan seg p s).ar.served = s.ar.served ∧ (arScan seg p s).cp = s.cp ∧
    (arScan seg p s).cu = s.cu ∧ (arScan seg p s).ru = s.ru ∧ (arScan seg p s).ec = s.ec := by
  unfold arScan
  (repeat' split) <;> simp

@[simp] theorem arBegin_frame (w : Work) (seg row firstSeq : Nat) (s : State) :
    (arBegin w seg row firstSeq s).pending = s.pending ∧ (arBegin w seg row firstSeq s).ci = s.ci ∧
    (arBegin w seg row firstSeq s).rp = s.rp ∧ (arBegin w seg row firstSeq s).cp = s.cp ∧
    (arBegin w seg row firstSeq s).cu = s.cu ∧ (arBegin w seg row firstSeq s).ru = s.ru ∧
    (arBegin w seg row firstSeq s).ec = s.ec := by
  unfold arBegin
  (repeat' split) <;> simp

@[simp] theorem arBeginKnown_frame (w : Work) (seg : Nat) (rows : List RowMapEntry) (s : State) :
    (arBeginKnown w seg rows s).pending = s.pending ∧ (arBeginKnown w seg rows s).ci = s.ci ∧
    (arBeginKnown w seg rows s).rp = s.rp ∧ (arBeginKnown w seg rows s).cp = s.cp ∧
    (arBeginKnown w seg rows s).cu = s.cu ∧ (arBeginKnown w seg rows s).ru = s.ru ∧
    (arBeginKnown w seg rows s).ec = s.ec := by
  unfold arBeginKnown
  (repeat' split) <;> simp

@[simp] theorem arLocate_frame (w : Work) (seg : Nat) (s : State) :
    (arLocate w seg s).pending = s.pending ∧ (arLocate w seg s).ci = s.ci ∧ (arLocate w seg s).rp = s.rp ∧
    (arLocate w seg s).cp = s.cp ∧ (arLocate w seg s).cu = s.cu ∧ (arLocate w seg s).ru = s.ru ∧
    (arLocate w seg s).ec = s.ec := by
  unfold arLocate
  (repeat' split) <;> simp

@[simp] theorem arEnter_frame (seg : Nat) (s : State) :
    (arEnter seg s).pending = s.pending ∧ (arEnter seg s).xp = s.xp ∧ (arEnter seg s).ci = s.ci ∧
    (arEnter seg s).rp = s.rp ∧ (arEnter seg s).ar.served = s.ar.served ∧ (arEnter seg s).cp = s.cp ∧
    (arEnter seg s).cu = s.cu ∧ (arEnter seg s).ru = s.ru ∧ (arEnter seg s).ec = s.ec := by
  unfold arEnter
  (repeat' split) <;> simp

@[simp] theorem arChoose_frame (w : Work) (seg row : Nat) (s : State) :
    (arChoose w seg row s).pending = s.pending ∧ (arChoose w seg row s).ci = s.ci ∧
    (arChoose w seg row s).rp = s.rp ∧ (arChoose w seg row s).cp = s.cp ∧ (arChoose w seg row s).cu = s.cu ∧
    (arChoose w seg row s).ru = s.ru ∧ (arChoose w seg row s).ec = s.ec := by
  unfold arChoose
  dsimp only
  (repeat' split) <;> simp

@[simp] theorem arContinue_frame (w : Work) (seg row : Nat) (st : Option ReadStop) (s : State) :
    (arContinue w seg row st s).pending = s.pending ∧ (arContinue w seg row st s).ci = s.ci ∧
    (arContinue w seg row st s).rp = s.rp ∧ (arContinue w seg row st s).cp = s.cp ∧
    (arContinue w seg row st s).cu = s.cu ∧ (arContinue w seg row st s).ru = s.ru ∧
    (arContinue w seg row st s).ec = s.ec := by
  unfold arContinue
  (repeat' split) <;> simp

@[simp] theorem arDamage_frame (n : Nat) (s : State) :
    (arDamage n s).pending = s.pending ∧ (arDamage n s).xp = s.xp ∧ (arDamage n s).ci = s.ci ∧
    (arDamage n s).rp = s.rp ∧ (arDamage n s).ar.served = s.ar.served ∧ (arDamage n s).cp = s.cp ∧
    (arDamage n s).cu = s.cu ∧ (arDamage n s).ru = s.ru ∧ (arDamage n s).fs = s.fs ∧ (arDamage n s).ec = s.ec := by
  unfold arDamage
  (repeat' split) <;> simp

@[simp] theorem arCopy_frame (w : Work) (seq : Nat) (image : List Byte) (s : State) :
    (arCopy w seq image s).pending = s.pending ∧ (arCopy w seq image s).xp.answered = s.xp.answered ∧
    (arCopy w seq image s).ci = s.ci ∧ (arCopy w seq image s).rp = s.rp ∧
    (arCopy w seq image s).ar.served = s.ar.served ∧ (arCopy w seq image s).cp = s.cp ∧
    (arCopy w seq image s).cu = s.cu ∧ (arCopy w seq image s).ru = s.ru ∧ (arCopy w seq image s).fs = s.fs ∧
    (arCopy w seq image s).ec = s.ec := by
  unfold arCopy
  (repeat' split) <;> simp

@[simp] theorem arOffer_frame (w : Work) (seq key : Nat) (image : List Byte) (s : State) :
    (arOffer w seq key image s).1.pending = s.pending ∧ (arOffer w seq key image s).1.xp.answered = s.xp.answered ∧
    (arOffer w seq key image s).1.ci = s.ci ∧ (arOffer w seq key image s).1.rp = s.rp ∧
    (arOffer w seq key image s).1.ar.served = s.ar.served ∧ (arOffer w seq key image s).1.cp = s.cp ∧
    (arOffer w seq key image s).1.cu = s.cu ∧ (arOffer w seq key image s).1.ru = s.ru ∧
    (arOffer w seq key image s).1.fs = s.fs ∧ (arOffer w seq key image s).1.ec = s.ec := by
  unfold arOffer
  (repeat' split) <;> simp

@[simp] theorem arWalk_frame (w : Work) (data : List Byte) (fill last : Nat) (x : Nat) (y : Nat) (z : Nat) (s : State) :
    (arWalk w data fill last x y z s).1.pending = s.pending ∧
    (arWalk w data fill last x y z s).1.xp.answered = s.xp.answered ∧ (arWalk w data fill last x y z s).1.ci = s.ci ∧
    (arWalk w data fill last x y z s).1.rp = s.rp ∧ (arWalk w data fill last x y z s).1.ar.served = s.ar.served ∧
    (arWalk w data fill last x y z s).1.cp = s.cp ∧ (arWalk w data fill last x y z s).1.cu = s.cu ∧
    (arWalk w data fill last x y z s).1.ru = s.ru ∧ (arWalk w data fill last x y z s).1.fs = s.fs ∧
    (arWalk w data fill last x y z s).1.ec = s.ec := by
  induction x generalizing y z s with
  | zero => simp [arWalk]
  | succ n ih =>
    simp only [arWalk]
    (repeat' split) <;> simp [ih]

@[simp] theorem arAcceptRow_frame (w : Work) (seg row : Nat) (r : ReadRow) (s : State) :
    (arAcceptRow w seg row r s).pending = s.pending ∧ (arAcceptRow w seg row r s).ci = s.ci ∧
    (arAcceptRow w seg row r s).rp = s.rp ∧ (arAcceptRow w seg row r s).cp = s.cp ∧
    (arAcceptRow w seg row r s).cu = s.cu ∧ (arAcceptRow w seg row r s).ru = s.ru ∧
    (arAcceptRow w seg row r s).ec = s.ec := by
  unfold arAcceptRow
  dsimp only
  (repeat' split) <;> simp

@[simp] theorem arDamagedRow_frame (w : Work) (seg row : Nat) (s : State) :
    (arDamagedRow w seg row s).pending = s.pending ∧ (arDamagedRow w seg row s).ci = s.ci ∧
    (arDamagedRow w seg row s).rp = s.rp ∧ (arDamagedRow w seg row s).cp = s.cp ∧
    (arDamagedRow w seg row s).cu = s.cu ∧ (arDamagedRow w seg row s).ru = s.ru ∧
    (arDamagedRow w seg row s).ec = s.ec := by
  unfold arDamagedRow
  dsimp only
  (repeat' split) <;> simp

@[simp] theorem arRowRead_frame (w : Work) (seg row : Nat) (r : ReadRow) (s : State) :
    (arRowRead w seg row r s).pending = s.pending ∧ (arRowRead w seg row r s).ci = s.ci ∧
    (arRowRead w seg row r s).rp = s.rp ∧ (arRowRead w seg row r s).cp = s.cp ∧ (arRowRead w seg row r s).cu = s.cu ∧
    (arRowRead w seg row r s).ru = s.ru ∧ (arRowRead w seg row r s).ec = s.ec := by
  unfold arRowRead
  dsimp only
  (repeat' split) <;> simp

@[simp] theorem arDigestRead_frame (w : Work) (seg : Nat) (next : Bool) (r : ReadRow) (s : State) :
    (arDigestRead w seg next r s).pending = s.pending ∧ (arDigestRead w seg next r s).ci = s.ci ∧
    (arDigestRead w seg next r s).rp = s.rp ∧ (arDigestRead w seg next r s).cp = s.cp ∧
    (arDigestRead w seg next r s).cu = s.cu ∧ (arDigestRead w seg next r s).ru = s.ru ∧
    (arDigestRead w seg next r s).ec = s.ec := by
  unfold arDigestRead
  (repeat' split) <;> simp

@[simp] theorem scanStopBad_frame (w : Work) (seg b : Nat) (p : ScanPos) (s : State) :
    (scanStopBad w seg b p s).pending = s.pending ∧ (scanStopBad w seg b p s).ci = s.ci ∧
    (scanStopBad w seg b p s).rp = s.rp ∧ (scanStopBad w seg b p s).cp = s.cp ∧ (scanStopBad w seg b p s).cu = s.cu ∧
    (scanStopBad w seg b p s).ru = s.ru ∧ (scanStopBad w seg b p s).ec = s.ec := by
  unfold scanStopBad
  (repeat' split) <;> simp

@[simp] theorem scanStopAt_frame (w : Work) (seg : Nat) (t : Trailer) (p : ScanPos) (s : State) :
    (scanStopAt w seg t p s).pending = s.pending ∧ (scanStopAt w seg t p s).ci = s.ci ∧
    (scanStopAt w seg t p s).rp = s.rp ∧ (scanStopAt w seg t p s).cp = s.cp ∧ (scanStopAt w seg t p s).cu = s.cu ∧
    (scanStopAt w seg t p s).ru = s.ru ∧ (scanStopAt w seg t p s).ec = s.ec := by
  unfold scanStopAt
  (repeat' split) <;> simp

@[simp] theorem arTrailerRead_frame (w : Work) (seg : Nat) (p : ScanPos) (r : ReadSpare) (s : State) :
    (arTrailerRead w seg p r s).pending = s.pending ∧ (arTrailerRead w seg p r s).ci = s.ci ∧
    (arTrailerRead w seg p r s).rp = s.rp ∧ (arTrailerRead w seg p r s).cp = s.cp ∧
    (arTrailerRead w seg p r s).cu = s.cu ∧ (arTrailerRead w seg p r s).ru = s.ru ∧
    (arTrailerRead w seg p r s).ec = s.ec := by
  unfold arTrailerRead
  dsimp only
  (repeat' split) <;> simp

@[simp] theorem arPinGranted_frame (w : Work) (seg : Nat) (next : Bool) (s : State) :
    (arPinGranted w seg next s).pending = s.pending ∧ (arPinGranted w seg next s).ci = s.ci ∧
    (arPinGranted w seg next s).rp = s.rp ∧ (arPinGranted w seg next s).cp = s.cp ∧
    (arPinGranted w seg next s).cu = s.cu ∧ (arPinGranted w seg next s).ru = s.ru ∧
    (arPinGranted w seg next s).ec = s.ec := by
  unfold arPinGranted
  (repeat' split) <;> simp

@[simp] theorem arPinRefused_frame (w : Work) (next : Bool) (s : State) :
    (arPinRefused w next s).pending = s.pending ∧ (arPinRefused w next s).ci = s.ci ∧
    (arPinRefused w next s).rp = s.rp ∧ (arPinRefused w next s).cp = s.cp ∧ (arPinRefused w next s).cu = s.cu ∧
    (arPinRefused w next s).ru = s.ru ∧ (arPinRefused w next s).ec = s.ec := by
  unfold arPinRefused
  (repeat' split) <;> simp

end Sys2Proof.Machine
end

