-- ==== Sys2Proof/Laws/FrameEngine.lean ====
section
/-!
SUPPORT. What the operations of the EC, the CP and the flash events leave unchanged.
-/
namespace Sys2Proof.Machine

@[simp] theorem enterHalted_frame (s : State) :
    (enterHalted s).pending = s.pending ∧ (enterHalted s).xp.mem = s.xp.mem ∧
    (enterHalted s).xp.answered = s.xp.answered ∧ (enterHalted s).ci = s.ci ∧ (enterHalted s).rp = s.rp ∧
    (enterHalted s).ar = s.ar ∧ (enterHalted s).cp = s.cp ∧ (enterHalted s).cu = s.cu ∧ (enterHalted s).ru = s.ru ∧
    (enterHalted s).fs = s.fs := by
  unfold enterHalted
  (repeat' split) <;> simp

@[simp] theorem enterStopping_frame (s : State) :
    (enterStopping s).pending = s.pending ∧ (enterStopping s).ci = s.ci ∧
    (enterStopping s).rp.waitList = s.rp.waitList ∧ (enterStopping s).ar = s.ar ∧ (enterStopping s).cp = s.cp ∧
    (enterStopping s).cu = s.cu ∧ (enterStopping s).ru = s.ru ∧ (enterStopping s).ec.loaded = s.ec.loaded := by
  cases h : s.rp.served with
  | none => simp [enterStopping, h]
  | some v => cases hw : v.wait <;> simp [enterStopping, h, hw]

@[simp] theorem cpAnswer_frame (r : Answer) (s : State) :
    (cpAnswer r s).pending = s.pending ∧ (cpAnswer r s).ci = s.ci ∧ (cpAnswer r s).rp = s.rp ∧
    (cpAnswer r s).ar = s.ar ∧ (cpAnswer r s).cp.holds = s.cp.holds ∧ (cpAnswer r s).cu = s.cu ∧
    (cpAnswer r s).ru = s.ru ∧ (cpAnswer r s).fs = s.fs ∧ (cpAnswer r s).ec = s.ec := by
  unfold cpAnswer
  (repeat' split) <;> simp

@[simp] theorem enterFaulted_frame (cause : FaultCause) (s : State) :
    (enterFaulted cause s).pending = s.pending ∧ (enterFaulted cause s).cp.holds = s.cp.holds ∧
    (enterFaulted cause s).cu = s.cu := by
  unfold enterFaulted
  (repeat' split) <;> simp

@[simp] theorem handResets_frame  (x : List (Fin 4)) (s : State) :
    (handResets x s).pending = s.pending ∧ (handResets x s).xp = s.xp ∧ (handResets x s).ci = s.ci ∧
    (handResets x s).rp = s.rp ∧ (handResets x s).ar = s.ar ∧ (handResets x s).cp = s.cp ∧
    (handResets x s).cu = s.cu ∧ (handResets x s).ru = s.ru ∧ (handResets x s).ec = s.ec := by
  induction x generalizing s <;> simp_all [handResets]

@[simp] theorem startProbe_frame (s : State) :
    (startProbe s).pending = s.pending ∧ (startProbe s).xp = s.xp ∧ (startProbe s).ci = s.ci ∧
    (startProbe s).rp = s.rp ∧ (startProbe s).ar = s.ar ∧ (startProbe s).cp = s.cp ∧ (startProbe s).ru = s.ru ∧
    (startProbe s).ec.loaded = s.ec.loaded ∧ (startProbe s).ec.stopPending = s.ec.stopPending := by
  unfold startProbe
  (repeat' split) <;> simp

@[simp] theorem runEvent1_frame (s : State) :
    (runEvent1 s).pending = s.pending ∧ (runEvent1 s).xp = s.xp ∧ (runEvent1 s).ci = s.ci ∧ (runEvent1 s).rp = s.rp ∧
    (runEvent1 s).ar = s.ar ∧ (runEvent1 s).cp = s.cp ∧ (runEvent1 s).ru = s.ru ∧
    (runEvent1 s).ec.loaded = s.ec.loaded ∧ (runEvent1 s).ec.stopPending = s.ec.stopPending := by
  unfold runEvent1
  (repeat' split) <;> simp

@[simp] theorem stopProcedure_frame (s : State) :
    (stopProcedure s).pending = s.pending ∧ (stopProcedure s).xp.mem = s.xp.mem ∧
    (stopProcedure s).xp.answered = s.xp.answered ∧ (stopProcedure s).ci = s.ci ∧ (stopProcedure s).rp = s.rp ∧
    (stopProcedure s).ar = s.ar ∧ (stopProcedure s).cp = s.cp ∧ (stopProcedure s).cu = s.cu ∧
    (stopProcedure s).ru = s.ru ∧ (stopProcedure s).fs = s.fs := by
  unfold stopProcedure
  (repeat' split) <;> simp

@[simp] theorem runEvent0_frame (s : State) :
    (runEvent0 s).pending = s.pending ∧ (runEvent0 s).ci = s.ci ∧ (runEvent0 s).rp.waitList = s.rp.waitList ∧
    (runEvent0 s).ar = s.ar ∧ (runEvent0 s).cp = s.cp ∧ (runEvent0 s).cu = s.cu ∧ (runEvent0 s).ru = s.ru := by
  unfold runEvent0
  (repeat' split) <;> simp

@[simp] theorem writeRun_frame (v : Bool) (linger : Option Byte) (s : State) :
    (writeRun v linger s).pending = s.pending ∧ (writeRun v linger s).ci = s.ci ∧
    (writeRun v linger s).rp.waitList = s.rp.waitList ∧ (writeRun v linger s).ar = s.ar ∧
    (writeRun v linger s).cp = s.cp ∧ (writeRun v linger s).ru = s.ru := by
  unfold writeRun
  (repeat' split) <;> simp

@[simp] theorem hostRead_frame (a n : Nat) (s : State) :
    (hostRead a n s).pending = s.pending ∧ (hostRead a n s).xp.mem = s.xp.mem ∧
    (hostRead a n s).xp.answered = s.xp.answered ∧ (hostRead a n s).ci = s.ci ∧ (hostRead a n s).rp = s.rp ∧
    (hostRead a n s).ar = s.ar ∧ (hostRead a n s).cp = s.cp ∧ (hostRead a n s).cu = s.cu ∧
    (hostRead a n s).ru = s.ru ∧ (hostRead a n s).fs = s.fs ∧ (hostRead a n s).ec = s.ec := by
  unfold hostRead
  (repeat' split) <;> simp

@[simp] theorem serveAppend_frame (c : CardIx) (w : Work) (s : State) :
    (serveAppend c w s).pending = s.pending ∧ (serveAppend c w s).ci = s.ci ∧
    (serveAppend c w s).rp.waitList = s.rp.waitList ∧ (serveAppend c w s).rp.bufA = s.rp.bufA ∧
    (serveAppend c w s).rp.bufB = s.rp.bufB ∧ (serveAppend c w s).rp.lingerTimer = s.rp.lingerTimer ∧
    (serveAppend c w s).ar = s.ar ∧ (serveAppend c w s).cp = s.cp ∧ (serveAppend c w s).cu = s.cu ∧
    (serveAppend c w s).ru = s.ru ∧ (serveAppend c w s).fs = s.fs ∧ (serveAppend c w s).ec = s.ec := by
  unfold serveAppend
  (repeat' split) <;> simp

@[simp] theorem serveFlush_frame (c : CardIx) (w : Work) (s : State) :
    (serveFlush c w s).pending = s.pending ∧ (serveFlush c w s).ci = s.ci ∧
    (serveFlush c w s).rp.served = s.rp.served ∧ (serveFlush c w s).ar = s.ar ∧ (serveFlush c w s).cp = s.cp ∧
    (serveFlush c w s).cu = s.cu ∧ (serveFlush c w s).ru = s.ru ∧ (serveFlush c w s).ec = s.ec := by
  unfold serveFlush
  (repeat' split) <;> simp

@[simp] theorem lingerExpire_frame (s : State) :
    (lingerExpire s).pending = s.pending ∧ (lingerExpire s).xp = s.xp ∧ (lingerExpire s).ci = s.ci ∧
    (lingerExpire s).rp.served = s.rp.served ∧ (lingerExpire s).rp.waitList = s.rp.waitList ∧
    (lingerExpire s).ar = s.ar ∧ (lingerExpire s).cp = s.cp ∧ (lingerExpire s).cu = s.cu ∧
    (lingerExpire s).ru = s.ru ∧ (lingerExpire s).ec = s.ec := by
  unfold lingerExpire
  (repeat' split) <;> simp

@[simp] theorem recordStage_frame (s : State) :
    (recordStage s).pending = s.pending ∧ (recordStage s).ci = s.ci ∧ (recordStage s).ar = s.ar ∧
    (recordStage s).cp = s.cp ∧ (recordStage s).ec = s.ec := by
  unfold recordStage
  (repeat' split) <;> simp

@[simp] theorem abortAppend_frame (s : State) :
    (abortAppend s).pending = s.pending ∧ (abortAppend s).ci = s.ci ∧ (abortAppend s).rp.bufA = s.rp.bufA ∧
    (abortAppend s).rp.bufB = s.rp.bufB ∧ (abortAppend s).rp.lingerTimer = s.rp.lingerTimer ∧
    (abortAppend s).ar = s.ar ∧ (abortAppend s).cp = s.cp ∧ (abortAppend s).cu = s.cu ∧ (abortAppend s).ru = s.ru ∧
    (abortAppend s).fs = s.fs ∧ (abortAppend s).ec = s.ec := by
  unfold abortAppend
  (repeat' split) <;> simp

@[simp] theorem rowPass_frame (n : BufName) (d : Dest) (s : State) :
    (rowPass n d s).pending = s.pending ∧ (rowPass n d s).ci = s.ci ∧ (rowPass n d s).ar = s.ar ∧
    (rowPass n d s).cp = s.cp ∧ (rowPass n d s).ec = s.ec := by
  unfold rowPass
  (repeat' split) <;> simp

@[simp] theorem rowFail_frame (n : BufName) (d : Dest) (s : State) :
    (rowFail n d s).pending = s.pending ∧ (rowFail n d s).ci = s.ci ∧ (rowFail n d s).ar = s.ar ∧
    (rowFail n d s).cp = s.cp ∧ (rowFail n d s).ec = s.ec := by
  unfold rowFail
  dsimp only
  (repeat' split) <;> simp

@[simp] theorem replacementFail_frame (r : Relocation) (n : BufName) (d : Dest) (s : State) :
    (replacementFail r n d s).pending = s.pending ∧ (replacementFail r n d s).ci = s.ci ∧
    (replacementFail r n d s).ar = s.ar ∧ (replacementFail r n d s).cp = s.cp ∧
    (replacementFail r n d s).ec = s.ec := by
  unfold replacementFail
  dsimp only
  (repeat' split) <;> simp

@[simp] theorem digestResult_frame (passed : Bool) (s : State) :
    (digestResult passed s).pending = s.pending ∧ (digestResult passed s).xp = s.xp ∧
    (digestResult passed s).ci = s.ci ∧ (digestResult passed s).rp.served = s.rp.served ∧
    (digestResult passed s).rp.waitList = s.rp.waitList ∧ (digestResult passed s).rp.bufA = s.rp.bufA ∧
    (digestResult passed s).rp.bufB = s.rp.bufB ∧ (digestResult passed s).rp.lingerTimer = s.rp.lingerTimer ∧
    (digestResult passed s).ar = s.ar ∧ (digestResult passed s).cp = s.cp ∧ (digestResult passed s).ru = s.ru ∧
    (digestResult passed s).ec = s.ec := by
  unfold digestResult
  (repeat' split) <;> simp

@[simp] theorem serveRead_frame (c : CardIx) (w : Work) (s : State) :
    (serveRead c w s).pending = s.pending ∧ (serveRead c w s).ci = s.ci ∧ (serveRead c w s).rp = s.rp ∧
    (serveRead c w s).cp = s.cp ∧ (serveRead c w s).cu = s.cu ∧ (serveRead c w s).ru = s.ru ∧
    (serveRead c w s).fs = s.fs ∧ (serveRead c w s).ec = s.ec := by
  unfold serveRead
  (repeat' split) <;> simp

@[simp] theorem answerPin_frame (granted : Bool) (seg : Nat) (s : State) :
    (answerPin granted seg s).pending = s.pending ∧ (answerPin granted seg s).ci = s.ci ∧
    (answerPin granted seg s).rp = s.rp ∧ (answerPin granted seg s).cp = s.cp ∧ (answerPin granted seg s).cu = s.cu ∧
    (answerPin granted seg s).ru = s.ru ∧ (answerPin granted seg s).ec = s.ec := by
  unfold answerPin
  (repeat' split) <;> simp

@[simp] theorem takePinRequest_frame (seg : Nat) (s : State) :
    (takePinRequest seg s).pending = s.pending ∧ (takePinRequest seg s).ci = s.ci ∧
    (takePinRequest seg s).rp = s.rp ∧ (takePinRequest seg s).cp = s.cp ∧ (takePinRequest seg s).cu = s.cu ∧
    (takePinRequest seg s).ec = s.ec := by
  unfold takePinRequest
  (repeat' split) <;> simp

@[simp] theorem pinRequest_frame (s : State) :
    (pinRequest s).pending = s.pending ∧ (pinRequest s).ci = s.ci ∧ (pinRequest s).cp = s.cp ∧
    (pinRequest s).ec = s.ec := by
  unfold pinRequest
  (repeat' split) <;> simp

@[simp] theorem trailersResult_frame (r : ReadSpare) (s : State) :
    (trailersResult r s).pending = s.pending ∧ (trailersResult r s).ci = s.ci ∧ (trailersResult r s).cp = s.cp ∧
    (trailersResult r s).ec = s.ec := by
  unfold trailersResult
  (repeat' split) <;> simp only [readerResult] <;> (repeat' split) <;> simp

@[simp] theorem readRowResult_frame (r : ReadRow) (s : State) :
    (readRowResult r s).pending = s.pending ∧ (readRowResult r s).ci = s.ci ∧ (readRowResult r s).cp = s.cp ∧
    (readRowResult r s).ec = s.ec := by
  unfold readRowResult
  (repeat' split) <;> simp only [readerResult] <;> (repeat' split) <;> simp

@[simp] theorem serveHold_frame (c : CardIx) (w : Work) (s : State) :
    (serveHold c w s).pending = s.pending ∧ (serveHold c w s).ci = s.ci ∧ (serveHold c w s).rp = s.rp ∧
    (serveHold c w s).ar = s.ar ∧ (serveHold c w s).cp.holds = s.cp.holds ∧ (serveHold c w s).cu = s.cu ∧
    (serveHold c w s).ru = s.ru ∧ (serveHold c w s).fs = s.fs ∧ (serveHold c w s).ec = s.ec := by
  unfold serveHold
  (repeat' split) <;> simp

@[simp] theorem decideHold_frame (s : State) :
    (decideHold s).pending = s.pending ∧ (decideHold s).ci = s.ci ∧ (decideHold s).rp = s.rp ∧
    (decideHold s).ar = s.ar ∧ (decideHold s).cu = s.cu ∧ (decideHold s).ru = s.ru ∧ (decideHold s).fs = s.fs ∧
    (decideHold s).ec = s.ec := by
  unfold decideHold
  dsimp only
  (repeat' split) <;> simp

@[simp] theorem holdRequest_frame (s : State) :
    (holdRequest s).pending = s.pending ∧ (holdRequest s).ci = s.ci ∧ (holdRequest s).rp = s.rp ∧
    (holdRequest s).ar = s.ar ∧ (holdRequest s).cu = s.cu ∧ (holdRequest s).fs = s.fs ∧
    (holdRequest s).ec = s.ec := by
  unfold holdRequest
  (repeat' split) <;> simp

@[simp] theorem serveRenew_frame (c : CardIx) (w : Work) (s : State) :
    (serveRenew c w s).pending = s.pending ∧ (serveRenew c w s).ci = s.ci ∧ (serveRenew c w s).rp = s.rp ∧
    (serveRenew c w s).ar = s.ar ∧ (serveRenew c w s).cp.served = s.cp.served ∧ (serveRenew c w s).cu = s.cu ∧
    (serveRenew c w s).ru = s.ru ∧ (serveRenew c w s).fs = s.fs ∧ (serveRenew c w s).ec = s.ec := by
  unfold serveRenew
  (repeat' split) <;> simp

@[simp] theorem serveRelease_frame (c : CardIx) (w : Work) (s : State) :
    (serveRelease c w s).pending = s.pending ∧ (serveRelease c w s).ci = s.ci ∧ (serveRelease c w s).ar = s.ar ∧
    (serveRelease c w s).cp.served = s.cp.served ∧ (serveRelease c w s).ec = s.ec := by
  unfold serveRelease
  (repeat' split) <;> simp

@[simp] theorem serveTrim_frame (c : CardIx) (w : Work) (s : State) :
    (serveTrim c w s).pending = s.pending ∧ (serveTrim c w s).ci = s.ci ∧ (serveTrim c w s).ar = s.ar ∧
    (serveTrim c w s).cp.served = s.cp.served ∧ (serveTrim c w s).cp.holds = s.cp.holds ∧
    (serveTrim c w s).ec = s.ec := by
  unfold serveTrim
  dsimp only
  (repeat' split) <;> simp

@[simp] theorem serveCensus_frame (c : CardIx) (w : Work) (s : State) :
    (serveCensus c w s).pending = s.pending ∧ (serveCensus c w s).ci = s.ci ∧ (serveCensus c w s).rp = s.rp ∧
    (serveCensus c w s).ar = s.ar ∧ (serveCensus c w s).cp = s.cp ∧ (serveCensus c w s).cu = s.cu ∧
    (serveCensus c w s).ru = s.ru ∧ (serveCensus c w s).fs = s.fs ∧ (serveCensus c w s).ec = s.ec := by
  unfold serveCensus
  (repeat' split) <;> simp

@[simp] theorem formatPacker_frame (s : State) :
    (formatPacker s).pending = s.pending ∧ (formatPacker s).ci = s.ci ∧ (formatPacker s).ar = s.ar ∧
    (formatPacker s).cp = s.cp ∧ (formatPacker s).cu = s.cu ∧ (formatPacker s).ru = s.ru ∧
    (formatPacker s).fs = s.fs ∧ (formatPacker s).ec = s.ec := by
  unfold formatPacker
  dsimp only
  (repeat' split) <;> simp

@[simp] theorem formatReader_frame (s : State) :
    (formatReader s).pending = s.pending ∧ (formatReader s).ci = s.ci ∧ (formatReader s).rp = s.rp ∧
    (formatReader s).cp = s.cp ∧ (formatReader s).cu = s.cu ∧ (formatReader s).ru = s.ru ∧
    (formatReader s).fs = s.fs ∧ (formatReader s).ec = s.ec := by
  unfold formatReader
  (repeat' split) <;> simp

@[simp] theorem formatUnload_frame (s : State) :
    (formatUnload s).pending = s.pending ∧ (formatUnload s).xp = s.xp ∧ (formatUnload s).ci = s.ci ∧
    (formatUnload s).rp = s.rp ∧ (formatUnload s).ar = s.ar ∧ (formatUnload s).cp.served = s.cp.served ∧
    (formatUnload s).cu.catalog = s.cu.catalog ∧ (formatUnload s).fs = s.fs ∧
    (formatUnload s).ec.stopPending = s.ec.stopPending := by
  unfold formatUnload
  (repeat' split) <;> simp

@[simp] theorem serveFormat_frame (c : CardIx) (w : Work) (s : State) :
    (serveFormat c w s).pending = s.pending ∧ (serveFormat c w s).cu.catalog = s.cu.catalog ∧
    (serveFormat c w s).fs = s.fs ∧ (serveFormat c w s).ec.stopPending = s.ec.stopPending := by
  unfold serveFormat
  (repeat' split) <;> simp

@[simp] theorem leaseTick_frame (s : State) :
    (leaseTick s).pending = s.pending ∧ (leaseTick s).ci = s.ci ∧ (leaseTick s).ar = s.ar ∧
    (leaseTick s).cp.served = s.cp.served ∧ (leaseTick s).ec = s.ec := by
  unfold leaseTick
  (repeat' split) <;> simp

@[simp] theorem answerHeld_frame (granted : Bool) (s : State) :
    (answerHeld granted s).pending = s.pending ∧ (answerHeld granted s).ci = s.ci ∧
    (answerHeld granted s).rp = s.rp ∧ (answerHeld granted s).cu = s.cu ∧ (answerHeld granted s).ec = s.ec := by
  unfold answerHeld
  dsimp only
  (repeat' split) <;> simp

@[simp] theorem removalClaim_frame (s : State) :
    (removalClaim s).pending = s.pending ∧ (removalClaim s).ci = s.ci ∧ (removalClaim s).ec = s.ec := by
  unfold removalClaim
  dsimp only
  (repeat' split) <;> simp

@[simp] theorem reclaimErase_frame (p0 p1 : PlaneStatus) (s : State) :
    (reclaimErase p0 p1 s).pending = s.pending ∧ (reclaimErase p0 p1 s).ci = s.ci ∧
    (reclaimErase p0 p1 s).ar = s.ar ∧ (reclaimErase p0 p1 s).cp = s.cp ∧ (reclaimErase p0 p1 s).ec = s.ec := by
  unfold reclaimErase
  dsimp only
  (repeat' split) <;> simp

@[simp] theorem ecEraseNext_frame (d : Fin 4) (s : State) :
    (ecEraseNext d s).pending = s.pending ∧ (ecEraseNext d s).xp = s.xp ∧ (ecEraseNext d s).ci = s.ci ∧
    (ecEraseNext d s).rp = s.rp ∧ (ecEraseNext d s).ar = s.ar ∧ (ecEraseNext d s).cp = s.cp ∧
    (ecEraseNext d s).ru = s.ru ∧ (ecEraseNext d s).ec.engine = s.ec.engine ∧
    (ecEraseNext d s).ec.loaded = s.ec.loaded ∧ (ecEraseNext d s).ec.stopPending = s.ec.stopPending := by
  unfold ecEraseNext
  (repeat' split) <;> simp

@[simp] theorem markResult_frame (p0 : PlaneStatus) (s : State) :
    (markResult p0 s).pending = s.pending ∧ (markResult p0 s).xp = s.xp ∧ (markResult p0 s).ci = s.ci ∧
    (markResult p0 s).rp = s.rp ∧ (markResult p0 s).ar = s.ar ∧ (markResult p0 s).cp = s.cp ∧
    (markResult p0 s).ec.engine = s.ec.engine ∧ (markResult p0 s).ec.loaded = s.ec.loaded ∧
    (markResult p0 s).ec.stopPending = s.ec.stopPending := by
  unfold markResult
  (repeat' split) <;> simp

@[simp] theorem ecErase_frame (p0 p1 : PlaneStatus) (s : State) :
    (ecErase p0 p1 s).pending = s.pending ∧ (ecErase p0 p1 s).xp = s.xp ∧ (ecErase p0 p1 s).ci = s.ci ∧
    (ecErase p0 p1 s).rp = s.rp ∧ (ecErase p0 p1 s).ar = s.ar ∧ (ecErase p0 p1 s).cp = s.cp ∧
    (ecErase p0 p1 s).ru = s.ru ∧ (ecErase p0 p1 s).ec.engine = s.ec.engine ∧
    (ecErase p0 p1 s).ec.loaded = s.ec.loaded ∧ (ecErase p0 p1 s).ec.stopPending = s.ec.stopPending := by
  unfold ecErase
  dsimp only
  (repeat' split) <;> simp

@[simp] theorem setProbeRec_frame (c : Fin 4) (r : ProbeRec) (s : State) :
    (setProbeRec c r s).pending = s.pending ∧ (setProbeRec c r s).xp = s.xp ∧ (setProbeRec c r s).ci = s.ci ∧
    (setProbeRec c r s).rp = s.rp ∧ (setProbeRec c r s).ar = s.ar ∧ (setProbeRec c r s).cp = s.cp ∧
    (setProbeRec c r s).cu = s.cu ∧ (setProbeRec c r s).ru = s.ru ∧ (setProbeRec c r s).fs = s.fs ∧
    (setProbeRec c r s).ec.engine = s.ec.engine ∧ (setProbeRec c r s).ec.loaded = s.ec.loaded ∧
    (setProbeRec c r s).ec.stopPending = s.ec.stopPending := by
  unfold setProbeRec
  (repeat' split) <;> simp

@[simp] theorem resetDieReady_frame (c : Fin 4) (s : State) :
    (resetDieReady c s).pending = s.pending ∧ (resetDieReady c s).xp = s.xp ∧ (resetDieReady c s).ci = s.ci ∧
    (resetDieReady c s).rp = s.rp ∧ (resetDieReady c s).ar = s.ar ∧ (resetDieReady c s).cp = s.cp ∧
    (resetDieReady c s).cu = s.cu ∧ (resetDieReady c s).ru = s.ru ∧ (resetDieReady c s).ec = s.ec := by
  unfold resetDieReady
  (repeat' split) <;> simp

@[simp] theorem resetDieExpired_frame (c : Fin 4) (s : State) :
    (resetDieExpired c s).pending = s.pending ∧ (resetDieExpired c s).xp = s.xp ∧ (resetDieExpired c s).ci = s.ci ∧
    (resetDieExpired c s).rp = s.rp ∧ (resetDieExpired c s).ar = s.ar ∧ (resetDieExpired c s).cp = s.cp ∧
    (resetDieExpired c s).cu = s.cu ∧ (resetDieExpired c s).ru = s.ru ∧
    (resetDieExpired c s).ec.engine = s.ec.engine ∧ (resetDieExpired c s).ec.loaded = s.ec.loaded ∧
    (resetDieExpired c s).ec.stopPending = s.ec.stopPending := by
  unfold resetDieExpired
  (repeat' split) <;> simp

@[simp] theorem probeResult_frame (id : List Byte) (s : State) :
    (probeResult id s).pending = s.pending ∧ (probeResult id s).xp = s.xp ∧ (probeResult id s).ci = s.ci ∧
    (probeResult id s).rp = s.rp ∧ (probeResult id s).ar = s.ar ∧ (probeResult id s).cp = s.cp ∧
    (probeResult id s).cu = s.cu ∧ (probeResult id s).ru = s.ru ∧ (probeResult id s).ec.engine = s.ec.engine ∧
    (probeResult id s).ec.loaded = s.ec.loaded ∧ (probeResult id s).ec.stopPending = s.ec.stopPending := by
  unfold probeResult
  (repeat' split) <;> simp

@[simp] theorem dieTimeout_frame (c : Fin 4) (s : State) :
    (dieTimeout c s).pending = s.pending ∧ (dieTimeout c s).cp.holds = s.cp.holds ∧ (dieTimeout c s).cu = s.cu := by
  unfold dieTimeout
  (repeat' split) <;> simp

@[simp] theorem handScans_frame  (x : List (Fin 4)) (s : State) :
    (handScans x s).pending = s.pending ∧ (handScans x s).xp = s.xp ∧ (handScans x s).ci = s.ci ∧
    (handScans x s).rp = s.rp ∧ (handScans x s).ar = s.ar ∧ (handScans x s).cp = s.cp ∧ (handScans x s).cu = s.cu ∧
    (handScans x s).ru = s.ru ∧ (handScans x s).ec = s.ec := by
  induction x generalizing s with
  | nil => simp [handScans]
  | cons h t ih => unfold handScans; (repeat' split) <;> simp [ih]

@[simp] theorem startMount_frame (s : State) :
    (startMount s).pending = s.pending ∧ (startMount s).xp = s.xp ∧ (startMount s).ci = s.ci ∧
    (startMount s).rp = s.rp ∧ (startMount s).ar = s.ar ∧ (startMount s).cp = s.cp ∧
    (startMount s).cu.catalog = s.cu.catalog ∧ (startMount s).ru = s.ru ∧ (startMount s).ec.loaded = s.ec.loaded ∧
    (startMount s).ec.stopPending = s.ec.stopPending := by
  unfold startMount
  (repeat' split) <;> simp

@[simp] theorem probeEnd_frame (s : State) :
    (probeEnd s).pending = s.pending ∧ (probeEnd s).cp.holds = s.cp.holds := by
  unfold probeEnd
  (repeat' split) <;> simp

@[simp] theorem scanNext_frame (seg : Nat) (s : State) :
    (scanNext seg s).pending = s.pending ∧ (scanNext seg s).xp = s.xp ∧ (scanNext seg s).ci = s.ci ∧
    (scanNext seg s).rp = s.rp ∧ (scanNext seg s).ar = s.ar ∧ (scanNext seg s).cp = s.cp ∧
    (scanNext seg s).cu = s.cu ∧ (scanNext seg s).ru = s.ru ∧ (scanNext seg s).ec = s.ec := by
  unfold scanNext
  (repeat' split) <;> simp

@[simp] theorem classify_frame (seg : Nat) (st : SegState) (s : State) :
    (classify seg st s).pending = s.pending ∧ (classify seg st s).xp = s.xp ∧ (classify seg st s).ci = s.ci ∧
    (classify seg st s).rp = s.rp ∧ (classify seg st s).ar = s.ar ∧ (classify seg st s).cp = s.cp ∧
    (classify seg st s).ru = s.ru ∧ (classify seg st s).fs = s.fs ∧ (classify seg st s).ec = s.ec := by
  unfold classify
  (repeat' split) <;> simp

@[simp] theorem scanTrailers_frame (seg : Nat) (r : ReadSpare) (s : State) :
    (scanTrailers seg r s).pending = s.pending ∧ (scanTrailers seg r s).xp = s.xp ∧
    (scanTrailers seg r s).ci = s.ci ∧ (scanTrailers seg r s).rp = s.rp ∧ (scanTrailers seg r s).ar = s.ar ∧
    (scanTrailers seg r s).cp = s.cp ∧ (scanTrailers seg r s).ru = s.ru ∧
    (scanTrailers seg r s).ec.engine = s.ec.engine ∧ (scanTrailers seg r s).ec.loaded = s.ec.loaded ∧
    (scanTrailers seg r s).ec.stopPending = s.ec.stopPending := by
  unfold scanTrailers
  (repeat' split) <;> simp

@[simp] theorem scanRow0_frame (seg : Nat) (r : ReadRow) (s : State) :
    (scanRow0 seg r s).pending = s.pending ∧ (scanRow0 seg r s).xp = s.xp ∧ (scanRow0 seg r s).ci = s.ci ∧
    (scanRow0 seg r s).rp = s.rp ∧ (scanRow0 seg r s).ar = s.ar ∧ (scanRow0 seg r s).cp = s.cp ∧
    (scanRow0 seg r s).ru = s.ru ∧ (scanRow0 seg r s).ec.engine = s.ec.engine ∧
    (scanRow0 seg r s).ec.loaded = s.ec.loaded ∧ (scanRow0 seg r s).ec.stopPending = s.ec.stopPending := by
  unfold scanRow0
  (repeat' split) <;> simp

@[simp] theorem scanResult_frame (r : FlashRead) (s : State) :
    (scanResult r s).pending = s.pending ∧ (scanResult r s).xp = s.xp ∧ (scanResult r s).ci = s.ci ∧
    (scanResult r s).rp = s.rp ∧ (scanResult r s).ar = s.ar ∧ (scanResult r s).cp = s.cp ∧
    (scanResult r s).ru = s.ru ∧ (scanResult r s).ec.engine = s.ec.engine ∧
    (scanResult r s).ec.loaded = s.ec.loaded ∧ (scanResult r s).ec.stopPending = s.ec.stopPending := by
  unfold scanResult
  (repeat' split) <;> simp

@[simp] theorem classifyAll_frame (st : SegState) (x : List Nat) (s : State) :
    (classifyAll st x s).pending = s.pending ∧ (classifyAll st x s).xp = s.xp ∧ (classifyAll st x s).ci = s.ci ∧
    (classifyAll st x s).rp = s.rp ∧ (classifyAll st x s).ar = s.ar ∧ (classifyAll st x s).cp = s.cp ∧
    (classifyAll st x s).ru = s.ru ∧ (classifyAll st x s).fs = s.fs ∧ (classifyAll st x s).ec = s.ec := by
  induction x generalizing s <;> simp_all [classifyAll]

@[simp] theorem handMember_frame (d : Fin 4) (s : State) :
    (handMember d s).pending = s.pending ∧ (handMember d s).xp = s.xp ∧ (handMember d s).ci = s.ci ∧
    (handMember d s).rp = s.rp ∧ (handMember d s).ar = s.ar ∧ (handMember d s).cp = s.cp ∧
    (handMember d s).cu = s.cu ∧ (handMember d s).ru = s.ru ∧ (handMember d s).ec = s.ec := by
  unfold handMember
  (repeat' split) <;> simp

@[simp] theorem handMembers_frame  (x : List (Fin 4)) (s : State) :
    (handMembers x s).pending = s.pending ∧ (handMembers x s).xp = s.xp ∧ (handMembers x s).ci = s.ci ∧
    (handMembers x s).rp = s.rp ∧ (handMembers x s).ar = s.ar ∧ (handMembers x s).cp = s.cp ∧
    (handMembers x s).cu = s.cu ∧ (handMembers x s).ru = s.ru ∧ (handMembers x s).ec = s.ec := by
  induction x generalizing s <;> simp_all [handMembers]

@[simp] theorem endUnformatted_frame (s : State) :
    (endUnformatted s).pending = s.pending ∧ (endUnformatted s).xp.mem = s.xp.mem ∧
    (endUnformatted s).xp.answered = s.xp.answered ∧ (endUnformatted s).ci = s.ci ∧ (endUnformatted s).ar = s.ar ∧
    (endUnformatted s).cp.served = s.cp.served ∧ (endUnformatted s).cp.holds = s.cp.holds ∧
    (endUnformatted s).cu.catalog = s.cu.catalog ∧ (endUnformatted s).ru = s.ru ∧ (endUnformatted s).fs = s.fs ∧
    (endUnformatted s).ec.stopPending = s.ec.stopPending := by
  unfold endUnformatted
  (repeat' split) <;> simp

@[simp] theorem scanEnd_frame (s : State) :
    (scanEnd s).pending = s.pending ∧ (scanEnd s).xp.mem = s.xp.mem ∧ (scanEnd s).xp.answered = s.xp.answered ∧
    (scanEnd s).ci = s.ci ∧ (scanEnd s).ar = s.ar ∧ (scanEnd s).cp.served = s.cp.served ∧
    (scanEnd s).cp.holds = s.cp.holds ∧ (scanEnd s).ru = s.ru ∧ (scanEnd s).ec.stopPending = s.ec.stopPending := by
  unfold scanEnd
  (repeat' split) <;> simp

@[simp] theorem updateMember_frame (seg : Nat) (f : Member → Member) (s : State) :
    (updateMember seg f s).pending = s.pending ∧ (updateMember seg f s).xp = s.xp ∧
    (updateMember seg f s).ci = s.ci ∧ (updateMember seg f s).rp = s.rp ∧ (updateMember seg f s).ar = s.ar ∧
    (updateMember seg f s).cp = s.cp ∧ (updateMember seg f s).cu = s.cu ∧ (updateMember seg f s).ru = s.ru ∧
    (updateMember seg f s).fs = s.fs ∧ (updateMember seg f s).ec.engine = s.ec.engine ∧
    (updateMember seg f s).ec.loaded = s.ec.loaded ∧ (updateMember seg f s).ec.stopPending = s.ec.stopPending := by
  unfold updateMember
  (repeat' split) <;> simp

@[simp] theorem memberResult_frame (r : FlashRead) (s : State) :
    (memberResult r s).pending = s.pending ∧ (memberResult r s).xp = s.xp ∧ (memberResult r s).ci = s.ci ∧
    (memberResult r s).rp = s.rp ∧ (memberResult r s).ar = s.ar ∧ (memberResult r s).cp = s.cp ∧
    (memberResult r s).cu = s.cu ∧ (memberResult r s).ru = s.ru ∧ (memberResult r s).ec.engine = s.ec.engine ∧
    (memberResult r s).ec.loaded = s.ec.loaded ∧ (memberResult r s).ec.stopPending = s.ec.stopPending := by
  unfold memberResult
  (repeat' split) <;> simp

@[simp] theorem eraseMembers_frame  (x : List Member) (s : State) :
    (eraseMembers x s).pending = s.pending ∧ (eraseMembers x s).xp = s.xp ∧ (eraseMembers x s).ci = s.ci ∧
    (eraseMembers x s).rp = s.rp ∧ (eraseMembers x s).ar = s.ar ∧ (eraseMembers x s).cp = s.cp ∧
    (eraseMembers x s).ru = s.ru ∧ (eraseMembers x s).fs = s.fs ∧ (eraseMembers x s).ec = s.ec := by
  induction x generalizing s <;> simp_all [eraseMembers]

@[simp] theorem handErases_frame  (x : List (Fin 4)) (s : State) :
    (handErases x s).pending = s.pending ∧ (handErases x s).xp = s.xp ∧ (handErases x s).ci = s.ci ∧
    (handErases x s).rp = s.rp ∧ (handErases x s).ar = s.ar ∧ (handErases x s).cp = s.cp ∧
    (handErases x s).ru = s.ru ∧ (handErases x s).ec.engine = s.ec.engine ∧
    (handErases x s).ec.loaded = s.ec.loaded ∧ (handErases x s).ec.stopPending = s.ec.stopPending := by
  induction x generalizing s <;> simp_all [handErases]

@[simp] theorem readsEnd_frame (s : State) :
    (readsEnd s).pending = s.pending ∧ (readsEnd s).xp = s.xp ∧ (readsEnd s).ci = s.ci ∧ (readsEnd s).rp = s.rp ∧
    (readsEnd s).ar = s.ar ∧ (readsEnd s).cp = s.cp ∧ (readsEnd s).ru = s.ru ∧ (readsEnd s).ec.engine = s.ec.engine ∧
    (readsEnd s).ec.loaded = s.ec.loaded ∧ (readsEnd s).ec.stopPending = s.ec.stopPending := by
  unfold readsEnd
  (repeat' split) <;> simp

@[simp] theorem loadEntries_frame  (x : List Member) (s : State) :
    (loadEntries x s).pending = s.pending ∧ (loadEntries x s).xp = s.xp ∧ (loadEntries x s).ci = s.ci ∧
    (loadEntries x s).rp = s.rp ∧ (loadEntries x s).ar = s.ar ∧ (loadEntries x s).cp = s.cp ∧
    (loadEntries x s).ru = s.ru ∧ (loadEntries x s).fs = s.fs ∧ (loadEntries x s).ec = s.ec := by
  induction x generalizing s <;> simp_all [loadEntries]

@[simp] theorem enterReady_frame (s : State) :
    (enterReady s).pending = s.pending ∧ (enterReady s).xp = s.xp ∧ (enterReady s).ci = s.ci ∧
    (enterReady s).rp = s.rp ∧ (enterReady s).ar = s.ar ∧ (enterReady s).cp = s.cp ∧ (enterReady s).cu = s.cu ∧
    (enterReady s).ru = s.ru ∧ (enterReady s).fs = s.fs ∧ (enterReady s).ec.stopPending = s.ec.stopPending := by
  unfold enterReady
  (repeat' split) <;> simp

@[simp] theorem loadCatalog_frame (head newest : Member) (s : State) :
    (loadCatalog head newest s).pending = s.pending ∧ (loadCatalog head newest s).xp = s.xp ∧
    (loadCatalog head newest s).ci = s.ci ∧ (loadCatalog head newest s).ar = s.ar ∧
    (loadCatalog head newest s).cp.served = s.cp.served ∧ (loadCatalog head newest s).cp.holds = s.cp.holds ∧
    (loadCatalog head newest s).ru = s.ru ∧ (loadCatalog head newest s).fs = s.fs ∧
    (loadCatalog head newest s).ec.stopPending = s.ec.stopPending := by
  unfold loadCatalog
  (repeat' split) <;> simp

@[simp] theorem catalogLoad_frame (s : State) :
    (catalogLoad s).pending = s.pending ∧ (catalogLoad s).xp.mem = s.xp.mem ∧
    (catalogLoad s).xp.answered = s.xp.answered ∧ (catalogLoad s).ci = s.ci ∧ (catalogLoad s).ar = s.ar ∧
    (catalogLoad s).cp.served = s.cp.served ∧ (catalogLoad s).cp.holds = s.cp.holds ∧
    (catalogLoad s).ec.stopPending = s.ec.stopPending := by
  unfold catalogLoad
  (repeat' split) <;> simp

@[simp] theorem formatQuiet_frame (s : State) :
    (formatQuiet s).pending = s.pending ∧ (formatQuiet s).xp = s.xp ∧ (formatQuiet s).ci = s.ci ∧
    (formatQuiet s).rp = s.rp ∧ (formatQuiet s).ar = s.ar ∧ (formatQuiet s).cp = s.cp ∧ (formatQuiet s).ru = s.ru ∧
    (formatQuiet s).ec.engine = s.ec.engine ∧ (formatQuiet s).ec.loaded = s.ec.loaded ∧
    (formatQuiet s).ec.stopPending = s.ec.stopPending := by
  unfold formatQuiet
  (repeat' split) <;> simp

@[simp] theorem raiseEpoch_frame (s : State) :
    (raiseEpoch s).pending = s.pending ∧ (raiseEpoch s).xp = s.xp ∧ (raiseEpoch s).ci = s.ci ∧
    (raiseEpoch s).rp = s.rp ∧ (raiseEpoch s).ar = s.ar ∧ (raiseEpoch s).cp = s.cp ∧
    (raiseEpoch s).cu.catalog = s.cu.catalog ∧ (raiseEpoch s).ru = s.ru ∧ (raiseEpoch s).fs = s.fs ∧
    (raiseEpoch s).ec = s.ec := by
  unfold raiseEpoch
  (repeat' split) <;> simp

@[simp] theorem formatFailed_frame (s : State) :
    (formatFailed s).pending = s.pending ∧ (formatFailed s).ci = s.ci ∧ (formatFailed s).rp.served = s.rp.served ∧
    (formatFailed s).rp.waitList = s.rp.waitList ∧ (formatFailed s).rp.bufA = s.rp.bufA ∧
    (formatFailed s).rp.bufB = s.rp.bufB ∧ (formatFailed s).rp.lingerTimer = s.rp.lingerTimer ∧
    (formatFailed s).ar = s.ar ∧ (formatFailed s).cp.holds = s.cp.holds ∧
    (formatFailed s).cu.catalog = s.cu.catalog ∧ (formatFailed s).ru = s.ru ∧ (formatFailed s).fs = s.fs := by
  unfold formatFailed
  dsimp only
  (repeat' split) <;> simp

@[simp] theorem openFormatSegment_frame (s : State) :
    (openFormatSegment s).pending = s.pending ∧ (openFormatSegment s).ci = s.ci ∧
    (openFormatSegment s).rp.served = s.rp.served ∧ (openFormatSegment s).rp.waitList = s.rp.waitList ∧
    (openFormatSegment s).rp.bufA = s.rp.bufA ∧ (openFormatSegment s).rp.bufB = s.rp.bufB ∧
    (openFormatSegment s).rp.lingerTimer = s.rp.lingerTimer ∧ (openFormatSegment s).ar = s.ar ∧
    (openFormatSegment s).cp.holds = s.cp.holds := by
  unfold openFormatSegment
  (repeat' split) <;> simp

@[simp] theorem formatErasesEnd_frame (s : State) :
    (formatErasesEnd s).pending = s.pending ∧ (formatErasesEnd s).ci = s.ci ∧
    (formatErasesEnd s).rp.served = s.rp.served ∧ (formatErasesEnd s).rp.waitList = s.rp.waitList ∧
    (formatErasesEnd s).rp.bufA = s.rp.bufA ∧ (formatErasesEnd s).rp.bufB = s.rp.bufB ∧
    (formatErasesEnd s).rp.lingerTimer = s.rp.lingerTimer ∧ (formatErasesEnd s).ar = s.ar ∧
    (formatErasesEnd s).cp.holds = s.cp.holds := by
  unfold formatErasesEnd
  (repeat' split) <;> simp

@[simp] theorem formatDone_frame (seg : Nat) (s : State) :
    (formatDone seg s).pending = s.pending ∧ (formatDone seg s).ci = s.ci ∧ (formatDone seg s).ar = s.ar ∧
    (formatDone seg s).cp.holds = s.cp.holds := by
  unfold formatDone
  (repeat' split) <;> simp

@[simp] theorem headerRowResult_frame (passed : Bool) (s : State) :
    (headerRowResult passed s).pending = s.pending ∧ (headerRowResult passed s).ci = s.ci ∧
    (headerRowResult passed s).ar = s.ar ∧ (headerRowResult passed s).cp.holds = s.cp.holds := by
  unfold headerRowResult
  (repeat' split) <;> simp

@[simp] theorem haltOnQuiet_frame (s : State) :
    (haltOnQuiet s).pending = s.pending ∧ (haltOnQuiet s).xp.mem = s.xp.mem ∧
    (haltOnQuiet s).xp.answered = s.xp.answered ∧ (haltOnQuiet s).ci = s.ci ∧ (haltOnQuiet s).rp = s.rp ∧
    (haltOnQuiet s).ar = s.ar ∧ (haltOnQuiet s).cp = s.cp ∧ (haltOnQuiet s).cu = s.cu ∧ (haltOnQuiet s).ru = s.ru ∧
    (haltOnQuiet s).fs = s.fs := by
  unfold haltOnQuiet
  (repeat' split) <;> simp

@[simp] theorem stopComplete_frame (s : State) :
    (stopComplete s).pending = s.pending ∧ (stopComplete s).xp.mem = s.xp.mem ∧
    (stopComplete s).xp.answered = s.xp.answered ∧ (stopComplete s).ci = s.ci ∧
    (stopComplete s).rp.served = s.rp.served ∧ (stopComplete s).rp.waitList = s.rp.waitList ∧
    (stopComplete s).rp.bufA = s.rp.bufA ∧ (stopComplete s).rp.bufB = s.rp.bufB ∧ (stopComplete s).ar = s.ar ∧
    (stopComplete s).cp = s.cp ∧ (stopComplete s).cu = s.cu ∧ (stopComplete s).fs = s.fs := by
  unfold stopComplete
  (repeat' split) <;> simp

@[simp] theorem resetAll_pending (s : State) : (resetAll s).pending = s.pending := rfl

@[simp] theorem resetSoft_pending (s : State) : (resetSoft s).pending = s.pending := rfl

@[simp] theorem controlWrite_pending (l0 l1 : Option Byte) (s : State) :
    (controlWrite l0 l1 s).pending = s.pending := by
  unfold controlWrite
  split
  · split <;> simp
  · split <;> simp

@[simp] theorem registerStore_pending (a : Nat) (bytes : List Byte) (s : State) :
    (registerStore a bytes s).pending = s.pending := by
  unfold registerStore
  dsimp only
  (repeat' split) <;> simp

end Sys2Proof.Machine
end

