-- ==== Sys2Proof/Laws/Commands.lean ====
section
/-!
SUPPORT. The shapes commands share, each with everything it can do: a port access, a take, the result of a record row program
and of a reader's operation.
-/
namespace Sys2Proof.Machine

/-- An access the port does not accept changes nothing; any other has its effect (R1). -/
theorem portAccess_of_low {s : State} (h : s.resetPin = false) (f : State → State) : portAccess f s = f s := by
  unfold portAccess
  rw [h]
  rfl

theorem portAccess_of_high {s : State} (h : s.resetPin = true) (f : State → State) : portAccess f s = s := by
  unfold portAccess
  rw [h]
  rfl

/-- Everything a take can do: leave the state, answer the head of the queue at once, or serve it. -/
theorem pathTake_cases (p : CardPath) (free : Bool) (mine : Work → Bool) (always : Bool)
    (serve : CardIx → Work → State → State) (s : State) :
    pathTake p free mine always serve s = s ∨
    (∃ c rest, s.ci.queue p = c :: rest ∧ (s.ec.engine = .ready ∨ s.ec.engine = .unformatted) ∧ free = true ∧
      ((∃ o, pathTake p free mine always serve s = answerCard c (.plain o) (takeHead p c s)) ∨
        ((s.ec.engine = .ready ∨ always = true) ∧ (cardWork s c).kind.map Kind.path = some p ∧
          mine (cardWork s c) = true ∧ (cardWork s c).reserved = 0 ∧
          pathTake p free mine always serve s = serve c (cardWork s c) (takeHead p c s)))) := by
  unfold pathTake
  split
  next h =>
    split
    · exact Or.inl rfl
    next c rest hq =>
      dsimp only
      split
      next hm =>
        right
        refine ⟨c, rest, hq, h.2, h.1, ?_⟩
        split
        next o ho => exact Or.inl ⟨o, rfl⟩
        next ho =>
          unfold Work.fault at ho
          split at ho
          next hk =>
            split at ho
            next hr =>
              split
              · exact Or.inl ⟨_, rfl⟩
              next hu =>
                refine Or.inr ⟨?_, hk, ?_, hr, rfl⟩
                · rcases h.2 with he | he
                  · exact Or.inl he
                  · right
                    cases always
                    · exact absurd ⟨he, rfl⟩ hu
                    · rfl
                · rcases hm with hm | hm
                  · exact hm
                  · exact absurd hk hm
            · exact absurd ho (by simp)
          · exact absurd ho (by simp)
      · exact Or.inl rfl
  · exact Or.inl rfl

/-- What holds of every state a take can end in. -/
theorem pathTake_ind {P : State → Prop} {p : CardPath} {free : Bool} {mine : Work → Bool} {always : Bool}
    {serve : CardIx → Work → State → State} {s : State} (same : P s)
    (answered : ∀ c o rest, s.ci.queue p = c :: rest → free = true → P (answerCard c (.plain o) (takeHead p c s)))
    (served : ∀ c rest, s.ci.queue p = c :: rest → free = true → mine (cardWork s c) = true →
      (s.ec.engine = .ready ∨ always = true) → P (serve c (cardWork s c) (takeHead p c s))) :
    P (pathTake p free mine always serve s) := by
  rcases pathTake_cases p free mine always serve s with h | ⟨c, rest, hq, _, hf, h⟩
  · rw [h]; exact same
  · rcases h with ⟨o, h⟩ | ⟨he, _, hm, _, h⟩
    · rw [h]; exact answered c o rest hq hf
    · rw [h]; exact served c rest hq hf hm he

/-- What holds of both states a port access can end in. -/
theorem portAccess_ind {P : State → Prop} {f : State → State} {s : State} (same : P s) (used : P (f s)) :
    P (portAccess f s) := by
  unfold portAccess
  split
  · exact same
  · exact used

/-- What holds of every state the result of a record row program can end in. -/
theorem recordRowResult_ind {P : State → Prop} {use : BufName → Dest → State → State} {s : State} (same : P s)
    (dropped : ∀ c, P (completeOp c s))
    (applied : ∀ c n d, s.ec.engine.running = true → s.rp.find .inFlight = some n → (s.rp.buf n).dest = some d →
      P (use n d (completeOp c s)))
    (aborted : ∀ c, s.ec.engine = .formatting → P (abortAppend (completeOp c s))) : P (recordRowResult use s) := by
  unfold recordRowResult
  split
  · exact same
  · split
    · dsimp only
      split
      next hr =>
        split
        · exact dropped _
        next n hn =>
          split
          · exact dropped _
          next d hd => exact applied _ n d (by simpa using hr) (by simpa using hn) (by simpa using hd)
      · split
        next hf => exact aborted _ (by simpa using hf)
        · exact dropped _
    · exact same

/-- What holds of every state a result of the reader can end in. -/
theorem readerResult_ind {P : State → Prop} {use : Work → State → State} {s : State} (same : P s)
    (used : ∀ v, s.ar.served = some v → s.ec.engine.running = true → P (use v.work s))
    (aborted : s.ec.engine = .formatting → P (arAbort s)) : P (readerResult use s) := by
  unfold readerResult
  split
  next h => exact aborted h
  · split
    next v hv =>
      split
      next hr => exact used v hv hr
      · exact same
    · exact same

/-- Every command answers the state after its effect and the quiet reports. -/
theorem done_eq (s : State) : done s = .next (settle s) := rfl

end Sys2Proof.Machine
end

