-- ==== Sys2Proof/WellFormed.lean ====
section
/-!
DEFINITION. Which commands carry operands of the shape the flash operations give them. Only the byte lists of read
results can be ill formed; every other operand is bounded by its type.
-/
namespace Sys2Proof

/-- R80: CORRECTED(n) has n from 1 to 4. The decoder gives no other status (Laws/Ecc.lean). -/
def ChunkStatus.wellFormed : ChunkStatus → Bool
  | .clean => true
  | .corrected n => decide (1 ≤ n) && decide (n ≤ 4)
  | .uncorrectable => true

/-- R67: 2112 bytes of each page. -/
def ReadRow.wellFormed (r : ReadRow) : Bool :=
  decide (r.page0.length = 2112) && decide (r.page1.length = 2112)

/-- R68: 64 spare bytes of each page. -/
def ReadSpare.wellFormed (r : ReadSpare) : Bool :=
  decide (r.spare0.length = 64) && decide (r.spare1.length = 64)

/-- The read result of either operation. -/
def FlashRead.wellFormed : FlashRead → Bool
  | .trailers r => r.wellFormed
  | .row r => r.wellFormed

/-- A command whose operands have the shape of R67 and R68. -/
def Instr.wellFormed : Instr → Bool
  | .powerOnReset => true
  | .pinReset _ => true
  | .softReset => true
  | .runWritten1 _ => true
  | .runWritten0 _ => true
  | .lingerWrite _ => true
  | .eventsWrite _ => true
  | .registerWrite _ _ _ => true
  | .hostXmWrite _ _ _ => true
  | .snapshotCapture _ _ => true
  | .stateByteWrite _ _ _ => true
  | .append => true
  | .recordStage => true
  | .flush => true
  | .lingerExpiry => true
  | .rowProgramPass => true
  | .rowProgramFail _ => true
  | .replacementRow0Fail _ => true
  | .digestProgramComplete _ _ => true
  | .readSeq => true
  | .readKey => true
  | .pinRequest => true
  | .arTrailersResult r => r.wellFormed
  | .arReadRowResult r => r.wellFormed
  | .hold => true
  | .holdRequest => true
  | .holdRenew => true
  | .release => true
  | .trim => true
  | .census => true
  | .format => true
  | .leaseTick => true
  | .holdExpiry => true
  | .removalClaim => true
  | .reclaimEraseComplete _ _ => true
  | .programMarkComplete _ => true
  | .ecEraseComplete _ _ => true
  | .flashPhaseEnd => true
  | .dieReady _ => true
  | .dieTimeout _ => true
  | .resetDieComplete _ => true
  | .resetDieNoReady _ => true
  | .probe _ _ _ _ => true
  | .probeEnd => true
  | .mountScanResult r => r.wellFormed
  | .mountScanEnd => true
  | .memberReadResult r => r.wellFormed
  | .memberReadsEnd => true
  | .catalogLoad => true
  | .formatQuiet => true
  | .formatErasesEnd => true
  | .formatHeaderRowComplete _ _ => true
  | .haltOnQuiet => true
  | .stopComplete => true

end Sys2Proof
end

