-- ==== Sys2Proof/Laws/Ecc.lean ====
section
/-!
SUPPORT. What the decoding of a row can give (R67, R79, R80): the shape of the result, the read-back of a row as it was
programmed, and the row check of a trailer a requester built (R97).
-/
namespace Sys2Proof.Machine

/-- R80: the decoder gives CORRECTED(n) with n from 1 to 4 only. -/
theorem decodeChunk_wellFormed (c p : List Byte) : (decodeChunk c p).1.wellFormed = true := by
  unfold decodeChunk
  split
  · rfl
  · dsimp only
    split <;> simp_all [ChunkStatus.wellFormed]

/-- The data handed over are as many bytes as were read. -/
theorem decodeChunk_length (c p : List Byte) : (decodeChunk c p).2.length = c.length := by
  unfold decodeChunk
  split
  · rfl
  · dsimp only
    split <;> simp_all

/-- A codeword as programmed is CLEAN. -/
theorem decodeChunk_codeword (c : List Byte) : decodeChunk c (eccParity c) = (.clean, c) := by simp [decodeChunk]

/-- An UNCORRECTABLE or CLEAN chunk is handed over as read. -/
theorem decodeChunk_asRead (c p : List Byte) (h : ∀ n, (decodeChunk c p).1 ≠ .corrected n) : (decodeChunk c p).2 = c := by
  unfold decodeChunk at h ⊢
  split
  · rfl
  · dsimp only at h ⊢
    split <;> simp_all

theorem eccParity_length (c : List Byte) : (eccParity c).length = 8 := by
  unfold eccParity
  split
  · simp [erased]
  · exact Config.eccCode.eight c

/-- R79: on chunks the parity is the code's, the erased chunk among them. -/
theorem eccParity_code (c : List Byte) (h : c.length = 512) : eccParity c = Config.eccCode.parity c := by
  unfold eccParity
  split
  · next he =>
    have : c = List.replicate 512 0xFF := by
      rw [List.eq_replicate_iff]
      exact ⟨h, fun b hb => by simpa using List.all_eq_true.1 he b hb⟩
    rw [this, Config.eccCode.erased]; rfl
  · rfl

/-- No bit differs between a list of bytes and itself. -/
theorem bitErrors_self (l : List Byte) : bitErrors l l = 0 := by
  induction l with
  | nil => rfl
  | cons b t ih => simp [bitErrors, ih]

/-- Bytes with no bit error between them are the same. -/
theorem eq_of_bitErrors_zero : ∀ a b : List Byte, a.length = b.length → bitErrors a b = 0 → a = b
  | [], [], _, _ => rfl
  | [], _ :: _, h, _ => by simp at h
  | _ :: _, [], h, _ => by simp at h
  | x :: a, y :: b, h, h0 => by
    rw [bitErrors, Nat.add_eq_zero_iff] at h0
    have hx : x = y := BitVec.eq_of_getLsbD_eq fun i hi => by
      have := List.countP_eq_zero.1 h0.1 i (List.mem_range.2 hi)
      simpa using this
    rw [hx, eq_of_bitErrors_zero a b (by simpa using h) h0.2]

/-- R79: two chunks whose codewords are both within four bit errors of what is read are the same. -/
theorem codeword_unique (c d r p : List Byte) (hc : c.length = 512) (hd : d.length = 512) (hr : r.length = 512)
    (hp : p.length = 8) (h : bitErrors (r ++ p) (c ++ eccParity c) ≤ 4) (h' : bitErrors (r ++ p) (d ++ eccParity d) ≤ 4) :
    c = d := by
  rw [eccParity_code c hc] at h
  rw [eccParity_code d hd] at h'
  rw [← Config.eccCode.corrects c r p hc hr hp h, ← Config.eccCode.corrects d r p hd hr hp h']

/-- R79, R80: with 1 to 4 bit errors anywhere in a codeword, data or parity, the chunk is CORRECTED(n) with n their number, and
the data handed over are the codeword's. -/
theorem decodeChunk_corrects (c d p : List Byte) (hc : c.length = 512) (hd : d.length = 512) (hp : p.length = 8)
    (h1 : 1 ≤ bitErrors (d ++ p) (c ++ eccParity c)) (h4 : bitErrors (d ++ p) (c ++ eccParity c) ≤ 4) :
    decodeChunk d p = (.corrected (bitErrors (d ++ p) (c ++ eccParity c)), c) := by
  have hn : Config.eccCode.nearest d p = c :=
    Config.eccCode.corrects c d p hc hd hp (by rw [← eccParity_code c hc]; exact h4)
  have hne : p ≠ eccParity d := fun e => by
    have := codeword_unique c d d p hc hd hd hp h4 (by rw [e, bitErrors_self]; omega)
    rw [e, this, bitErrors_self] at h1
    omega
  simp [decodeChunk, hne, hn, hc, hd, h1, h4]

/-- R80: a chunk that is UNCORRECTABLE is more than four bit errors off every codeword. -/
theorem decodeChunk_uncorrectable (c d p : List Byte) (hc : c.length = 512) (hd : d.length = 512) (hp : p.length = 8)
    (h : (decodeChunk d p).1 = .uncorrectable) : 4 < bitErrors (d ++ p) (c ++ eccParity c) := by
  by_contra hlt
  rcases Nat.eq_zero_or_pos (bitErrors (d ++ p) (c ++ eccParity c)) with h0 | h1
  · have hn : Config.eccCode.nearest d p = c :=
      Config.eccCode.corrects c d p hc hd hp (by rw [← eccParity_code c hc]; omega)
    have he : d ++ p = c ++ eccParity c := eq_of_bitErrors_zero _ _ (by simp [hd, hp, hc, eccParity_length]) h0
    obtain ⟨e1, e2⟩ := List.append_inj he (by rw [hd, hc])
    subst e1 e2
    simp [decodeChunk] at h
  · rw [decodeChunk_corrects c d p hc hd hp h1 (by omega)] at h
    simp at h

/-- R67: eight statuses, each of R80's form. -/
theorem chunks_length (r : ReadRow) : r.chunks.length = 8 := by simp [ReadRow.chunks, ReadRow.decoded, decodePage]

theorem chunks_wellFormed (r : ReadRow) : r.chunks.all ChunkStatus.wellFormed = true := by
  simp [ReadRow.chunks, ReadRow.decoded, decodePage, decodeChunk_wellFormed]

theorem decodePage_length (page : List Byte) (h : page.length = 2112) :
    ((decodePage page).flatMap Prod.snd).length = 2048 := by
  simp [decodePage, decodeChunk_length, h]

/-- R67: a row of two full pages gives 4096 data bytes and 32 spare bytes of each page. -/
theorem readRow_lengths (r : ReadRow) (h : r.wellFormed = true) :
    r.data.length = 4096 ∧ r.spare0.length = 32 ∧ r.spare1.length = 32 := by
  simp only [ReadRow.wellFormed, Bool.and_eq_true, decide_eq_true_eq] at h
  refine ⟨?_, by simp [ReadRow.spare0, h.1], by simp [ReadRow.spare1, h.2]⟩
  rw [ReadRow.data, ReadRow.decoded, List.flatMap_append, List.length_append, decodePage_length _ h.1,
    decodePage_length _ h.2]

/-- A piece of a list with known lengths before it. -/
theorem slice_append (a b c : List Byte) (m n : Nat) (hm : a.length = m) (hn : b.length = n) :
    ((a ++ b ++ c).drop m).take n = b := by
  subst hm hn
  rw [List.append_assoc, List.drop_left, List.take_left]

/-- A page as programmed decodes to its data, every chunk CLEAN. -/
theorem decodePage_image (data spare : List Byte) (hd : data.length = 2048) (hs : spare.length = 31) :
    decodePage (pageImage data spare) = [0, 1, 2, 3].map fun k => (.clean, (data.drop (512 * k)).take 512) := by
  have chunk (k : Nat) (hk : k < 4) :
      (((pageImage data spare).drop (512 * k)).take 512) = (data.drop (512 * k)).take 512 := by
    rw [pageImage]
    simp only [List.append_assoc]
    rw [List.drop_append_of_le_length (by omega), List.take_append_of_le_length (by simp; omega)]
  have pre : (data ++ erased 1 ++ spare).length = 2080 := by simp [hd, hs, erased]
  have par (k : Nat) (hk : k < 4) :
      (((pageImage data spare).drop (2080 + 8 * k)).take 8) = eccParity ((data.drop (512 * k)).take 512) := by
    have l (c : List Byte) := eccParity_length c
    rw [pageImage]
    have : k = 0 ∨ k = 1 ∨ k = 2 ∨ k = 3 := by omega
    rcases this with rfl | rfl | rfl | rfl
    · have := slice_append (data ++ erased 1 ++ spare) (eccParity (data.take 512)) (eccParity ((data.drop 512).take 512) ++
        eccParity ((data.drop 1024).take 512) ++ eccParity ((data.drop 1536).take 512)) 2080 8 pre (l _)
      simpa [List.append_assoc] using this
    · have := slice_append (data ++ erased 1 ++ spare ++ eccParity (data.take 512)) (eccParity ((data.drop 512).take 512))
        (eccParity ((data.drop 1024).take 512) ++ eccParity ((data.drop 1536).take 512)) 2088 8
        (by rw [List.length_append, pre, l]) (l _)
      simpa [List.append_assoc] using this
    · have := slice_append (data ++ erased 1 ++ spare ++ eccParity (data.take 512) ++ eccParity ((data.drop 512).take 512))
        (eccParity ((data.drop 1024).take 512)) (eccParity ((data.drop 1536).take 512)) 2096 8
        (by rw [List.length_append, List.length_append, pre, l, l]) (l _)
      simpa [List.append_assoc] using this
    · have := slice_append (data ++ erased 1 ++ spare ++ eccParity (data.take 512) ++ eccParity ((data.drop 512).take 512) ++
        eccParity ((data.drop 1024).take 512)) (eccParity ((data.drop 1536).take 512)) [] 2104 8
        (by rw [List.length_append, List.length_append, List.length_append, pre, l, l, l]) (l _)
      simpa [List.append_assoc] using this
  refine List.map_congr_left fun k hk => ?_
  have hk4 : k < 4 := by simp at hk; omega
  rw [chunk k hk4, par k hk4, decodeChunk_codeword]

/-- The four quarters of a page's data make the data. -/
theorem quarters (data : List Byte) (hd : data.length = 2048) :
    ([0, 1, 2, 3].flatMap fun k => (data.drop (512 * k)).take 512) = data := by
  have h : ∀ n, data.drop n = (data.drop n).take 512 ++ data.drop (n + 512) := fun n => by
    rw [← List.drop_drop, List.take_append_drop]
  have e : data.drop 2048 = [] := List.drop_eq_nil_of_le (by omega)
  have := h 0
  rw [h (0 + 512), h (0 + 512 + 512), h (0 + 512 + 512 + 512)] at this
  simpa [e] using this.symm

/-- The two pages of a row as programmed (R69). -/
def rowAsProgrammed (data sp0 sp1 : List Byte) : ReadRow where
  page0 := pageImage (data.take 2048) sp0
  page1 := pageImage (data.drop 2048) sp1

/-- R80: a row that reads back as it was programmed gives its data, its spare bytes and eight CLEAN chunks. -/
theorem rowAsProgrammed_reads (data sp0 sp1 : List Byte) (hd : data.length = 4096) (h0 : sp0.length = 31)
    (h1 : sp1.length = 31) :
    (rowAsProgrammed data sp0 sp1).data = data ∧ (rowAsProgrammed data sp0 sp1).spare0 = 0xFF :: sp0 ∧
      (rowAsProgrammed data sp0 sp1).spare1 = 0xFF :: sp1 ∧
      (rowAsProgrammed data sp0 sp1).chunks = List.replicate 8 .clean := by
  have l0 : (data.take 2048).length = 2048 := by simp [hd]
  have l1 : (data.drop 2048).length = 2048 := by simp [hd]
  have spare (d sp : List Byte) (hl : d.length = 2048) (hs : sp.length = 31) :
      ((pageImage d sp).drop 2048).take 32 = 0xFF :: sp := by
    have := slice_append d (erased 1 ++ sp) (eccParity (d.take 512) ++ eccParity ((d.drop 512).take 512) ++
      eccParity ((d.drop 1024).take 512) ++ eccParity ((d.drop 1536).take 512)) 2048 32 hl (by simp [erased, hs])
    simpa [pageImage, erased, List.append_assoc] using this
  refine ⟨?_, spare _ _ l0 h0, spare _ _ l1 h1, ?_⟩
  · rw [ReadRow.data, ReadRow.decoded, rowAsProgrammed, decodePage_image _ _ l0 h0, decodePage_image _ _ l1 h1,
      List.flatMap_append, List.flatMap_map, List.flatMap_map, quarters _ l0, quarters _ l1, List.take_append_drop]
  · rw [ReadRow.chunks, ReadRow.decoded, rowAsProgrammed, decodePage_image _ _ l0 h0, decodePage_image _ _ l1 h1]
    rfl

/-- Two bytes hold a number below 2^16. -/
theorem leNat_leBytes2 (v : Nat) (h : v < 65536) : leNat (leBytes 2 v) = v := by
  simp [leNat, leBytes]; omega

/-- R97: the trailer that a requester builds over its data agrees with its row check, so that a row reads back verified exactly
where the trailer is well-formed. -/
theorem rowVerified_built (r : ReadRow) (row epoch count q k1 k2 fill : Nat) (data : List Byte) (hd : r.data = data)
    (hs : r.spare0 = 0xFF :: trailerBytes epoch row count q k1 k2 fill data) (hf : (rowTrailer r).fill = fill) :
    rowVerified r row = (rowTrailer r).wellFormed row := by
  have hb : (trailerBody epoch row count q k1 k2 fill).length = 25 := by simp [trailerBody, leBytes]
  have hc : crc16 (trailerBody epoch row count q k1 k2 fill ++ data.take fill) < 65536 := by
    rw [crc16]; exact BitVec.isLt _
  have hchk : (rowTrailer r).check = crc16 (trailerBody epoch row count q k1 k2 fill ++ data.take fill) := by
    rw [rowTrailer, hs]
    show leNat (((0xFF :: trailerBytes epoch row count q k1 k2 fill data).drop 26).take 2) = _
    rw [trailerBytes]
    simp only [List.drop_succ_cons]
    rw [List.append_assoc, List.drop_append_of_le_length (by omega), List.drop_eq_nil_of_le (by omega),
      List.nil_append, List.take_append_of_le_length (by simp [leBytes]), List.take_of_length_le (by simp [leBytes]), leNat_leBytes2 _ hc]
  rw [rowVerified, hchk, hf, hs, hd]
  rw [trailerBytes]
  simp only [List.drop_succ_cons, List.drop_zero]
  rw [List.append_assoc, List.take_append_of_le_length (by omega), List.take_of_length_le (by omega)]
  simp
end Sys2Proof.Machine
end

