-- ==== Sys2Proof/Laws/Flash.lean ====
section
/-!
SUPPORT. The die queues and the arbiter: what an operation does to each die, and that it keeps the bus laws of `BusOk`.
-/
namespace Sys2Proof.Machine

/-! ### Dies -/

theorem Fs.die_setDie (f : Fs) (c e : Fin 4) (d : Die) : (f.setDie c d).die e = if e = c then d else f.die e := by
  fin_cases c <;> fin_cases e <;> rfl

@[simp] theorem Fs.setDie_frame (f : Fs) (c : Fin 4) (d : Die) :
    (f.setDie c d).lastGranted = f.lastGranted ∧ (f.setDie c d).mask = f.mask ∧
    (f.setDie c d).corrected = f.corrected ∧ (f.setDie c d).softResets = f.softResets := by
  fin_cases c <;> exact ⟨rfl, rfl, rfl, rfl⟩

@[simp] theorem Fs.grant_frame (f : Fs) :
    f.grant.mask = f.mask ∧ f.grant.corrected = f.corrected ∧ f.grant.softResets = f.softResets := by
  unfold Fs.grant
  split
  · exact ⟨rfl, rfl, rfl⟩
  · split <;> simp

/-- A grant changes no queue and no timer. -/
theorem Fs.grant_die (f : Fs) (c : Fin 4) :
    (f.grant.die c).queue = (f.die c).queue ∧ (f.grant.die c).timer = (f.die c).timer := by
  unfold Fs.grant
  split
  · exact ⟨rfl, rfl⟩
  · split
    · exact ⟨rfl, rfl⟩
    next e he =>
      show ((f.setDie e (f.die e).granted).die c).queue = _ ∧ ((f.setDie e (f.die e).granted).die c).timer = _
      rw [Fs.die_setDie]
      split
      next h => subst h; exact ⟨rfl, rfl⟩
      · exact ⟨rfl, rfl⟩

@[simp] theorem Fs.push_frame (f : Fs) (c : Fin 4) (op : FlashOp) :
    (f.push c op).mask = f.mask ∧ (f.push c op).corrected = f.corrected ∧
    (f.push c op).softResets = f.softResets := by
  simp [Fs.push]

@[simp] theorem Fs.complete_frame (f : Fs) (c : Fin 4) :
    (f.complete c).mask = f.mask ∧ (f.complete c).corrected = f.corrected ∧
    (f.complete c).softResets = f.softResets := by
  simp [Fs.complete]

/-- An operation joins the tail of its queue and no other queue changes (R75). -/
theorem Fs.push_queue (f : Fs) (c e : Fin 4) (op : FlashOp) :
    ((f.push c op).die e).queue = if e = c then (f.die c).queue ++ [op] else (f.die e).queue := by
  unfold Fs.push
  rw [(Fs.grant_die _ _).1, Fs.die_setDie]
  split <;> rfl

/-- The head leaves its queue and no other queue changes (R64). -/
theorem Fs.complete_queue (f : Fs) (c e : Fin 4) :
    ((f.complete c).die e).queue = if e = c then (f.die c).queue.tail else (f.die e).queue := by
  unfold Fs.complete
  rw [(Fs.grant_die _ _).1, Fs.die_setDie]
  split <;> rfl

/-! ### The bus laws -/

/-- `BusOk` without the demand that no phase waits for a free bus: what holds before the bus is arbitrated. -/
structure BusPre (f : Fs) : Prop where
  dies : ∀ c, (f.die c).ok
  single : ∀ c d, (f.die c).selected = true → (f.die d).selected = true → c = d
  resetFirst : f.softResets ≠ [] → ∀ c, (f.die c).selected = false

theorem BusOk.pre {f : Fs} (h : BusOk f) : BusPre f := ⟨h.dies, h.single, h.resetFirst⟩

theorem Fs.busBusy_false {f : Fs} (h : f.busBusy = false) : f.softResets = [] ∧ ∀ c, (f.die c).selected = false := by
  unfold Fs.busBusy at h
  simp only [Bool.or_eq_false_iff, Bool.not_eq_false', List.isEmpty_iff] at h
  refine ⟨h.1, fun c => ?_⟩
  have := List.any_eq_false.mp h.2 c (by fin_cases c <;> simp [chipEnables])
  simpa using this

theorem Fs.nextGrant_none {f : Fs} (h : f.nextGrant = none) : f.pendingSet = [] := by
  unfold Fs.nextGrant at h
  rw [List.find?_eq_none] at h
  unfold Fs.pendingSet
  rw [List.filter_eq_nil_iff]
  intro c _
  apply h
  generalize f.lastGranted = g
  fin_cases g <;> fin_cases c <;> simp

theorem Fs.nextGrant_some {f : Fs} {c : Fin 4} (h : f.nextGrant = some c) : (f.die c).waiting = true := by
  have := List.find?_some (p := fun c => (f.die c).waiting) h
  exact this

theorem Die.granted_ok {d : Die} (h : d.ok) (hw : d.waiting = true) : d.granted.ok ∧ d.granted.selected = true := by
  obtain ⟨q, st, t⟩ := d
  cases st <;> simp_all [Die.waiting, Die.granted, Die.selected]
  all_goals exact ⟨by simpa using h.idle, by simpa using h.timed⟩

/-- After arbitration the bus laws hold (R78). -/
theorem Fs.grant_ok {f : Fs} (h : BusPre f) : BusOk f.grant := by
  unfold Fs.grant
  split
  next hb => exact ⟨h.dies, h.single, h.resetFirst, fun hf => absurd hb (by simp [hf])⟩
  next hb =>
    have hf := Fs.busBusy_false (Bool.eq_false_iff.mpr hb)
    split
    next hn => exact ⟨h.dies, h.single, h.resetFirst, fun _ => Fs.nextGrant_none hn⟩
    next c hc =>
      have hg := Die.granted_ok (h.dies c) (Fs.nextGrant_some hc)
      have hd : ∀ e, Fs.die { f.setDie c (f.die c).granted with lastGranted := c } e =
          if e = c then (f.die c).granted else f.die e := fun e => Fs.die_setDie f c e _
      have hs : ∀ e, (Fs.die { f.setDie c (f.die c).granted with lastGranted := c } e).selected = true → e = c := by
        intro e he
        rw [hd e] at he
        by_contra hne
        rw [if_neg hne, hf.2 e] at he
        exact absurd he (by simp)
      refine ⟨fun e => ?_, fun a b ha hb' => (hs a ha).trans (hs b hb').symm, fun hr => ?_, fun hbb => ?_⟩
      · rw [hd e]
        split
        · exact hg.1
        · exact h.dies e
      · exact absurd ((Fs.setDie_frame f c _).2.2.2.trans hf.1) hr
      · have := (Fs.busBusy_false hbb).2 c
        rw [hd c, if_pos rfl, hg.2] at this
        exact absurd this (by simp)

/-- A die's change keeps what holds before arbitration when the die comes off the bus or was not on it. -/
theorem Fs.setDie_pre {f : Fs} (h : BusPre f) (c : Fin 4) {d : Die} (hd : d.ok)
    (hs : d.selected = true → (f.die c).selected = true) : BusPre (f.setDie c d) := by
  have hsel : ∀ e, ((f.setDie c d).die e).selected = true → (f.die e).selected = true := by
    intro e he
    rw [Fs.die_setDie] at he
    split at he
    next heq => rw [heq]; exact hs he
    · exact he
  refine ⟨fun e => ?_, fun a b ha hb => h.single a b (hsel a ha) (hsel b hb), fun hr e => ?_⟩
  · rw [Fs.die_setDie]
    split
    · exact hd
    · exact h.dies e
  · have := h.resetFirst (by rwa [(Fs.setDie_frame f c d).2.2.2] at hr) e
    by_contra hne
    exact absurd (hsel e (by simpa using hne)) (by simp [this])

theorem Fs.push_ok {f : Fs} (h : BusPre f) (c : Fin 4) (op : FlashOp) : BusOk (f.push c op) := by
  unfold Fs.push
  apply Fs.grant_ok
  have hd := h.dies c
  by_cases hq : (f.die c).queue = []
  · refine Fs.setDie_pre h c ⟨by simp [hq], ?_⟩ (by simp [hq, Die.selected])
    have hi := hd.idle.mpr hq
    have ht := hd.timed
    rw [hi] at ht
    simp only [hq, List.isEmpty_nil, if_pos]
    simpa using ht
  · have hn : (f.die c).queue.isEmpty = false := by simpa using hq
    refine Fs.setDie_pre h c ⟨?_, ?_⟩ (by simp [hn, Die.selected])
    · have := hd.idle
      simp [hn, hq] at this ⊢
      exact this
    · simpa [hn] using hd.timed

theorem Fs.complete_ok {f : Fs} (h : BusPre f) (c : Fin 4) : BusOk (f.complete c) := by
  unfold Fs.complete
  apply Fs.grant_ok
  by_cases hq : (f.die c).queue.tail = []
  · exact Fs.setDie_pre h c ⟨by simp [hq], by simp [hq]⟩ (by simp [hq, Die.selected])
  · have hn : (f.die c).queue.tail.isEmpty = false := by simpa using hq
    exact Fs.setDie_pre h c ⟨by simp [hn, hq], by simp [hn]⟩ (by simp [hn, Die.selected])

theorem handOp_ok (src : Source) (act : FlashAct) {s : State} (h : BusOk s.fs) : BusOk (handOp src act s).fs := by
  unfold handOp
  split
  · exact h
  · exact Fs.push_ok h.pre _ _

theorem completeOp_ok (c : Fin 4) {s : State} (h : BusOk s.fs) : BusOk (completeOp c s).fs := Fs.complete_ok h.pre c

/-- The laws depend on the queues, phases, timers and soft resets only. -/
theorem BusOk.of_eq {f g : Fs} (h : BusOk f) (hd : ∀ c, g.die c = f.die c) (hr : g.softResets = f.softResets) :
    BusOk g := by
  have hb : g.busBusy = f.busBusy := by unfold Fs.busBusy; simp only [hd, hr]
  have hp : g.pendingSet = f.pendingSet := by unfold Fs.pendingSet; simp only [hd]
  exact ⟨fun c => by rw [hd]; exact h.dies c, fun c d => by rw [hd, hd]; exact h.single c d,
    fun hn c => by rw [hd]; exact h.resetFirst (by rwa [hr] at hn) c, fun hf => by rw [hp]; exact h.working (by rwa [hb] at hf)⟩

theorem countCorrected_ok (r : ReadRow) {s : State} (h : BusOk s.fs) : BusOk (countCorrected r s).fs :=
  h.of_eq (fun c => by fin_cases c <;> rfl) rfl

theorem Fs.cleared_ok (f : Fs) : BusOk f.cleared := by
  have hd : ∀ c, f.cleared.die c = Die.cleared := by intro c; fin_cases c <;> rfl
  have ho : Die.cleared.ok := ⟨by simp [Die.cleared], by simp [Die.cleared]⟩
  refine ⟨fun c => by rw [hd]; exact ho, fun c d hc => ?_, fun _ c => by rw [hd]; rfl, fun _ => ?_⟩
  · rw [hd] at hc; exact absurd hc (by decide)
  · unfold Fs.pendingSet; simp only [hd]; decide

end Sys2Proof.Machine
end

