-- ==== Sys2Proof/Tests/Slice0.lean ====
section
/-!
SUPPORT. Checks of the model's own work: ill-formed commands are refused, and for each statement of the obligations a concrete
state and operands that meet its hypotheses, clause by clause.
-/
namespace Sys2Proof.Tests

open Sys2Proof.Machine

set_option Elab.async false

/-! ### Ill-formed commands (one for each check of WellFormed) -/

/-- A READ_ROW result of the right shape: an erased row. -/
def goodRow : ReadRow where
  page0 := erased 2112
  page1 := erased 2112

theorem test_wellFormed_row : (Instr.arReadRowResult goodRow).wellFormed = true := by decide +kernel

theorem test_illFormed_page0 : (Instr.arReadRowResult { goodRow with page0 := erased 2111 }).wellFormed = false := by
  decide +kernel

theorem test_illFormed_page1 : (Instr.mountScanResult (.row { goodRow with page1 := erased 2113 })).wellFormed = false ∧
    (Instr.memberReadResult (.row { goodRow with page1 := [] })).wellFormed = false := by
  decide +kernel

/-- R80: the only statuses are CLEAN, CORRECTED(1) to CORRECTED(4) and UNCORRECTABLE. -/
theorem test_illFormed_status : (ChunkStatus.corrected 5).wellFormed = false ∧ (ChunkStatus.corrected 0).wellFormed = false ∧
    (ChunkStatus.corrected 4).wellFormed = true := by decide +kernel

/-- R79, R80: an erased chunk decodes CLEAN, as read. -/
theorem test_erasedChunkIsClean : decodeChunk (erased 512) (erased 8) = (.clean, erased 512) := by decide +kernel

/-- R79, R80: an erased codeword with one bit flipped, in the data or in the parity, is CORRECTED(1) to the erased chunk. -/
theorem test_flippedBitIsCorrected :
    decodeChunk (0xFE :: erased 511) (erased 8) = (.corrected 1, erased 512) ∧
    decodeChunk (erased 512) (0x7F :: erased 7) = (.corrected 1, erased 512) := by
  have e : eccParity (erased 512) = erased 8 := by decide +kernel
  have a : bitErrors ((0xFE :: erased 511) ++ erased 8) (erased 512 ++ erased 8) = 1 := by decide +kernel
  have b : bitErrors (erased 512 ++ 0x7F :: erased 7) (erased 512 ++ erased 8) = 1 := by decide +kernel
  constructor
  · rw [decodeChunk_corrects (erased 512) (0xFE :: erased 511) (erased 8) (by decide +kernel) (by decide +kernel)
      (by decide +kernel) (by rw [e, a]) (by rw [e, a]; decide), e, a]
  · rw [decodeChunk_corrects (erased 512) (erased 512) (0x7F :: erased 7) (by decide +kernel) (by decide +kernel)
      (by decide +kernel) (by rw [e, b]) (by rw [e, b]; decide), e, b]

theorem test_illFormed_trailers :
    (Instr.arTrailersResult { spare0 := erased 63, spare1 := erased 64 }).wellFormed = false ∧
    (Instr.mountScanResult (.trailers { spare0 := erased 64, spare1 := erased 32 })).wellFormed = false := by
  decide +kernel

/-! ### Values the spec works out -/

/-- R28, 11.9: the check of the nine ASCII digits. -/
theorem test_crc16 : crc16 [0x31, 0x32, 0x33, 0x34, 0x35, 0x36, 0x37, 0x38, 0x39] = 0x29B1 := by decide +kernel

/-- R92: with dies 0 and 1 present the rebuilt pool begins 0, 2048, 1, 2049, 2, 2050. -/
theorem test_interleaved : (interleaved 3 fun x => decide (x < 4100)).take 6 = [0, 2048, 1, 2049, 2, 2050] := by decide +kernel

/-! ### Small states -/

/-- A row as it was programmed with data and trailer bytes, and no header. -/
def programmed (data trailer : List Byte) : ReadRow := rowAsProgrammed data trailer (erased 31)

/-- What a row of `n` data bytes and the rest erased reads back as. -/
theorem programmed_reads {data trailer : List Byte} (h : data.length = 4096 ∧ trailer.length = 31) :
    (programmed data trailer).data = data ∧ (programmed data trailer).spare0 = 0xFF :: trailer :=
  have r := rowAsProgrammed_reads data trailer (erased 31) h.1 h.2 rfl
  ⟨r.1, r.2.1⟩

/-- The next state of a step has a property. -/
def stepsTo (s : State) (p : State → Bool) : Bool :=
  match step s with
  | .next t => p t
  | .fault _ => false
  | .refused _ => false

/-- The next state of a command has a property. -/
def execTo (i : Instr) (s : State) (p : State → Bool) : Bool :=
  match exec i s with
  | .next t => p t
  | .fault _ => false
  | .refused _ => false

/-- READY with the catalog loaded and nothing else. -/
def readyS : State := { State.reset with ec := { Ec.reset with engine := .ready, loaded := true } }

/-- Another engine state. -/
def inState (e : EngineState) (s : State) : State := { s with ec := { s.ec with engine := e, loaded := e.running } }

/-- Bytes 1 to 31 of a card. -/
def request (kind first count flags : Byte) (a b c d : Nat) : List Byte :=
  [kind, 0, 0, first, count, flags, 0] ++ leBytes 8 a ++ leBytes 8 b ++ leBytes 4 c ++ leBytes 4 d

/-- A card with a state byte and a request. -/
def withCard (c : CardIx) (st : Byte) (req : List Byte) (s : State) : State :=
  setMem (xmStoreList s.xp.mem (cardBase c) (st :: req)) s

/-- A card at the tail of a path's queue. -/
def posted (p : CardPath) (c : CardIx) (req : List Byte) (s : State) : State :=
  setQueue p (s.ci.queue p ++ [c]) (withCard c 1 req s)

/-- The last phase of an operation is on the bus of a die. -/
def ending (d : Fin 4) (src : Source) (act : FlashAct) (s : State) : State :=
  { s with fs := s.fs.setDie d { queue := [{ source := src, act := act }], stage := .last, timer := none } }

/-- An entry of the catalog. -/
def withEntry (seg : Nat) (e : Entry) (s : State) : State := setEntry seg e s

/-- A member of the order list with a range of sequences and keys. -/
def member (st : SegState) (first last key1 key2 serial rows : Nat) : Entry :=
  { Entry.freed with
    state := st, firstSeq := first, lastSeq := last, firstKey := key1, lastKey := key2, openSerial := serial
    rowsValid := rows, hasDigest := st == .full }

/-- A served APPEND card: card 0 of one parcel with one record of four payload bytes and key 5. -/
def servedAppend (flags : Byte) (records : Nat) : RpServed where
  card := 0
  work := request 0x01 0 1 flags 0 0 records 0
  staged := 0
  first := 0
  last := 0
  offset := 0
  wait := .staging

/-- READY with one served APPEND card and its record in parcel 0. -/
def appending (flags : Byte) (records : Nat) : State :=
  let s := withCard 0 2 (request 0x01 0 1 flags 0 0 records 0) readyS
  let s1 := setMem (xmStoreList s.xp.mem 0x2400 [4, 0, 7, 0, 5, 0, 0, 0, 1, 2, 3, 4]) s
  { s1 with rp := { s1.rp with served := some (servedAppend flags records), nextSeq := 1 } }

/-- A staged record with its sequence, key 3 and 20 image bytes. -/
def staged (q : Nat) : StagedRec := { seq := q, key := 3, image := storedImage 0 3 q [1, 2, 3, 4] }

/-- Buffer A FILLING with record 1, for row 1 of segment 9, which is OPEN. -/
def filling (s : State) : State :=
  { s with
    rp := { s.rp with
      bufA := { state := .filling, records := [staged 1], dest := some { seg := 9, row := 1 } }
      openSeg := some { seg := 9, nextRow := 2 }, nextSeq := 2, keyHigh := 3, lingerTimer := some 10 } }

/-- A record row of buffer A in flight at a row of segment 9, its last phase on the bus of die 0. -/
def inFlight (row : Nat) (s : State) : State :=
  let s1 := withEntry 9 (member .opened 1 5 1 2 4 row) s
  let s2 := { s1 with
    cu := { s1.cu with orderList := [9], nextSerial := 5, oldest := 1, epoch := 1 }
    rp := { s1.rp with
      bufA := { state := .inFlight, records := [staged 6], dest := some { seg := 9, row := row } }
      openSeg := some { seg := 9, nextRow := row + 1 }, nextSeq := 7, durable := 5, keyHigh := 3 } }
  ending 0 .packer (.programRow 9 row [] [] []) s2

/-! ### The laws on the small states -/

/-- The laws of the cards, from their decidable parts. -/
theorem cardsOk_of {s : State}
    (h : Memory.wf s.xp.mem = true ∧ (∀ c, (cardByte s c).toNat ≤ 3) ∧
      (∀ c : CardIx, s.xp.answered.getLsbD c.val = (cardByte s c == CardState.answered.code)) ∧ (queuedCards s).Nodup ∧
      (∀ c, c ∈ queuedCards s ↔ cardByte s c = CardState.posted.code) ∧ (heldCards s).Nodup ∧
      (∀ c, c ∈ heldCards s ↔ cardByte s c = CardState.taken.code)) : CardsOk s :=
  ⟨h.1, h.2.1, h.2.2.1, h.2.2.2.1, h.2.2.2.2.1, h.2.2.2.2.2.1, h.2.2.2.2.2.2⟩

/-- The laws of the buffers, from their decidable parts. -/
theorem buffersOk_of {s : State}
    (h : (s.rp.bufA.state = .empty ↔ s.rp.bufA.records = []) ∧ (s.rp.bufA.state = .empty ↔ s.rp.bufA.dest = none) ∧
      (s.rp.bufB.state = .empty ↔ s.rp.bufB.records = []) ∧ (s.rp.bufB.state = .empty ↔ s.rp.bufB.dest = none) ∧
      ¬ (s.rp.bufA.state = .filling ∧ s.rp.bufB.state = .filling) ∧
      (s.rp.lingerTimer.isSome = true → s.rp.find .filling ≠ none)) : BuffersOk s :=
  ⟨⟨h.1, h.2.1⟩, ⟨h.2.2.1, h.2.2.2.1⟩, h.2.2.2.2.1, h.2.2.2.2.2⟩

/-- The laws of the bus, from their decidable parts. -/
theorem busOk_of {f : Fs}
    (h : (∀ c, (f.die c).stage = .idle ↔ (f.die c).queue = []) ∧
      (∀ c, (f.die c).timer.isSome = true ↔ (f.die c).stage = .busy) ∧
      (∀ c d, (f.die c).selected = true → (f.die d).selected = true → c = d) ∧
      (f.softResets ≠ [] → ∀ c, (f.die c).selected = false) ∧ (f.busBusy = false → f.pendingSet = [])) : BusOk f :=
  ⟨fun c => ⟨h.1 c, h.2.1 c⟩, h.2.2.1, h.2.2.2.1, h.2.2.2.2⟩

theorem catalogOk_of {s : State} (h : Sparse.wf Entry.freed s.cu.catalog = true) : CatalogOk s := h

theorem ends_of {d : Fin 4} {src : Source} {act : FlashAct} {s : State}
    (h : (s.ec.engine = .ready ∨ s.ec.engine = .stopping) ∧ s.fs.ending = some (d, { source := src, act := act })) :
    Ends d src act s := ⟨h.1, h.2⟩

theorem running_of {s : State} (h : s.ec.engine = .ready ∨ s.ec.engine = .stopping) : Running s := h

/-- A take is ready, from its decidable parts. -/
theorem takes_of {p : CardPath} {c : CardIx} {s : State}
    (h : s.ec.engine = .ready ∧ (s.ci.queue p).head? = some c ∧ s.rp.served = none ∧ s.ar.served = none ∧
      s.cp.served = none ∧ (cardWork s c).reserved = 0 ∧ Memory.wf s.xp.mem = true) : Takes p c s :=
  ⟨h.1, h.2.1, by cases p <;> simp [pathFree, h.2.2.1, h.2.2.2.1, h.2.2.2.2.1], h.2.2.2.2.2.1, h.2.2.2.2.2.2⟩

/-! ### The block as a whole -/

theorem witness_StepRunsFrontCommand :
    ({ readyS with pending := [.flush, .append] } : State).pending = .flush :: [.append] ∧ readyS.pending = [] := by
  decide +kernel

/-- A state that meets every law, with a command that has an effect at the front of its queue. -/
def lawful : State := { posted .append 5 (request 0x02 0 0 0 0 0 0 0) readyS with pending := [.flush] }

theorem witness_StepKeepsCards : PathsOk lawful ∧ CardsOk lawful ∧
    stepsTo lawful (fun t => t.ci.append.isEmpty && t.pending.isEmpty) = true :=
  ⟨⟨fun h => absurd h (by decide +kernel), fun h => absurd h (by decide +kernel), fun h => absurd h (by decide +kernel)⟩,
    cardsOk_of (by decide +kernel), by decide +kernel⟩

theorem witness_StepKeepsHolds : HoldsOk lawful ∧
    stepsTo lawful (fun t => t.ci.append.isEmpty && t.pending.isEmpty) = true :=
  ⟨⟨by decide +kernel, fun h hh => by
      have : h = Hold.freed := List.eq_of_mem_replicate (n := 8) hh
      rw [this]; exact ⟨by decide, Or.inr rfl⟩, by decide +kernel, fun v hv => by
      have h0 : lawful.cp.served = none := by decide +kernel
      rw [h0] at hv; cases hv⟩,
    by decide +kernel⟩

theorem witness_StepKeepsBus : BusOk lawful.fs ∧ stepsTo lawful (fun t => t.ci.append.isEmpty) = true :=
  ⟨busOk_of (by decide +kernel), by decide +kernel⟩

theorem witness_StepKeepsPaths : PathsOk (inState .mounting readyS) ∧ PathsOk (inState .formatting readyS) :=
  ⟨⟨fun _ _ => ⟨rfl, rfl⟩, fun h => absurd h (by decide +kernel), fun h => absurd h (by decide +kernel)⟩,
    ⟨fun _ h => absurd rfl h, fun _ => Or.inl ⟨rfl, rfl⟩, fun h => absurd h (by decide +kernel)⟩⟩

/-- A record row in flight, its pass waiting to be taken. -/
def sent : State := { inFlight 1 readyS with pending := [.rowProgramPass] }

theorem paths_sent : PathsOk sent :=
  ⟨fun h => absurd h (by decide +kernel), fun h => absurd h (by decide +kernel), fun h => absurd h (by decide +kernel)⟩

theorem buffers_sent : BuffersOk sent := buffersOk_of (by decide +kernel)

theorem inFlight_sent : InFlightOk sent :=
  ⟨by decide +kernel, fun _ => by decide +kernel, fun n d h => by cases n <;> cases h; decide, fun h => absurd h (by decide +kernel)⟩

theorem marks_sent : MarksOk sent :=
  ⟨fun _ => ⟨by decide +kernel, by decide +kernel, by decide +kernel, by decide +kernel,
      fun n => by cases n <;> decide +kernel, fun n => by cases n <;> decide +kernel, by decide +kernel,
      fun r h => absurd h (by simp [sent, inFlight, withEntry, ending, readyS, setEntry, State.reset, Rp.reset])⟩,
    fun h => absurd h (by decide +kernel), fun h => absurd h (by decide +kernel), fun h => absurd h (by decide +kernel),
    fun h => absurd h (by decide +kernel), fun h => absurd h (by decide +kernel), fun h => absurd h (by decide +kernel)⟩

theorem witness_StepKeepsBuffers : BuffersOk (filling readyS) ∧
    stepsTo (filling readyS) (fun t => t.rp.lingerTimer == some 10) = true ∧
    PathsOk sent ∧ BuffersOk sent ∧ InFlightOk sent ∧ CatalogOk sent ∧ MarksOk sent ∧
    (∀ c, sent.pending.head? = some c → readsSound sent c) ∧
    stepsTo sent (fun t => t.rp.durable == 6 && t.rp.bufA == .cleared && t.rp.nextSeq == 7) = true :=
  ⟨buffersOk_of (by decide +kernel), by decide +kernel, paths_sent, buffers_sent, inFlight_sent,
    catalogOk_of (by decide +kernel), marks_sent, fun c h => by cases h; trivial, by decide +kernel⟩

/-- An entry of a one-segment catalog. -/
theorem entry_single (s : State) (seg : Nat) (e : Entry) (h : s.cu.catalog = [(seg, e)]) (x : Nat) :
    s.cu.entry x = if seg = x then e else Entry.freed := by
  rw [Cu.entry, h]; rfl

theorem collections_sent : Collections sent :=
  ⟨by decide +kernel, by decide +kernel, by decide +kernel, by decide +kernel, fun x => by
    rw [entry_single sent 9 (member .opened 1 5 1 2 4 1) (by decide +kernel) x]
    constructor
    · intro h; exact absurd h (by simp [sent, inFlight, withEntry, ending, readyS, setEntry, State.reset, Cu.reset])
    · intro h; split at h <;> exact absurd h (by decide +kernel)⟩

theorem places_sent : PlacesOk sent :=
  ⟨fun _ => collections_sent,
    fun _ => ⟨by decide +kernel, by decide +kernel, by decide +kernel,
      fun x h => absurd h (by simp [sent, inFlight, withEntry, ending, readyS, setEntry, State.reset, Ru.reset]),
      by decide +kernel, fun n h => by cases n <;> first | exact ⟨_, rfl, by decide +kernel⟩ | exact absurd h (by decide +kernel),
      fun o h => by cases h; decide +kernel⟩,
    fun h => absurd h (by decide +kernel), fun h => absurd h (by decide +kernel),
    (show sent.fs.acts .reclaim = [] by decide +kernel), fun h => absurd h (by decide +kernel),
    fun h => absurd h (by decide +kernel), fun h => absurd h (by decide +kernel), fun h => absurd h (by decide +kernel)⟩

theorem witness_StepKeepsEngineAndCatalogForm :
    EngineOk lawful ∧ CatalogOk (inFlight 1 readyS) ∧ stepsTo lawful (fun t => t.ci.append.isEmpty) = true ∧
    PathsOk sent ∧ BuffersOk sent ∧ InFlightOk sent ∧ CatalogOk sent ∧ MarksOk sent ∧ PlacesOk sent ∧
    stepsTo sent (fun t => t.cu.orderList == [9] && (t.cu.entry 9).lastSeq == 6) = true :=
  ⟨⟨by decide +kernel, fun h => absurd h (by decide +kernel)⟩, by unfold CatalogOk; decide +kernel, by decide +kernel,
    paths_sent, buffers_sent, inFlight_sent, by unfold CatalogOk; decide +kernel, marks_sent, places_sent, by decide +kernel⟩

/-! ### Resets, registers, exchange memory -/

/-- The RESET pin is asserted. -/
def pinned : State := { State.reset with resetPin := true }

/-- R12: SLIP is set, enabled and routed to line B alone. -/
theorem test_attentionLine :
    let s := { readyS with xp := { Xp.reset with events := 0x20, enable := 0x20, lineMap := 0x800 } }
    attnAPin s = false ∧ attnBPin s = true := by decide +kernel

theorem witness_PowerOnAndPinReset : pinned.resetPin = true ∧ (∃ v, Instr.lingerWrite 3 = .lingerWrite v) :=
  ⟨rfl, 3, rfl⟩

theorem witness_SoftResetKeepsMemory : lawful.resetPin = false := by decide +kernel

theorem witness_RunWrittenOneStartsProbe : State.reset.resetPin = false ∧ State.reset.ec.engine = .halted ∧
    readyS.resetPin = false ∧ readyS.ec.engine ≠ .halted := by decide +kernel

/-- A state in each engine state that RUN written 0 tells apart, with a waiting and a staging card. -/
def stoppable (w : RpWait) : State :=
  let s := filling (appending 0 1)
  { s with rp := { s.rp with served := some { servedAppend 0 1 with wait := w } } }

theorem witness_RunWrittenZeroByState : (∀ w, ∀ e ∈ [EngineState.halted, .probing, .mounting, .unformatted, .ready,
      .formatting, .stopping, .faulted], (inState e (stoppable w)).resetPin = false ∧
      Memory.wf (inState e (stoppable w)).xp.mem = true ∧ (inState e (stoppable w)).ec.engine = e) ∧
    BuffersOk (stoppable .space) ∧ BuffersOk (stoppable .staging) ∧ (stoppable .space).fs.quiet = true ∧
    (inFlight 1 readyS).fs.quiet = false :=
  ⟨by intro w; cases w <;> decide +kernel, buffersOk_of (by decide +kernel), buffersOk_of (by decide +kernel),
    by decide +kernel, by decide +kernel⟩

theorem witness_RegisterWritesByField : readyS.resetPin = false ∧
    ([(0x10 : BitVec 16), 0x13, 0x14, 0x17, 0x03, 0x08, 0x0B, 0x18, 0xFFFF, 0x06, 0x07, 0x0D, 0x0F].all fun o =>
      o.toNat - o.toNat % widthSize .w8 == o.toNat) = true := by decide +kernel

theorem witness_ControlWriteByFields : ((0x07 : BitVec 16).toNat - (0x07 : BitVec 16).toNat % widthSize .w32 = 4) ∧
    ((0x05 : BitVec 16).toNat - (0x05 : BitVec 16).toNat % widthSize .w8 = 5) ∧
    ((0x0F : BitVec 16).toNat - (0x0F : BitVec 16).toNat % widthSize .w32 = 0x0C) := by decide +kernel

theorem witness_HostWriteStoresItsBytes : readyS.resetPin = false ∧ Memory.wf readyS.xp.mem = true ∧
    ([(0xFFFF : BitVec 16), 0x2403, 0x0405, 0x03FF, 0x0000].all fun o =>
      stateByteCard (o.toNat - o.toNat % widthSize .w32) == none) = true ∧
    ([((0x0400 : BitVec 16), (0 : CardIx)), (0x0403, 0), (0x0440, 1), (0x23C2, 127)].all fun p =>
      p.1.toNat - p.1.toNat % widthSize .w32 == cardBase p.2) = true := by decide +kernel

theorem witness_SnapshotLatchPairsHalves : readyS.resetPin = false ∧
    execTo (.snapshotCapture (BitVec.ofNat 17 MarkField.nextSeq.offset) .w32) readyS (fun t => t.resetPin == false) = true ∧
    execTo (.snapshotCapture (BitVec.ofNat 17 MarkField.discardLast.offset) .w32) readyS (fun t => t.resetPin == false) =
      true := by decide +kernel

/-- Reads of IDENT, of ENGINE's first byte, of a parcel byte, and of an upper half under a latch that names its field or not. -/
theorem test_hostReads :
    let s := { readyS with
      rp := { Rp.reset with nextSeq := 0x123456789ABC }
      xp := { Xp.reset with mem := [(0xFFFF, 0x5A)], latch := { field := some .nextSeq, value := 0x77 } } }
    execTo (.snapshotCapture 0x10000 .w32) s (fun t => t.xp.portData == 0x4D447001 && t.xp.latch == s.xp.latch) = true ∧
    execTo (.snapshotCapture 0x10008 .w8) s (fun t => t.xp.portData == BitVec.ofNat 32 EngineState.ready.code) = true ∧
    execTo (.snapshotCapture 0xFFFE .w16) s (fun t => t.xp.portData == 0x5A00) = true ∧
    execTo (.snapshotCapture 0x24 .w32) s (fun t => t.xp.portData == 0x77) = true ∧
    execTo (.snapshotCapture 0x24 .w16) { s with xp := { s.xp with latch := { field := none, value := 0x77 } } }
      (fun t => t.xp.portData == 0x1234) = true ∧
    execTo (.snapshotCapture 0x20 .w8) s (fun t => t.xp.portData == 0xBC && t.xp.latch.value == 0x1234) = true := by
  decide +kernel

theorem witness_AcceptedStateWrite :
    (∀ e ∈ [EngineState.ready, .faulted], let s := withCard 0 3 (request 0x02 0 0 0 0 0 0 0) (inState e readyS)
      s.resetPin = false ∧ Memory.wf s.xp.mem = true ∧ cardByte s 0 = 3 ∧ cardByte s 127 = 0) ∧
    laneZero 0x0201 = 1 ∧ laneZero 0x9901 = 1 ∧ laneZero 0xFF00 = 0 ∧ Kind.ofCode 0x02 = some .flush ∧
    Kind.ofCode 0x99 = none := by decide +kernel

theorem witness_SlipIsCountedOnly : lawful.resetPin = false ∧ Memory.wf lawful.xp.mem = true ∧
    (laneZero 2 ≠ 0 ∧ laneZero 2 ≠ 1) ∧ (laneZero 255 ≠ 0 ∧ laneZero 255 ≠ 1) ∧ cardByte lawful 5 = 1 ∧
    cardByte (appending 0 1) 0 = 2 := by decide +kernel

/-! ### Takes and the append path -/

/-- A FLUSH at the head of the append queue. -/
def flushS : State := posted .append 5 (request 0x02 0 0 0 0 0 0 0) readyS

theorem witness_TakesIdleOrRefused :
    (∃ r, takeRow .flush = some r ∧ r.path = .append ∧
      r.mine (request 0x02 0 0 0 0 0 0 0) = true ∧ r.mine (request 0x01 0 0 0 0 0 0 0) = false ∧ r.always = false) ∧
    pathFree .append flushS ∧ Memory.wf flushS.xp.mem = true ∧ (flushS.ci.queue .append).head? = some 5 ∧
    (inState .unformatted flushS).ec.engine = .unformatted ∧ (cardWork flushS 5).reserved = 0 ∧
    (cardWork (posted .append 5 [0x02, 0, 0, 0, 0, 0, 1] readyS) 5).reserved ≠ 0 ∧
    (cardWork (posted .append 5 [0x30] readyS) 5).kind.map Kind.path = some .control ∧
    (inState .stopping flushS).ec.engine ≠ .ready ∧ readyS.ci.queue .append = [] :=
  ⟨⟨_, rfl, by decide +kernel⟩, rfl, by decide +kernel⟩

/-- An APPEND at the head of its queue. -/
def appendS (records count : Nat) : State :=
  posted .append 127 (request 0x01 109 (BitVec.ofNat 8 count) 0 0 0 records 0) readyS

theorem witness_AppendIsServedOrRefused : Takes .append 127 (appendS 255 1) ∧
    (cardWork (appendS 255 1) 127).kind = some .append ∧ (cardWork (appendS 255 1) 127).argC = 255 ∧
    Takes .append 127 (appendS 256 1) ∧ (cardWork (appendS 256 1) 127).argC = 256 ∧
    Takes .append 127 (appendS 1 2) ∧ (cardWork (appendS 1 2) 127).parcelCount = 2 ∧
    Takes .append 127 { appendS 1 1 with rp := { Rp.reset with readOnly := true } } :=
  ⟨takes_of (by decide +kernel), by decide +kernel, by decide +kernel, takes_of (by decide +kernel), by decide +kernel,
    takes_of (by decide +kernel), by decide +kernel, takes_of (by decide +kernel)⟩

/-- The record of `appending` as the RP reads it. -/
def record5 : HostRecord := { class_ := 7, key := 5, payload := [1, 2, 3, 4], next := 12 }

theorem witness_RecordIsStagedOrRefused :
    (∀ s ∈ [filling (appending 0 1), filling (appending 0 2), filling (appending 1 1),
        inState .stopping (filling (appending 0 1)), inState .stopping (filling (appending 1 1))],
      Running s ∧ Memory.wf s.xp.mem = true ∧ (s.rp.served.map RpServed.wait) = some .staging ∧
      (∀ v, s.rp.served = some v → readRecord s v = .ok record5) ∧ s.rp.find .filling = some .a ∧
      (s.rp.buf .a).fill + imageSize 4 < 4096) ∧
    readRecord (appending 0 2) { servedAppend 0 2 with offset := 505 } = .error .badRecord ∧
    (servedAppend 0 2).work.flag0 = false ∧ (servedAppend 1 1).work.flag0 = true := by
  refine ⟨?_, by decide +kernel⟩
  intro s hs
  simp only [List.mem_cons, List.not_mem_nil, or_false] at hs
  rcases hs with rfl | rfl | rfl | rfl | rfl <;>
    exact ⟨running_of (by decide +kernel), by decide +kernel, by decide +kernel, fun v hv => by cases hv; decide +kernel,
      by decide +kernel, by decide +kernel⟩

/-- R26, field by field: an offset whose descriptor ends the span, a key below key_high, and no sequence left. -/
theorem witness_RecordChecks :
    readRecord (appending 0 1) { servedAppend 0 1 with offset := 504 } =
      .ok { class_ := 0, key := 0, payload := [], next := 512 } ∧
    readRecord { appending 0 1 with rp := { (appending 0 1).rp with keyHigh := 6 } } (servedAppend 0 1) = .error .keyOrder ∧
    readRecord { appending 0 1 with rp := { (appending 0 1).rp with nextSeq := maxSeq + 1 } } (servedAppend 0 1) =
      .error .seqLimit := by decide +kernel

/-- A SYNC card of two records whose next descriptor passes the end of its run. -/
def syncBad (durable : Nat) : State :=
  let s := filling (appending 1 2)
  { s with rp := { s.rp with served := some { servedAppend 1 2 with offset := 505 }, durable := durable } }

theorem witness_RecordRefusedUnderSync : ∀ d ∈ [0, 1],
    (syncBad d).ec.engine = .ready ∧ Memory.wf (syncBad d).xp.mem = true ∧ BuffersOk (syncBad d) ∧
    (syncBad d).rp.served = some { servedAppend 1 2 with offset := 505 } ∧
    readRecord (syncBad d) { servedAppend 1 2 with offset := 505 } = .error .badRecord ∧
    ((syncBad d).rp.nextSeq - 1 ≤ (syncBad d).rp.durable ↔ d = 1) := by
  intro d h
  simp only [List.mem_cons, List.not_mem_nil, or_false] at h
  rcases h with rfl | rfl <;> and_intros <;> first | decide +kernel | exact buffersOk_of (by decide +kernel)

/-- Buffer A FILLING with one record of `n` image bytes, and the other buffer in a state. -/
def filledFor (flags : Byte) (count n : Nat) (other : RowBuffer) : State :=
  let s := filling (appending flags count)
  { s with rp := { s.rp with
    bufA := { s.rp.bufA with records := [{ seq := 1, key := 3, image := erased n }] }
    bufB := other
    openSeg := some { seg := 9, nextRow := 62 } } }

/-- The same for a card of two records without SYNC. -/
def filled (n : Nat) (other : RowBuffer) : State := filledFor 0 2 n other

/-- A CLOSED buffer. -/
def closedBuf : RowBuffer := { state := .closed, records := [staged 2], dest := some { seg := 9, row := 2 } }

theorem witness_RecordFillsOrNeedsAnotherBuffer :
    (∀ s ∈ [filled 4076 .cleared, filled 4080 .cleared, filled 4080 closedBuf],
      s.ec.engine = .ready ∧ s.rp.served = some (servedAppend 0 2) ∧ readRecord s (servedAppend 0 2) = .ok record5 ∧
      s.rp.find .filling = some .a ∧ (servedAppend 0 2).staged + 1 ≠ (servedAppend 0 2).work.argC ∧
      s.rp.openSeg = some { seg := 9, nextRow := 62 }) ∧
    ((filled 4076 .cleared).rp.buf .a).fill + imageSize 4 = 4096 ∧
    4096 < ((filled 4080 .cleared).rp.buf .a).fill + imageSize 4 ∧ imageSize 4 < 4096 ∧
    ((filled 4080 .cleared).rp.buf .b).state = .empty ∧ ((filled 4080 closedBuf).rp.buf .b).state ≠ .empty := by
  decide +kernel

/-- STOPPING: a record is refused with a buffer FILLING and with none, and a card that needs another buffer comes to wait. -/
theorem witness_StagingInStopping :
    (∀ s ∈ [filling (appending 0 2), appending 0 2], Memory.wf (inState .stopping s).xp.mem = true ∧
      BuffersOk (inState .stopping s) ∧ (inState .stopping s).ec.engine = .stopping ∧
      readRecord (inState .stopping s) { servedAppend 0 2 with offset := 505 } = .error .badRecord) ∧
    (inState .stopping (filled 4080 closedBuf)).rp.served = some (servedAppend 0 2) ∧
    readRecord (inState .stopping (filled 4080 closedBuf)) (servedAppend 0 2) = .ok record5 ∧
    Memory.wf (inState .stopping (filled 4080 closedBuf)).xp.mem = true ∧
    execTo .recordStage (inState .stopping (filled 4080 closedBuf)) (fun t => t.rp.served == none &&
      cardByte t 0 == 3 && xmRead t.xp.mem (cardBase 0 + 32) == CardOutcome.stopped.code) = true ∧
    execTo .recordStage (inState .stopping (filling (appending 0 1))) (fun t => t.rp.served == none &&
      t.rp.bufA.state == .inFlight && t.rp.nextSeq == 3 && cardByte t 0 == 3) = true := by
  refine ⟨?_, by decide +kernel⟩
  intro s h
  simp only [List.mem_cons, List.not_mem_nil, or_false] at h
  rcases h with rfl | rfl <;> and_intros <;> first | decide +kernel | exact buffersOk_of (by decide +kernel)

/-- No buffer FILLING, a row left in the open segment. -/
def opening (a b : RowBuffer) : State :=
  let s := appending 0 2
  { s with rp := { s.rp with bufA := a, bufB := b, openSeg := some { seg := 9, nextRow := 62 } } }

/-- A record staged, also as the last of its card, into a FILLING buffer, into the other one and into an EMPTY one. -/
theorem witness_RecordStages :
    (∀ p ∈ [((1 : Byte), 1, 4076), (0, 1, 4076), (1, 1, 20), (0, 2, 20), (1, 1, 4080), (0, 1, 4080)],
      (filledFor p.1 p.2.1 p.2.2 .cleared).ec.engine = .ready ∧ Memory.wf (filledFor p.1 p.2.1 p.2.2 .cleared).xp.mem = true ∧
      BuffersOk (filledFor p.1 p.2.1 p.2.2 .cleared) ∧
      (filledFor p.1 p.2.1 p.2.2 .cleared).rp.served = some (servedAppend p.1 p.2.1) ∧
      readRecord (filledFor p.1 p.2.1 p.2.2 .cleared) (servedAppend p.1 p.2.1) = .ok record5 ∧
      (filledFor p.1 p.2.1 p.2.2 .cleared).rp.find .filling = some .a ∧
      (filledFor p.1 p.2.1 p.2.2 .cleared).rp.openSeg = some { seg := 9, nextRow := 62 }) ∧
    (∀ a ∈ [RowBuffer.cleared, closedBuf], Memory.wf (opening a .cleared).xp.mem = true ∧ BuffersOk (opening a .cleared) ∧
      (opening a .cleared).rp.served = some (servedAppend 0 2) ∧
      readRecord (opening a .cleared) (servedAppend 0 2) = .ok record5 ∧ (opening a .cleared).rp.find .filling = none ∧
      (opening a .cleared).rp.openSeg = some { seg := 9, nextRow := 62 } ∧ (a.state = .empty ↔ a = .cleared)) := by
  constructor
  · intro p h
    simp only [List.mem_cons, List.not_mem_nil, or_false] at h
    rcases h with rfl | rfl | rfl | rfl | rfl | rfl <;> and_intros <;>
      first | decide +kernel | exact buffersOk_of (by decide +kernel)
  · intro a h
    simp only [List.mem_cons, List.not_mem_nil, or_false] at h
    rcases h with rfl | rfl <;> and_intros <;> first | decide +kernel | exact buffersOk_of (by decide +kernel)

/-- A free pool of a given length and its next serial. -/
def pool (n serial : Nat) (s : State) : State :=
  { s with cu := { s.cu with freePool := List.range n, nextSerial := serial } }

theorem witness_NewSegmentOrArchiveFull :
    (∀ s ∈ [pool 3 max32 (appending 0 1), pool 2 1 (appending 0 1), pool 6 (max32 + 1) (appending 0 1)],
      s.ec.engine = .ready ∧ Memory.wf s.xp.mem = true ∧ s.rp.bufA.state = .empty ∧ s.rp.bufB.state = .empty ∧
      s.rp.openSeg = none ∧ s.rp.served = some (servedAppend 0 1) ∧ readRecord s (servedAppend 0 1) = .ok record5 ∧
      Sparse.wf Entry.freed s.cu.catalog = true) ∧
    spaceMayReturn (pool 2 1 (appending 0 1)) = false ∧
    spaceMayReturn { pool 2 1 (appending 0 1) with ru := { Ru.reset with op := .erase 7 } } = true ∧
    spaceMayReturn (pool 2 1 (appending 1 1)) = false ∧ (servedAppend 1 1).work.flag0 = true ∧
    readRecord (pool 2 1 (appending 1 1)) (servedAppend 1 1) = .ok record5 := by
  refine ⟨?_, by decide +kernel⟩
  intro s hs
  simp only [List.mem_cons, List.not_mem_nil, or_false] at hs
  rcases hs with rfl | rfl | rfl <;> decide +kernel

/-- An APPEND card with no buffer FILLING, no row left in the open segment, and the other buffer CLOSED or EMPTY. -/
def needing (other : RowBuffer) : State :=
  let s := pool 3 1 (appending 0 1)
  { s with rp := { s.rp with bufB := other, openSeg := some { seg := 9, nextRow := 63 } } }

/-- The last member, segment 9, is empty: the pool's segments are 0 to 2. -/
def emptyLast (op : RuOp) : State :=
  let s := withEntry 9 (member .opened 1 0 0 0 1 0) (needing .cleared)
  { s with cu := { s.cu with orderList := [9] }, ru := { Ru.reset with op := op } }

theorem witness_NewSegmentSupersedes :
    (∀ o, (needing closedBuf).rp.openSeg = some o → 62 < o.nextRow) ∧ (needing closedBuf).rp.find .filling = none ∧
    ((needing closedBuf).rp.buf .a).state = .empty ∧ ((needing closedBuf).rp.buf .b).state ≠ .empty ∧
    readRecord (needing closedBuf) (servedAppend 0 1) = .ok record5 ∧
    (∀ op ∈ [RuOp.idle, .erase 5], CatalogOk (emptyLast op) ∧ (emptyLast op).cu.orderList.getLast? = some 9 ∧
      ((emptyLast op).cu.entry 9).lastSeq + 1 = ((emptyLast op).cu.entry 9).firstSeq ∧
      (emptyLast op).cu.freePool = 0 :: [1, 2] ∧ (emptyLast op).ru.superseded = [] ∧ (emptyLast op).ar.pin ≠ some 9 ∧
      readRecord (emptyLast op) (servedAppend 0 1) = .ok record5) := by
  refine ⟨fun o h => by cases h; decide, by decide +kernel, by decide +kernel, by decide +kernel, by decide +kernel, ?_⟩
  intro op h
  simp only [List.mem_cons, List.not_mem_nil, or_false] at h
  rcases h with rfl | rfl <;> and_intros <;> first | decide +kernel | exact catalogOk_of (by decide +kernel)

/-- STOPPING: a card that needs a segment comes to wait for a buffer, and for space while the RU's erase is in flight. -/
theorem witness_SegmentInStopping :
    (let s := inState .stopping (needing closedBuf);
      s.ec.engine = .stopping ∧ Memory.wf s.xp.mem = true ∧ s.rp.served = some (servedAppend 0 1) ∧
      readRecord s (servedAppend 0 1) = .ok record5 ∧ s.rp.find .filling = none ∧ (s.rp.buf .b).state ≠ .empty) ∧
    (let s := inState .stopping { pool 2 1 (appending 0 1) with ru := { Ru.reset with op := .erase 7 } };
      s.ec.engine = .stopping ∧ s.rp.served = some (servedAppend 0 1) ∧ s.cu.freePool.length = 2 ∧
      readRecord s (servedAppend 0 1) = .ok record5 ∧ s.rp.bufA.state = .empty ∧ s.rp.bufB.state = .empty ∧
      spaceMayReturn s = true) := by decide +kernel

theorem witness_StoredImageReadsBackIntact : ([1, 2, 3] : List Byte).length ≤ 4080 ∧ (255 : Nat) ≤ 255 ∧
    max32 ≤ max32 ∧ maxSeq ≤ maxSeq := by decide +kernel

theorem witness_FlushAnswersOrWaits : Takes .append 5 flushS ∧ BuffersOk flushS ∧ Takes .append 5 (filling flushS) ∧
    BuffersOk (filling flushS) ∧ (cardWork flushS 5).kind = some .flush ∧
    Takes .append 5 { flushS with rp := { Rp.reset with readOnly := true } } :=
  ⟨takes_of (by decide +kernel), buffersOk_of (by decide +kernel), takes_of (by decide +kernel),
    buffersOk_of (by decide +kernel), by decide +kernel, takes_of (by decide +kernel)⟩

theorem witness_LingerExpiryClosesBuffer : ∀ e ∈ [EngineState.ready, .stopping],
    Running (inState e (filling readyS)) ∧ BuffersOk (inState e (filling readyS)) ∧
    (inState e (filling readyS)).rp.lingerTimer = some 10 := by
  intro e h
  simp only [List.mem_cons, List.not_mem_nil, or_false] at h
  rcases h with rfl | rfl <;> exact ⟨running_of (by decide +kernel), buffersOk_of (by decide +kernel), by decide +kernel⟩

/-! ### Row programs -/

/-- `inFlight` with a free pool, a next serial and a relocation. -/
def failing (row serial : Nat) (free : List Nat) (r : Option Relocation) : State :=
  let s := inFlight row readyS
  { s with cu := { s.cu with freePool := free, nextSerial := serial }, rp := { s.rp with relocation := r } }

theorem witness_RowPassMakesRowDurable : ∀ row ∈ [0, 61],
    Ends 0 .packer (.programRow 9 row [] [] []) (inFlight row readyS) ∧ CatalogOk (inFlight row readyS) ∧
    CardsOk (inFlight row readyS) ∧ (inFlight row readyS).rp.find .inFlight = some .a ∧
    ((inFlight row readyS).rp.buf .a).dest = some { seg := 9, row := row } ∧
    ((inFlight row readyS).rp.buf .b).state ≠ .closed ∧ (inFlight row readyS).rp.served = none := by
  intro row h
  simp only [List.mem_cons, List.not_mem_nil, or_false] at h
  rcases h with rfl | rfl <;> and_intros <;>
    first | decide +kernel | exact ends_of (by decide +kernel) | exact catalogOk_of (by decide +kernel)
          | exact cardsOk_of (by decide +kernel)

/-- The row in flight passes while the other buffer is CLOSED, with an APPEND card of two records that waits for a buffer or not. -/
def passing (wait : RpWait) : State :=
  let s := inFlight 1 (appending 0 2)
  { s with rp := { s.rp with
    served := some { servedAppend 0 2 with wait := wait }
    bufB := { closedBuf with records := [staged 7] }
    openSeg := some { seg := 9, nextRow := 62 }, nextSeq := 8 } }

theorem witness_RowPassHandsOther : ∀ w ∈ [RpWait.buffer, .staging],
    Ends 0 .packer (.programRow 9 1 [] [] []) (passing w) ∧ CatalogOk (passing w) ∧ CardsOk (passing w) ∧
    (passing w).rp.find .inFlight = some .a ∧ ((passing w).rp.buf .a).dest = some { seg := 9, row := 1 } ∧
    ((passing w).rp.buf .b).state = .closed ∧ ((passing w).rp.buf .b).dest = some { seg := 9, row := 2 } ∧
    (∀ e, ∀ op ∈ (if e = 0 then ((passing w).fs.die e).queue.tail else ((passing w).fs.die e).queue),
      op.isRecordRow = false) ∧
    (passing w).rp.served = some { servedAppend 0 2 with wait := w } ∧ (passing w).rp.waitList = [] ∧
    readRecord (passing w) { servedAppend 0 2 with wait := w } = .ok record5 ∧
    (passing w).rp.openSeg = some { seg := 9, nextRow := 62 } := by
  intro w h
  simp only [List.mem_cons, List.not_mem_nil, or_false] at h
  rcases h with rfl | rfl <;> and_intros <;>
    first | decide +kernel | exact ends_of (by decide +kernel) | exact catalogOk_of (by decide +kernel)
          | exact cardsOk_of (by decide +kernel)

/-- A digest program is in flight on die 1. -/
def digesting (s : State) : State :=
  let d : Die := { queue := [{ source := .packer, act := .programRow 2050 63 [] [] [] }], stage := .busy, timer := some 9 }
  { s with fs := s.fs.setDie 1 d }

theorem witness_LastRowClosesSegment : ∀ s ∈ [inFlight 62 readyS, digesting (inFlight 62 readyS)],
    Ends 0 .packer (.programRow 9 62 [] [] []) s ∧ CatalogOk s ∧ s.rp.find .inFlight = some .a ∧
    (s.rp.buf .a).dest = some { seg := 9, row := 62 } ∧ (s.rp.buf .b).state ≠ .closed ∧ s.rp.served = none ∧
    s.rp.waitList = [] := by
  intro s h
  simp only [List.mem_cons, List.not_mem_nil, or_false] at h
  rcases h with rfl | rfl <;> and_intros <;>
    first | decide +kernel | exact ends_of (by decide +kernel) | exact catalogOk_of (by decide +kernel)

theorem witness_RowFailRelocates : ∀ s ∈ [failing 1 max32 [20] none, failing 62 5 [] none,
      failing 1 (max32 + 1) [20] none],
    (∃ row, Ends 0 .packer (.programRow 9 row [] [] []) s ∧ row ≠ 63) ∧ CatalogOk s ∧ CardsOk s ∧ BuffersOk s ∧
    s.rp.relocation = none ∧ s.rp.find .inFlight = some .a ∧ (∃ row, (s.rp.buf .a).dest = some { seg := 9, row := row }) ∧
    (s.cu.entry 9).lastSeq + 1 ≠ (s.cu.entry 9).firstSeq := by
  intro s h
  simp only [List.mem_cons, List.not_mem_nil, or_false] at h
  rcases h with rfl | rfl | rfl
  · exact ⟨⟨1, ends_of (by decide +kernel), by decide⟩, catalogOk_of (by decide +kernel), cardsOk_of (by decide +kernel),
      buffersOk_of (by decide +kernel), by decide +kernel, by decide +kernel, ⟨1, by decide +kernel⟩, by decide +kernel⟩
  · exact ⟨⟨62, ends_of (by decide +kernel), by decide⟩, catalogOk_of (by decide +kernel), cardsOk_of (by decide +kernel),
      buffersOk_of (by decide +kernel), by decide +kernel, by decide +kernel, ⟨62, by decide +kernel⟩, by decide +kernel⟩
  · exact ⟨⟨1, ends_of (by decide +kernel), by decide⟩, catalogOk_of (by decide +kernel), cardsOk_of (by decide +kernel),
      buffersOk_of (by decide +kernel), by decide +kernel, by decide +kernel, ⟨1, by decide +kernel⟩, by decide +kernel⟩

/-- A relocation of segment 8 cut at row 3. -/
def moved : Relocation := { predecessor := 8, cutRow := 3, firstSeq := 6 }

theorem witness_ReplacementFailTakesAnother : ∀ s ∈ [failing 0 max32 [20] (some moved), failing 0 5 [] (some moved),
      failing 0 (max32 + 1) [20] (some moved)],
    Ends 0 .packer (.programRow 9 0 [] [] []) s ∧ CatalogOk s ∧ CardsOk s ∧ BuffersOk s ∧
    s.rp.relocation = some moved ∧ s.rp.find .inFlight = some .a ∧ (s.rp.buf .a).dest = some { seg := 9, row := 0 } := by
  intro s h
  simp only [List.mem_cons, List.not_mem_nil, or_false] at h
  rcases h with rfl | rfl | rfl <;> and_intros <;>
    first | decide +kernel | exact ends_of (by decide +kernel) | exact catalogOk_of (by decide +kernel)
          | exact cardsOk_of (by decide +kernel) | exact buffersOk_of (by decide +kernel)

/-- The other buffer CLOSED, and segment 9 an empty last member: its row 0 is the row that fails. -/
def failingFresh (r : Option Relocation) : State :=
  let s := withEntry 9 (member .opened 6 5 0 0 4 0) (failing 0 5 [20, 21] r)
  { s with rp := { s.rp with bufB := { closedBuf with records := [staged 7] }, nextSeq := 8 } }

theorem witness_RowFailSupersedesAndReaims : ∀ r ∈ [none, some moved],
    Ends 0 .packer (.programRow 9 0 [] [] []) (failingFresh r) ∧ CatalogOk (failingFresh r) ∧ CardsOk (failingFresh r) ∧
    BuffersOk (failingFresh r) ∧ (failingFresh r).rp.relocation = r ∧ (failingFresh r).rp.find .inFlight = some .a ∧
    ((failingFresh r).rp.buf .a).dest = some { seg := 9, row := 0 } ∧ ((failingFresh r).rp.buf .b).state = .closed ∧
    (failingFresh r).cu.freePool = 20 :: [21] ∧ (failingFresh r).cu.orderList.getLast? = some 9 ∧
    ((failingFresh r).cu.entry 9).lastSeq + 1 = ((failingFresh r).cu.entry 9).firstSeq := by
  intro s h
  simp only [List.mem_cons, List.not_mem_nil, or_false] at h
  rcases h with rfl | rfl <;> and_intros <;>
    first | decide +kernel | exact ends_of (by decide +kernel) | exact catalogOk_of (by decide +kernel)
          | exact cardsOk_of (by decide +kernel) | exact buffersOk_of (by decide +kernel)

/-- Segment 9, SHORT with 63 rows, and its digest program in its last phase. -/
def digestEnding : State :=
  let s := withEntry 9 (member .short 1 5 1 2 4 63) readyS
  ending 0 .packer (.programRow 9 63 [] [] []) { s with cu := { s.cu with orderList := [9] } }

theorem witness_DigestResultSettlesSegment : Ends 0 .packer (.programRow 9 63 [] [] []) digestEnding ∧
    CatalogOk digestEnding ∧ 9 ∈ digestEnding.cu.orderList ∧ (digestEnding.cu.entry 9).state = .short :=
  ⟨ends_of (by decide +kernel), catalogOk_of (by decide +kernel), by decide +kernel, by decide +kernel⟩

/-- Results of the packer's programs in STOPPING: a pass before the last row and of it, a failure with a segment in the pool
and without, of a replacement's row 0, and a digest. -/
theorem witness_ProgramResultsInStopping :
    (∀ p ∈ [(inFlight 1 readyS, 1), (inFlight 62 readyS, 62), (failing 1 max32 [20] none, 1), (failing 62 5 [] none, 62),
        (failing 0 max32 [20] (some moved), 0), (failing 0 5 [] (some moved), 0)],
      Ends 0 .packer (.programRow 9 p.2 [] [] []) (inState .stopping p.1) ∧ CatalogOk (inState .stopping p.1) ∧
      CardsOk (inState .stopping p.1) ∧ BuffersOk (inState .stopping p.1) ∧
      (inState .stopping p.1).rp.find .inFlight = some .a ∧
      ((inState .stopping p.1).rp.buf .a).dest = some { seg := 9, row := p.2 } ∧
      (inState .stopping p.1).rp.served = none ∧ (inState .stopping p.1).rp.waitList = []) ∧
    Ends 0 .packer (.programRow 9 63 [] [] []) (inState .stopping digestEnding) := by
  refine ⟨?_, ends_of (by decide +kernel)⟩
  intro p h
  simp only [List.mem_cons, List.not_mem_nil, or_false] at h
  rcases h with rfl | rfl | rfl | rfl | rfl | rfl <;> and_intros <;>
    first | decide +kernel | exact ends_of (by decide +kernel) | exact catalogOk_of (by decide +kernel)
          | exact cardsOk_of (by decide +kernel) | exact buffersOk_of (by decide +kernel)

/-! ### The query path -/

/-- Two members: segment 9 FULL with records 2 to 5 and keys 1 to 2, segment 10 SHORT with records 6 to 8 and keys 2 to 3. -/
def library : State :=
  let s := withEntry 9 (member .full 2 5 1 2 1 64) (withEntry 10 (member .short 6 8 2 3 2 3) readyS)
  { s with
    cu := { s.cu with orderList := [9, 10], oldest := 2, epoch := 1, nextSerial := 3 }
    rp := { s.rp with durable := 8, nextSeq := 9, keyHigh := 3 } }

/-- A READ_SEQ or READ_KEY card with a run of one parcel. -/
def readCard (kind : Byte) (a b c d : Nat) : State := posted .query 3 (request kind 0 1 0 a b c d) library

theorem witness_ReadSeqStarts :
    (Takes .query 3 (readCard 0x10 0 5 0 0) ∧ (cardWork (readCard 0x10 0 5 0 0) 3).badRead = true) ∧
    (Takes .query 3 (readCard 0x10 1 1 0 0) ∧ (cardWork (readCard 0x10 1 1 0 0) 3).badRead = false) ∧
    (Takes .query 3 (readCard 0x10 9 9 0 0) ∧ (cardWork (readCard 0x10 9 9 0 0) 3).badRead = false) ∧
    (Takes .query 3 (readCard 0x10 8 maxSeq 0 0) ∧ (cardWork (readCard 0x10 8 maxSeq 0 0) 3).badRead = false ∧
      (cardWork (readCard 0x10 8 maxSeq 0 0) 3).kind = some .readSeq ∧
      ∃ m ∈ library.cu.orderList, (library.cu.entry m).firstSeq ≤ 8) := by
  and_intros <;> first | decide +kernel | exact takes_of (by decide +kernel)

/-- A read card over a run of parcels. -/
def runCard (kind first count : Byte) (a b c d : Nat) : State := posted .query 3 (request kind first count 0 a b c d) library

/-- The checks of R120 at their boundaries: parcel_count 0, first + count 110 and 111, limit 65,535 and 65,536, from_seq 0 and
2^48, to_seq 2^48, to_key below from_key. -/
theorem witness_ReadChecks :
    (∀ p ∈ [((0 : Byte), (0 : Byte), 1, 8, 0, true), (109, 2, 1, 8, 0, true), (109, 1, 1, 8, 65535, false),
        (0, 110, 1, 8, 65535, false), (0, 1, 1, 8, 65536, true), (0, 1, 0, 8, 0, true), (0, 1, maxSeq + 1, maxSeq + 1, 0, true),
        (0, 1, maxSeq, maxSeq, 0, false), (0, 1, 1, maxSeq + 1, 0, true), (0, 1, 2, 1, 0, true)],
      Takes .query 3 (runCard 0x10 p.1 p.2.1 p.2.2.1 p.2.2.2.1 p.2.2.2.2.1 0) ∧
      (cardWork (runCard 0x10 p.1 p.2.1 p.2.2.1 p.2.2.2.1 p.2.2.2.2.1 0) 3).kind = some .readSeq ∧
      (cardWork (runCard 0x10 p.1 p.2.1 p.2.2.1 p.2.2.2.1 p.2.2.2.2.1 0) 3).badRead = p.2.2.2.2.2) ∧
    (∀ p ∈ [((0 : Byte), (0 : Byte), 0, 3, 3, true), (109, 2, 0, 3, 3, true), (109, 1, 65535, 3, 3, false),
        (0, 1, 65536, 3, 3, true), (0, 1, 0, 3, 2, true)],
      Takes .query 3 (runCard 0x11 p.1 p.2.1 p.2.2.1 0 p.2.2.2.1 p.2.2.2.2.1) ∧
      (cardWork (runCard 0x11 p.1 p.2.1 p.2.2.1 0 p.2.2.2.1 p.2.2.2.2.1) 3).kind = some .readKey ∧
      (cardWork (runCard 0x11 p.1 p.2.1 p.2.2.1 0 p.2.2.2.1 p.2.2.2.2.1) 3).badRead = p.2.2.2.2.2) := by
  constructor <;> intro p h <;> simp only [List.mem_cons, List.not_mem_nil, or_false] at h
  · rcases h with rfl | rfl | rfl | rfl | rfl | rfl | rfl | rfl | rfl | rfl <;>
      exact ⟨takes_of (by decide +kernel), by decide +kernel⟩
  · rcases h with rfl | rfl | rfl | rfl | rfl <;> exact ⟨takes_of (by decide +kernel), by decide +kernel⟩

theorem witness_ReadKeyStarts :
    (Takes .query 3 (readCard 0x11 0 0 4 4) ∧ (cardWork (readCard 0x11 0 0 4 4) 3).badRead = false ∧
      ∀ m ∈ library.cu.orderList, (library.cu.entry m).lastKey < 4) ∧
    (Takes .query 3 (readCard 0x11 0 0 3 max32) ∧ (cardWork (readCard 0x11 0 0 3 max32) 3).badRead = false ∧
      (cardWork (readCard 0x11 0 0 3 max32) 3).kind = some .readKey ∧ library.cu.orderList = [9] ++ 10 :: [] ∧
      (library.cu.entry 9).lastKey < 3 ∧ 3 ≤ (library.cu.entry 10).lastKey ∧
      (library.cu.entry 10).lastSeq + 1 ≠ (library.cu.entry 10).firstSeq) := by
  and_intros <;> first | decide +kernel | exact takes_of (by decide +kernel)

/-- A READ_SEQ of the range `a` to `b` with a limit is served. -/
def reader (a b limit : Nat) (act : ArAct) : State :=
  { library with ar := { Ar.reset with
      served := some { card := 3, work := request 0x10 0 1 0 a b limit 0 }, cursor := some a, mark := 8, act := act } }

/-- The pin of segment `seg` is asked for over the library, whose segment 10 is in a state, with a row map of rows 0 and 1,
the first without records. -/
def asking (seg : Nat) (next : Bool) (st : SegState) (claim : Option Nat) : State :=
  let s := reader 6 8 0 (.awaitPin seg next)
  let s1 := withEntry 10 { (s.cu.entry 10) with state := st } s
  { s1 with
    ru := { Ru.reset with claim := claim }
    ar := { s1.ar with pin := if next then some 9 else none }
    rp := { s1.rp with rowMap := [⟨0, 6, 0, 0⟩, ⟨1, 6, 2, 3⟩] } }

theorem witness_PinRequestIsAnswered :
    (∀ next, ∀ st ∈ [SegState.full, .short, .opened, .erasing], ∀ claim ∈ [none, some 10, some 9],
      Running (asking 10 next st claim) ∧ Running (inState .stopping (asking 10 next st claim)) ∧
      (asking 10 next st claim).ar.act = .awaitPin 10 next ∧
      (asking 10 next st claim).ar.served = some { card := 3, work := request 0x10 0 1 0 6 8 0 0 } ∧
      (asking 10 next st claim).ru.heldPin = none ∧ (asking 10 next st claim).ar.pin ≠ some 10 ∧
      (asking 10 next st claim).ru.claim = claim ∧ ((asking 10 next st claim).cu.entry 10).state = st) ∧
    (asking 10 false .erasing none).ar.pin = none ∧ Work.byKey (request 0x10 0 1 0 6 8 0 0) = false ∧
    (asking 10 false .opened none).rp.rowMap = [⟨0, 6, 0, 0⟩] ++ ⟨1, 6, 2, 3⟩ :: [] ∧
    (asking 10 false .opened none).ar.cur = 6 ∧ 10 ∈ (asking 10 false .opened none).cu.orderList ∧
    ((asking 10 false .opened none).cu.entry 10).firstSeq ≤ (asking 10 false .opened none).ar.mark := by
  refine ⟨?_, by decide +kernel⟩
  intro next
  unfold Running
  cases next <;> decide +kernel

/-- The segment whose pin is asked for left the order list: it is RETIRED, or OPEN again with later records. -/
def askingGone (st : SegState) : State :=
  let s := asking 10 false st none
  if st = .retired then { s with cu := { s.cu with orderList := [9] } } else { s with ar := { s.ar with mark := 5 } }

theorem witness_PinOfASegmentThatLeft : ∀ st ∈ [SegState.retired, .opened],
    (askingGone st).ec.engine = .ready ∧ (askingGone st).ar.act = .awaitPin 10 false ∧ (askingGone st).ru.heldPin = none ∧
    (askingGone st).ru.claim ≠ some 10 ∧ (askingGone st).ar.pin ≠ some 10 ∧
    ¬ (10 ∈ (askingGone st).cu.orderList ∧ ((askingGone st).cu.entry 10).firstSeq ≤ (askingGone st).ar.mark) ∧
    ((askingGone st).cu.entry 10).state ≠ .erasing ∧ (askingGone st).rp.durable = 8 ∧
    9 ∈ (askingGone st).cu.orderList ∧ ((askingGone st).cu.entry 9).firstSeq ≤ 6 ∧
    (st = .retired → ∀ x ∈ (askingGone st).cu.orderList, x = 9) ∧
    execTo .pinRequest (askingGone st) (fun t => t.ar.pin == some 10 &&
      t.ar.act == .awaitPin (if st = .retired then 9 else 10) false && t.ar.mark == 8) = true := by decide +kernel

/-- A trailer scan of segment 10 for a cursor, the READ_TRAILERS of a row in its last phase. -/
def scanning (cursor row : Nat) (bad : Option Nat) : State :=
  ending 0 .reader (.readTrailers 10 row) (reader cursor 8 0 (.scan { row := row, bad := bad, prev := none }))

/-- A row-`row` trailer of one record `q`. -/
def spareOf (row q : Nat) : ReadSpare where
  spare0 := 0xFF :: trailerBytes 1 row 1 q 3 3 20 [] ++ erased 32
  spare1 := erased 64

theorem witness_TrailerScanFindsRow :
    (∀ b ∈ [none, some 0], Ends 0 .reader (.readTrailers 10 1) (scanning 6 1 b)) ∧
    (scanning 6 1 none).ar.served.map (fun v => v.work.byKey) = some false ∧ (library.cu.entry 10).lastValidRow = 2 ∧
    ¬ TrailerFormed (erased 64) 1 ∧ TrailerFormed (spareOf 1 6).spare0 1 ∧
    (Trailer.parse (spareOf 1 6).spare0).count = 1 ∧ (scanning 6 1 none).ar.cur = 6 ∧ (scanning 7 1 none).ar.cur = 7 ∧
    (scanning 5 1 (some 0)).ar.cur < (Trailer.parse (spareOf 1 6).spare0).firstSeq := by
  refine ⟨?_, by decide +kernel, by decide +kernel, ?_, ?_, by decide +kernel⟩
  rotate_left
  · rw [← wellFormed_iff]; decide +kernel
  · rw [← wellFormed_iff]; decide +kernel
  intro b h
  simp only [List.mem_cons, List.not_mem_nil, or_false] at h
  rcases h with rfl | rfl <;> exact ends_of (by decide +kernel)

/-- A READ_KEY of the keys 2 to 4 scans segment 10. -/
def scanningKey (row : Nat) (prev : Option (Nat × Nat × Nat)) : State :=
  let s := scanning 6 row none
  { s with ar := { s.ar with
    served := some { card := 3, work := request 0x11 0 1 0 0 0 2 4 }
    act := .scan { row := row, bad := none, prev := prev } } }

/-- A row-1 trailer of record 7 with keys `k` to 3. -/
def spareKey (k : Nat) : ReadSpare where
  spare0 := 0xFF :: trailerBytes 1 1 1 7 k 3 20 [] ++ erased 32
  spare1 := erased 64

theorem witness_KeyScanFindsRow :
    (∀ p ∈ [none, some (0, 6, 6)], Ends 0 .reader (.readTrailers 10 1) (scanningKey 1 p) ∧
      (scanningKey 1 p).ar.act = .scan { row := 1, bad := none, prev := p } ∧
      (scanningKey 1 p).ar.served = some { card := 3, work := request 0x11 0 1 0 0 0 2 4 } ∧ (scanningKey 1 p).ar.mark = 8) ∧
    Work.byKey (request 0x11 0 1 0 0 0 2 4) = true ∧ Work.fromKey (request 0x11 0 1 0 0 0 2 4) = 2 ∧
    (∀ k ∈ [1, 2], TrailerFormed (spareKey k).spare0 1 ∧ (Trailer.parse (spareKey k).spare0).count = 1 ∧
      (Trailer.parse (spareKey k).spare0).lastKey = 3 ∧ (Trailer.parse (spareKey k).spare0).firstKey = k ∧
      (Trailer.parse (spareKey k).spare0).firstSeq = 7) := by
  simp only [← wellFormed_iff]
  refine ⟨?_, by decide +kernel⟩
  intro b h
  simp only [List.mem_cons, List.not_mem_nil, or_false] at h
  rcases h with rfl | rfl <;> exact ⟨ends_of (by decide +kernel), by decide +kernel⟩

/-- The digest of segment 9: records 2 to 5 in row 0, 62 rows without a record. -/
def digest9 : List DigestEntry := ⟨2, 1, 4⟩ :: List.replicate 62 ⟨6, 0, 0⟩

/-- Row 63 of segment 9. -/
def row63 : ReadRow := programmed (digestData digest9) (trailerBytes 1 63 0 0 0 0 756 (digestData digest9))

/-- The READ_ROW of segment 9's digest in its last phase, at a start. -/
def readingDigest : State := ending 0 .reader (.readRow 9 63) (reader 3 8 0 (.digest false))

theorem row63_reads : row63.data = digestData digest9 ∧
    row63.spare0 = 0xFF :: trailerBytes 1 63 0 0 0 0 756 (digestData digest9) := by
  have entries : (digest9.flatMap DigestEntry.bytes).length = 756 := by decide +kernel
  have count : digest9.length = 63 := by decide +kernel
  unfold row63
  exact programmed_reads ⟨by rw [digestData, List.length_append, entries, count, erased, List.length_replicate],
    by decide +kernel⟩

theorem row63_sound : DigestSound row63 1 2 := by
  refine (digestSound_iff row63 1 2).2 ?_
  rw [digestRowVerified, rowVerified_built row63 63 1 0 0 0 0 756 _ row63_reads.1 row63_reads.2 (by
    unfold rowTrailer; rw [row63_reads.2]; decide +kernel)]
  unfold rowTrailer; rw [row63_reads.1, row63_reads.2]; decide +kernel

theorem goodRow_unchecked (row : Nat) : ¬ RowChecked goodRow row := fun h => absurd h.formed.magic (by decide +kernel)

theorem witness_DigestIsReadAtStart : Ends 0 .reader (.readRow 9 63) readingDigest ∧
    readingDigest.ar.served = some { card := 3, work := request 0x10 0 1 0 3 8 0 0 } ∧
    Work.byKey (request 0x10 0 1 0 3 8 0 0) = false ∧ readingDigest.ar.act = .digest false ∧
    DigestSound row63 readingDigest.cu.epoch (readingDigest.cu.entry 9).firstSeq ∧ entriesOf row63.data = digest9 ∧
    field row63.data (12 * 62) 6 + field row63.data (12 * 62 + 10) 2 = (readingDigest.cu.entry 9).lastSeq + 1 ∧
    digest9 = [] ++ ⟨2, 1, 4⟩ :: List.replicate 62 ⟨6, 0, 0⟩ ∧ 2 ≤ readingDigest.ar.cur ∧
    (∀ y ∈ List.replicate 62 (⟨6, 0, 0⟩ : DigestEntry), 1 ≤ y.count → readingDigest.ar.cur < y.firstSeq) ∧
    ¬ DigestSound goodRow readingDigest.cu.epoch (readingDigest.cu.entry 9).firstSeq := by
  refine ⟨ends_of (by decide +kernel), by decide +kernel, by decide +kernel, by decide +kernel, row63_sound, ?_, ?_,
    by decide +kernel, by decide +kernel, by decide +kernel, fun h => goodRow_unchecked 63 h.checked⟩
  · rw [row63_reads.1]; decide +kernel
  · rw [row63_reads.1]; decide +kernel

/-- Row data: images and the rest erased. -/
def rowOf (images : List Byte) : List Byte := images ++ erased (4096 - images.length)

/-- Row `row` of epoch 1 with records `rs` from sequence `q`, keys 3. -/
def rowFrom (row q : Nat) (rs : List HostRecord) : ReadRow :=
  let images := imagesFrom q rs
  programmed (rowOf images) (trailerBytes 1 row rs.length q 3 3 images.length images)

/-- A record of four payload bytes and key 3. -/
def rec3 : HostRecord := { class_ := 0, key := 3, payload := [1, 2, 3, 4], next := 0 }

/-- Row 0 of segment 10 with record 6 alone. -/
def row6 : ReadRow := rowFrom 0 6 [rec3]

theorem row6_reads : row6.data = rowOf (imagesFrom 6 [rec3]) ∧
    row6.spare0 = 0xFF :: trailerBytes 1 0 1 6 3 3 20 (imagesFrom 6 [rec3]) := programmed_reads (by decide +kernel)

theorem row6_verified : rowVerified row6 0 = true := by
  unfold rowVerified rowTrailer; rw [row6_reads.1, row6_reads.2]; decide +kernel

theorem row6_trailer : rowTrailer row6 = Trailer.parse (0xFF :: trailerBytes 1 0 1 6 3 3 20 (imagesFrom 6 [rec3])) := by
  rw [rowTrailer, row6_reads.2]

/-- The READ_ROW of row 0 of segment 10 in its last phase, for the range 6 to `b` and one record. -/
def reading (b : Nat) : State :=
  let s := reader 6 b 1 .row
  ending 0 .reader (.readRow 10 0) { s with ar := { s.ar with pin := some 10, pos := some { seg := 10, row := 0, offset := 0 } } }

theorem witness_ReadCopiesRecordAndAnswers : ∀ b ∈ [6, maxSeq],
    Ends 0 .reader (.readRow 10 0) (reading b) ∧ Memory.wf (reading b).xp.mem = true ∧
    (reading b).ar.served = some { card := 3, work := request 0x10 0 1 0 6 b 1 0 } ∧
    Work.kind (request 0x10 0 1 0 6 b 1 0) = some .readSeq ∧ Work.badRead (request 0x10 0 1 0 6 b 1 0) = false ∧
    Work.argC (request 0x10 0 1 0 6 b 1 0) = 1 ∧ Work.argB (request 0x10 0 1 0 6 b 1 0) = b ∧
    (reading b).ar.act = .row ∧ (reading b).ar.pin = some 10 ∧ (reading b).ar.resync = false ∧ (reading b).ar.count = 0 ∧
    RowAcceptable (reading b) 0 row6 ∧ (rowTrailer row6).count = 1 ∧ (reading b).ar.cursor = some 6 ∧
    (rowTrailer row6).firstSeq = 6 ∧ (StoredHeader.parse row6.data).seq = 6 ∧
    (StoredHeader.parse row6.data).intact row6.data = true ∧
    16 + pad4 (StoredHeader.parse row6.data).length = 20 ∧ (rowTrailer row6).fill = 20 ∧ 20 ≤ row6.data.length ∧
    (reading b).ar.destOff + 20 ≤ Work.span (request 0x10 0 1 0 6 b 1 0) := by
  intro b h
  rw [← rowAccepted_iff]
  unfold rowAccepted
  rw [row6_verified, row6_trailer, row6_reads.1]
  simp only [List.mem_cons, List.not_mem_nil, or_false] at h
  rcases h with rfl | rfl <;> and_intros <;> first | decide +kernel | exact ends_of (by decide +kernel)

/-- Row 0 of segment 10 with records 6 and 7. -/
def row67 : ReadRow := rowFrom 0 6 [rec3, rec3]

theorem row67_reads : row67.data = rowOf (imagesFrom 6 [rec3, rec3]) ∧
    row67.spare0 = 0xFF :: trailerBytes 1 0 2 6 3 3 40 (imagesFrom 6 [rec3, rec3]) := programmed_reads (by decide +kernel)

/-- The READ_ROW of row 0 of segment `seg` in its last phase for a request; the cursor is `cursor`, and it waits for the next
accepted row where `resync`. Segment 10 ends at record `last`, durable_mark is `durable`. -/
def walking (seg : Nat) (work : Work) (cursor : Nat) (resync : Bool) (last durable : Nat) : State :=
  let s := withEntry 10 (member .short 6 last 2 3 2 3) (reader 6 8 0 .row)
  ending 0 .reader (.readRow seg 0) { s with
    rp := { s.rp with durable := durable }
    ar := { s.ar with
      served := some { card := 3, work := work }, pin := some seg, cursor := some cursor, resync := resync
      pos := some { seg := seg, row := 0, offset := 0 } } }

/-- A READ_SEQ of the records 6 to `b` without a limit. -/
def seqWork (b : Nat) : Work := request 0x10 0 1 0 6 b 0 0

/-- A chosen row of the served card is accepted, from its parts. -/
theorem readsRow_of {seg : Nat} {v : ArServed} {r : ReadRow} {s : State}
    (h : (s.ec.engine = .ready ∨ s.ec.engine = .stopping) ∧
      s.fs.ending = some (0, { source := .reader, act := .readRow seg 0 }) ∧ Memory.wf s.xp.mem = true ∧ s.ar.served = some v ∧ v.work.badRead = false ∧ s.ar.act = .row)
    (a : rowAccepted s 0 r = true) : ReadsRow 0 seg 0 v r s :=
  ⟨⟨h.1, h.2.1⟩, h.2.2.1, h.2.2.2.1, h.2.2.2.2.1, h.2.2.2.2.2, (rowAccepted_iff s 0 r).1 a⟩

theorem row67_facts : (rowTrailer row67).firstSeq = 6 ∧ (rowTrailer row67).count = 2 ∧ (rowTrailer row67).fill = 40 ∧
    rowVerified row67 0 = true := by
  unfold rowVerified rowTrailer; rw [row67_reads.1, row67_reads.2]; decide +kernel

/-- A row of several records, walked to the end of its range, above durable_mark, into the member's next row, into the next
member (segment 9's, whose successor is 10), and by a read that waits for the next accepted row. -/
theorem witness_RowIsWalked :
    (∀ p ∈ [(10, 7, false, 8, 8), (10, 9, false, 7, 7), (10, 9, false, 8, 8), (9, 9, false, 8, 8), (10, 9, true, 8, 8)],
      ReadsRow 0 p.1 0 { card := 3, work := seqWork p.2.1 } row67 (walking p.1 (seqWork p.2.1) (if p.2.2.1 then 4 else 6) p.2.2.1 p.2.2.2.1 p.2.2.2.2) ∧
      (seqWork p.2.1).kind = some .readSeq ∧ (seqWork p.2.1).argC = 0 ∧ (seqWork p.2.1).argB = p.2.1 ∧
      (walking p.1 (seqWork p.2.1) 6 p.2.2.1 p.2.2.2.1 p.2.2.2.2).ar.count = 0 ∧
      (walking p.1 (seqWork p.2.1) 6 p.2.2.1 p.2.2.2.1 p.2.2.2.2).ar.destOff + 40 ≤ (seqWork p.2.1).span) ∧
    (∀ h ∈ [rec3, rec3], h.storable) ∧ row67.data = imagesFrom 6 [rec3, rec3] ++ erased 4056 ∧
    (rowTrailer row67).firstSeq = 6 ∧ (rowTrailer row67).count = 2 ∧ (rowTrailer row67).fill = 40 ∧
    (library.cu.entry 9).lastSeq < 8 ∧ library.cu.orderList = [] ++ 9 :: 10 :: [] ∧ 0 + 1 ≤ (library.cu.entry 10).lastValidRow := by
  have f := row67_facts
  refine ⟨?_, fun h hh => ?_, row67_reads.1, f.1, f.2.1, f.2.2.1, by decide +kernel⟩
  · intro p h
    simp only [List.mem_cons, List.not_mem_nil, or_false] at h
    rcases h with rfl | rfl | rfl | rfl | rfl <;>
      exact ⟨readsRow_of (by decide +kernel) (by
        unfold rowAccepted; rw [f.2.2.2]; unfold rowTrailer; rw [row67_reads.2]; decide +kernel), by decide +kernel⟩
  · have : h = rec3 := by simpa using hh
    subst this
    exact ⟨by decide, by decide, by decide⟩

/-- A READ_KEY of the keys `k` to `l` without a limit. -/
def keyWork (k l : Nat) : Work := request 0x11 0 1 0 0 0 k l

/-- The image of record 6 with one byte changed: byte 17 is a payload byte, byte 8 the sequence. -/
def badImage (at_ : Nat) : List Byte := (imagesFrom 6 [rec3]).set at_ 0xA5

/-- Row 0 of segment 10 with that image, its trailer made over it. -/
def row6Bad (at_ : Nat) : ReadRow := programmed (rowOf (badImage at_)) (trailerBytes 1 0 1 6 3 3 20 (badImage at_))

theorem row6Bad_reads (k : Nat) (h : k ∈ [8, 17]) : (row6Bad k).data = rowOf (badImage k) ∧
    (row6Bad k).spare0 = 0xFF :: trailerBytes 1 0 1 6 3 3 20 (badImage k) :=
  programmed_reads (by simp only [List.mem_cons, List.not_mem_nil, or_false] at h; rcases h with rfl | rfl <;> decide +kernel)

/-- `walking` over segment 10 with bytes of the destination written already. -/
def walkingTo (destOff : Nat) (work : Work) : State :=
  let s := walking 10 work 6 false 6 6
  { s with ar := { s.ar with destOff := destOff } }

theorem witness_RowStopsTheRead :
    (ReadsRow 0 10 0 { card := 3, work := seqWork 9 } row6 (walkingTo 500 (seqWork 9)) ∧ (seqWork 9).span < 500 + 20) ∧
    (ReadsRow 0 10 0 { card := 3, work := seqWork 6 } (row6Bad 17) (walkingTo 0 (seqWork 6)) ∧
      (StoredHeader.parse (row6Bad 17).data).seq = 6 ∧
      (StoredHeader.parse (row6Bad 17).data).intact (row6Bad 17).data = false ∧ (rowTrailer (row6Bad 17)).count = 1) ∧
    (ReadsRow 0 10 0 { card := 3, work := seqWork 6 } (row6Bad 8) (walkingTo 0 (seqWork 6)) ∧
      (StoredHeader.parse (row6Bad 8).data).seq ≠ 6 ∧ (seqWork 6).argB + 1 = 6 + (rowTrailer (row6Bad 8)).count) ∧
    (ReadsRow 0 10 0 { card := 3, work := keyWork 2 2 } row6 (walkingTo 0 (keyWork 2 2)) ∧
      (keyWork 2 2).kind = some .readKey ∧ (keyWork 2 2).toKey < (StoredHeader.parse row6.data).key ∧
      (keyWork 2 2).fromKey ≤ (StoredHeader.parse row6.data).key) ∧
    (ReadsRow 0 10 0 { card := 3, work := keyWork 4 5 } row6 (walkingTo 0 (keyWork 4 5)) ∧
      (StoredHeader.parse row6.data).key < (keyWork 4 5).fromKey ∧ (walkingTo 0 (keyWork 4 5)).rp.durable = 6 ∧
      ((walkingTo 0 (keyWork 4 5)).cu.entry 10).lastSeq ≤ 6) ∧
    (StoredHeader.parse row6.data).length ≤ 4080 ∧ imageSize (StoredHeader.parse row6.data).length ≤ (rowTrailer row6).fill ∧
    (walkingTo 500 (seqWork 9)).ar.resync = false ∧ (walkingTo 500 (seqWork 9)).ar.cursor = some 6 ∧
    (seqWork 9).limit = 0 ∧ (keyWork 2 2).limit = 0 := by
  have f8 := row6Bad_reads 8 (by simp)
  have f17 := row6Bad_reads 17 (by simp)
  refine ⟨⟨readsRow_of (by decide +kernel) ?_, by decide +kernel⟩, ⟨readsRow_of (by decide +kernel) ?_, ?_⟩,
    ⟨readsRow_of (by decide +kernel) ?_, ?_⟩, ⟨readsRow_of (by decide +kernel) ?_, ?_⟩,
    ⟨readsRow_of (by decide +kernel) ?_, ?_⟩, ?_⟩
  · unfold rowAccepted; rw [row6_verified, row6_trailer]; decide +kernel
  · unfold rowAccepted rowVerified rowTrailer; rw [f17.1, f17.2]; decide +kernel
  · unfold rowTrailer; rw [f17.1, f17.2]; decide +kernel
  · unfold rowAccepted rowVerified rowTrailer; rw [f8.1, f8.2]; decide +kernel
  · unfold rowTrailer; rw [f8.1, f8.2]; decide +kernel
  · unfold rowAccepted; rw [row6_verified, row6_trailer]; decide +kernel
  · rw [row6_reads.1]; decide +kernel
  · unfold rowAccepted; rw [row6_verified, row6_trailer]; decide +kernel
  · rw [row6_reads.1]; decide +kernel
  · rw [row6_reads.1, row6_trailer]; decide +kernel

theorem witness_DamagedRowIsCounted : Ends 0 .reader (.readRow 10 0) (reading 8) ∧ (reading 8).ar.act = .row ∧
    (∃ v, (reading 8).ar.served = some v) ∧ ¬ RowAcceptable (reading 8) 0 goodRow :=
  ⟨ends_of (by decide +kernel), by decide +kernel, ⟨_, rfl⟩, fun h => goodRow_unchecked 0 h.checked⟩

/-- The rows a digest and a row map tell of, and a row of neither (R130). -/
theorem witness_RowsKnown :
    (let a := { Ar.reset with heldDigest := some digest9 };
      RowKnown a 0 2 4 ∧ RowKnown a 62 6 0 ∧ ∀ f n, ¬ RowKnown a 63 f n) ∧
    (let a := { Ar.reset with rows := [⟨1, 6, 2, 3⟩] };
      RowKnown a 1 6 3 ∧ ∀ f n, ¬ RowKnown a 0 f n) := by
  refine ⟨⟨⟨1, by decide +kernel⟩, ⟨0, by decide +kernel⟩, ?_⟩, ⟨2, by decide +kernel⟩, ?_⟩
  · rintro f n ⟨k, h⟩
    rw [show digest9[63]? = none by decide +kernel] at h; cases h
  · rintro f n ⟨k, h⟩; cases h

/-- A chosen row 0 of segment 10 for the range 6 to `b` and a limit, one record copied; the row's count 2 is known or not, and
the segment holds `rows` rows up to record `last`, the archive records up to `durable`. -/
def damagedAt (b limit : Nat) (known : Bool) (rows last durable : Nat) : State :=
  let s := withEntry 10 (member .short 6 last 2 3 2 rows) (reader 6 b limit .row)
  let s1 := { s with cu := { s.cu with orderList := [9, 10, 12] }, rp := { s.rp with durable := durable } }
  ending 0 .reader (.readRow 10 0) { s1 with ar := { s1.ar with
    pin := some 10, count := 1, rows := if known then [⟨0, 6, 0, 2⟩] else [] } }

/-- The known count ends the range, meets the limit, ends above durable_mark, leads to the next row and to the next member; an
unknown count moves past the last row, or leaves the cursor where it is. -/
theorem witness_DamagedRowGoesOn :
    (∀ p ∈ [(7, 0, true, 3, 8, 8), (8, 1, true, 3, 8, 8), (9, 0, true, 1, 7, 7), (9, 0, true, 3, 8, 8), (9, 0, true, 1, 7, 9),
        (9, 0, false, 1, 7, 9), (9, 0, false, 3, 8, 8)],
      let s := damagedAt p.1 p.2.1 p.2.2.1 p.2.2.2.1 p.2.2.2.2.1 p.2.2.2.2.2
      Ends 0 .reader (.readRow 10 0) s ∧ Memory.wf s.xp.mem = true ∧ s.ar.act = .row ∧ s.ar.pin ≠ none ∧
      s.ar.served = some { card := 3, work := request 0x10 0 1 0 6 p.1 p.2.1 0 } ∧ ¬ RowAcceptable s 0 goodRow ∧
      (if p.2.2.1 then RowKnown s.ar 0 6 2 else ∀ f n, ¬ RowKnown s.ar 0 f n) ∧ s.ar.cur = 6 ∧
      (s.cu.entry 10).lastSeq = p.2.2.2.2.1 ∧ (s.cu.entry 10).lastValidRow = p.2.2.2.1 - 1 ∧
      s.cu.orderList = [9] ++ 10 :: 12 :: []) ∧
    (∀ p ∈ [(7, 0, true, 3, 8, 8), (8, 1, true, 3, 8, 8), (9, 0, true, 1, 7, 7)],
      execTo (.arReadRowResult goodRow) (damagedAt p.1 p.2.1 p.2.2.1 p.2.2.2.1 p.2.2.2.2.1 p.2.2.2.2.2)
        (fun t => t.ar.served == none && t.ar.damagedRecords == 2) = true) ∧
    execTo (.arReadRowResult goodRow) (damagedAt 9 0 true 3 8 8) (fun t => t.ar.cursor == some 8 && t.ar.damaged == 2 &&
      t.ar.pos == some { seg := 10, row := 1, offset := 0 }) = true ∧
    execTo (.arReadRowResult goodRow) (damagedAt 9 0 true 1 7 9) (fun t => t.ar.act == .awaitPin 12 true) = true ∧
    execTo (.arReadRowResult goodRow) (damagedAt 9 0 false 1 7 9) (fun t => t.ar.cursor == some 8 && t.ar.damaged == 1) =
      true ∧
    execTo (.arReadRowResult goodRow) (damagedAt 9 0 false 3 8 8) (fun t => t.ar.cursor == some 6 && t.ar.resync) = true := by
  refine ⟨?_, by decide +kernel⟩
  intro p h
  simp only [List.mem_cons, List.not_mem_nil, or_false] at h
  rcases h with rfl | rfl | rfl | rfl | rfl | rfl | rfl <;>
    exact ⟨ends_of (by decide +kernel), by decide +kernel, by decide +kernel, by decide +kernel, by decide +kernel,
      fun h => goodRow_unchecked 0 h.checked, by first | exact ⟨0, by decide +kernel⟩ | (rintro f n ⟨k, h⟩; cases h),
      by decide +kernel⟩

/-- Results of the reader's operations in STOPPING. -/
theorem witness_ReadsInStopping :
    Ends 0 .reader (.readTrailers 10 1) (inState .stopping (scanning 6 1 none)) ∧
    Ends 0 .reader (.readRow 9 63) (inState .stopping readingDigest) ∧
    Ends 0 .reader (.readRow 10 0) (inState .stopping (reading 6)) ∧
    RowAcceptable (inState .stopping (reading 6)) 0 row6 ∧ ¬ RowAcceptable (inState .stopping (reading 6)) 0 goodRow ∧
    ReadsRow 0 10 0 { card := 3, work := seqWork 9 } row6 (inState .stopping (walkingTo 500 (seqWork 9))) := by
  refine ⟨ends_of (by decide +kernel), ends_of (by decide +kernel), ends_of (by decide +kernel), (rowAccepted_iff _ _ _).1 ?_,
    fun h => goodRow_unchecked 0 h.checked, readsRow_of (by decide +kernel) ?_⟩ <;>
    unfold rowAccepted <;> rw [row6_verified, row6_trailer] <;> decide +kernel

/-! ### The control path -/

/-- An ACTIVE hold. -/
def held (tag low remaining : Nat) : Hold := { active := true, tag := tag, lowSeq := low, remaining := remaining }

/-- A control card posted over the library, with hold 7 in entry 0. -/
def controlCard (kind flags : Byte) (a c d : Nat) : State :=
  posted .control 4 (request kind 0 1 flags a 0 c d)
    { library with cp := { Cp.reset with holds := held 7 3 1 :: List.replicate 7 Hold.freed } }

theorem witness_HoldIsCheckedInOrder :
    (∀ p ∈ [(0, 3), (65536, 3), (7, 0), (7, maxSeq + 1), (7, 5), (1, 1), (65535, maxSeq)],
      Takes .control 4 (controlCard 0x20 0 p.2 p.1 0) ∧ (cardWork (controlCard 0x20 0 p.2 p.1 0) 4).kind = some .hold ∧
      (cardWork (controlCard 0x20 0 p.2 p.1 0) 4).argC = p.1 ∧ (cardWork (controlCard 0x20 0 p.2 p.1 0) 4).argA = p.2) ∧
    (controlCard 0x20 0 3 7 0).cp.holds = [] ++ held 7 3 1 :: List.replicate 7 Hold.freed ∧
    (∀ x ∈ (controlCard 0x20 0 3 1 0).cp.holds, ¬ (x.active = true ∧ x.tag = 1)) := by
  refine ⟨?_, by decide +kernel⟩
  intro p h
  simp only [List.mem_cons, List.not_mem_nil, or_false] at h
  rcases h with rfl | rfl | rfl | rfl | rfl | rfl | rfl <;>
    exact ⟨takes_of (by decide +kernel), by decide +kernel⟩

/-- A HOLD of low_seq `low` waits for the RU's answer. -/
def holding (low : Nat) (holds : List Hold) (claim : Option Nat) : State :=
  { library with
    cp := { Cp.reset with served := some { card := 4, work := request 0x20 0 0 0 low 0 9 60, job := .hold }, holds := holds }
    ru := { Ru.reset with claim := claim } }

theorem witness_HoldRequestIsDecided :
    (∀ s ∈ [holding 2 [] (some 9), holding 1 [] none, holding 2 (List.replicate 8 (held 7 3 0)) none,
        holding 2 (held 7 3 0 :: List.replicate 7 Hold.freed) none, inState .stopping (holding 2 [] (some 9)),
        inState .stopping (holding 1 [] none)],
      Running s ∧ Memory.wf s.xp.mem = true ∧ s.cp.served.map CpServed.job = some .hold ∧
      s.ru.heldHold = none ∧ s.cu.oldest = 2) ∧
    (∀ h ∈ List.replicate 8 (held 7 3 0), h.active = true) ∧ Work.argA (request 0x20 0 0 0 1 0 9 60) < 2 ∧
    Work.argA (request 0x20 0 0 0 2 0 9 60) = 2 := by unfold Running; decide +kernel

theorem witness_RenewAndReleaseByTag :
    (∀ p ∈ [((0x20 : Byte), (1 : Byte), 0), (0x20, 1, 65536), (0x20, 1, 7), (0x20, 1, 65535), (0x21, 0, 0), (0x21, 0, 65536),
        (0x21, 0, 7), (0x21, 0, 1)],
      Takes .control 4 (controlCard p.1 p.2.1 0 p.2.2 9) ∧ (cardWork (controlCard p.1 p.2.1 0 p.2.2 9) 4).argC = p.2.2) ∧
    (cardWork (controlCard 0x20 1 0 7 9) 4).flag0 = true ∧ (cardWork (controlCard 0x21 0 0 7 9) 4).kind = some .release ∧
    (controlCard 0x21 0 0 7 9).cp.holds = [] ++ held 7 3 1 :: List.replicate 7 Hold.freed := by
  refine ⟨?_, by decide +kernel⟩
  intro p h
  simp only [List.mem_cons, List.not_mem_nil, or_false] at h
  rcases h with rfl | rfl | rfl | rfl | rfl | rfl | rfl | rfl <;>
    exact ⟨takes_of (by decide +kernel), by decide +kernel⟩

theorem witness_TrimRaisesTrimPoint : ∀ a ∈ [0, 8, maxSeq, maxSeq + 1],
    Takes .control 4 (controlCard 0x22 0 a 0 0) ∧ (cardWork (controlCard 0x22 0 a 0 0) 4).kind = some .trim ∧
    (cardWork (controlCard 0x22 0 a 0 0) 4).argA = a := by
  intro a h
  simp only [List.mem_cons, List.not_mem_nil, or_false] at h
  rcases h with rfl | rfl | rfl | rfl <;> exact ⟨takes_of (by decide +kernel), by decide +kernel⟩

/-- A CENSUS card over a run. -/
def censusCard (first count : Byte) : State := posted .control 4 (request 0x30 first count 0 0 0 0 0) library

theorem witness_CensusIsWrittenToItsRun : ∀ p ∈ [((0 : Byte), (0 : Byte)), (109, 2), (109, 1), (0, 110)],
    Takes .control 4 (censusCard p.1 p.2) ∧ (cardWork (censusCard p.1 p.2) 4).kind = some .census ∧
    (cardWork (censusCard p.1 p.2) 4).parcelFirst = p.1.toNat ∧
    (cardWork (censusCard p.1 p.2) 4).parcelCount = p.2.toNat := by
  intro p h
  simp only [List.mem_cons, List.not_mem_nil, or_false] at h
  rcases h with rfl | rfl | rfl | rfl <;> exact ⟨takes_of (by decide +kernel), by decide +kernel⟩

/-- A FORMAT card over a state. -/
def formatCard (mode : Nat) (s : State) : State := posted .control 4 (request 0x31 0 0 0 0 0 mode 0) s

/-- The card of a reader that awaits the pin, TAKEN; a record is staged too. -/
def formatOver : State :=
  let s := withCard 3 2 (request 0x10 0 1 0 6 8 0 0) (reader 6 8 0 (.awaitPin 9 false))
  { s with rp := { s.rp with
    bufA := { state := .filling, records := [staged 9], dest := some { seg := 10, row := 3 } }, nextSeq := 10 } }

theorem witness_FormatIsTaken : ∀ s ∈ [formatCard 2 readyS, formatCard 1 (inFlight 1 readyS),
      formatCard 0 (posted .append 9 (request 0x02 0 0 0 0 0 0 0) (appending 0 1)), formatCard 1 (inState .unformatted readyS),
      formatCard 1 formatOver],
    (s.ec.engine = .ready ∨ s.ec.engine = .unformatted) ∧ (s.ci.queue .control).head? = some 4 ∧ pathFree .control s ∧
    (cardWork s 4).reserved = 0 ∧ CardsOk s ∧ (cardWork s 4).kind = some .format := by
  intro s h
  simp only [List.mem_cons, List.not_mem_nil, or_false] at h
  rcases h with rfl | rfl | rfl | rfl | rfl <;>
    exact ⟨by decide +kernel, by decide +kernel, by unfold pathFree; decide +kernel, by decide +kernel,
      cardsOk_of (by decide +kernel), by decide +kernel⟩

/-- FORMAT's cases: with a record row in flight, with cards of the append path held, over a reader that awaits the pin and a
staged record, and with a reader's operation outstanding. -/
theorem witness_FormatCases : recordRowInFlight (formatCard 1 (inFlight 1 readyS)) = true ∧
    (formatCard 0 (appending 0 1)).rp.served = some (servedAppend 0 1) ∧
    (formatCard 1 formatOver).ar.act = .awaitPin 9 false ∧ (formatCard 1 formatOver).ar.served.isSome = true ∧
    (formatCard 1 formatOver).rp.bufA.records ≠ [] ∧ (formatCard 1 (reading 6)).ar.act = .row := by decide +kernel

theorem witness_LeaseTickLowersLeases : (controlCard 0x22 0 0 0 0).ec.engine = .ready ∧
    (∃ h ∈ (controlCard 0x22 0 0 0 0).cp.holds, h.active = true ∧ h.remaining = 1) ∧ readyS.ec.engine = .ready ∧
    ¬ (∃ h ∈ readyS.cp.holds, h.active = true ∧ h.remaining = 1) ∧ State.reset.ec.engine ≠ .ready := by decide +kernel

/-! ### Removal and erases -/

/-- The RU claims a segment of the library. -/
def claiming (seg : Nat) : State := { library with ru := { Ru.reset with claim := some seg } }

/-- The claim stands while the RU holds a pin request of a read of record 2, for the segment claimed, and a hold request of
low_seq `low`. -/
def claimHolds (seg : Nat) (pin : Bool) (low : Option Nat) : State :=
  let s := reader 2 8 0 (.awaitPin seg false)
  { s with
    ru := { Ru.reset with claim := some seg, heldPin := if pin then some seg else none, heldHold := low }
    cp := { Cp.reset with served := some { card := 4, work := request 0x20 0 0 0 (low.getD 0) 0 9 60, job := .hold } } }

theorem witness_RemovalClaimTakesHead : (∀ seg ∈ [9, 10], ∀ pin, ∀ low ∈ [none, some 5, some 6],
      Running (claimHolds seg pin low) ∧ Running (inState .stopping (claimHolds seg pin low)) ∧
      (claimHolds seg pin low).ec.loaded = true ∧ (inState .stopping (claimHolds seg pin low)).ec.loaded = true ∧
      Sparse.wf Entry.freed (claimHolds seg pin low).cu.catalog = true ∧ Memory.wf (claimHolds seg pin low).xp.mem = true ∧
      (claimHolds seg pin low).ru.claim = some seg ∧
      (claimHolds seg pin low).ar.served = some { card := 3, work := request 0x10 0 1 0 2 8 0 0 } ∧
      (claimHolds seg pin low).ar.act = .awaitPin seg false ∧ (claimHolds seg pin low).rp.served = none ∧
      (claimHolds seg pin low).cp.served.map CpServed.job = some .hold ∧ (claimHolds seg pin low).ar.pin ≠ some seg) ∧
    (claimHolds 9 true none).cu.orderList = 9 :: 10 :: [] ∧ ((claimHolds 9 true none).cu.entry 9).state = .full ∧
    (claimHolds 10 true none).cu.orderList.head? ≠ some 10 ∧ ((claimHolds 10 true none).cu.entry 10).state = .short := by
  refine ⟨?_, by decide +kernel⟩
  intro seg h pin low hl
  simp only [List.mem_cons, List.not_mem_nil, or_false] at h hl
  unfold Running
  cases pin <;> rcases h with rfl | rfl <;> rcases hl with rfl | rfl | rfl <;> decide +kernel

/-- A refused claim while the RU holds the pin request of a read: segment 9 is the one member and FULL, or has left the list. -/
def claimHeld (order : List Nat) (low : Option Nat) : State :=
  let s := claimHolds 9 true low
  { s with cu := { s.cu with orderList := order } }

theorem witness_RefusedClaimConsents : ∀ low ∈ [none, some 5], ∀ order ∈ [[9], [10]],
    (claimHeld order low).ec.engine = .ready ∧ (claimHeld order low).ru.claim = some 9 ∧
    (∀ next rest, (claimHeld order low).cu.orderList ≠ 9 :: next :: rest) ∧ (claimHeld order low).ru.heldPin = some 9 ∧
    (claimHeld order low).ar.pin ≠ some 9 ∧ ((claimHeld order low).cu.entry 9).state = .full ∧
    (9 ∈ (claimHeld order low).cu.orderList ∧ ((claimHeld order low).cu.entry 9).firstSeq ≤ (claimHeld order low).ar.mark ↔
      order = [9]) ∧
    (claimHeld order low).ar.served = some { card := 3, work := request 0x10 0 1 0 2 8 0 0 } := by
  intro low hl order h
  simp only [List.mem_cons, List.not_mem_nil, or_false] at h hl
  rcases h with rfl | rfl <;> rcases hl with rfl | rfl <;>
    exact ⟨by decide +kernel, by decide +kernel, fun n r e => (by cases e), by decide +kernel, by decide +kernel, by decide +kernel,
      by decide +kernel, by decide +kernel⟩

/-- A claim that is refused for a FULL segment, which is not the head, and one whose grant leaves a card waiting for space. -/
def claimWaits : State :=
  let s := pool 2 3 (appending 0 1)
  { s with
    cu := { library.cu with freePool := [0, 1] }
    rp := { s.rp with served := some { servedAppend 0 1 with wait := .space }, openSeg := none }
    ru := { Ru.reset with claim := some 9 } }

theorem witness_ClaimWhileACardWaits : claimWaits.cu.orderList = 9 :: 10 :: [] ∧ (claimWaits.cu.entry 9).state = .full ∧
    claimWaits.rp.served = some { servedAppend 0 1 with wait := .space } ∧
    readRecord claimWaits { servedAppend 0 1 with wait := .space } = .ok record5 ∧ claimWaits.rp.bufA.state = .empty ∧
    claimWaits.rp.bufB.state = .empty ∧ claimWaits.cu.freePool.length = 2 ∧ claimWaits.ec.engine = .ready := by decide +kernel

/-- Segment 11 ERASING, an operation of a source on it in its last phase. -/
def erasing (src : Source) (act : FlashAct) (retire : Bool) : State :=
  ending 0 src act (withEntry 11 { member .erasing 1 1 0 0 1 1 with retire := retire } library)

theorem witness_ReclaimEraseFreesOrMarks : ∀ b ∈ [false, true],
    Ends 0 .reclaim (.eraseSegment 11) (erasing .reclaim (.eraseSegment 11) b) ∧
    Ends 0 .reclaim (.eraseSegment 11) (inState .stopping (erasing .reclaim (.eraseSegment 11) b)) ∧
    CatalogOk (erasing .reclaim (.eraseSegment 11) b) ∧
    ((erasing .reclaim (.eraseSegment 11) b).cu.entry 11).retire = b := by
  intro b h
  simp only [List.mem_cons, List.not_mem_nil, or_false] at h
  rcases h with rfl | rfl <;>
    exact ⟨ends_of (by decide +kernel), ends_of (by decide +kernel), catalogOk_of (by decide +kernel), by decide +kernel⟩

/-- The library with a pool, a trim point, a hold of low_seq `low`, a pin and a supersession list. -/
def judging (n trim low : Nat) (mode : Retention) (pin : Option Nat) (sup : List Nat) : State :=
  let s := pool n 3 library
  { s with
    cu := { s.cu with mode := mode }
    cp := { s.cp with trimPoint := trim, holds := [held 7 low 3] }
    ar := { s.ar with pin := pin }
    ru := { s.ru with superseded := sup } }

/-- The RU's judgement and the consultation at their boundaries: a pool of 5 and 6, a trim point at last_seq and one below, a
hold at last_seq and one above, WRAP and KEEP, the head pinned, a superseded segment pinned or not, an operation outstanding. -/
theorem test_judgement :
    (ruJudge (judging 5 0 6 .wrap none [])).ru.claim = some 9 ∧ (ruJudge (judging 6 0 6 .wrap none [])).ru.claim = none ∧
    (ruJudge (judging 5 0 6 .keep none [])).ru.claim = none ∧ (ruJudge (judging 6 5 6 .keep none [])).ru.claim = some 9 ∧
    (ruJudge (judging 6 4 6 .keep none [])).ru.claim = none ∧ (ruJudge (judging 5 0 5 .wrap none [])).ru.claim = none ∧
    (ruJudge (judging 5 0 6 .wrap (some 9) [])).ru.claim = none ∧ spaceMayReturn (judging 5 0 6 .wrap (some 9) []) = true ∧
    spaceMayReturn (judging 6 0 6 .wrap none []) = false ∧ spaceMayReturn (judging 5 0 5 .wrap none []) = false ∧
    (ruJudge (judging 5 0 6 .wrap none [11, 12])).ru = { Ru.reset with op := .erase 11, superseded := [12] } ∧
    ruJudge (judging 5 0 6 .wrap (some 11) [11, 12]) = judging 5 0 6 .wrap (some 11) [11, 12] ∧
    (inState .stopping (judging 5 0 6 .wrap none [])).ec.engine.running = true ∧
    (ruJudge (inState .stopping (judging 5 0 6 .wrap none []))).ru.claim = some 9 ∧
    (ruJudge (inState .formatting (judging 5 0 6 .wrap none []))).ru.claim = none := by decide +kernel

/-- An operation of the EC on segment 11 in its last phase, with an erase list. -/
def mountErasing (act : FlashAct) (retire : Bool) (list : List Nat) : State :=
  let s := inState .mounting (erasing .engine act retire)
  { s with ec := { s.ec with step := .erase, eraseList := list } }

theorem witness_RetireMarkRetires :
    Ends 0 .reclaim (.programMark 11 true) (erasing .reclaim (.programMark 11 true) false) ∧
    Ends 0 .reclaim (.programMark 11 true) (inState .stopping (erasing .reclaim (.programMark 11 true) false)) ∧
    CatalogOk (erasing .reclaim (.programMark 11 true) false) ∧
    CatalogOk (mountErasing (.programMark 11 false) true [2049]) ∧
    (mountErasing (.programMark 11 false) true [2049]).ec.engine = .mounting ∧
    (mountErasing (.programMark 11 false) true [2049]).fs.ending =
      some (0, { source := .engine, act := .programMark 11 false }) ∧ segDie 2049 ≠ 0 ∧
    CatalogOk (mountErasing (.programMark 11 true) true [2049, 12, 13]) ∧
    (mountErasing (.programMark 11 true) true [2049, 12, 13]).ec.eraseList = [2049] ++ 12 :: [13] ∧
    (mountErasing (.programMark 11 true) true [2049, 12, 13]).fs.ending =
      some (0, { source := .engine, act := .programMark 11 true }) ∧ segDie 12 = 0 :=
  ⟨ends_of (by decide +kernel), ends_of (by decide +kernel), catalogOk_of (by decide +kernel), catalogOk_of (by decide +kernel),
    by decide +kernel,
    by decide +kernel, by decide +kernel, catalogOk_of (by decide +kernel), by decide +kernel⟩

theorem witness_EcEraseFreesOrMarks : (∀ l ∈ [[], [2049], [2049, 12, 13]],
      CatalogOk (mountErasing (.eraseSegment 11) false l) ∧
      (mountErasing (.eraseSegment 11) false l).ec.engine = .mounting ∧
      (mountErasing (.eraseSegment 11) false l).ec.stopPending = false ∧
      ((mountErasing (.eraseSegment 11) false l).cu.entry 11).retire = false ∧
      (mountErasing (.eraseSegment 11) false l).fs.ending = some (0, { source := .engine, act := .eraseSegment 11 })) ∧
    ((mountErasing (.eraseSegment 11) true []).cu.entry 11).retire = true ∧ segDie 2049 ≠ 0 ∧ segDie 12 = 0 := by
  refine ⟨?_, by decide +kernel⟩
  intro l h
  simp only [List.mem_cons, List.not_mem_nil, or_false] at h
  rcases h with rfl | rfl | rfl <;> and_intros <;> first | decide +kernel | exact catalogOk_of (by decide +kernel)

/-! ### The flash bus and the probe -/

/-- One operation on die 1 at a stage, die 3 waiting with a first phase. -/
def onBus (act : FlashAct) (st : Stage) (timer : Option Nat) (third : Stage) : State :=
  let d1 : Die := { queue := [{ source := .reader, act := act }], stage := st, timer := timer }
  let d3 : Die := { queue := [{ source := .reader, act := .readRow 6144 0 }], stage := third, timer := none }
  { readyS with fs := (Fs.reset.setDie 1 d1).setDie 3 d3 }

/-- Two untimed commands of a soft reset left to send. -/
def afterSoft : State := { State.reset with fs := { Fs.reset with softResets := [1, 3] } }

theorem witness_PhaseEndsAndReady :
    (BusOk (onBus (.eraseSegment 2048) .first none .firstPending).fs ∧
      ((onBus (.eraseSegment 2048) .first none .firstPending).fs.die 1).stage = .first ∧
      (FlashAct.eraseSegment 2048).busyLimit = some 15000) ∧
    afterSoft.fs.softResets = 1 :: [3] ∧
    (BusOk (onBus (.eraseSegment 2048) .busy (some 1) .first).fs ∧
      (onBus (.eraseSegment 2048) .busy (some 1) .first).fs.busBusy = true) ∧
    (BusOk { (onBus (.eraseSegment 2048) .busy (some 1) .first).fs with d3 := .cleared } ∧
      ({ (onBus (.eraseSegment 2048) .busy (some 1) .first).fs with d3 := .cleared } : Fs).busBusy = false) := by
  and_intros <;> first | decide +kernel | exact busOk_of (by decide +kernel)

/-- Die 1 is present and busy. -/
def busy (e : EngineState) : State :=
  let s := inState e (onBus (.readRow 2048 0) .busy (some 1) .first)
  { s with fs := { s.fs with mask := 0xF } }

theorem witness_DieTimeoutFaults : ∀ e ∈ [EngineState.mounting, .ready, .formatting, .stopping],
    CardsOk (busy e) ∧ ((busy e).fs.die 1).timer.isSome = true ∧ (busy e).fs.mask.getLsbD 1 = true ∧
    (busy e).ec.engine = e := by
  intro e h
  simp only [List.mem_cons, List.not_mem_nil, or_false] at h
  rcases h with rfl | rfl | rfl | rfl <;> exact ⟨cardsOk_of (by decide +kernel), by decide +kernel⟩

/-- Probing die 1. -/
def probing (act : FlashAct) (st : Stage) (timer : Option Nat) (r : ProbeRecs) : State :=
  { State.reset with
    fs := Fs.reset.setDie 1 { queue := [{ source := .engine, act := act }], stage := st, timer := timer }
    ec := { Ec.reset with engine := .probing, step := .probe, probeRec := r } }

theorem witness_ProbeRecordsEachDie :
    ((probing (.resetDie 1) .busy (some 5) .allPending).fs.die 1).stage = .busy ∧
    (probing (.resetDie 1) .busy (some 5) .allPending).fs.mask = 0 ∧
    (probing (.resetDie 1) .busy (some 5) .allPending).ec.engine = .probing ∧
    (probing (.probe 1) .first none .allPending).fs.ending = some (1, { source := .engine, act := .probe 1 }) := by
  decide +kernel

/-- The probe has ended with the records given. -/
def probed (r : ProbeRecs) : State := { State.reset with ec := { Ec.reset with engine := .probing, step := .probe, probeRec := r } }

theorem witness_ProbeEndStartsMount : ∀ r ∈ [ProbeRecs.mk .absent .absent .absent .absent, ⟨.absent, .absent, .absent, .present⟩],
    CardsOk (probed r) ∧ (probed r).ec.engine = .probing ∧ (probed r).ec.stopPending = false ∧ (probed r).fs.quiet = true ∧
    (∀ c, probeRecOf (probed r).ec.probeRec c ≠ .pending) := by
  intro r h
  simp only [List.mem_cons, List.not_mem_nil, or_false] at h
  rcases h with rfl | rfl <;> exact ⟨cardsOk_of (by decide +kernel), by decide +kernel⟩

/-! ### Mounting -/

/-- MOUNTING at a step. -/
def mounting (st : ProcStep) : State := { State.reset with ec := { Ec.reset with engine := .mounting, step := st } }

/-- A segment's row-0 spare bytes: a trailer of record `q` and a header with no cut. -/
def spareRow0 (q serial : Nat) : ReadSpare where
  spare0 := 0xFF :: trailerBytes 1 0 1 q 3 3 20 (storedImage 0 3 q [1, 2, 3, 4]) ++ erased 32
  spare1 := 0xFF :: headerBytes 1 serial q .wrap 0xFF 0xFFFF ++ erased 32

/-- The candidate that those bytes make. -/
def candidate (seg q serial : Nat) : Candidate where
  seg := seg
  header := Header.parse (spareRow0 q serial).spare1
  trailer := Trailer.parse (spareRow0 q serial).spare0

/-- Row 0 of segment 10 awaited by the scan. -/
def scanHolds (seg : Nat) : State :=
  let s := ending 0 .engine (.readRow seg 0) (mounting .scan)
  { s with ec := { s.ec with scanHeld := [candidate seg 6 1] } }

/-- The header row of FORMAT is a possible candidate, with no record; a header that names its own segment as its predecessor, and
a trailer of another epoch, are not. -/
theorem test_possibleCandidates :
    let sp (q epoch count fill row0 pred : Nat) : ReadSpare := {
      spare0 := 0xFF :: trailerBytes epoch 0 count q 0 0 fill (erased 4096) ++ erased 32
      spare1 := 0xFF :: headerBytes 1 1 q .wrap row0 pred ++ erased 32 }
    possibleCandidate 10 (sp 1 1 0 0 0xFF 0xFFFF) = true ∧ possibleCandidate 10 (sp 2 1 1 16 62 8191) = true ∧
    possibleCandidate 10 (sp 2 1 1 16 62 10) = false ∧ possibleCandidate 10 (sp 2 1 1 16 63 9) = false ∧
    possibleCandidate 10 (sp 2 1 1 16 62 8192) = false ∧ possibleCandidate 10 (sp 2 2 1 16 0xFF 0xFFFF) = false ∧
    possibleCandidate 10 (sp 1 1 0 0 62 9) = false ∧ possibleCandidate 10 (sp 2 1 256 4096 0xFF 0xFFFF) = true ∧
    possibleCandidate 10 (sp 2 1 257 4096 0xFF 0xFFFF) = false := by decide +kernel

theorem witness_ScanClassifiesSegment :
    (∀ seg ∈ [9, 2047], (ending 0 .engine (.readTrailers seg 0) (mounting .scan)).ec.engine = .mounting ∧
      (ending 0 .engine (.readTrailers seg 0) (mounting .scan)).ec.step = .scan ∧
      Sparse.wf Entry.freed (ending 0 .engine (.readTrailers seg 0) (mounting .scan)).cu.catalog = true ∧
      (ending 0 .engine (.readTrailers seg 0) (mounting .scan)).fs.ending =
        some (0, { source := .engine, act := .readTrailers seg 0 })) ∧
    ((0x00 :: erased 63).getD 0 0 ≠ 0xFF) ∧ ((erased 1 ++ [0, 0] ++ erased 61).getD 1 0xFF = 0) ∧
    (∀ b ∈ erased 64, b = 0xFF) ∧ possibleCandidate 10 (spareRow0 6 1) = true ∧
    possibleCandidate 10 { spare0 := (spareRow0 6 1).spare0, spare1 := erased 64 } = false ∧
    (scanHolds 10).ec.scanHeld = [] ++ candidate 10 6 1 :: [] ∧
    (scanHolds 10).fs.ending = some (0, { source := .engine, act := .readRow 10 0 }) ∧
    RowChecked row6 0 ∧ ¬ RowChecked goodRow 0 := by
  and_intros <;>
    first | decide +kernel | exact (rowVerified_iff _ _).1 row6_verified | exact goodRow_unchecked 0

/-- The scan has ended with candidates. -/
def scanned (cs : List Candidate) : State := { mounting .scan with ec := { (mounting .scan).ec with candidates := cs } }

/-- A candidate whose header names a cut of a predecessor at row 20. -/
def cutting (seg q serial predecessor : Nat) : Candidate :=
  { candidate seg q serial with header := { (candidate seg q serial).header with cutRow := 20, predecessor := predecessor } }

/-- Candidates of two epochs: 9 and 10 cut by 12, which with 11 names 10; 13 and 14 share a serial. -/
def manyCandidates : List Candidate :=
  [candidate 10 6 2, candidate 9 1 1, cutting 11 7 3 10, cutting 12 7 4 10, candidate 13 9 6, candidate 14 9 6,
    { candidate 15 1 1 with header := { (candidate 15 1 1).header with epoch := 0 } }]

theorem witness_ScanEndOrdersMembers : ∀ cs ∈ [[], manyCandidates],
    (scanned cs).ec.engine = .mounting ∧ (scanned cs).ec.step = .scan ∧ (scanned cs).ec.stopPending = false ∧
    (scanned cs).fs.quiet = true ∧ Sparse.wf Entry.freed (scanned cs).cu.catalog = true ∧
    ((scanned cs).ec.candidates.map Candidate.seg).Nodup := by decide +kernel

/-- A member of a mount: segment `seg` from record `q` to `last`. -/
def mountMember (seg q last serial : Nat) (prog : MemberProg) : Member :=
  { memberOf [] (candidate seg q serial) with lastSeq := last, prog := prog }

/-- A read of the member in segment 10 in its last phase. -/
def memberReading (prog : MemberProg) (act : FlashAct) : State :=
  let s := ending 0 .engine act (mounting .memberRead)
  { s with ec := { s.ec with members := [mountMember 9 1 5 1 .done, mountMember 10 6 6 2 prog] } }

/-- Row 1 of segment 10 with record 7 alone. -/
def row7 : ReadRow := rowFrom 1 7 [rec3]

theorem row7_reads : row7.data = rowOf (imagesFrom 7 [rec3]) ∧
    row7.spare0 = 0xFF :: trailerBytes 1 1 1 7 3 3 20 (imagesFrom 7 [rec3]) := programmed_reads (by decide +kernel)

theorem row7_accepted : memberRowAccepted (mountMember 10 6 6 2 (.scanRow 1)) 1 row7 = true := by
  unfold memberRowAccepted rowVerified rowTrailer; rw [row7_reads.1, row7_reads.2]; decide +kernel

/-- The last entry of a digest for one record in row 62. -/
def lastEntry : List DigestEntry := [{ firstSeq := 6, firstKey := 3, count := 1 }]

/-- R164's agreement with the last entry, by the model's own check. -/
theorem lastRowAgrees_iff (q : Nat) : LastRowAgrees (spareOf 62 q).spare0 1 lastEntry ↔
    digestAgrees (mountMember 10 6 6 2 .digestRow) lastEntry (Trailer.parse (spareOf 62 q).spare0) = true := by
  rw [digestAgrees_iff, show (mountMember 10 6 6 2 .digestRow).header.epoch = 1 by decide +kernel]

theorem witness_MemberReadExtendsMember :
    (∀ p ∈ [(MemberProg.scanRow 1, FlashAct.readRow 10 1), (.digestRow, .readRow 10 63), (.trailer62 none, .readTrailers 10 62),
        (.trailer62 (some lastEntry), .readTrailers 10 62)],
      (memberReading p.1 p.2).ec.engine = .mounting ∧ (memberReading p.1 p.2).ec.step = .memberRead ∧
      (memberReading p.1 p.2).ec.stopPending = false ∧
      (memberReading p.1 p.2).ec.members = [mountMember 9 1 5 1 .done] ++ mountMember 10 6 6 2 p.1 :: [] ∧
      (memberReading p.1 p.2).fs.ending = some (0, { source := .engine, act := p.2 })) ∧
    segDie 10 = 0 ∧ MemberRowAcceptable (mountMember 10 6 6 2 (.scanRow 1)) 1 row7 ∧
    1 + 1 < (mountMember 10 6 6 2 (.scanRow 1)).limit ∧
    ¬ MemberRowAcceptable (mountMember 10 6 6 2 (.scanRow 1)) 1 goodRow ∧
    LastRowAgrees (spareOf 62 6).spare0 1 lastEntry ∧ ¬ LastRowAgrees (spareOf 62 7).spare0 1 lastEntry ∧
    (mountMember 10 6 6 2 .digestRow).header.epoch = 1 ∧ (mountMember 10 2 2 2 .digestRow).header.firstSeq = 2 ∧
    DigestSound row63 1 2 ∧ ¬ DigestSound goodRow 1 2 := by
  and_intros <;>
    first | decide +kernel | exact (memberRowAccepted_iff _ _ _).1 row7_accepted | exact row63_sound
          | exact fun h => goodRow_unchecked _ h.checked | exact (lastRowAgrees_iff 6).2 (by decide +kernel)
          | exact fun h => absurd ((lastRowAgrees_iff 7).1 h) (by decide +kernel)

/-- The read of segment 10, whose row limit is `limit`, ends; segment 11 of the same die is left, and 2050 of another. -/
def memberLeft (limit : Nat) (prog : MemberProg) (act : FlashAct) : State :=
  let s := ending 0 .engine act (mounting .memberRead)
  { s with ec := { s.ec with members := [mountMember 9 1 5 1 .done, { mountMember 10 6 6 2 prog with limit := limit },
    mountMember 2050 7 7 3 .digestRow, mountMember 11 8 8 4 .digestRow] } }

theorem witness_MemberEnds :
    (∀ p ∈ [(2, MemberProg.scanRow 1, FlashAct.readRow 10 1), (63, .trailer62 (some lastEntry), .readTrailers 10 62)],
      (memberLeft p.1 p.2.1 p.2.2).ec.members = [mountMember 9 1 5 1 .done] ++ { mountMember 10 6 6 2 p.2.1 with limit := p.1 } ::
        [mountMember 2050 7 7 3 .digestRow, mountMember 11 8 8 4 .digestRow] ∧
      (memberLeft p.1 p.2.1 p.2.2).fs.ending = some (0, { source := .engine, act := p.2.2 }) ∧
      (∀ x ∈ [mountMember 9 1 5 1 .done], segDie x.seg = 0 → x.prog = .done)) ∧
    MemberRowAcceptable { mountMember 10 6 6 2 (.scanRow 1) with limit := 2 } 1 row7 ∧
    execTo (.memberReadResult (.trailers (spareOf 62 6))) (memberLeft 63 (.trailer62 (some lastEntry)) (.readTrailers 10 62))
      (fun t => (t.fs.die 0).queue == [{ source := .engine, act := .readRow 11 63 }] &&
        t.ec.members.map Member.full == [false, true, false, false] &&
        t.ec.members.map Member.keys == [some (3, 3), some (3, 3), some (3, 3), some (3, 3)]) = true := by
  exact ⟨by decide +kernel, (memberRowAccepted_iff _ _ _).1 row7_accepted, by decide +kernel⟩

/-- The member reads have ended: segment 9 with records 1 to `last`, segment 10 with record 6. -/
def membersRead (st : ProcStep) (last : Nat) : State :=
  { mounting st with ec := { (mounting st).ec with members := [mountMember 9 1 last 1 .done, mountMember 10 6 6 2 .done] } }

/-- Five members: an orphan before a gap, two linked ones, an empty one and one cut to nothing; segment 20 is UNCLEAN. -/
def gappedRead : State :=
  let s := withEntry 20 { Entry.freed with state := .unclean } (mounting .memberRead)
  { s with ec := { s.ec with members :=
      [mountMember 9 1 4 1 .done, mountMember 11 6 6 2 .done, { mountMember 12 6 6 3 .done with rowsValid := 0, retire := true },
        { mountMember 13 7 6 4 .done with keys := none }, mountMember 10 7 8 5 .done] } }

theorem witness_MemberReadsEndLinksMembers : (∀ last ∈ [4, 5],
      (membersRead .memberRead last).ec.engine = .mounting ∧ (membersRead .memberRead last).ec.step = .memberRead ∧
      (membersRead .memberRead last).ec.stopPending = false ∧ (membersRead .memberRead last).fs.quiet = true ∧
      Sparse.wf Entry.freed (membersRead .memberRead last).cu.catalog = true ∧
      ((membersRead .memberRead last).ec.members.map Member.seg).Nodup) ∧
    (gappedRead.ec.engine = .mounting ∧ gappedRead.ec.step = .memberRead ∧ gappedRead.ec.stopPending = false ∧
      gappedRead.fs.quiet = true ∧ Sparse.wf Entry.freed gappedRead.cu.catalog = true ∧
      (gappedRead.ec.members.map Member.seg).Nodup ∧ (gappedRead.cu.entry 20).state = .unclean) ∧
    execTo .memberReadsEnd gappedRead (fun t => t.ec.members.map Member.seg == [11, 10] && t.ec.orphans == 1 &&
      t.ec.eraseList == [12, 13, 20]) = true := by decide +kernel

theorem witness_CatalogLoadEntersReady : (∀ st ∈ [ProcStep.erase, .build],
      (membersRead st 5).ec.engine = .mounting ∧ ((membersRead st 5).ec.step = .erase ∨ (membersRead st 5).ec.step = .build) ∧
      (membersRead st 5).ec.eraseList = [] ∧ (membersRead st 5).fs.quiet = true ∧
      (membersRead st 5).ec.stopPending = false ∧ Sparse.wf Entry.freed (membersRead st 5).cu.catalog = true ∧
      ((membersRead st 5).ec.members.map Member.seg).Nodup ∧
      (membersRead st 5).ec.members.head? = some (mountMember 9 1 5 1 .done) ∧
      (membersRead st 5).ec.members.getLast? = some (mountMember 10 6 6 2 .done)) ∧
    (membersRead .build 5).ec.members = [mountMember 9 1 5 1 .done] ++ mountMember 10 6 6 2 .done :: [] ∧
    (mountMember 10 6 6 2 .done).lastSeq + 1 ≠ (mountMember 10 6 6 2 .done).header.firstSeq ∧
    (mountMember 13 1 0 4 .done).lastSeq + 1 = (mountMember 13 1 0 4 .done).header.firstSeq := by decide +kernel

/-! ### FORMAT and stops -/

/-- FORMATTING at a step with the card served, over a mask. -/
def formatting (st : ProcStep) (mask : BitVec 4) : State :=
  { State.reset with
    fs := { Fs.reset with mask := mask }
    cu := { Cu.reset with catalog := [(9, member .full 1 5 1 2 1 64)], epoch := max32 - 1 }
    cp := { Cp.reset with served := some { card := 4, work := request 0x31 0 0 0 0 0 1 0, job := .format } }
    ec := { Ec.reset with engine := .formatting, step := st } }

/-- The same over segments of several states, two of which FORMAT does not erase. -/
def formatMany (st : ProcStep) : State :=
  let s := formatting st 3
  { s with cu := { s.cu with catalog := [(3, { Entry.freed with state := .retired, cause := .factory }),
    (5, { Entry.freed with state := .retired, cause := .mark }), (9, member .full 1 5 1 2 1 64),
    (2050, { Entry.freed with state := .unclean }), (2060, { Entry.freed with state := .stale })] } }

/-- FORMATTING with no segment FREE, at the last epoch, with a stop pending or not. -/
def formatNone (stop : Bool) : State :=
  let s := formatting .formatErase 0
  { s with cu := { s.cu with epoch := max32 }, ec := { s.ec with stopPending := stop } }

theorem witness_FormatErasesThenOpens :
    (∀ p ∈ [formatting .formatWait 1, formatting .formatErase 1, formatting .formatErase 0, formatMany .formatWait,
        formatMany .formatErase, formatNone false, formatNone true],
      p.ec.engine = .formatting ∧ p.fs.quiet = true ∧ Sparse.wf Entry.freed p.cu.catalog = true ∧
      Memory.wf p.xp.mem = true ∧ p.cu.orderList = [] ∧ p.ec.eraseList = [] ∧ p.cp.served.isSome = true) ∧
    (formatMany .formatWait).ec.step = .formatWait ∧ (formatMany .formatErase).ec.step = .formatErase ∧
    (formatting .formatErase 1).cu.epoch < max32 ∧ (formatNone true).ec.stopPending = true ∧
    ((0 : Nat) < 8192 ∧ (formatting .formatErase 1).fs.mask.getLsbD (0 / 2048) = true ∧
      ((formatting .formatErase 1).cu.entry 0).state = .free) ∧
    (∀ x, (formatNone true).fs.mask.getLsbD (x / 2048) = false) ∧
    execTo .formatQuiet (formatMany .formatWait) (fun t => t.ec.eraseList == [9, 2060] &&
      (t.fs.die 0).queue == [{ source := .engine, act := .eraseSegment 5 }] &&
      (t.fs.die 1).queue == [{ source := .engine, act := .eraseSegment 2050 }] &&
      [3, 5, 9, 2050].map (fun x => (t.cu.entry x).state) == [.retired, .erasing, .full, .erasing]) = true ∧
    execTo .formatErasesEnd (formatting .formatErase 1) (fun t => t.cu.orderList == [0] && t.cu.epoch == max32 &&
      t.cu.mode == .keep && t.ec.step == .formatHeader && t.cu.freePool.length == 2046) = true ∧
    execTo .formatErasesEnd (formatNone true) (fun t => t.ec.engine == .halted && t.xp.events == 0x80 &&
      cardByte t 4 == 3) = true ∧
    execTo .formatErasesEnd (formatNone false) (fun t => t.ec.engine == .unformatted && t.xp.events == 0 &&
      cardByte t 4 == 3) = true := by
  refine ⟨by decide +kernel, by decide +kernel, by decide +kernel, by decide +kernel, by decide +kernel, by decide +kernel,
    fun x => ?_, by decide +kernel, by decide +kernel, by decide +kernel, by decide +kernel⟩
  have : (formatNone true).fs.mask = 0 := by decide +kernel
  rw [this]; simp

/-- FORMAT's header row in segment 8 in its last phase, with a pool. -/
def headerEnding (stop : Bool) : State :=
  let s := ending 0 .engine (.programRow 8 0 [] [] []) (formatting .formatHeader 1)
  { s with
    cu := { s.cu with orderList := [8], freePool := [10, 11], nextSerial := 2 }
    ec := { s.ec with stopPending := stop } }

theorem witness_HeaderRowResultEndsFormat : ∀ b ∈ [false, true],
    (headerEnding b).ec.engine = .formatting ∧ (headerEnding b).ec.step = .formatHeader ∧
    Sparse.wf Entry.freed (headerEnding b).cu.catalog = true ∧ Memory.wf (headerEnding b).xp.mem = true ∧
    (headerEnding b).cp.served.isSome = true ∧
    (headerEnding b).fs.ending = some (0, { source := .engine, act := .programRow 8 0 [] [] [] }) ∧
    (headerEnding b).cu.freePool = 10 :: [11] ∧ (headerEnding b).cu.orderList = [8] := by decide +kernel

/-- The same with the pool empty. -/
def headerEmpty (stop : Bool) : State :=
  let s := headerEnding stop
  { s with cu := { s.cu with freePool := [] } }

theorem witness_HeaderRowFailsWithNoPool : ∀ b ∈ [false, true],
    (headerEmpty b).ec.engine = .formatting ∧ (headerEmpty b).cu.freePool = [] ∧ (headerEmpty b).cu.orderList = [8] ∧
    (headerEmpty b).fs.ending = some (0, { source := .engine, act := .programRow 8 0 [] [] [] }) ∧
    execTo (.formatHeaderRowComplete .pass .fail) (headerEmpty b) (fun t =>
      t.ec.engine == (if b then .halted else .unformatted) && t.cu.orderList.isEmpty && t.cu.retired == [8] &&
      cardByte t 4 == 3) = true := by decide +kernel

/-- STOPPING with the five flags at a value. -/
def stopping (b : Bool) : State :=
  { State.reset with ec := { Ec.reset with engine := .stopping, loaded := true, quiet := ⟨b, b, b, b, b⟩ } }

theorem witness_StopsEndInHalted :
    (∀ e ∈ [EngineState.probing, .mounting], ∃ s : State, s.ec.stopPending = true ∧ s.ec.engine = e ∧ s.fs.quiet = true) ∧
    (stopping true).ec.quiet.all = true ∧ (stopping false).ec.quiet.all = false ∧
    (stopping true).ec.engine = .stopping := by
  refine ⟨?_, by decide +kernel⟩
  intro e _
  exact ⟨{ State.reset with ec := { Ec.reset with engine := e, stopPending := true } }, rfl, rfl, rfl⟩

end Sys2Proof.Tests
end

section
/-!
SUPPORT. The laws of cards for given lists of queued and held cards, and what a change of one card does to them (R13, R19 to R21).
-/
namespace Sys2Proof.Machine

-- One proof at a time, as in the tests: proofs checked side by side need more threads than the limits allow.
set_option Elab.async false

/-! ### The laws of cards, for given lists of queued and held cards -/

/-- The laws of `CardsOk` for an Exchange Port and two lists: the cards in queues and the cards held. -/
structure CardsIn (queued held : List CardIx) (x : Xp) : Prop where
  canonical : Memory.wf x.mem = true
  stateByte : ∀ c, (xmRead x.mem (cardBase c)).toNat ≤ 3
  answered : ∀ c : CardIx, x.answered.getLsbD c.val = (xmRead x.mem (cardBase c) == CardState.answered.code)
  queuedOnce : queued.Nodup
  queued : ∀ c, c ∈ queued ↔ xmRead x.mem (cardBase c) = CardState.posted.code
  heldOnce : held.Nodup
  held : ∀ c, c ∈ held ↔ xmRead x.mem (cardBase c) = CardState.taken.code

/-- The laws of `CardsOk` while the cards of `hand`, TAKEN, are with no path yet. -/
def CardsHand (hand : List CardIx) (s : State) : Prop := CardsIn (queuedCards s) (hand ++ heldCards s) s.xp

theorem cardsOk_iff (s : State) : CardsOk s ↔ CardsHand [] s :=
  ⟨fun ⟨a, b, c, d, e, f, g⟩ => ⟨a, b, c, d, e, f, g⟩, fun ⟨a, b, c, d, e, f, g⟩ => ⟨a, b, c, d, e, f, g⟩⟩

/-- A card given a new state, and with it its places, keeps the laws. -/
theorem CardsIn.setState {q h q' h' : List CardIx} {s : State} (k : CardsIn q h s.xp) (c : CardIx) (st : CardState)
    (hq : q'.Nodup) (hh : h'.Nodup) (mq : ∀ d, d ∈ q' ↔ if d = c then st = .posted else d ∈ q)
    (mh : ∀ d, d ∈ h' ↔ if d = c then st = .taken else d ∈ h) : CardsIn q' h' (setCardState c st s).xp := by
  have byte (d : CardIx) : xmRead (setCardState c st s).xp.mem (cardBase d) =
      if d = c then st.code else xmRead s.xp.mem (cardBase d) := cardByte_setCardState k.canonical c d st
  refine ⟨Memory.wf_store k.canonical _ _, fun d => ?_, fun d => ?_, hq, fun d => ?_, hh, fun d => ?_⟩
  all_goals rw [byte d]
  · split
    · cases st <;> decide
    · exact k.stateByte d
  · rw [answered_setCardState]
    split
    · cases st <;> decide
    · exact k.answered d
  · rw [mq d]
    split
    · cases st <;> decide
    · exact k.queued d
  · rw [mh d]
    split
    · cases st <;> decide
    · exact k.held d

/-- The laws see no byte of exchange memory but the state bytes. -/
theorem CardsIn.of_stateBytes {q h : List CardIx} {x y : Xp} (k : CardsIn q h x) (wf : Memory.wf y.mem = true)
    (bytes : ∀ c, xmRead y.mem (cardBase c) = xmRead x.mem (cardBase c)) (answered : y.answered = x.answered) :
    CardsIn q h y :=
  ⟨wf, fun c => by rw [bytes]; exact k.stateByte c, fun c => by rw [bytes, answered]; exact k.answered c, k.queuedOnce,
    fun c => by rw [bytes]; exact k.queued c, k.heldOnce, fun c => by rw [bytes]; exact k.held c⟩

/-- Bytes stored in a card's second half or in the parcel area are no state bytes. -/
theorem CardsIn.storeList {q h : List CardIx} {s : State} (k : CardsIn q h s.xp) {a : Nat} {bs : List Byte}
    (ha : ∀ c, cardBase c < a ∨ a + bs.length ≤ cardBase c) : CardsIn q h (setMem (xmStoreList s.xp.mem a bs) s).xp :=
  k.of_stateBytes (Memory.wf_storeList k.canonical _ _) (fun c => xmRead_storeList_outside k.canonical (ha c)) rfl

/-- An answered card leaves the queue or the path it was in (R20). -/
theorem CardsIn.answer {q h q' h' : List CardIx} {s : State} (k : CardsIn q h s.xp) (c : CardIx) (r : Answer)
    (hq : q'.Nodup) (hh : h'.Nodup) (mq : ∀ d, d ∈ q' ↔ d ≠ c ∧ d ∈ q) (mh : ∀ d, d ∈ h' ↔ d ≠ c ∧ d ∈ h) :
    CardsIn q' h' (answerCard c r s).xp := by
  have hl := Answer.bytes_length r s.rp.durable
  have clear (d : CardIx) : cardBase d < cardBase c + 32 ∨ cardBase c + 32 + (r.bytes s.rp.durable).length ≤ cardBase d := by
    by_cases hd : d = c
    · subst hd; omega
    · have := cardBase_ne hd; omega
  refine CardsIn.setState (k.storeList clear) c .answered hq hh (fun d => ?_) (fun d => ?_)
  · rw [mq d]; split <;> simp_all
  · rw [mh d]; split <;> simp_all

theorem CardsIn.perm {q h q' h' : List CardIx} {x : Xp} (k : CardsIn q h x) (hq : q.Perm q') (hh : h.Perm h') :
    CardsIn q' h' x :=
  ⟨k.canonical, k.stateByte, k.answered, hq.nodup k.queuedOnce, fun c => by rw [← hq.mem_iff]; exact k.queued c,
    hh.nodup k.heldOnce, fun c => by rw [← hh.mem_iff]; exact k.held c⟩

theorem CardsIn.answerHeld {q h : List CardIx} {s : State} {c : CardIx} (k : CardsIn q (c :: h) s.xp) (r : Answer) :
    CardsIn q h (answerCard c r s).xp := by
  have hn := List.nodup_cons.1 k.heldOnce
  refine k.answer c r k.queuedOnce hn.2 (fun d => ⟨fun hd => ⟨?_, hd⟩, And.right⟩) (fun d => ?_)
  · rintro rfl
    have e := (k.queued d).1 hd
    rw [(k.held d).1 (.head _)] at e
    exact absurd e (by decide)
  · have : d ∈ h → d ≠ c := fun hd e => hn.1 (e ▸ hd)
    simp only [List.mem_cons]
    tauto

theorem CardsIn.answerQueued {q h : List CardIx} {s : State} {c : CardIx} (k : CardsIn (c :: q) h s.xp) (r : Answer) :
    CardsIn q h (answerCard c r s).xp := by
  have hn := List.nodup_cons.1 k.queuedOnce
  refine k.answer c r hn.2 k.heldOnce (fun d => ?_) (fun d => ⟨fun hd => ⟨?_, hd⟩, And.right⟩)
  · have : d ∈ q → d ≠ c := fun hd e => hn.1 (e ▸ hd)
    simp only [List.mem_cons]
    tauto
  · rintro rfl
    have e := (k.held d).1 hd
    rw [(k.queued d).1 (.head _)] at e
    exact absurd e (by decide)

end Sys2Proof.Machine
end

section
/-!
SUPPORT. Every operation of the append path, the RU and the query path keeps the laws of cards, with any number of TAKEN cards in
hand: taken and with no path yet.
-/
namespace Sys2Proof.Machine

-- One proof at a time, as in the tests: proofs checked side by side need more threads than the limits allow.
set_option Elab.async false

/-! ### Cards in hand, served and waiting -/

/-- From `s` to `t` nothing that the laws of the cards speak of changed. -/
def SameCards (s t : State) : Prop :=
  t.xp.mem = s.xp.mem ∧ t.xp.answered = s.xp.answered ∧ t.ci = s.ci ∧ heldCards t = heldCards s

variable {hand : List CardIx} {s t : State}

theorem CardsHand.same (k : CardsHand hand s) (h : SameCards s t := by simp [SameCards, heldCards]) :
    CardsHand hand t := by
  obtain ⟨hm, ha, hc, hh⟩ := h
  have hq : queuedCards t = queuedCards s := by simp only [queuedCards, hc]
  unfold CardsHand
  rw [hq, hh]
  exact k.of_stateBytes (hm ▸ k.canonical) (fun c => by rw [hm]) ha

/-- A card in hand is answered. -/
theorem answerCard_keepsCards {c : CardIx} (k : CardsHand (c :: hand) s) (r : Answer) :
    CardsHand hand (answerCard c r s) := by
  have hq : queuedCards (answerCard c r s) = queuedCards s := by simp [queuedCards]
  have hh : heldCards (answerCard c r s) = heldCards s := by simp [heldCards]
  unfold CardsHand
  rw [hq, hh]
  exact CardsIn.answerHeld k r

/-- The RP's served card comes in hand. -/
theorem clearServed_hands {v : RpServed} (hv : s.rp.served = some v) (k : CardsHand hand s) :
    CardsHand (v.card :: hand) (clearServed s) := by
  have hh : heldCards s = v.card :: heldCards (clearServed s) := by simp [heldCards, hv]
  exact CardsIn.perm k (.refl _) (hh ▸ List.perm_middle)

/-- Cards of the wait list come in hand. -/
theorem waitList_hands {ws rest : List WaitEntry} (hw : (s.rp.waitList).map WaitEntry.card = (ws ++ rest).map WaitEntry.card)
    (k : CardsHand hand s) :
    CardsHand (ws.map WaitEntry.card ++ hand) { s with rp := { s.rp with waitList := rest } } := by
  refine CardsIn.perm k (.refl _) ?_
  simp only [heldCards, hw, List.map_append]
  rw [List.perm_iff_count]
  intro c
  simp only [List.count_append]
  omega

/-- The AR's served card comes in hand. -/
theorem arReleased_hands {v : ArServed} (hv : s.ar.served = some v) (k : CardsHand hand s) :
    CardsHand (v.card :: hand) { s with ar := s.ar.released } := by
  refine CardsIn.perm k (.refl _) ?_
  simp only [heldCards, hv, Ar.released, Ar.reset]
  rw [List.perm_iff_count]
  intro c
  simp [List.count_append, List.count_cons]
  omega

/-- The CP's served card comes in hand. -/
theorem cpServed_hands {v : CpServed} (hv : s.cp.served = some v) (k : CardsHand hand s) :
    CardsHand (v.card :: hand) { s with cp := { s.cp with served := none } } := by
  refine CardsIn.perm k (.refl _) ?_
  simp only [heldCards, hv]
  rw [List.perm_iff_count]
  intro c
  simp [List.count_append, List.count_cons]
  omega

/-- A card in hand becomes the RP's served card. -/
theorem rpServes {v : RpServed} (hv : s.rp.served = none) (k : CardsHand (v.card :: hand) s) :
    CardsHand hand { s with rp := { s.rp with served := some v } } := by
  refine CardsIn.perm k (.refl _) ?_
  simp [heldCards, hv, List.perm_middle.symm]

/-- A card in hand joins the wait list. -/
theorem waitList_joins {w : WaitEntry} (k : CardsHand (w.card :: hand) s) :
    CardsHand hand { s with rp := { s.rp with waitList := s.rp.waitList ++ [w] } } := by
  refine CardsIn.perm k (.refl _) ?_
  simp only [heldCards]
  rw [List.perm_iff_count]
  intro c
  simp [List.count_append, List.count_cons]
  omega

/-- A card in hand becomes the AR's served card. -/
theorem arServes {v : ArServed} {a : Ar} (hv : s.ar.served = none) (ha : a.served = some v)
    (k : CardsHand (v.card :: hand) s) : CardsHand hand { s with ar := a } := by
  refine CardsIn.perm k (.refl _) ?_
  simp only [heldCards, hv, ha]
  rw [List.perm_iff_count]
  intro c
  simp [List.count_append, List.count_cons]
  omega

/-- A card in hand becomes the CP's served card. -/
theorem cpServes {v : CpServed} (hv : s.cp.served = none) (k : CardsHand (v.card :: hand) s) :
    CardsHand hand { s with cp := { s.cp with served := some v } } := by
  refine CardsIn.perm k (.refl _) ?_
  simp only [heldCards, hv]
  rw [List.perm_iff_count]
  intro c
  simp [List.count_append, List.count_cons]
  omega

/-- Bytes stored in the parcel area touch no card. -/
theorem parcelStore_keepsCards (k : CardsHand hand s) {a : Nat} (ha : 0x2400 ≤ a) (bs : List Byte) :
    CardsHand hand (setMem (xmStoreList s.xp.mem a bs) s) :=
  CardsIn.storeList k fun c => .inl (by have := cardBase_range c; omega)

theorem runBase_ge (w : Work) : 0x2400 ≤ w.runBase := Nat.le_add_right _ _

theorem setEvent_keepsCards (k : CardsHand hand s) (e : Event) : CardsHand hand (setEvent e s) := k.same

/-! ### Answers of the paths -/

theorem answerServed_keepsCards (k : CardsHand hand s) (o : CardOutcome) : CardsHand hand (answerServed o s) := by
  unfold answerServed
  split
  · exact k
  next v hv => exact answerCard_keepsCards (clearServed_hands hv k) (v.answer o)

theorem answerEntries_keepsCards (ws : List WaitEntry) (k : CardsHand (ws.map WaitEntry.card ++ hand) s) :
    CardsHand hand (answerEntries ws s) := by
  induction ws generalizing s with
  | nil => exact k
  | cons w ws ih => exact ih (answerCard_keepsCards k w.answer)

theorem answerReached_keepsCards (k : CardsHand hand s) : CardsHand hand (answerReached s) := by
  refine answerEntries_keepsCards _ (waitList_hands ?_ k)
  rw [List.takeWhile_append_dropWhile]

theorem answerWaitList_keepsCards (k : CardsHand hand s) (o : CardOutcome) : CardsHand hand (answerWaitList o s) := by
  refine answerEntries_keepsCards _ (waitList_hands ?_ k)
  simp

theorem awaitDurable_keepsCards {c : CardIx} (k : CardsHand (c :: hand) s) (w : Work) (target : Nat) (r : Answer) :
    CardsHand hand (awaitDurable c w target r s) := by
  unfold awaitDurable
  split
  · exact answerCard_keepsCards k r
  · exact waitList_joins (w := { card := c, work := w, target := target, answer := r }) k

theorem arAnswer_keepsCards (k : CardsHand hand s) (r : Answer) : CardsHand hand (arAnswer r s) := by
  unfold arAnswer
  split
  · exact k
  next v hv => exact answerCard_keepsCards (arReleased_hands hv k) r

theorem cpAnswer_keepsCards (k : CardsHand hand s) (r : Answer) : CardsHand hand (cpAnswer r s) := by
  unfold cpAnswer
  split
  · exact k
  next v hv => exact answerCard_keepsCards (cpServed_hands hv k) r

/-! ### The append path -/

theorem closeFilling_keepsCards (k : CardsHand hand s) : CardsHand hand (closeFilling s) :=
  k.same

theorem endStaging_keepsCards {v : RpServed} (hv : s.rp.served = some v) (k : CardsHand hand s) (o : CardOutcome) :
    CardsHand hand (endStaging v o s) := by
  have inHand := clearServed_hands hv k
  unfold endStaging
  dsimp only
  split
  · exact awaitDurable_keepsCards (closeFilling_keepsCards inHand) _ _ _
  · split
    · exact answerCard_keepsCards (closeFilling_keepsCards inHand) _
    · exact answerCard_keepsCards inHand _

theorem serveWait_keepsCards {v : RpServed} (hv : s.rp.served = some v) (k : CardsHand hand s) (w : RpWait) :
    CardsHand hand (serveWait v w s) := by
  unfold serveWait
  split
  · exact answerCard_keepsCards (clearServed_hands hv k) (v.answer .stopped)
  · exact k.same (by simp [SameCards, heldCards, hv])

/-- The end of a staging step: a full buffer closes, and the last counted record ends the staging. -/
theorem stagingEnd_keepsCards {v : RpServed} (hv : s.rp.served = some v) (k : CardsHand hand s) (full last : Prop)
    [Decidable full] [Decidable last] :
    CardsHand hand (if last then endStaging v .done (if full then closeFilling s else s)
      else if full then closeFilling s else s) := by
  have closed : CardsHand hand (if full then closeFilling s else s) := by
    split
    · exact closeFilling_keepsCards k
    · exact k
  have served : (if full then closeFilling s else s).rp.served = some v := by split <;> simp [hv]
  split
  · exact endStaging_keepsCards served closed _
  · exact closed

theorem stageInto_keepsCards {v : RpServed} (hv : s.rp.served = some v) (k : CardsHand hand s) (n : BufName)
    (h : HostRecord) : CardsHand hand (stageInto n v h s) := by
  unfold stageInto
  extract_lets seq b b1 v1 s1 rp1 s2 s3
  have k2 : CardsHand hand s2 := k.same (by simp [s2, rp1, s1, v1, SameCards, heldCards, hv])
  exact stagingEnd_keepsCards (v := v1) rfl k2 _ _

theorem placeInEmpty_keepsCards {v : RpServed} (hv : s.rp.served = some v) (k : CardsHand hand s) (n : BufName)
    (h : HostRecord) : CardsHand hand (placeInEmpty n v h s) := by
  have full : CardsHand hand
      (endStaging v .archiveFull (setEvent .archiveFull { s with rp := { s.rp with fullSeen := true } })) :=
    endStaging_keepsCards (by simp [hv]) k.same _
  unfold placeInEmpty
  split
  · exact stageInto_keepsCards (by simp [hv]) k.same _ _
  · split
    · exact serveWait_keepsCards hv k _
    · split
      · split
        · exact stageInto_keepsCards (by simp [hv]) k.same _ _
        · split
          · exact serveWait_keepsCards hv k _
          · exact full
      · split
        · exact serveWait_keepsCards hv k _
        · exact full

theorem placeFresh_keepsCards {v : RpServed} (hv : s.rp.served = some v) (k : CardsHand hand s) (h : HostRecord) :
    CardsHand hand (placeFresh v h s) := by
  unfold placeFresh
  split
  · exact serveWait_keepsCards hv k _
  · exact placeInEmpty_keepsCards hv k _ h

theorem placeRecord_keepsCards {v : RpServed} (hv : s.rp.served = some v) (k : CardsHand hand s) (h : HostRecord) :
    CardsHand hand (placeRecord v h s) := by
  unfold placeRecord
  split
  · split
    · exact stageInto_keepsCards hv k _ h
    · exact placeFresh_keepsCards (by simp [hv]) (closeFilling_keepsCards k) h
  · exact placeFresh_keepsCards hv k h

theorem stageNext_keepsCards {v : RpServed} (hv : s.rp.served = some v) (k : CardsHand hand s) :
    CardsHand hand (stageNext v s) := by
  unfold stageNext
  split
  · exact endStaging_keepsCards hv k _
  · exact placeRecord_keepsCards hv k _

theorem reexamineBuffer_keepsCards (k : CardsHand hand s) : CardsHand hand (reexamineBuffer s) := by
  unfold reexamineBuffer
  split
  next v hv =>
    split
    · exact stageNext_keepsCards hv k
    · exact k
  · exact k

theorem reexamineSpace_keepsCards (k : CardsHand hand s) : CardsHand hand (reexamineSpace s) := by
  unfold reexamineSpace
  split
  next v hv =>
    split
    · exact stageNext_keepsCards hv k
    · exact k
  · exact k

theorem ruJudge_keepsCards (k : CardsHand hand s) : CardsHand hand (ruJudge s) :=
  k.same

theorem react_keepsCards (k : CardsHand hand s) : CardsHand hand (react s) :=
  ruJudge_keepsCards (reexamineSpace_keepsCards (ruJudge_keepsCards k))

theorem judgeChange_keepsCards (k : CardsHand hand s) (old : State) : CardsHand hand (judgeChange old s) :=
  k.same

theorem reactPin_keepsCards (k : CardsHand hand s) (old : State) : CardsHand hand (reactPin old s) := by
  unfold reactPin
  split
  · exact k
  · exact react_keepsCards k

theorem recordStage_keepsCards (k : CardsHand hand s) : CardsHand hand (recordStage s) := by
  unfold recordStage
  split
  next v hv =>
    split
    · exact judgeChange_keepsCards (stageNext_keepsCards hv k) _
    · exact k
  · exact k

theorem enterReadOnly_keepsCards (k : CardsHand hand s) : CardsHand hand (enterReadOnly s) := by
  have closed : CardsHand hand
      { closePacker (discardStaged s) with rp := { (closePacker (discardStaged s)).rp with readOnly := true } } :=
    k.same
  exact setEvent_keepsCards (answerWaitList_keepsCards (answerServed_keepsCards closed .readOnly) .readOnly) .readOnly

theorem rowPassed_keepsCards (k : CardsHand hand s) (n : BufName) (d : Dest) : CardsHand hand (rowPassed n d s) := by
  unfold rowPassed
  dsimp only
  refine reexamineBuffer_keepsCards (answerReached_keepsCards ?_)
  split <;> exact k.same

theorem rowPass_keepsCards (k : CardsHand hand s) (n : BufName) (d : Dest) : CardsHand hand (rowPass n d s) := by
  have passed := rowPassed_keepsCards k n d
  unfold rowPass
  dsimp only
  split
  · exact ruJudge_keepsCards passed
  · exact judgeChange_keepsCards passed _

theorem relocate_keepsCards (k : CardsHand hand s) (n : BufName) (d : Dest) : CardsHand hand (relocate n d s) := by
  unfold relocate
  dsimp only
  split
  · split
    · exact k.same
    · exact enterReadOnly_keepsCards k.same
  · exact enterReadOnly_keepsCards k.same

theorem relocateAgain_keepsCards (k : CardsHand hand s) (n : BufName) (r : Relocation) (d : Dest) :
    CardsHand hand (relocateAgain n r d s) := by
  unfold relocateAgain
  split
  · split
    · exact k.same
    · exact enterReadOnly_keepsCards k.same
  · exact enterReadOnly_keepsCards k.same

theorem rowFail_keepsCards (k : CardsHand hand s) (n : BufName) (d : Dest) : CardsHand hand (rowFail n d s) := by
  have moved := relocate_keepsCards k n d
  unfold rowFail
  dsimp only
  split
  · exact ruJudge_keepsCards moved
  · exact react_keepsCards moved

theorem replacementFail_keepsCards (k : CardsHand hand s) (r : Relocation) (n : BufName) (d : Dest) :
    CardsHand hand (replacementFail r n d s) := by
  have moved := relocateAgain_keepsCards k n r d
  unfold replacementFail
  dsimp only
  split
  · exact ruJudge_keepsCards moved
  · exact react_keepsCards moved

theorem abortAppend_keepsCards (k : CardsHand hand s) : CardsHand hand (abortAppend s) :=
  answerWaitList_keepsCards (answerServed_keepsCards k _) _

/-- The result of a record row program, where its use keeps the laws. -/
theorem recordRowResult_keepsCards {use : BufName → Dest → State → State} (k : CardsHand hand s)
    (keeps : ∀ n d t, CardsHand hand t → CardsHand hand (use n d t)) : CardsHand hand (recordRowResult use s) := by
  have completed (c : Fin 4) : CardsHand hand (completeOp c s) := k.same
  exact recordRowResult_ind k completed (fun c n d _ _ _ => keeps n d _ (completed c))
    (fun c _ => abortAppend_keepsCards (completed c))

/-! ### The query path -/

theorem arStop_keepsCards (k : CardsHand hand s) (st : ReadStop) : CardsHand hand (arStop st s) :=
  arAnswer_keepsCards k _

theorem arStartSeq_keepsCards (k : CardsHand hand s) (w : Work) : CardsHand hand (arStartSeq w s) := by
  unfold arStartSeq
  dsimp only
  split
  · exact arStop_keepsCards k.same _
  · split
    · exact arStop_keepsCards k.same _
    · split
      · exact k.same
      · exact arStop_keepsCards k.same _

theorem arStartKey_keepsCards (k : CardsHand hand s) (w : Work) : CardsHand hand (arStartKey w s) := by
  unfold arStartKey
  split
  · exact arStop_keepsCards k.same _
  · exact k.same

theorem arStart_keepsCards (k : CardsHand hand s) (w : Work) : CardsHand hand (arStart w s) := by
  unfold arStart
  split
  · exact arStartKey_keepsCards k w
  · exact arStartSeq_keepsCards k w

theorem arReadRow_keepsCards (k : CardsHand hand s) (seg row : Nat) : CardsHand hand (arReadRow seg row s) :=
  k.same

theorem arReadDigest_keepsCards (k : CardsHand hand s) (seg : Nat) (next : Bool) :
    CardsHand hand (arReadDigest seg next s) :=
  k.same

theorem arScan_keepsCards (k : CardsHand hand s) (seg : Nat) (p : ScanPos) : CardsHand hand (arScan seg p s) :=
  k.same

theorem arBegin_keepsCards (k : CardsHand hand s) (w : Work) (seg row firstSeq : Nat) :
    CardsHand hand (arBegin w seg row firstSeq s) := by
  unfold arBegin
  dsimp only
  split
  · split
    · exact arStop_keepsCards k.same _
    · exact arReadRow_keepsCards k.same _ _
  · exact arReadRow_keepsCards k _ _

theorem arBeginKnown_keepsCards (k : CardsHand hand s) (w : Work) (seg : Nat) (rows : List RowMapEntry) :
    CardsHand hand (arBeginKnown w seg rows s) := by
  unfold arBeginKnown
  split <;> exact arBegin_keepsCards k _ _ _ _

theorem arLocate_keepsCards (k : CardsHand hand s) (w : Work) (seg : Nat) : CardsHand hand (arLocate w seg s) := by
  unfold arLocate
  split
  · split
    case h_1 => exact arReadDigest_keepsCards k _ _
    case h_2 => exact arBeginKnown_keepsCards k.same _ _ _
    case h_3 => exact arScan_keepsCards k _ _
    all_goals exact arStart_keepsCards k w
  · exact arStart_keepsCards k w

theorem arChoose_keepsCards (k : CardsHand hand s) (w : Work) (seg row : Nat) :
    CardsHand hand (arChoose w seg row s) := by
  have moved (p : Prop) [Decidable p] (c : Nat) : CardsHand hand (if p then arMoveTo c s else s) := by
    split
    · exact k.same
    · exact k
  unfold arChoose
  extract_lets e s1
  have k1 : CardsHand hand s1 := moved _ _
  split
  · exact arStop_keepsCards k1 _
  · split
    · exact arStop_keepsCards k1 _
    · split
      · exact arReadRow_keepsCards k1 _ _
      · split
        · exact k1.same
        · exact arStop_keepsCards k1 _

theorem arContinue_keepsCards (k : CardsHand hand s) (w : Work) (seg row : Nat) (st : Option ReadStop) :
    CardsHand hand (arContinue w seg row st s) := by
  unfold arContinue
  split
  · exact arStop_keepsCards k _
  · exact arChoose_keepsCards k _ _ _

theorem arCopy_keepsCards (k : CardsHand hand s) (w : Work) (seq : Nat) (image : List Byte) :
    CardsHand hand (arCopy w seq image s) := by
  have stored := parcelStore_keepsCards k (Nat.le_trans (runBase_ge w) (Nat.le_add_right _ s.ar.destOff)) image
  exact stored.same ⟨rfl, rfl, rfl, rfl⟩

theorem arOffer_keepsCards (k : CardsHand hand s) (w : Work) (seq key : Nat) (image : List Byte) :
    CardsHand hand (arOffer w seq key image s).1 := by
  unfold arOffer
  split
  · exact k.same
  · split
    · exact k
    · split
      · exact k
      · exact (arCopy_keepsCards k w seq image).same ⟨rfl, rfl, rfl, rfl⟩

theorem arWalk_keepsCards (w : Work) (data : List Byte) (fill last n seq off : Nat) (k : CardsHand hand s) :
    CardsHand hand (arWalk w data fill last n seq off s).1 := by
  induction n generalizing seq off s with
  | zero => exact k
  | succ n ih =>
    unfold arWalk
    extract_lets bs h size passed r skipped
    have kr : CardsHand hand r.1 := by
      by_cases hi : h.intact bs = true
      · simpa only [r, if_pos hi] using arOffer_keepsCards k w seq h.key (bs.take size)
      · simpa only [r, if_neg hi, passed] using k.same
    split
    · split
      · split
        · exact kr
        · exact ih _ _ kr
      · exact ih _ _ k
    · exact k.same (by simp [skipped, SameCards, heldCards])

theorem arAcceptRow_keepsCards (k : CardsHand hand s) (w : Work) (seg row : Nat) (r : ReadRow) :
    CardsHand hand (arAcceptRow w seg row r s) := by
  unfold arAcceptRow
  extract_lets t s1 ar1 s2 out
  have k1 : CardsHand hand s1 := by
    simp only [s1]
    split
    · exact k.same
    · exact k
  have k2 : CardsHand hand s2 := k1.same (by simp [s2, ar1, SameCards, heldCards])
  split
  · exact arStop_keepsCards k2 _
  · exact arContinue_keepsCards (arWalk_keepsCards _ _ _ _ _ _ _ k2) _ _ _ _

theorem arDamagedRow_keepsCards (k : CardsHand hand s) (w : Work) (seg row : Nat) :
    CardsHand hand (arDamagedRow w seg row s) := by
  unfold arDamagedRow
  dsimp only
  split
  · exact arContinue_keepsCards k.same _ _ _ _
  · split
    · exact arContinue_keepsCards k.same _ _ _ _
    · exact arChoose_keepsCards k.same _ _ _

theorem arRowRead_keepsCards (k : CardsHand hand s) (w : Work) (seg row : Nat) (r : ReadRow) :
    CardsHand hand (arRowRead w seg row r s) := by
  have held : CardsHand hand { s with ar := { s.ar with heldRow := some r } } := k.same
  unfold arRowRead
  dsimp only
  split
  · exact arAcceptRow_keepsCards held _ _ _ _
  · exact arDamagedRow_keepsCards held _ _ _

theorem arDigestRead_keepsCards (k : CardsHand hand s) (w : Work) (seg : Nat) (next : Bool) (r : ReadRow) :
    CardsHand hand (arDigestRead w seg next r s) := by
  unfold arDigestRead
  dsimp only
  split
  · split
    · exact arReadRow_keepsCards k.same _ _
    · exact arBeginKnown_keepsCards k.same _ _ _
  · split
    · exact arReadRow_keepsCards k.same _ _
    · exact arScan_keepsCards k.same _ _

theorem scanStopAt_keepsCards (k : CardsHand hand s) (w : Work) (seg : Nat) (t : Trailer) (p : ScanPos) :
    CardsHand hand (scanStopAt w seg t p s) := by
  unfold scanStopAt
  split
  · split <;> exact arBegin_keepsCards k _ _ _ _
  · exact arBegin_keepsCards k _ _ _ _

theorem arTrailerRead_keepsCards (k : CardsHand hand s) (w : Work) (seg : Nat) (p : ScanPos) (r : ReadSpare) :
    CardsHand hand (arTrailerRead w seg p r s) := by
  unfold arTrailerRead
  dsimp only
  split
  · split
    · exact arBegin_keepsCards k _ _ _ _
    · split
      · exact scanStopAt_keepsCards k _ _ _ _
      · split
        · exact arBegin_keepsCards k _ _ _ _
        · exact arScan_keepsCards k _ _
  · split
    · exact arBegin_keepsCards k _ _ _ _
    · exact arScan_keepsCards k _ _

theorem arPinGranted_keepsCards (k : CardsHand hand s) (w : Work) (seg : Nat) (next : Bool) :
    CardsHand hand (arPinGranted w seg next s) := by
  unfold arPinGranted
  dsimp only
  split
  · exact k.same
  · exact arLocate_keepsCards k.same _ _

theorem arPinRefused_keepsCards (k : CardsHand hand s) (w : Work) (next : Bool) :
    CardsHand hand (arPinRefused w next s) := by
  unfold arPinRefused
  split
  · split
    · exact arChoose_keepsCards k _ _ _
    · exact arStart_keepsCards k _
  · exact arStart_keepsCards k _

theorem answerPin_keepsCards (k : CardsHand hand s) (granted : Bool) (seg : Nat) :
    CardsHand hand (answerPin granted seg s) := by
  unfold answerPin
  split
  · split
    · exact arPinGranted_keepsCards k _ _ _
    · exact arPinRefused_keepsCards k _ _
  · exact k

theorem takePinRequest_keepsCards (k : CardsHand hand s) (seg : Nat) : CardsHand hand (takePinRequest seg s) := by
  unfold takePinRequest
  split
  · exact k.same
  · split <;> exact answerPin_keepsCards k _ _

theorem pinRequest_keepsCards (k : CardsHand hand s) : CardsHand hand (pinRequest s) := by
  unfold pinRequest
  split
  · split
    · exact reactPin_keepsCards (takePinRequest_keepsCards k _) _
    · exact k
  all_goals exact k

theorem readerResult_keepsCards {use : Work → State → State} (k : CardsHand hand s)
    (keeps : ∀ w t, CardsHand hand t → CardsHand hand (use w t)) : CardsHand hand (readerResult use s) :=
  readerResult_ind k (fun _ _ _ => keeps _ _ k) (fun _ => arAnswer_keepsCards k _)

theorem trailersResult_keepsCards (k : CardsHand hand s) (r : ReadSpare) : CardsHand hand (trailersResult r s) := by
  unfold trailersResult
  split
  · exact k
  · split
    · refine reactPin_keepsCards (readerResult_keepsCards k.same fun w t kt => ?_) _
      split
      case h_1 => exact arTrailerRead_keepsCards kt _ _ _ _
      all_goals exact kt
    · exact k

theorem readRowResult_keepsCards (k : CardsHand hand s) (r : ReadRow) : CardsHand hand (readRowResult r s) := by
  unfold readRowResult
  split
  · exact k
  · split
    · refine reactPin_keepsCards (readerResult_keepsCards k.same fun w t kt => ?_) _
      split
      case h_1 => exact arDigestRead_keepsCards kt _ _ _ _
      case h_2 => exact arRowRead_keepsCards kt _ _ _ _
      all_goals exact kt
    · exact k

end Sys2Proof.Machine
end

section
/-!
PROOF. Takes, posts, the control path, mount, FORMAT and the resets keep the laws of cards, and with them every step (O4).
-/
namespace Sys2Proof.Machine

-- One proof at a time, as in the tests: proofs checked side by side need more threads than the limits allow.
set_option Elab.async false

variable {hand : List CardIx} {s t : State}

/-! ### Queues, posts and takes -/

/-- The cards of one path's queue, and those of the other two. -/
theorem queuedCards_perm (p : CardPath) (q : List CardIx) (s : State) :
    (queuedCards (setQueue p q s)).Perm (q ++ queuedCards (setQueue p [] s)) := by
  cases p
  · exact .refl _
  · exact List.perm_append_comm_assoc _ _ _
  · simp only [queuedCards, setQueue, List.append_nil]
    rw [← List.append_assoc]
    exact List.perm_append_comm

theorem setQueue_same (p : CardPath) (s : State) : setQueue p (s.ci.queue p) s = s := by cases p <;> rfl

theorem setQueue_setQueue (p : CardPath) (q r : List CardIx) (s : State) :
    setQueue p q (setQueue p r s) = setQueue p q s := by cases p <;> rfl

theorem queuedCards_perm_of_queue {p : CardPath} {q : List CardIx} (hq : s.ci.queue p = q) :
    (queuedCards s).Perm (q ++ queuedCards (setQueue p [] s)) := by
  have h := queuedCards_perm p (s.ci.queue p) s
  rwa [setQueue_same, hq] at h

theorem heldCards_setQueue (p : CardPath) (q : List CardIx) (s : State) : heldCards (setQueue p q s) = heldCards s := by
  simp [heldCards]

/-- The head of a queue is taken and comes in hand (R19). -/
theorem takeHead_hands {p : CardPath} {c : CardIx} {rest : List CardIx} (hq : s.ci.queue p = c :: rest)
    (k : CardsHand hand s) : CardsHand (c :: hand) (takeHead p c s) := by
  have kp := CardsIn.perm k (queuedCards_perm_of_queue hq) (.refl _)
  have hn := List.nodup_cons.1 kp.queuedOnce
  have hc : c ∉ hand ++ heldCards s := fun m => by
    have e := (kp.held c).1 m
    rw [(kp.queued c).1 (.head _)] at e
    exact absurd e (by decide)
  have kt : CardsIn (rest ++ queuedCards (setQueue p [] s)) (c :: (hand ++ heldCards s)) (setCardState c .taken s).xp := by
    refine kp.setState c .taken hn.2 (List.nodup_cons.2 ⟨hc, kp.heldOnce⟩) (fun d => ?_) (fun d => ?_)
    · split
      next e => exact ⟨fun m => absurd (e ▸ m) hn.1, nofun⟩
      next e => simp [e]
    · split
      next e => simp [e]
      next e => simp [e]
  have perm : (queuedCards (takeHead p c s)).Perm (rest ++ queuedCards (setQueue p [] s)) := by
    have h := queuedCards_perm p rest (setCardState c .taken s)
    rw [takeHead, hq]
    exact h.trans (by cases p <;> exact .refl _)
  have held : heldCards (takeHead p c s) = heldCards s := by simp [heldCards]
  have xp : (takeHead p c s).xp = (setCardState c .taken s).xp := by simp [takeHead]
  unfold CardsHand
  rw [held, xp]
  exact kt.perm perm.symm (.refl _)

theorem answerAll_queued {q rest held : List CardIx} (k : CardsIn (q ++ rest) held s.xp) (r : Answer) :
    CardsIn rest held (answerAll r q s).xp := by
  induction q generalizing s with
  | nil => exact k
  | cons c q ih => exact ih (CardsIn.answerQueued k r)

theorem answerQueue_keepsCards (k : CardsHand hand s) (p : CardPath) (r : Answer) :
    CardsHand hand (answerQueue p r s) := by
  have ka := answerAll_queued (CardsIn.perm k (queuedCards_perm_of_queue rfl) (.refl _)) r (q := s.ci.queue p)
  have hq : queuedCards (answerQueue p r s) = queuedCards (setQueue p [] s) := by
    unfold answerQueue
    cases p <;> simp [queuedCards, setQueue]
  have hh : heldCards (answerQueue p r s) = heldCards s := by simp [heldCards]
  have xp : (answerQueue p r s).xp = (answerAll r (s.ci.queue p) s).xp := by simp [answerQueue]
  unfold CardsHand
  rw [hq, hh, xp]
  exact ka

/-- A card that no queue and no path has keeps its places where it becomes IDLE or ANSWERED. -/
theorem setCardState_keepsCards (k : CardsHand hand s) {c : CardIx} (hp : cardByte s c ≠ CardState.posted.code)
    (ht : cardByte s c ≠ CardState.taken.code) {st : CardState} (sp : st ≠ .posted) (sn : st ≠ .taken) :
    CardsHand hand (setCardState c st s) := by
  have hh : heldCards (setCardState c st s) = heldCards s := by simp [heldCards]
  have hq : queuedCards (setCardState c st s) = queuedCards s := by simp [queuedCards]
  unfold CardsHand
  rw [hh, hq]
  refine CardsIn.setState k c st k.queuedOnce k.heldOnce (fun d => ?_) (fun d => ?_)
  · split
    next e => exact ⟨fun m => absurd ((k.queued d).1 m) (e ▸ hp), fun m => absurd m sp⟩
    · exact .rfl
  · split
    next e => exact ⟨fun m => absurd ((k.held d).1 m) (e ▸ ht), fun m => absurd m sn⟩
    · exact .rfl

/-- A card at rest that is answered (R17). -/
theorem answerFree_keepsCards (k : CardsHand hand s) {c : CardIx} (hp : cardByte s c ≠ CardState.posted.code)
    (ht : cardByte s c ≠ CardState.taken.code) (r : Answer) : CardsHand hand (answerCard c r s) := by
  have hh : heldCards (answerCard c r s) = heldCards s := by simp [heldCards]
  have hq : queuedCards (answerCard c r s) = queuedCards s := by simp [queuedCards]
  unfold CardsHand
  rw [hh, hq]
  refine CardsIn.answer k c r k.queuedOnce k.heldOnce (fun d => ⟨fun m => ⟨?_, m⟩, And.right⟩)
    (fun d => ⟨fun m => ⟨?_, m⟩, And.right⟩)
  · rintro rfl; exact hp ((k.queued d).1 m)
  · rintro rfl; exact ht ((k.held d).1 m)

/-- A card at rest becomes POSTED at the tail of a queue (R17). -/
theorem posted_keepsCards (k : CardsHand hand s) {c : CardIx} (hp : cardByte s c ≠ CardState.posted.code)
    (ht : cardByte s c ≠ CardState.taken.code) (p : CardPath) :
    CardsHand hand (setQueue p (s.ci.queue p ++ [c]) (setCardState c .posted s)) := by
  have hc : c ∉ queuedCards s := fun m => hp ((k.queued c).1 m)
  have kt : CardsIn (c :: queuedCards s) (hand ++ heldCards s) (setCardState c .posted s).xp := by
    refine CardsIn.setState k c .posted (List.nodup_cons.2 ⟨hc, k.queuedOnce⟩) k.heldOnce (fun d => ?_) (fun d => ?_)
    · split
      next e => simp [e]
      next e => simp [e]
    · split
      next e => exact ⟨fun m => absurd ((k.held d).1 m) (e ▸ ht), nofun⟩
      · exact .rfl
  have perm : (queuedCards (setQueue p (s.ci.queue p ++ [c]) (setCardState c .posted s))).Perm (c :: queuedCards s) := by
    refine (queuedCards_perm p _ _).trans ?_
    have e : queuedCards (setQueue p [] (setCardState c .posted s)) = queuedCards (setQueue p [] s) := by
      cases p <;> rfl
    rw [e, List.append_assoc]
    refine List.perm_middle.trans (.cons c ?_)
    exact (queuedCards_perm_of_queue rfl).symm
  have held : heldCards (setQueue p (s.ci.queue p ++ [c]) (setCardState c .posted s)) = heldCards s := by
    simp [heldCards]
  have xp : (setQueue p (s.ci.queue p ++ [c]) (setCardState c .posted s)).xp = (setCardState c .posted s).xp := by simp
  unfold CardsHand
  rw [held, xp]
  exact kt.perm perm.symm (.refl _)

theorem postCard_keepsCards (k : CardsHand hand s) {c : CardIx} (hp : cardByte s c ≠ CardState.posted.code)
    (ht : cardByte s c ≠ CardState.taken.code) : CardsHand hand (postCard c s) := by
  unfold postCard
  split
  · exact answerFree_keepsCards k hp ht _
  · split
    · exact answerFree_keepsCards k hp ht _
    · exact posted_keepsCards k hp ht _

theorem guardWrite_keepsCards (k : CardsHand hand s) (c : CardIx) (v : Byte) : CardsHand hand (guardWrite c v s) := by
  have slipped : CardsHand hand (slip s) := k.same
  unfold guardWrite
  split
  next rest =>
    have hp : cardByte s c ≠ CardState.posted.code := by rcases rest with e | e <;> rw [e] <;> decide
    have ht : cardByte s c ≠ CardState.taken.code := by rcases rest with e | e <;> rw [e] <;> decide
    split
    · exact postCard_keepsCards k hp ht
    · split
      · exact setCardState_keepsCards k hp ht nofun nofun
      · exact slipped
  · exact slipped

theorem hostStoreByte_keepsCards (k : CardsHand hand s) (a : Nat) (b : Byte) : CardsHand hand (hostStoreByte a b s) := by
  unfold hostStoreByte
  split
  · exact k
  next h =>
    refine CardsIn.of_stateBytes k (Memory.wf_store k.canonical a b) (fun c => ?_) rfl
    refine xmRead_store_ne k.canonical b fun e => h (.inr ?_)
    rw [← e, stateByteCard_base]
    rfl

theorem hostStoreList_keepsCards (k : CardsHand hand s) (a : Nat) (bs : List Byte) :
    CardsHand hand (hostStoreList a bs s) := by
  induction bs generalizing a s with
  | nil => exact k
  | cons b bs ih => exact ih (hostStoreByte_keepsCards k a b) _

theorem xmHostWrite_keepsCards (k : CardsHand hand s) (a : Nat) (bs : List Byte) :
    CardsHand hand (xmHostWrite a bs s) := by
  unfold xmHostWrite
  split
  · exact guardWrite_keepsCards (hostStoreList_keepsCards k _ _) _ _
  · exact k
  · exact hostStoreList_keepsCards k _ _

/-- A take keeps the laws where serving a card in hand does. -/
theorem pathTake_keepsCards {p : CardPath} {free : Bool} {mine : Work → Bool} {always : Bool}
    {serve : CardIx → Work → State → State} (k : CardsHand hand s)
    (keeps : ∀ c w t, free = true → t.rp = s.rp → t.ar = s.ar → t.cp = s.cp → CardsHand (c :: hand) t →
      CardsHand hand (serve c w t)) : CardsHand hand (pathTake p free mine always serve s) :=
  pathTake_ind k (fun _ _ _ hq _ => answerCard_keepsCards (takeHead_hands hq k) _)
    (fun c _ hq hf _ _ => keeps c _ _ hf (by simp) (by simp) (by simp) (takeHead_hands hq k))

/-! ### What the paths do with a card they take -/

variable {c : CardIx} {w : Work}

theorem serveAppend_keepsCards (free : s.rp.served = none) (k : CardsHand (c :: hand) s) :
    CardsHand hand (serveAppend c w s) := by
  unfold serveAppend
  split
  · exact answerCard_keepsCards k _
  · split
    · exact answerCard_keepsCards k _
    · exact rpServes free k

theorem serveFlush_keepsCards (k : CardsHand (c :: hand) s) : CardsHand hand (serveFlush c w s) := by
  unfold serveFlush
  split
  · exact answerCard_keepsCards k _
  · exact awaitDurable_keepsCards (closeFilling_keepsCards k) _ _ _

theorem serveRead_keepsCards (free : s.ar.served = none) (k : CardsHand (c :: hand) s) :
    CardsHand hand (serveRead c w s) := by
  unfold serveRead
  split
  · exact answerCard_keepsCards k _
  · exact arStart_keepsCards (arServes (v := { card := c, work := w }) free rfl k) w

theorem serveHold_keepsCards (free : s.cp.served = none) (k : CardsHand (c :: hand) s) :
    CardsHand hand (serveHold c w s) := by
  unfold serveHold
  split
  · exact answerCard_keepsCards k _
  · split
    · exact answerCard_keepsCards k _
    · exact cpServes (v := { card := c, work := w, job := .hold }) free k

theorem serveRenew_keepsCards (k : CardsHand (c :: hand) s) : CardsHand hand (serveRenew c w s) := by
  unfold serveRenew
  split
  · exact answerCard_keepsCards k _
  · split
    · exact answerCard_keepsCards k _
    · exact answerCard_keepsCards k.same _

theorem serveRelease_keepsCards (k : CardsHand (c :: hand) s) : CardsHand hand (serveRelease c w s) := by
  unfold serveRelease
  split
  · exact answerCard_keepsCards k _
  · split
    · exact answerCard_keepsCards k _
    · exact react_keepsCards (answerCard_keepsCards k.same _)

theorem serveTrim_keepsCards (k : CardsHand (c :: hand) s) : CardsHand hand (serveTrim c w s) := by
  unfold serveTrim
  dsimp only
  split
  · exact answerCard_keepsCards k _
  · split
    · exact answerCard_keepsCards k.same _
    · exact react_keepsCards (answerCard_keepsCards k.same _)

theorem serveCensus_keepsCards (k : CardsHand (c :: hand) s) : CardsHand hand (serveCensus c w s) := by
  unfold serveCensus
  split
  · exact answerCard_keepsCards k _
  · exact answerCard_keepsCards (parcelStore_keepsCards k (runBase_ge w) _) _

theorem formatPacker_keepsCards (k : CardsHand hand s) : CardsHand hand (formatPacker s) := by
  unfold formatPacker
  extract_lets s1 rp1 s2
  have k2 : CardsHand hand s2 := k.same (by simp [s2, rp1, s1, SameCards, heldCards])
  split
  · exact k2
  · exact answerWaitList_keepsCards (answerServed_keepsCards k2 _) _

theorem formatReader_keepsCards (k : CardsHand hand s) : CardsHand hand (formatReader s) := by
  unfold formatReader
  split
  case h_1 => exact arAnswer_keepsCards k _
  case h_2 => exact arAnswer_keepsCards k _
  all_goals exact k

theorem serveFormat_keepsCards (free : s.cp.served = none) (k : CardsHand (c :: hand) s) :
    CardsHand hand (serveFormat c w s) := by
  unfold serveFormat
  split
  · exact answerCard_keepsCards k _
  · extract_lets r s1 s2 cp1
    have k1 : CardsHand (c :: hand) s1 := answerQueue_keepsCards (answerQueue_keepsCards k _ _) _ _
    have kr := formatReader_keepsCards (formatPacker_keepsCards k1)
    have k2 : CardsHand (c :: hand) s2 := kr.same (by simp [s2, SameCards, heldCards])
    exact cpServes (v := { card := c, work := w, job := .format }) (by simp [s2, s1, free]) k2

/-! ### Holds and the lease clock -/

theorem decideHold_keepsCards (k : CardsHand hand s) : CardsHand hand (decideHold s) := by
  unfold decideHold
  dsimp only
  split
  · exact k
  · split
    · split
      · exact cpAnswer_keepsCards k _
      · split
        · exact cpAnswer_keepsCards k _
        · exact cpAnswer_keepsCards k.same _
    · exact k

theorem holdRequest_keepsCards (k : CardsHand hand s) : CardsHand hand (holdRequest s) := by
  unfold holdRequest
  split
  · exact k
  · split
    · split
      · exact k.same
      · exact decideHold_keepsCards k
    · exact k

theorem leaseTick_keepsCards (k : CardsHand hand s) : CardsHand hand (leaseTick s) := by
  unfold leaseTick
  dsimp only
  split
  · exact react_keepsCards k.same
  · exact k.same

/-! ### Space -/

theorem answerHeld_keepsCards (k : CardsHand hand s) (granted : Bool) : CardsHand hand (answerHeld granted s) := by
  unfold answerHeld
  extract_lets ru0 s1 ru1
  have k1 : CardsHand hand s1 := by
    simp only [s1]
    split
    · exact k
    · exact answerPin_keepsCards k.same _ _
  split
  · exact k1
  · exact decideHold_keepsCards (k1.same ⟨rfl, rfl, rfl, rfl⟩)

theorem removalClaim_keepsCards (k : CardsHand hand s) : CardsHand hand (removalClaim s) := by
  unfold removalClaim
  split
  · exact k
  next seg _ =>
    split
    · extract_lets ru1 s1 s2
      have k1 : CardsHand hand s1 := k.same (by simp [s1, SameCards, heldCards])
      split
      · have kc : CardsHand hand (claimRemoval seg s1) := k1.same
        have k2 : CardsHand hand s2 := (answerHeld_keepsCards kc true).same (by simp [s2, SameCards, heldCards])
        exact judgeChange_keepsCards (reexamineSpace_keepsCards k2) _
      · exact reactPin_keepsCards (ruJudge_keepsCards (answerHeld_keepsCards k1 _)) _
    · exact k

theorem reclaimErase_keepsCards (k : CardsHand hand s) (p0 p1 : PlaneStatus) :
    CardsHand hand (reclaimErase p0 p1 s) := by
  unfold reclaimErase
  dsimp only
  split
  · exact k
  · split
    · split
      · split
        · exact react_keepsCards k.same
        · exact react_keepsCards k.same
      · exact k.same
    · exact k

/-! ### Mount and FORMAT -/

theorem enterFaulted_keepsCards (k : CardsHand hand s) (cause : FaultCause) :
    CardsHand hand (enterFaulted cause s) := by
  unfold enterFaulted
  extract_lets ec0 s1 r s2 s3 rp3 s4 s5
  have k1 : CardsHand hand s1 := k.same (by simp [s1, SameCards, heldCards])
  have k2 : CardsHand hand s2 :=
    answerQueue_keepsCards (answerQueue_keepsCards (answerQueue_keepsCards k1 _ _) _ _) _ _
  have kd : CardsHand hand (discardStaged s2) := k2.same
  have k3 : CardsHand hand s3 := answerWaitList_keepsCards (answerServed_keepsCards kd _) _
  have k4 : CardsHand hand s4 := k3.same (by simp [s4, rp3, SameCards, heldCards])
  have k5 : CardsHand hand s5 := cpAnswer_keepsCards (arAnswer_keepsCards k4 _) _
  exact k5.same ⟨rfl, rfl, rfl, rfl⟩

theorem enterStopping_keepsCards (k : CardsHand hand s) : CardsHand hand (enterStopping s) := by
  unfold enterStopping
  extract_lets ec0 s1 s2
  have k1 : CardsHand hand s1 := k.same (by simp [s1, SameCards, heldCards])
  refine closeFilling_keepsCards ?_
  simp only [s2]
  split
  · split
    · exact k1
    · exact answerServed_keepsCards k1 _
  · exact k1

theorem probeEnd_keepsCards (k : CardsHand hand s) : CardsHand hand (probeEnd s) := by
  unfold probeEnd
  dsimp only
  split
  · split
    · exact enterFaulted_keepsCards k.same _
    · exact k.same
  · exact k

/-- An operation that resets the RP drops no card while the append path is idle. -/
theorem CardsHand.rpReset (k : CardsHand hand s) (idle : AppendIdle s) (hs : t.rp.served = none)
    (hw : t.rp.waitList = []) (h : t.xp.mem = s.xp.mem ∧ t.xp.answered = s.xp.answered ∧ t.ci = s.ci ∧
      t.ar.served = s.ar.served ∧ t.cp.served = s.cp.served) : CardsHand hand t := by
  obtain ⟨hm, ha, hc, hr, hp⟩ := h
  exact k.same ⟨hm, ha, hc, by simp only [heldCards, hs, hw, hr, hp, idle.1, idle.2]⟩

/-- In MOUNTING the append path is idle. -/
theorem PathsOk.mountingIdle (h : PathsOk s) (he : s.ec.engine = .mounting) : AppendIdle s :=
  h.appendIdle (by rw [he]; rfl) (by rw [he]; nofun)

theorem scanEnd_keepsCards (paths : PathsOk s) (k : CardsHand hand s) : CardsHand hand (scanEnd s) := by
  have frame := scanEnd_frame s
  unfold scanEnd at frame ⊢
  split
  next h =>
    split
    · exact k.rpReset (paths.mountingIdle h.1) rfl rfl (by simp)
    · exact k.same
  · exact k

theorem catalogLoad_keepsCards (paths : PathsOk s) (k : CardsHand hand s) : CardsHand hand (catalogLoad s) := by
  unfold catalogLoad
  split
  next h =>
    split
    · exact ruJudge_keepsCards (setEvent_keepsCards (k.rpReset (paths.mountingIdle h.1) rfl rfl (by simp)) _)
    · exact k
  · exact k

theorem formatFailed_keepsCards (k : CardsHand hand s) : CardsHand hand (formatFailed s) := by
  unfold formatFailed
  extract_lets rp0 cp0 cu0 s1 s2 ec0
  have k1 : CardsHand hand s1 := k.same (by simp [s1, rp0, cp0, SameCards, heldCards])
  have k2 : CardsHand hand s2 := cpAnswer_keepsCards k1 _
  split
  · exact k2.same
  · exact k2.same ⟨rfl, rfl, rfl, rfl⟩

theorem openFormatSegment_keepsCards (k : CardsHand hand s) : CardsHand hand (openFormatSegment s) := by
  unfold openFormatSegment
  split
  · exact k.same
  · exact formatFailed_keepsCards k

theorem formatErasesEnd_keepsCards (k : CardsHand hand s) : CardsHand hand (formatErasesEnd s) := by
  unfold formatErasesEnd
  dsimp only
  split
  · exact openFormatSegment_keepsCards k.same
  · exact k

theorem formatDone_keepsCards (idle : AppendIdle s) (k : CardsHand hand s) (seg : Nat) :
    CardsHand hand (formatDone seg s) := by
  unfold formatDone
  extract_lets e0 s1 rp1 cp1 cu1 s2 s3
  have k2 : CardsHand hand s2 := k.rpReset idle rfl rfl (by simp [s2, cp1, s1])
  have k3 : CardsHand hand s3 := cpAnswer_keepsCards k2 _
  have k4 : CardsHand hand (enterReady s3) := k3.same
  split
  · exact ruJudge_keepsCards (enterStopping_keepsCards k4)
  · exact ruJudge_keepsCards k4

/-- Once FORMAT writes its header row the append path is idle. -/
theorem PathsOk.formatHeaderIdle (h : PathsOk s) (he : s.ec.engine = .formatting) (hs : s.ec.step = .formatHeader) :
    AppendIdle s := by
  rcases h.formatting he with idle | ⟨hw, _⟩
  · exact idle
  · rw [hs] at hw; exact absurd hw nofun

theorem headerRowResult_keepsCards (paths : PathsOk s) (k : CardsHand hand s) (passed : Bool) :
    CardsHand hand (headerRowResult passed s) := by
  unfold headerRowResult
  dsimp only
  split
  next h =>
    have idle := paths.formatHeaderIdle h.1 h.2
    split
    · exact k
    · split
      · split
        · exact formatDone_keepsCards (by simpa [AppendIdle] using idle) k.same _
        · exact openFormatSegment_keepsCards k.same
      · exact k
  · exact k

/-! ### Resets and CONTROL -/

/-- With every byte 0 and no card at any place the laws hold. -/
theorem CardsHand.blank (wf : Memory.wf s.xp.mem = true) (bytes : ∀ c, cardByte s c = 0) (ha : s.xp.answered = 0)
    (hq : queuedCards s = []) (hh : heldCards s = []) : CardsHand [] s := by
  have bytes (c : CardIx) : xmRead s.xp.mem (cardBase c) = 0 := bytes c
  refine ⟨wf, fun c => ?_, fun c => ?_, ?_, fun c => ?_, ?_, fun c => ?_⟩
  · rw [bytes]; decide
  · rw [bytes, ha]; simp [CardState.code]
  · rw [hq]; exact .nil
  · rw [hq, bytes]; simp [CardState.code]
  · rw [hh]; exact .nil
  · rw [hh, bytes]; simp [CardState.code]

theorem resetAll_keepsCards (s : State) : CardsHand [] (resetAll s) :=
  .blank rfl (fun _ => rfl) rfl rfl rfl

/-! #### Clearing the state bytes (R24) -/

theorem clearCardStates_get (m : Memory) (a : Nat) :
    xmRead (clearCardStates m) a = if (stateByteCard a).isNone then xmRead m a else 0 := by
  induction m with
  | nil => simp [clearCardStates, xmRead, Sparse.get]
  | cons e m ih =>
    obtain ⟨b, v⟩ := e
    simp only [clearCardStates, xmRead, List.filter_cons] at ih ⊢
    by_cases hb : b = a
    · subst hb
      cases hn : (stateByteCard b).isNone <;> simp_all [Sparse.get]
    · cases hn : (stateByteCard b).isNone <;> simp_all [Sparse.get]

theorem Sparse.wfFrom_filter {α : Type} [DecidableEq α] {d : α} (p : Nat × α → Bool) {lo : Option Nat}
    {m : List (Nat × α)} (h : Sparse.wfFrom d lo m = true) : Sparse.wfFrom d lo (m.filter p) = true := by
  induction m generalizing lo with
  | nil => rfl
  | cons e m ih =>
    obtain ⟨a, v⟩ := e
    simp only [Sparse.wfFrom, Bool.and_eq_true, decide_eq_true_eq] at h
    obtain ⟨⟨hlo, hv⟩, hm⟩ := h
    rw [List.filter_cons]
    split
    · simp only [Sparse.wfFrom, Bool.and_eq_true, decide_eq_true_eq]
      exact ⟨⟨hlo, hv⟩, ih hm⟩
    · refine ih (Sparse.wfFrom_weaken hm fun l hl => ?_)
      cases hl
      simp only [Option.all_some, decide_eq_true_eq] at hlo
      exact Nat.le_of_lt hlo

theorem clearCardStates_wf {m : Memory} (h : Memory.wf m = true) : Memory.wf (clearCardStates m) = true := by
  simp only [Memory.wf, Bool.and_eq_true, List.all_eq_true, decide_eq_true_eq] at h ⊢
  exact ⟨Sparse.wfFrom_filter _ h.1, fun e he => h.2 e (List.mem_of_mem_filter he)⟩

theorem cardByte_resetSoft (s : State) (c : CardIx) : cardByte (resetSoft s) c = 0 := by
  have h := clearCardStates_get s.xp.mem (cardBase c)
  rwa [stateByteCard_base] at h

theorem resetSoft_keepsCards (wf : Memory.wf s.xp.mem = true) : CardsHand [] (resetSoft s) :=
  .blank (clearCardStates_wf wf) (cardByte_resetSoft s) rfl rfl rfl

theorem runEvent0_keepsCards (k : CardsHand hand s) : CardsHand hand (runEvent0 s) := by
  have halted : CardsHand hand (enterHalted s) := k.same
  unfold runEvent0
  split
  case h_2 => exact k.same
  case h_3 => exact k.same
  case h_4 => exact halted
  case h_5 => exact enterStopping_keepsCards k
  case h_6 => exact k.same
  case h_8 => exact halted
  all_goals exact k

theorem writeRun_keepsCards (k : CardsHand hand s) (v : Bool) (linger : Option Byte) :
    CardsHand hand (writeRun v linger s) := by
  unfold writeRun
  extract_lets s1 xp1 s2
  have k2 : CardsHand hand s2 := k.same (by cases linger <;> simp [s2, xp1, s1, SameCards, heldCards])
  split
  · exact k2.same
  · exact runEvent0_keepsCards k2

theorem controlWrite_keepsCards (k : CardsHand [] s) (lane0 lane1 : Option Byte) :
    CardsHand [] (controlWrite lane0 lane1 s) := by
  unfold controlWrite
  split
  · split
    · exact resetSoft_keepsCards k.canonical
    · exact writeRun_keepsCards k _ _
  · split
    · exact k.same
    · exact k

theorem registerStore_keepsCards (k : CardsHand [] s) (a : Nat) (bs : List Byte) :
    CardsHand [] (registerStore a bs s) := by
  unfold registerStore
  dsimp only
  split
  · exact controlWrite_keepsCards k _ _
  · split
    · split
      · exact k.same
      · exact k
    · split
      · exact k.same
      · split
        · exact k.same
        · exact k

/-! ### Every command -/

theorem portAccess_keepsCards {f : State → State} (k : CardsHand hand s) (used : CardsHand hand (f s)) :
    CardsHand hand (portAccess f s) :=
  portAccess_ind k used

/-- Every command keeps the laws of the cards, up to the quiet reports that end it. -/
theorem exec_keepsCards (i : Instr) (paths : PathsOk s) (k : CardsHand [] s) :
    ∃ t, exec i s = done t ∧ CardsHand [] t := by
  cases i with
  | powerOnReset => exact ⟨_, rfl, resetAll_keepsCards s⟩
  | pinReset asserted =>
    refine ⟨_, rfl, ?_⟩
    split
    · exact (resetAll_keepsCards s).same ⟨rfl, rfl, rfl, rfl⟩
    · exact k.same
  | softReset => exact ⟨_, rfl, portAccess_keepsCards k (resetSoft_keepsCards k.canonical)⟩
  | runWritten1 l => exact ⟨_, rfl, portAccess_keepsCards k (writeRun_keepsCards k _ _)⟩
  | runWritten0 l => exact ⟨_, rfl, portAccess_keepsCards k (writeRun_keepsCards k _ _)⟩
  | lingerWrite v => exact ⟨_, rfl, portAccess_keepsCards k k.same⟩
  | eventsWrite v => exact ⟨_, rfl, portAccess_keepsCards k k.same⟩
  | registerWrite o w d => exact ⟨_, rfl, portAccess_keepsCards k (registerStore_keepsCards k _ _)⟩
  | hostXmWrite o w d => exact ⟨_, rfl, portAccess_keepsCards k (xmHostWrite_keepsCards k _ _)⟩
  | snapshotCapture o w => exact ⟨_, rfl, portAccess_keepsCards k k.same⟩
  | stateByteWrite c w d => exact ⟨_, rfl, portAccess_keepsCards k (xmHostWrite_keepsCards k _ _)⟩
  | append =>
    exact ⟨_, rfl, pathTake_keepsCards k fun c w t hf hr _ _ kt => serveAppend_keepsCards (by simpa [hr] using hf) kt⟩
  | recordStage => exact ⟨_, rfl, recordStage_keepsCards k⟩
  | flush => exact ⟨_, rfl, pathTake_keepsCards k fun c w t _ _ _ _ kt => serveFlush_keepsCards kt⟩
  | lingerExpiry => exact ⟨_, rfl, k.same⟩
  | rowProgramPass => exact ⟨_, rfl, recordRowResult_keepsCards k fun n d t kt => rowPass_keepsCards kt n d⟩
  | rowProgramFail planes =>
    cases h : s.rp.relocation with
    | none =>
      exact ⟨recordRowResult rowFail s, by simp only [exec, execRowProgramFail, h],
        recordRowResult_keepsCards k fun n d t kt => rowFail_keepsCards kt n d⟩
    | some r => exact ⟨s, by simp only [exec, execRowProgramFail, h], k⟩
  | replacementRow0Fail planes =>
    cases h : s.rp.relocation with
    | some r =>
      exact ⟨recordRowResult (replacementFail r) s, by simp only [exec, execReplacementRow0Fail, h],
        recordRowResult_keepsCards k fun n d t kt => replacementFail_keepsCards kt r n d⟩
    | none =>
      by_cases hf : s.ec.engine = .formatting
      · exact ⟨recordRowResult (fun _ _ t => t) s, by simp only [exec, execReplacementRow0Fail, h, if_pos hf],
          recordRowResult_keepsCards k fun _ _ _ kt => kt⟩
      · exact ⟨s, by simp only [exec, execReplacementRow0Fail, h, if_neg hf], k⟩
  | digestProgramComplete p0 p1 => exact ⟨_, rfl, k.same⟩
  | readSeq =>
    exact ⟨_, rfl, pathTake_keepsCards k fun c w t hf _ hr _ kt => serveRead_keepsCards (by simpa [hr] using hf) kt⟩
  | readKey =>
    exact ⟨_, rfl, pathTake_keepsCards k fun c w t hf _ hr _ kt => serveRead_keepsCards (by simpa [hr] using hf) kt⟩
  | pinRequest => exact ⟨_, rfl, pinRequest_keepsCards k⟩
  | arTrailersResult r => exact ⟨_, rfl, trailersResult_keepsCards k r⟩
  | arReadRowResult r => exact ⟨_, rfl, readRowResult_keepsCards k r⟩
  | hold =>
    exact ⟨_, rfl, pathTake_keepsCards k fun c w t hf _ _ hr kt => serveHold_keepsCards (by simpa [hr] using hf) kt⟩
  | holdRequest => exact ⟨_, rfl, holdRequest_keepsCards k⟩
  | holdRenew => exact ⟨_, rfl, pathTake_keepsCards k fun c w t _ _ _ _ kt => serveRenew_keepsCards kt⟩
  | release => exact ⟨_, rfl, pathTake_keepsCards k fun c w t _ _ _ _ kt => serveRelease_keepsCards kt⟩
  | trim => exact ⟨_, rfl, pathTake_keepsCards k fun c w t _ _ _ _ kt => serveTrim_keepsCards kt⟩
  | census => exact ⟨_, rfl, pathTake_keepsCards k fun c w t _ _ _ _ kt => serveCensus_keepsCards kt⟩
  | format =>
    exact ⟨_, rfl, pathTake_keepsCards k fun c w t hf _ _ hr kt => serveFormat_keepsCards (by simpa [hr] using hf) kt⟩
  | leaseTick =>
    refine ⟨_, rfl, ?_⟩
    split
    · exact leaseTick_keepsCards k
    · exact k
  | holdExpiry =>
    refine ⟨_, rfl, ?_⟩
    split
    · exact leaseTick_keepsCards k
    · exact k
  | removalClaim => exact ⟨_, rfl, removalClaim_keepsCards k⟩
  | reclaimEraseComplete p0 p1 => exact ⟨_, rfl, reclaimErase_keepsCards k p0 p1⟩
  | programMarkComplete p0 => exact ⟨_, rfl, k.same⟩
  | ecEraseComplete p0 p1 => exact ⟨_, rfl, k.same⟩
  | flashPhaseEnd => exact ⟨_, rfl, k.same⟩
  | dieReady c => exact ⟨_, rfl, k.same⟩
  | dieTimeout c =>
    refine ⟨_, rfl, ?_⟩
    unfold dieTimeout
    split
    · exact enterFaulted_keepsCards k _
    · exact k
  | resetDieComplete c => exact ⟨_, rfl, k.same⟩
  | resetDieNoReady c => exact ⟨_, rfl, k.same⟩
  | probe b0 b1 b2 b3 => exact ⟨_, rfl, k.same⟩
  | probeEnd => exact ⟨_, rfl, probeEnd_keepsCards k⟩
  | mountScanResult r => exact ⟨_, rfl, k.same⟩
  | mountScanEnd => exact ⟨_, rfl, scanEnd_keepsCards paths k⟩
  | memberReadResult r => exact ⟨_, rfl, k.same⟩
  | memberReadsEnd => exact ⟨_, rfl, k.same⟩
  | catalogLoad => exact ⟨_, rfl, catalogLoad_keepsCards paths k⟩
  | formatQuiet => exact ⟨_, rfl, k.same⟩
  | formatErasesEnd => exact ⟨_, rfl, formatErasesEnd_keepsCards k⟩
  | formatHeaderRowComplete p0 p1 => exact ⟨_, rfl, headerRowResult_keepsCards paths k _⟩
  | haltOnQuiet => exact ⟨_, rfl, k.same⟩
  | stopComplete => exact ⟨_, rfl, k.same⟩

/-- Settles O4: each command keeps the laws, its cases going through the places a card can move between (in hand, queued,
served, waiting). -/
theorem stepKeepsCards : Obligations.StepKeepsCards := by
  unfold Obligations.StepKeepsCards
  intro s t paths cards h
  unfold step at h
  split at h
  · cases h; exact cards
  next c rest _ =>
    have paths' : PathsOk { s with pending := rest } := ⟨paths.appendIdle, paths.formatting, paths.quiet⟩
    have cards' : CardsHand [] { s with pending := rest } := ((cardsOk_iff s).1 cards).same
    obtain ⟨u, hu, ku⟩ := exec_keepsCards c paths' cards'
    rw [hu, done_eq] at h
    cases h
    exact (cardsOk_iff _).2 ku.same

end Sys2Proof.Machine
end

section
/-!
PROOF. What each command answers, the laws at reset, and the resets (O2, O3, O10, O11).
-/
namespace Sys2Proof.Machine

-- One proof at a time, as in the tests: proofs checked side by side need more threads than the limits allow.
set_option Elab.async false

/-! ### What a command answers (O2) -/

variable {s : State}

theorem portAccess_pending {f : State → State} (h : (f s).pending = s.pending) :
    (portAccess f s).pending = s.pending :=
  portAccess_ind (P := fun t => t.pending = s.pending) rfl h

theorem pathTake_pending {p : CardPath} {free : Bool} {mine : Work → Bool} {always : Bool}
    {serve : CardIx → Work → State → State} (h : ∀ c w t, (serve c w t).pending = t.pending) :
    (pathTake p free mine always serve s).pending = s.pending :=
  pathTake_ind (P := fun t => t.pending = s.pending) rfl (fun _ _ _ _ _ => by simp) (fun _ _ _ _ _ _ => by simp [h])

theorem recordRowResult_pending {use : BufName → Dest → State → State}
    (h : ∀ n d t, (use n d t).pending = t.pending) : (recordRowResult use s).pending = s.pending :=
  recordRowResult_ind (P := fun t => t.pending = s.pending) rfl (fun _ => by simp) (fun _ _ _ _ _ _ => by simp [h])
    (fun _ _ => by simp)

/-- Every command is an effect that keeps the queue of waiting commands, followed by the quiet reports. -/
theorem exec_eq_done (i : Instr) (s : State) : ∃ t, exec i s = done t ∧ t.pending = s.pending := by
  cases i with
  | powerOnReset => exact ⟨_, rfl, rfl⟩
  | pinReset asserted => exact ⟨_, rfl, by cases asserted <;> rfl⟩
  | softReset => exact ⟨_, rfl, portAccess_pending rfl⟩
  | runWritten1 | runWritten0 | lingerWrite | eventsWrite | registerWrite | hostXmWrite | snapshotCapture
  | stateByteWrite => exact ⟨_, rfl, portAccess_pending (by simp)⟩
  | append | flush | readSeq | readKey | hold | holdRenew | release | trim | census | format =>
    exact ⟨_, rfl, pathTake_pending (by simp)⟩
  | rowProgramPass => exact ⟨_, rfl, recordRowResult_pending (by simp)⟩
  | rowProgramFail planes =>
    cases h : s.rp.relocation with
    | none =>
      exact ⟨recordRowResult rowFail s, by simp only [exec, execRowProgramFail, h], recordRowResult_pending (by simp)⟩
    | some r => exact ⟨s, by simp only [exec, execRowProgramFail, h], rfl⟩
  | replacementRow0Fail planes =>
    cases h : s.rp.relocation with
    | some r =>
      exact ⟨recordRowResult (replacementFail r) s, by simp only [exec, execReplacementRow0Fail, h],
        recordRowResult_pending (by simp)⟩
    | none =>
      by_cases hf : s.ec.engine = .formatting
      · exact ⟨recordRowResult (fun _ _ t => t) s, by simp only [exec, execReplacementRow0Fail, h, if_pos hf],
          recordRowResult_pending fun _ _ _ => rfl⟩
      · exact ⟨s, by simp only [exec, execReplacementRow0Fail, h, if_neg hf], rfl⟩
  | leaseTick | holdExpiry => exact ⟨_, rfl, by split <;> simp⟩
  | recordStage | lingerExpiry | digestProgramComplete | pinRequest | arTrailersResult | arReadRowResult | holdRequest
  | removalClaim | reclaimEraseComplete | programMarkComplete | ecEraseComplete | flashPhaseEnd | dieReady | dieTimeout
  | resetDieComplete | resetDieNoReady | probe | probeEnd | mountScanResult | mountScanEnd | memberReadResult
  | memberReadsEnd | catalogLoad | formatQuiet | formatErasesEnd | formatHeaderRowComplete | haltOnQuiet
  | stopComplete => exact ⟨_, rfl, by simp⟩

/-- Settles O2: every command is an effect followed by the quiet reports, and neither touches the queue of commands. -/
theorem everyCommandCompletes : Obligations.EveryCommandCompletes := by
  unfold Obligations.EveryCommandCompletes
  intro c s
  obtain ⟨t, h, hp⟩ := exec_eq_done c s
  exact ⟨settle t, h, by simp [hp]⟩

/-! ### The laws at reset (O3) -/

theorem reset_cardsOk : CardsOk State.reset := (cardsOk_iff _).2 (resetAll_keepsCards State.reset)

theorem reset_holdsOk : HoldsOk State.reset where
  eight := rfl
  entries h m := ⟨by rw [List.eq_of_mem_replicate m]; decide, .inr (List.eq_of_mem_replicate m)⟩
  distinct := by decide
  waiting := nofun

theorem reset_busOk : BusOk State.reset.fs := (Fs.cleared_ok State.reset.fs)

theorem reset_buffersOk : BuffersOk State.reset where
  bufA := ⟨by decide, by decide⟩
  bufB := ⟨by decide, by decide⟩
  single := by decide
  linger := nofun

theorem reset_pathsOk : PathsOk State.reset := ⟨fun _ _ => ⟨rfl, rfl⟩, nofun, nofun⟩

theorem reset_inFlightOk : InFlightOk State.reset where
  single := by decide
  handed h := absurd h (by decide)
  rows n d h := by cases n <;> cases h
  idle _ := ⟨rfl, rfl⟩

theorem reset_marksOk : MarksOk State.reset := ⟨nofun, nofun, nofun, nofun, nofun, nofun, nofun⟩

theorem reset_collections_unused : ¬ collectionsInUse State.reset := by
  rintro (h | ⟨h, _⟩) <;> exact absurd h (by decide)

theorem reset_placesOk : PlacesOk State.reset where
  collections h := absurd h reset_collections_unused
  running := nofun
  ruIdle _ := rfl
  ruClaim := nofun
  ruOperation := rfl
  formatEmpty := nofun
  formatHeader := nofun
  scan := nofun
  mounted := nofun

/-- Settles O3, law by law. -/
theorem resetMeetsEveryLaw : Obligations.ResetMeetsEveryLaw :=
  ⟨reset_cardsOk, reset_holdsOk, reset_busOk, reset_buffersOk, ⟨rfl, nofun⟩, reset_pathsOk, rfl, reset_inFlightOk,
    reset_marksOk, reset_placesOk⟩

/-! ### Resets (O10, O11) -/

/-- The quiet reports change no field but the quiet flags. -/
theorem settle_eq (s : State) : ∃ q, settle s = { s with ec := { s.ec with quiet := q } } := by
  unfold settle
  split
  · exact ⟨_, rfl⟩
  · exact ⟨s.ec.quiet, rfl⟩

/-- A state with its quiet flags put back after the quiet reports. -/
@[simp] theorem settle_restored (s : State) :
    { settle s with ec := { (settle s).ec with quiet := s.ec.quiet } } = s := by
  obtain ⟨q, h⟩ := settle_eq s
  rw [h]

theorem resetAll_notStopping (s : State) : (resetAll s).ec.engine ≠ .stopping := by
  show EngineState.halted ≠ .stopping
  decide

theorem exec_powerOnReset (s : State) : exec .powerOnReset s = .next (resetAll s) :=
  (done_eq _).trans (congrArg _ (settle_of_ne (resetAll_notStopping s)))

theorem exec_pinReset_asserted (s : State) :
    exec (.pinReset true) s = .next { State.reset with pending := s.pending, resetPin := true, draws := s.draws } :=
  (done_eq _).trans (congrArg _ (settle_of_ne (resetAll_notStopping s)))

theorem exec_softReset (h : s.resetPin = false) : exec .softReset s = .next (resetSoft s) := by
  have e : settle (resetSoft s) = resetSoft s := settle_of_ne (resetAll_notStopping s)
  show done (portAccess resetSoft s) = _
  rw [portAccess_of_low h, done_eq, e]

/-- A command of the slave port. -/
def isPortAccess (i : Instr) : Prop :=
  i = .softReset ∨ (∃ l, i = .runWritten1 l) ∨ (∃ l, i = .runWritten0 l) ∨ (∃ v, i = .lingerWrite v) ∨
    (∃ v, i = .eventsWrite v) ∨ (∃ o w d, i = .registerWrite o w d) ∨ (∃ o w d, i = .hostXmWrite o w d) ∨
    (∃ o w, i = .snapshotCapture o w) ∨ (∃ c w d, i = .stateByteWrite c w d)

/-- Every access goes through the port. -/
theorem exec_access {i : Instr} (h : isPortAccess i) : ∃ f, ∀ s, exec i s = done (portAccess f s) := by
  rcases h with rfl | ⟨l, rfl⟩ | ⟨l, rfl⟩ | ⟨v, rfl⟩ | ⟨v, rfl⟩ | ⟨o, w, d, rfl⟩ | ⟨o, w, d, rfl⟩ | ⟨o, w, rfl⟩ |
    ⟨c, w, d, rfl⟩ <;> exact ⟨_, fun _ => rfl⟩

/-- With the RESET pin asserted an access changes nothing (R1). -/
theorem exec_access_of_high {i : Instr} (hi : isPortAccess i) (h : s.resetPin = true) : exec i s = done s := by
  obtain ⟨f, hf⟩ := exec_access hi
  rw [hf, portAccess_of_high h]

/-- After a reset no source asserts a line (R12). -/
theorem lines_low : Xp.reset.attnA = false ∧ Xp.reset.attnB = false := by decide

/-- Settles O10: each clause from what the reset or the access answers. -/
theorem powerOnAndPinReset : Obligations.PowerOnAndPinReset := by
  unfold Obligations.PowerOnAndPinReset
  refine ⟨fun s => ⟨_, exec_pinReset_asserted s, lines_low.1, lines_low.2⟩, fun s h => ⟨rfl, ?_, fun c => ?_⟩, exec_powerOnReset,
    exec_pinReset_asserted, fun s => ?_, fun i s h hi => ?_⟩
  · simp [flashIoDriven, h]
  · simp [chipEnableNPin, h]
  · obtain ⟨q, hq⟩ := settle_eq { s with resetPin := false }
    exact ⟨settle { s with resetPin := false }, rfl, by rw [hq], by rw [hq]⟩
  · exact ⟨settle s, exec_access_of_high hi h, settle_restored s⟩

/-- The dies a soft reset's command goes to (R82, log 18). -/
theorem mem_softResets (s : State) (c : Fin 4) :
    c ∈ (resetSoft s).fs.softResets ↔ s.fs.mask.getLsbD c.val = true ∨ c ∈ s.fs.softResets := by
  have hc : c ∈ chipEnables := by fin_cases c <;> decide
  simp [resetSoft, hc, Fs.present]

/-- Settles O11, by the state bytes that the clearing of R24 drops and the bytes it keeps. -/
theorem softResetKeepsMemory : Obligations.SoftResetKeepsMemory := by
  unfold Obligations.SoftResetKeepsMemory
  intro s h
  refine ⟨resetSoft s, exec_softReset h, cardByte_resetSoft s, fun a ha => ?_, mem_softResets s, rfl, ?_⟩
  · have kept := clearCardStates_get s.xp.mem a
    rwa [ha] at kept
  · simp only [resetSoft, resetAll, h]
    rfl

end Sys2Proof.Machine
end

section
/-!
PROOF. The register window: writes by field and the attention lines (O14, O15).
-/
namespace Sys2Proof.Machine

-- One proof at a time, as in the tests: proofs checked side by side need more threads than the limits allow.
set_option Elab.async false

/-! ### Little-endian bytes -/

/-- Byte `i` of a number. -/
theorem leBytes_getElem? (n v i : Nat) : (leBytes n v)[i]? = if i < n then some (BitVec.ofNat 8 (v / 256 ^ i)) else none := by
  induction n generalizing v i with
  | zero => simp [leBytes]
  | succ n ih =>
    cases i with
    | zero => simp [leBytes]
    | succ i => simp [leBytes, ih, Nat.div_div_eq_div_mul, Nat.pow_succ']

/-- Byte `i` of a word as a number is its bits `8 * i` to `8 * i + 7`. -/
theorem ofNat_div_eq_extract (d : Word) (i : Nat) : BitVec.ofNat 8 (d.toNat / 256 ^ i) = d.extractLsb' (8 * i) 8 := by
  apply BitVec.eq_of_toNat_eq
  rw [BitVec.toNat_ofNat, BitVec.extractLsb'_toNat, Nat.shiftRight_eq_div_pow, Nat.pow_mul]

theorem accessBytes_eq (w : Width) (d : Word) : accessBytes w d = leBytes (widthSize w) d.toNat := by cases w <;> rfl

/-- Byte `i` of an access. -/
theorem accessBytes_getElem? (w : Width) (d : Word) (i : Nat) :
    (accessBytes w d)[i]? = if i < widthSize w then some (d.extractLsb' (8 * i) 8) else none := by
  rw [accessBytes_eq, leBytes_getElem?, ofNat_div_eq_extract]

/-- The byte a write carries for an offset. -/
theorem laneByte_accessBytes (a : Nat) (w : Width) (d : Word) (lane : Nat) :
    laneByte a (accessBytes w d) lane =
      if a ≤ lane ∧ lane < a + widthSize w then some (d.extractLsb' (8 * (lane - a)) 8) else none := by
  unfold laneByte
  rw [accessBytes_getElem?]
  split
  · rw [if_neg (by omega)]
  · by_cases h : lane < a + widthSize w
    · rw [if_pos (by omega), if_pos (by omega)]
    · rw [if_neg (by omega), if_neg (by omega)]

/-! ### Registers with lanes (R7) -/

/-- Bit `8 * i + n` of a little-endian number is bit `n` of its byte `i`. -/
theorem testBit_leNat (bs : List Byte) (i n : Nat) (hn : n < 8) :
    (leNat bs).testBit (8 * i + n) = (bs.getD i 0).getLsbD n := by
  induction bs generalizing i with
  | nil => simp [leNat]
  | cons b bs ih =>
    have split256 : leNat (b :: bs) = 2 ^ 8 * leNat bs + b.toNat := by simp [leNat]; omega
    rw [split256, Nat.testBit_two_pow_mul_add _ b.isLt]
    cases i with
    | zero => simp [hn, BitVec.getLsbD]
    | succ i =>
      rw [if_neg (by omega), show 8 * (i + 1) + n - 8 = 8 * i + n by omega, ih]
      rfl

/-- A bit of a register after a write: from the lane written, the old value elsewhere. -/
theorem testBit_mergeLanes (a : Nat) (w : Width) (d : Word) (reg old i n : Nat) (hi : i < 4) (hn : n < 8) :
    (mergeLanes a (accessBytes w d) reg old).testBit (8 * i + n) =
      laneBit a (widthSize w) d (reg + i) n (old.testBit (8 * i + n)) := by
  have lane (k : Nat) (hk : old / 256 ^ i = k) : ((laneByte a (accessBytes w d) (reg + i)).getD (BitVec.ofNat 8 k)).getLsbD n =
      laneBit a (widthSize w) d (reg + i) n (old.testBit (8 * i + n)) := by
    rw [laneByte_accessBytes, laneBit]
    split
    · simp [hn]
    · have : old.testBit (8 * i + n) = (old / 256 ^ i).testBit n := by
        rw [show 256 ^ i = 2 ^ (8 * i) by rw [Nat.pow_mul], Nat.testBit_div_two_pow]
        rw [Nat.add_comm]
      rw [this, hk, Option.getD_none, BitVec.getLsbD_ofNat, decide_eq_true hn, Bool.true_and]
  rw [mergeLanes, testBit_leNat _ _ _ hn]
  have cases_i : i = 0 ∨ i = 1 ∨ i = 2 ∨ i = 3 := by omega
  rcases cases_i with rfl | rfl | rfl | rfl
  · exact lane old (by simp)
  · exact lane (old / 256) (by simp)
  · exact lane (old / 65536) (by simp)
  · exact lane (old / 16777216) (by simp)

/-- A bit of a register of `k` bits after a write. -/
theorem getLsbD_mergeLanes {k : Nat} (hk : k ≤ 32) (a : Nat) (w : Width) (d : Word) (reg : Nat) (old : BitVec k) (n : Nat)
    (hn : n < k) :
    (BitVec.ofNat k (mergeLanes a (accessBytes w d) reg old.toNat)).getLsbD n =
      laneBit a (widthSize w) d (reg + n / 8) (n % 8) (old.getLsbD n) := by
  have h := testBit_mergeLanes a w d reg old.toNat (n / 8) (n % 8) (by omega) (by omega)
  rw [Nat.div_add_mod] at h
  rw [BitVec.getLsbD_ofNat, h]
  simp [hn, BitVec.getLsbD]

/-! ### Attention lines (R12) -/

/-- A line is asserted while a source that is enabled and routed to it is true. -/
theorem line_iff (x : Xp) (bit : Nat) : x.line bit = true ↔
    ∃ n < 9, x.enable.getLsbD n = true ∧ x.lineMap.getLsbD (2 * n + bit) = true ∧
      (if n = 8 then x.answered ≠ 0 else x.events.getLsbD n = true) := by
  have source (n : Nat) : x.source n = true ↔ (if n = 8 then x.answered ≠ 0 else x.events.getLsbD n = true) := by
    unfold Xp.source
    split <;> simp
  simp only [Xp.line, Xp.routed, List.any_eq_true, List.mem_range, Bool.and_eq_true, source]
  exact exists_congr fun n => by tauto

/-! ### What a register write does, by its aligned offset -/

variable {s : State}

theorem widthSize_pos (w : Width) : 1 ≤ widthSize w ∧ widthSize w ≤ 4 := by cases w <;> decide

/-- An accepted register write is its effect and the quiet reports. -/
theorem exec_registerWrite (h : s.resetPin = false) (o : BitVec 16) (w : Width) (d : Word) :
    exec (.registerWrite o w d) s =
      .next (settle (registerStore (o.toNat - o.toNat % widthSize w) (accessBytes w d) s)) := by
  show done (portAccess _ s) = _
  rw [portAccess_of_low h, done_eq]
  rfl

theorem registerStore_enable {a : Nat} (h : 0x10 ≤ a) (h' : a < 0x14) (bs : List Byte) (s : State) :
    registerStore a bs s =
      { s with xp := { s.xp with enable := BitVec.ofNat 9 (mergeLanes a bs 0x10 s.xp.enable.toNat) } } := by
  have hr : a - a % 4 = 0x10 := by omega
  simp [registerStore, hr]

theorem registerStore_lineMap {a : Nat} (h : 0x14 ≤ a) (h' : a < 0x18) (bs : List Byte) (s : State) :
    registerStore a bs s =
      { s with xp := { s.xp with lineMap := BitVec.ofNat 18 (mergeLanes a bs 0x14 s.xp.lineMap.toNat) } } := by
  have hr : a - a % 4 = 0x14 := by omega
  simp [registerStore, hr]

/-- Writes that no field stands behind (R7). -/
theorem registerStore_ignored {a : Nat}
    (h : a < 4 ∨ (8 ≤ a ∧ a < 0x0C) ∨ 0x18 ≤ a ∨ a = 6 ∨ a = 7 ∨ (0x0D ≤ a ∧ a < 0x10)) (bs : List Byte) (s : State) :
    registerStore a bs s = s := by
  have before (lane : Nat) (hl : lane < a) : laneByte a bs lane = none := if_pos hl
  have hr : (a - a % 4 = 4 → 6 ≤ a) ∧ (a - a % 4 = 0x0C → 0x0D ≤ a) ∧ a - a % 4 ≠ 0x10 ∧ a - a % 4 ≠ 0x14 := by omega
  obtain ⟨control, events, enable, lineMap⟩ := hr
  by_cases e1 : a - a % 4 = 4
  · have h6 := control e1
    simp only [registerStore, if_pos e1, before 4 (by omega), before 5 (by omega), controlWrite]
  · by_cases e2 : a - a % 4 = 0x0C
    · have h13 := events e2
      simp only [registerStore, if_neg e1, if_pos e2, before 0x0C (by omega)]
    · simp only [registerStore, if_neg e1, if_neg e2, if_neg enable, if_neg lineMap]

/-- Settles O14: the lines by their definition, each register by what a write to its offset does. -/
theorem registerWritesByField : Obligations.RegisterWritesByField := by
  unfold Obligations.RegisterWritesByField
  refine ⟨fun s => ⟨line_iff s.xp 0, line_iff s.xp 1⟩, fun v s h => ?linger, fun v s h => ?events, fun o w d s h => ?write⟩
  case linger =>
    obtain ⟨q, hq⟩ := settle_eq (setLinger v s)
    refine ⟨settle (setLinger v s), ?_, ?_, ?_⟩
    · show done (portAccess _ s) = _
      rw [portAccess_of_low h, done_eq]
    · simp
    · rw [hq]; rfl
  case events =>
    obtain ⟨q, hq⟩ := settle_eq (clearEvents v s)
    refine ⟨settle (clearEvents v s), ?_, fun n hn => ?_, ?_⟩
    · show done (portAccess _ s) = _
      rw [portAccess_of_low h, done_eq]
    · simp [hn]
    · rw [hq]; rfl
  case write =>
    extract_lets a
    have hw := widthSize_pos w
    refine ⟨_, exec_registerWrite h o w d, fun h1 h2 => ?_, fun h1 h2 => ?_, fun hi => ?_⟩
    · rw [registerStore_enable h1 h2]
      obtain ⟨q, hq⟩ := settle_eq
        { s with xp := { s.xp with enable := BitVec.ofNat 9 (mergeLanes a (accessBytes w d) 0x10 s.xp.enable.toNat) } }
      rw [hq]
      exact ⟨fun n hn => getLsbD_mergeLanes (by omega) a w d 0x10 s.xp.enable n hn, rfl⟩
    · rw [registerStore_lineMap h1 h2]
      obtain ⟨q, hq⟩ := settle_eq
        { s with xp := { s.xp with lineMap := BitVec.ofNat 18 (mergeLanes a (accessBytes w d) 0x14 s.xp.lineMap.toNat) } }
      rw [hq]
      exact ⟨fun n hn => getLsbD_mergeLanes (by omega) a w d 0x14 s.xp.lineMap n hn, rfl⟩
    · rw [registerStore_ignored hi]
      exact settle_restored s

/-! ### Writes to CONTROL and EVENTS (O15) -/

/-- The first byte of an access. -/
theorem laneByte_first (a : Nat) (w : Width) (d : Word) :
    laneByte a (accessBytes w d) a = some (d.setWidth 8) := by
  have hw := widthSize_pos w
  rw [laneByte_accessBytes, if_pos (by omega), Nat.sub_self, Nat.mul_zero, BitVec.setWidth_eq_extractLsb' (by omega)]

/-- The second byte of an access, if it has one. -/
theorem laneByte_second (a : Nat) (w : Width) (d : Word) :
    laneByte a (accessBytes w d) (a + 1) = if w = .w8 then none else some (d.extractLsb' 8 8) := by
  rw [laneByte_accessBytes]
  cases w <;> simp [widthSize]

theorem registerStore_control {a : Nat} (h : a = 4 ∨ a = 5) (bs : List Byte) (s : State) :
    registerStore a bs s = controlWrite (laneByte a bs 4) (laneByte a bs 5) s := by
  have hr : a - a % 4 = 4 := by omega
  simp [registerStore, hr]

theorem controlWrite_word (d : Word) (lane1 : Option Byte) (s : State) :
    controlWrite (some (d.setWidth 8)) lane1 s =
      if d.getLsbD 1 = true then resetSoft s else writeRun (d.getLsbD 0) lane1 s := by
  have bit (n : Nat) (hn : n < 8) : (d.setWidth 8).getLsbD n = d.getLsbD n := by simp [hn]
  simp only [controlWrite, bit 1 (by omega), bit 0 (by omega)]

/-- Settles O15: CONTROL by the lanes the write covers. -/
theorem controlWriteByFields : Obligations.ControlWriteByFields := by
  unfold Obligations.ControlWriteByFields
  intro o w d s
  extract_lets a
  have exec_eq : exec (.registerWrite o w d) s = done (portAccess (registerStore a (accessBytes w d)) s) := rfl
  refine ⟨fun ha => ?control, fun ha => ?linger, fun ha => ?events⟩
  case control =>
    have store : registerStore a (accessBytes w d) =
        controlWrite (some (d.setWidth 8)) (if w = .w8 then none else some (d.extractLsb' 8 8)) := by
      funext u
      rw [registerStore_control (.inl ha), ha, laneByte_first, laneByte_second]
    rw [exec_eq, store]
    generalize (if w = .w8 then none else some (d.extractLsb' 8 8)) = lane1
    by_cases h1 : d.getLsbD 1 = true
    · have reset : controlWrite (some (d.setWidth 8)) lane1 = resetSoft := by
        funext u; rw [controlWrite_word, if_pos h1]
      rw [reset, if_pos h1]; rfl
    · have run : controlWrite (some (d.setWidth 8)) lane1 = writeRun (d.getLsbD 0) lane1 := by
        funext u; rw [controlWrite_word, if_neg h1]
      rw [run, if_neg h1]
      cases d.getLsbD 0 <;> rfl
  case linger =>
    have store : registerStore a (accessBytes w d) = setLinger (d.setWidth 8) := by
      funext u
      rw [registerStore_control (.inr ha), ha, laneByte_first]
      rfl
    rw [exec_eq, store]; rfl
  case events =>
    have store : registerStore a (accessBytes w d) = clearEvents (d.setWidth 8) := by
      funext u
      rw [ha]
      show (match laneByte 0x0C (accessBytes w d) 0x0C with
        | some v => clearEvents v u
        | none => u) = _
      rw [laneByte_first]
    rw [exec_eq, store]; rfl

end Sys2Proof.Machine
end

section
/-!
PROOF. Host writes to exchange memory and the state-byte guard (O16, O18, O19).
-/
namespace Sys2Proof.Machine

-- One proof at a time, as in the tests: proofs checked side by side need more threads than the limits allow.
set_option Elab.async false

/-! ### Host stores in exchange memory (R2) -/

variable {s t : State} {c : CardIx} {r : Answer}

/-- A host store writes exchange memory only. -/
theorem hostStoreByte_eq_setMem (a : Nat) (b : Byte) (s : State) :
    hostStoreByte a b s = setMem (hostStoreByte a b s).xp.mem s := by
  unfold hostStoreByte
  split <;> rfl

/-- Host stores write exchange memory only. -/
theorem hostStoreList_eq_setMem (a : Nat) (bs : List Byte) (s : State) :
    hostStoreList a bs s = setMem (hostStoreList a bs s).xp.mem s := by
  induction bs generalizing a s with
  | nil => rfl
  | cons b bs ih =>
    calc hostStoreList (a + 1) bs (hostStoreByte a b s)
        = setMem (hostStoreList (a + 1) bs (hostStoreByte a b s)).xp.mem (hostStoreByte a b s) := ih _ _
      _ = setMem (hostStoreList (a + 1) bs (hostStoreByte a b s)).xp.mem s := by
          rw [hostStoreByte_eq_setMem a b s]; rfl

theorem hostStoreByte_wf (h : Memory.wf s.xp.mem = true) (a : Nat) (b : Byte) :
    Memory.wf (hostStoreByte a b s).xp.mem = true := by
  unfold hostStoreByte
  split
  · exact h
  · exact Memory.wf_store h a b

theorem hostStoreList_wf (h : Memory.wf s.xp.mem = true) (a : Nat) (bs : List Byte) :
    Memory.wf (hostStoreList a bs s).xp.mem = true := by
  induction bs generalizing a s with
  | nil => exact h
  | cons b bs ih => exact ih (hostStoreByte_wf h a b) _

/-- An offset that the host stores to: neither below the card array nor a state byte. -/
abbrev hostStored (j : Nat) : Prop := 0x400 ≤ j ∧ stateByteCard j = none

theorem xmRead_hostStoreByte (h : Memory.wf s.xp.mem = true) {a : Nat} (ha : a < 0x10000) (b : Byte) (j : Nat) :
    xmRead (hostStoreByte a b s).xp.mem j = if hostStored a ∧ j = a then b else xmRead s.xp.mem j := by
  unfold hostStoreByte hostStored
  by_cases hs : a < 0x400 ∨ (stateByteCard a).isSome
  · have kept : ¬ (0x400 ≤ a ∧ stateByteCard a = none) := by
      rintro ⟨h1, h2⟩
      rw [h2] at hs
      exact hs.elim (by omega) nofun
    rw [if_pos hs, if_neg fun k => kept k.1]
  · have stored : 0x400 ≤ a ∧ stateByteCard a = none := by simpa using hs
    rw [if_neg hs, setMem_mem, xmRead_store h ha]
    simp [stored]

/-- A read after host stores: the byte stored at an offset that they cover and that the host stores to. -/
theorem xmRead_hostStoreList (h : Memory.wf s.xp.mem = true) {a : Nat} {bs : List Byte} (ha : a + bs.length ≤ 0x10000)
    (j : Nat) : xmRead (hostStoreList a bs s).xp.mem j =
      if hostStored j ∧ a ≤ j ∧ j < a + bs.length then bs.getD (j - a) 0 else xmRead s.xp.mem j := by
  induction bs generalizing a s with
  | nil =>
    rw [if_neg (by simp only [List.length_nil]; omega)]
    rfl
  | cons b bs ih =>
    simp only [List.length_cons] at ha ⊢
    rw [hostStoreList, ih (hostStoreByte_wf h a b) (by omega), xmRead_hostStoreByte h (by omega)]
    by_cases later : a + 1 ≤ j
    · rw [if_neg (c := hostStored a ∧ j = a) (by omega), show j - a = j - (a + 1) + 1 by omega, List.getD_cons_succ]
      exact if_congr (and_congr_right fun _ => by omega) rfl rfl
    · rw [if_neg (c := hostStored j ∧ a + 1 ≤ j ∧ j < a + 1 + bs.length) (by omega)]
      by_cases e : j = a
      · simp [e]
      · rw [if_neg (by omega), if_neg (by omega)]

/-! ### The host's accesses (R1, R16) -/

theorem accessBytes_length (w : Width) (d : Word) : (accessBytes w d).length = widthSize w := by
  rw [accessBytes_eq, leBytes_length]

/-- A read after the stores of a write. -/
theorem xmRead_hostStore_access (h : Memory.wf s.xp.mem = true) {a : Nat} {w : Width} (ha : a + widthSize w ≤ 0x10000)
    (d : Word) (j : Nat) : xmRead (hostStoreList a (accessBytes w d) s).xp.mem j =
      if hostStored j ∧ a ≤ j ∧ j < a + widthSize w then d.extractLsb' (8 * (j - a)) 8 else xmRead s.xp.mem j := by
  rw [xmRead_hostStoreList h (by rwa [accessBytes_length]), accessBytes_length]
  by_cases hj : hostStored j ∧ a ≤ j ∧ j < a + widthSize w
  · rw [if_pos hj, if_pos hj, List.getD_eq_getElem?_getD, accessBytes_getElem?, if_pos (by omega), Option.getD_some]
  · rw [if_neg hj, if_neg hj]

/-- Only multiples of 64 are state bytes. -/
theorem stateByteCard_of_mod {a : Nat} (h : a % 64 ≠ 0) : stateByteCard a = none := if_neg (by omega)

theorem stateByteCard_iff (a : Nat) (c : CardIx) : stateByteCard a = some c ↔ a = cardBase c :=
  ⟨stateByteCard_some, fun h => h ▸ stateByteCard_base c⟩

/-- No lane of an access but the first is at a multiple of 64. -/
theorem lane_mod (o : Nat) (w : Width) (k : Nat) (h1 : 1 ≤ k) (h2 : k < widthSize w) :
    (o - o % widthSize w + k) % 64 ≠ 0 := by
  cases w <;> simp only [widthSize] at h2 ⊢ <;> omega

/-- An access in the exchange memory window ends in it. -/
theorem access_end (o : BitVec 16) (w : Width) : o.toNat - o.toNat % widthSize w + widthSize w ≤ 0x10000 := by
  have ho := o.isLt
  cases w <;> simp only [widthSize] <;> omega

theorem accessBytes_cons (w : Width) (d : Word) : ∃ bs, accessBytes w d = laneZero d :: bs := by
  have first : BitVec.ofNat 8 d.toNat = laneZero d := BitVec.ofNat_toNat 8 d
  cases w <;> exact ⟨_, by rw [← first]; rfl⟩

/-- A write from a card's state byte: the other lanes first, then the guard on the first lane. -/
theorem xmHostWrite_stateByte (c : CardIx) (w : Width) (d : Word) (s : State) :
    xmHostWrite (cardBase c) (accessBytes w d) s =
      guardWrite c (laneZero d) (hostStoreList (cardBase c) (accessBytes w d) s) := by
  obtain ⟨bs, hbs⟩ := accessBytes_cons w d
  rw [hbs]
  simp only [xmHostWrite, stateByteCard_base]

/-- A write from any other offset. -/
theorem xmHostWrite_other {a : Nat} (h : stateByteCard a = none) (bs : List Byte) (s : State) :
    xmHostWrite a bs s = hostStoreList a bs s := by
  simp only [xmHostWrite, h]

theorem exec_hostXmWrite (h : s.resetPin = false) (o : BitVec 16) (w : Width) (d : Word) :
    exec (.hostXmWrite o w d) s =
      .next (settle (xmHostWrite (o.toNat - o.toNat % widthSize w) (accessBytes w d) s)) := by
  show done (portAccess _ s) = _
  rw [portAccess_of_low h, done_eq]
  rfl

theorem exec_stateByteWrite (h : s.resetPin = false) (c : CardIx) (w : Width) (d : Word) :
    exec (.stateByteWrite c w d) s =
      .next (settle (guardWrite c (laneZero d) (hostStoreList (cardBase c) (accessBytes w d) s))) := by
  show done (portAccess _ s) = _
  rw [portAccess_of_low h, done_eq, xmHostWrite_stateByte]

/-- A store to exchange memory, with the memory and the quiet flags put back after the quiet reports. -/
theorem settle_mem_restored (m : Memory) (s : State) :
    { settle (setMem m s) with
      xp := { (settle (setMem m s)).xp with mem := s.xp.mem }
      ec := { (settle (setMem m s)).ec with quiet := s.ec.quiet } } = s := by
  obtain ⟨q, h⟩ := settle_eq (setMem m s)
  rw [h]
  rfl

/-- Settles O16: the offsets of state bytes, and what the host's stores read back as. -/
theorem hostWriteStoresItsBytes : Obligations.HostWriteStoresItsBytes := by
  unfold Obligations.HostWriteStoresItsBytes
  refine ⟨fun o w d s c h => ?_, stateByteCard_iff, fun o w k h1 h2 => stateByteCard_of_mod (lane_mod _ w k h1 h2),
    fun o w d s h wf => ?_⟩
  · show done (portAccess (xmHostWrite (o.toNat - o.toNat % widthSize w) (accessBytes w d)) s) = _
    rw [h]
    rfl
  · extract_lets a
    intro ha
    refine ⟨_, exec_hostXmWrite h o w d, fun j => ?_, ?_⟩
    · rw [xmHostWrite_other ha]
      obtain ⟨q, hq⟩ := settle_eq (hostStoreList a (accessBytes w d) s)
      rw [hq, xmRead_hostStore_access wf (access_end o w)]
      refine if_congr ?_ rfl rfl
      have plain (h1 : a ≤ j) (h2 : j < a + widthSize w) : stateByteCard j = none := by
        by_cases e : j = a
        · rw [e]; exact ha
        · have k := lane_mod o.toNat w (j - a) (by omega) (by omega)
          rw [show o.toNat - o.toNat % widthSize w + (j - a) = j by omega] at k
          exact stateByteCard_of_mod k
      exact ⟨fun k => ⟨k.1.1, k.2⟩, fun k => ⟨⟨k.1, plain k.2.1 k.2.2⟩, k.2⟩⟩
    · rw [xmHostWrite_other ha, hostStoreList_eq_setMem]
      exact settle_mem_restored _ s

/-! ### State-byte writes (R14 to R17) -/

theorem widthSize_card (c : CardIx) (w : Width) : cardBase c + widthSize w ≤ 0x10000 := by
  have hb := cardBase_range c
  have hw := widthSize_pos w
  omega

/-- The stores of a state-byte write: all its lanes but the first. -/
theorem xmRead_stateByteWrite (h : Memory.wf s.xp.mem = true) (c : CardIx) (w : Width) (d : Word) (j : Nat) :
    xmRead (hostStoreList (cardBase c) (accessBytes w d) s).xp.mem j =
      if cardBase c < j ∧ j < cardBase c + widthSize w then d.extractLsb' (8 * (j - cardBase c)) 8
      else xmRead s.xp.mem j := by
  have hb := cardBase_range c
  have hw := widthSize_pos w
  rw [xmRead_hostStore_access h (widthSize_card c w)]
  refine if_congr ⟨fun ⟨stored, h1, h2⟩ => ⟨?_, h2⟩, fun ⟨h1, h2⟩ => ⟨⟨?_, stateByteCard_of_mod ?_⟩, ?_, h2⟩⟩ rfl rfl
  · have : j ≠ cardBase c := by
      rintro rfl
      exact absurd (stored.2.symm.trans (stateByteCard_base c)) nofun
    omega
  all_goals omega

/-- The state byte keeps its value under the stores of the other lanes. -/
theorem cardByte_hostStore (h : Memory.wf s.xp.mem = true) (c : CardIx) (w : Width) (d : Word) :
    cardByte (hostStoreList (cardBase c) (accessBytes w d) s) c = cardByte s c := by
  unfold cardByte
  rw [xmRead_stateByteWrite h, if_neg (by omega)]

theorem guardWrite_posted (h : cardByte s c = 0 ∨ cardByte s c = 3) : guardWrite c 1 s = postCard c s :=
  (if_pos h).trans (if_pos rfl)

theorem guardWrite_idle (h : cardByte s c = 0 ∨ cardByte s c = 3) : guardWrite c 0 s = setCardState c .idle s :=
  (if_pos h).trans ((if_neg (by decide)).trans (if_pos rfl))

/-- The writes that the guard refuses (R15). -/
theorem guardWrite_slip {v : Byte} (h : (v ≠ 0 ∧ v ≠ 1) ∨ cardByte s c = 1 ∨ cardByte s c = 2) :
    guardWrite c v s = slip s := by
  unfold guardWrite
  split
  next open_ =>
    have hv : v ≠ 0 ∧ v ≠ 1 := by
      refine h.resolve_right fun k => ?_
      rcases open_ with e | e <;> rw [e] at k <;> revert k <;> decide
    exact (if_neg hv.2).trans (if_neg hv.1)
  · rfl

theorem AnswersCard.settle (h : AnswersCard c r s t) : AnswersCard c r s (settle t) := by
  obtain ⟨⟨state, bit, result⟩, bytes, bits, port⟩ := h
  obtain ⟨q, hq⟩ := settle_eq t
  rw [hq]
  exact ⟨⟨state, bit, result⟩, bytes, bits, port⟩

theorem MovesCard.settle {st : CardState} (h : MovesCard c st s t) : MovesCard c st s (settle t) := by
  obtain ⟨state, bit, bytes, bits, port⟩ := h
  obtain ⟨q, hq⟩ := settle_eq t
  rw [hq]
  exact ⟨state, bit, bytes, bits, port⟩

/-- A change of a card's state to one that is not ANSWERED. -/
theorem movesCard_setCardState (h : Memory.wf s.xp.mem = true) (c : CardIx) {st : CardState} (hst : st ≠ .answered) :
    MovesCard c st s (setCardState c st s) where
  state := by rw [cardByte_setCardState h, if_pos rfl]
  bit := by rw [answered_setCardState, if_pos rfl, decide_eq_false hst]
  bytes a ha := by rw [setCardState_mem, xmRead_store_ne h _ ha]
  bits d hd := by rw [answered_setCardState, if_neg hd]
  port := rfl

theorem MovesCard.setQueue {st : CardState} (h : MovesCard c st s t) (p : CardPath) (q : List CardIx) :
    MovesCard c st s (setQueue p q t) := by
  obtain ⟨state, bit, bytes, bits, port⟩ := h
  cases p <;> exact ⟨state, bit, bytes, bits, port⟩

/-- Settles O18, by the kind of the card that the guard posts. -/
theorem acceptedStateWrite : Obligations.AcceptedStateWrite := by
  unfold Obligations.AcceptedStateWrite
  intro c w d s low wf accepts u
  have byte : cardByte u c = 0 ∨ cardByte u c = 3 := by rwa [cardByte_hostStore wf]
  have wfu : Memory.wf u.xp.mem = true := hostStoreList_wf wf _ _
  have stored : u = setMem u.xp.mem s := hostStoreList_eq_setMem _ _ s
  have exec_eq : exec (.stateByteWrite c w d) s = .next (settle (guardWrite c (laneZero d) u)) :=
    exec_stateByteWrite low c w d
  refine ⟨xmRead_stateByteWrite wf c w d, _, exec_eq, fun posts => ?posted, fun idles => ?idle⟩
  case posted =>
    rw [posts, guardWrite_posted byte, postCard]
    cases hk : Kind.ofCode (xmRead u.xp.mem (cardBase c + 1)) with
    | none =>
      refine ⟨(answersCard_answerCard wfu c _).settle, ?_⟩
      obtain ⟨q, hq⟩ := settle_eq (answerCard c (.plain .badKind) u)
      rw [hq, stored]
      rfl
    | some k =>
      show if s.ec.engine = .faulted then _ else _
      have engine : u.ec.engine = s.ec.engine := by rw [stored]; rfl
      by_cases hf : s.ec.engine = .faulted
      · simp only [engine, if_pos hf]
        refine ⟨(answersCard_answerCard wfu c _).settle, ?_⟩
        have quiet : settle (answerCard c (.plain .faulted) u) = answerCard c (.plain .faulted) u :=
          settle_of_ne (by simp [engine, hf])
        rw [quiet, stored]
        rfl
      · simp only [engine, if_neg hf]
        obtain ⟨q, hq⟩ := settle_eq (setQueue k.path (u.ci.queue k.path ++ [c]) (setCardState c .posted u))
        refine ⟨((movesCard_setCardState wfu c (st := .posted) nofun).setQueue _ _).settle, ?_, ?_⟩
        · rw [hq, stored]
          cases k.path <;> rfl
        · rw [hq, stored]
          cases k.path <;> rfl
  case idle =>
    rw [idles, guardWrite_idle byte]
    refine ⟨(movesCard_setCardState wfu c (st := .idle) nofun).settle, ?_⟩
    obtain ⟨q, hq⟩ := settle_eq (setCardState c .idle u)
    rw [hq, stored]
    rfl

theorem leNat_leBytes (n v : Nat) : leNat (leBytes n v) = v % 256 ^ n := by
  induction n generalizing v with
  | zero => simp [leBytes, leNat, Nat.mod_one]
  | succ n ih => rw [leBytes, leNat, ih, BitVec.toNat_ofNat, Nat.pow_succ' (m := 256), Nat.mod_mul (a := 256)]

/-- The slip count in the anchor block. -/
theorem field_anchorBytes_slips (s : State) : field (anchorBytes s) 4 4 = s.xp.slips.toNat := by
  have bytes : ((anchorBytes s).drop 4).take 4 = leBytes 4 s.xp.slips.toNat := rfl
  rw [field, bytes, leNat_leBytes]
  exact Nat.mod_eq_of_lt s.xp.slips.isLt

/-- Settles O19: the guard's refusal is a slip, and every reset clears the count. -/
theorem slipIsCountedOnly : Obligations.SlipIsCountedOnly := by
  unfold Obligations.SlipIsCountedOnly
  refine ⟨fun c w d s low wf refuses => ?slip, fun s t h => ?reset⟩
  case slip =>
    have exec_eq := exec_stateByteWrite low c w d
    rw [guardWrite_slip (by rwa [cardByte_hostStore wf])] at exec_eq
    refine ⟨_, exec_eq, ?_⟩
    have reads := xmRead_stateByteWrite wf c w d
    rw [hostStoreList_eq_setMem] at reads ⊢
    generalize (hostStoreList (cardBase c) (accessBytes w d) s).xp.mem = m at reads ⊢
    obtain ⟨q, hq⟩ := settle_eq (slip (setMem m s))
    rw [hq]
    exact ⟨rfl, field_anchorBytes_slips _, rfl, reads, rfl⟩
  case reset =>
    have slips : t.xp.slips = 0 := by
      rcases h with h | h | ⟨low, h⟩
      · rw [exec_powerOnReset] at h; cases h; rfl
      · rw [exec_pinReset_asserted] at h; cases h; rfl
      · rw [exec_softReset low] at h; cases h; rfl
    exact ⟨slips, by rw [field_anchorBytes_slips, slips]; rfl⟩

end Sys2Proof.Machine
end

section
/-!
PROOF. Host reads and the snapshot latch (O17).
-/
namespace Sys2Proof.Machine

-- One proof at a time, as in the tests: proofs checked side by side need more threads than the limits allow.
set_option Elab.async false

/-! ### Fields laid out one after another -/

/-- The bytes of fields, each an offset, a size and a value, one after another. -/
def fieldBytes : List (Nat × Nat × Nat) → List Byte
  | [] => []
  | e :: es => leBytes e.2.1 e.2.2 ++ fieldBytes es

/-- The fields lie one after another from an offset. -/
def LaidOut : Nat → List (Nat × Nat × Nat) → Prop
  | _, [] => True
  | base, e :: es => e.1 = base ∧ LaidOut (base + e.2.1) es

theorem LaidOut.le {base : Nat} {es : List (Nat × Nat × Nat)} (h : LaidOut base es) {e : Nat × Nat × Nat} (he : e ∈ es) :
    base ≤ e.1 := by
  induction es generalizing base with
  | nil => cases he
  | cons f es ih =>
    obtain ⟨hf, hes⟩ := h
    rcases List.mem_cons.1 he with rfl | he
    · omega
    · have := ih hes he
      omega

/-- A byte of a field is the byte of its value. -/
theorem fieldBytes_getD {base : Nat} {es : List (Nat × Nat × Nat)} (h : LaidOut base es) {e : Nat × Nat × Nat} (he : e ∈ es)
    {j : Nat} (h1 : e.1 ≤ j) (h2 : j < e.1 + e.2.1) :
    (fieldBytes es).getD (j - base) 0 = BitVec.ofNat 8 (e.2.2 / 256 ^ (j - e.1)) := by
  induction es generalizing base with
  | nil => cases he
  | cons f es ih =>
    obtain ⟨hf, hes⟩ := h
    have hl := leBytes_length f.2.1 f.2.2
    rw [fieldBytes, List.getD_eq_getElem?_getD]
    rcases List.mem_cons.1 he with rfl | he
    · rw [List.getElem?_append_left (by omega), leBytes_getElem?, if_pos (by omega), hf, Option.getD_some]
    · have := hes.le he
      rw [List.getElem?_append_right (by omega), hl, Nat.sub_sub, ← List.getD_eq_getElem?_getD]
      exact ih hes he

/-- A number in two parts is the bytes of the lower and those of the upper. -/
theorem leBytes_add (m n x y : Nat) (hx : x < 256 ^ m) :
    leBytes (m + n) (x + 256 ^ m * y) = leBytes m x ++ leBytes n y := by
  induction m generalizing x with
  | zero =>
    have : x = 0 := by simpa using hx
    simp [this, leBytes]
  | succ m ih =>
    rw [Nat.pow_succ'] at hx ⊢
    have low : BitVec.ofNat 8 (x + 256 * 256 ^ m * y) = BitVec.ofNat 8 x := by
      apply BitVec.eq_of_toNat_eq
      rw [BitVec.toNat_ofNat, BitVec.toNat_ofNat, Nat.mul_assoc]
      exact Nat.add_mul_mod_self_left _ _ _
    have high : (x + 256 * 256 ^ m * y) / 256 = x / 256 + 256 ^ m * y := by
      rw [Nat.mul_assoc, Nat.add_mul_div_left _ _ (by omega)]
    rw [show m + 1 + n = (m + n) + 1 by omega, leBytes, leBytes, low, high, ih _ (by omega), List.cons_append]

/-! ### The anchor block and the registers by field (R6, R8 to R11, 11.1, 11.3) -/

variable {s : State}

/-- The fields of the anchor block. -/
def anchorFields (s : State) : List (Nat × Nat × Nat) := [
  (0x00, 1, 1), (0x01, 1, archiveFlags s), (0x02, 2, s.cu.freePool.length), (0x04, 4, s.xp.slips.toNat), (0x08, 8, 0),
  (0x10, 16, s.xp.answered.toNat), (0x20, 8, markValue s .nextSeq), (0x28, 8, markValue s .durableMark),
  (0x30, 8, markValue s .oldestSeq), (0x38, 8, markValue s .trimPoint), (0x40, 8, markValue s .discardFirst),
  (0x48, 8, markValue s .discardLast)]

theorem anchorBytes_eq (s : State) : anchorBytes s = fieldBytes (anchorFields s) := by
  simp only [anchorBytes, fieldBytes, anchorFields, List.append_assoc, List.append_nil]

theorem anchorFields_laidOut (s : State) : LaidOut 0 (anchorFields s) := by simp [anchorFields, LaidOut]

theorem anchorBytes_length (s : State) : (anchorBytes s).length = 0x50 := by simp [anchorBytes, leBytes_length]

/-- The fields of the registers. -/
def registerFields (s : State) : List (Nat × Nat × Nat) := [
  (0x10000, 4, identReg), (0x10004, 1, bit01 s.xp.run), (0x10005, 1, s.xp.linger.toNat), (0x10006, 2, 0),
  (0x10008, 1, s.ec.engine.code + 16 * s.ec.cause.code), (0x10009, 1, s.cu.mode.code + 2 * bit01 s.rp.readOnly),
  (0x1000A, 2, s.fs.mask.toNat), (0x1000C, 4, s.xp.events.toNat), (0x10010, 4, s.xp.enable.toNat),
  (0x10014, 4, s.xp.lineMap.toNat)]

theorem bit01_le (b : Bool) : bit01 b ≤ 1 := by cases b <;> decide

theorem controlReg_bytes (x : Xp) :
    leBytes 4 (controlReg x) = leBytes 1 (bit01 x.run) ++ (leBytes 1 x.linger.toNat ++ leBytes 2 0) := by
  have run := bit01_le x.run
  rw [← leBytes_add 1 2 _ _ x.linger.isLt, ← leBytes_add 1 3 _ _ (by omega), controlReg]
  simp

theorem engineReg_bytes (s : State) :
    leBytes 4 (engineReg s) = leBytes 1 (s.ec.engine.code + 16 * s.ec.cause.code) ++
      (leBytes 1 (s.cu.mode.code + 2 * bit01 s.rp.readOnly) ++ leBytes 2 s.fs.mask.toNat) := by
  have engine : s.ec.engine.code ≤ 7 := by cases s.ec.engine <;> decide
  have cause : s.ec.cause.code ≤ 2 := by cases s.ec.cause <;> decide
  have mode : s.cu.mode.code ≤ 1 := by cases s.cu.mode <;> decide
  have readOnly := bit01_le s.rp.readOnly
  rw [← leBytes_add 1 2 _ _ (by omega), ← leBytes_add 1 3 _ _ (by omega), engineReg]
  congr 1
  omega

theorem registerBytes_eq (s : State) : registerBytes s = fieldBytes (registerFields s) := by
  simp only [registerBytes, fieldBytes, registerFields, controlReg_bytes, engineReg_bytes, List.append_assoc,
    List.append_nil]

theorem registerFields_laidOut (s : State) : LaidOut 0x10000 (registerFields s) := by simp [registerFields, LaidOut]

theorem registerBytes_length (s : State) : (registerBytes s).length = 0x18 := by simp [registerBytes, leBytes_length]

/-! ### The snapshot latch (R5) -/

/-- The mark fields are 8 bytes each, at multiples of 8 in the anchor block. -/
theorem MarkField.offset_range (f : MarkField) : 0x20 ≤ f.offset ∧ f.offset ≤ 0x48 ∧ f.offset % 8 = 0 := by
  cases f <;> decide

theorem MarkField.ofOffset_offset (f : MarkField) : MarkField.ofOffset f.offset = some f := by cases f <;> rfl

theorem MarkField.ofOffset_none {a : Nat} (h : ∀ f : MarkField, a ≠ f.offset) : MarkField.ofOffset a = none := by
  have first : a ≠ 0x20 ∧ a ≠ 0x28 ∧ a ≠ 0x30 := ⟨h .nextSeq, h .durableMark, h .oldestSeq⟩
  have last : a ≠ 0x38 ∧ a ≠ 0x40 ∧ a ≠ 0x48 := ⟨h .trimPoint, h .discardFirst, h .discardLast⟩
  simp [MarkField.ofOffset, first, last]

theorem captured_offset (s : State) (f : MarkField) :
    captured s f.offset = { field := some f, value := BitVec.ofNat 32 (markValue s f / 4294967296) } := by
  simp only [captured, f.ofOffset_offset]

theorem captured_other {a : Nat} (h : ∀ f : MarkField, a ≠ f.offset) : captured s a = s.xp.latch := by
  simp only [captured, MarkField.ofOffset_none h]

/-- The latch holds a byte for an offset: the latched field's upper half covers it. -/
def latchedAt (l : SnapLatch) (j : Nat) : Prop := ∃ f : MarkField, l.field = some f ∧ f.offset + 4 ≤ j ∧ j < f.offset + 8

theorem SnapLatch.byte_of_not {l : SnapLatch} {j : Nat} (h : ¬ latchedAt l j) : l.byte j = none := by
  unfold SnapLatch.byte
  split
  · rfl
  next f hf => exact if_neg fun k => h ⟨f, hf, k⟩

theorem SnapLatch.byte_of_field {l : SnapLatch} {f : MarkField} {j : Nat} (hf : l.field = some f) (h1 : f.offset + 4 ≤ j)
    (h2 : j < f.offset + 8) : l.byte j = some (BitVec.ofNat 8 (l.value.toNat / 256 ^ (j - f.offset - 4))) := by
  simp only [SnapLatch.byte, hf]
  rw [if_pos ⟨h1, h2⟩, List.getD_eq_getElem?_getD, leBytes_getElem?, if_pos (by omega), Option.getD_some]

/-! ### A byte of a host read (R2, R5, R7) -/

theorem hostReadByte_anchor {j : Nat} (hl : ¬ latchedAt s.xp.latch j) {e : Nat × Nat × Nat} (he : e ∈ anchorFields s)
    (h1 : e.1 ≤ j) (h2 : j < e.1 + e.2.1) : hostReadByte s j = BitVec.ofNat 8 (e.2.2 / 256 ^ (j - e.1)) := by
  have hj : j < 0x50 := by
    have ends : ∀ e ∈ anchorFields s, e.1 + e.2.1 ≤ 0x50 := by simp [anchorFields]
    have := ends e he
    omega
  have byte := fieldBytes_getD (anchorFields_laidOut s) he h1 h2
  rw [hostReadByte, if_pos (by omega), SnapLatch.byte_of_not hl, Option.getD_none, anchorBytes_eq]
  exact byte

theorem hostReadByte_register {j : Nat} {e : Nat × Nat × Nat} (he : e ∈ registerFields s) (h1 : e.1 ≤ j)
    (h2 : j < e.1 + e.2.1) : hostReadByte s j = BitVec.ofNat 8 (e.2.2 / 256 ^ (j - e.1)) := by
  have hj : 0x10000 ≤ j := ((registerFields_laidOut s).le he).trans h1
  rw [hostReadByte, if_neg (by omega), if_neg (by omega), if_neg (by omega), registerBytes_eq]
  exact fieldBytes_getD (registerFields_laidOut s) he h1 h2

/-- The regions without contents. -/
theorem hostReadByte_unused {j : Nat} (hl : ¬ latchedAt s.xp.latch j) (h : (0x50 ≤ j ∧ j < 0x400) ∨ 0x10018 ≤ j) :
    hostReadByte s j = 0 := by
  have beyond {bs : List Byte} {i : Nat} (hi : bs.length ≤ i) : bs.getD i 0 = 0 := by
    rw [List.getD_eq_getElem?_getD, List.getElem?_eq_none hi, Option.getD_none]
  rw [hostReadByte]
  by_cases low : j < 0x100
  · rw [if_pos low, SnapLatch.byte_of_not hl, Option.getD_none]
    exact beyond (by rw [anchorBytes_length]; omega)
  · rw [if_neg low]
    by_cases mid : j < 0x400
    · rw [if_pos mid]
    · rw [if_neg mid, if_neg (by omega)]
      exact beyond (by rw [registerBytes_length]; omega)

theorem hostReadByte_stored {j : Nat} (h1 : 0x400 ≤ j) (h2 : j < 0x10000) : hostReadByte s j = xmRead s.xp.mem j := by
  rw [hostReadByte, if_neg (by omega), if_neg (by omega), if_pos h2]

/-- A byte of the upper half of the field that the latch names. -/
theorem hostReadByte_latched {f : MarkField} {j : Nat} (hf : s.xp.latch.field = some f) (h1 : f.offset + 4 ≤ j)
    (h2 : j < f.offset + 8) :
    hostReadByte s j = BitVec.ofNat 8 (s.xp.latch.value.toNat / 256 ^ (j - f.offset - 4)) := by
  have range := f.offset_range
  rw [hostReadByte, if_pos (by omega), SnapLatch.byte_of_field hf h1 h2, Option.getD_some]

/-! ### The word of a host read -/

theorem leNat_lt (bs : List Byte) : leNat bs < 256 ^ bs.length := by
  induction bs with
  | nil => exact Nat.one_pos
  | cons b bs ih =>
    have hb := b.isLt
    rw [leNat, List.length_cons, Nat.pow_succ']
    omega

theorem hostReadList_length (s : State) (a n : Nat) : (hostReadList s a n).length = n := by
  induction n generalizing a with
  | zero => rfl
  | succ n ih => rw [hostReadList, List.length_cons, ih]

theorem hostReadList_getD (s : State) (a : Nat) {n k : Nat} (hk : k < n) :
    (hostReadList s a n).getD k 0 = hostReadByte s (a + k) := by
  induction n generalizing a k with
  | zero => omega
  | succ n ih =>
    cases k with
    | zero => rfl
    | succ k => rw [hostReadList, List.getD_cons_succ, ih _ (by omega), show a + 1 + k = a + (k + 1) by omega]

/-- A read whose bytes are those of a number. -/
theorem hostReadList_eq_leBytes {a n v : Nat} (h : ∀ k < n, hostReadByte s (a + k) = BitVec.ofNat 8 (v / 256 ^ k)) :
    hostReadList s a n = leBytes n v := by
  refine List.ext_getElem? fun k => ?_
  rw [leBytes_getElem?]
  split
  next hk =>
    have len : k < (hostReadList s a n).length := by rwa [hostReadList_length]
    have byte := hostReadList_getD s a hk
    rw [List.getD_eq_getElem _ _ len] at byte
    rw [List.getElem?_eq_getElem len, byte, h k hk]
  next hk => exact List.getElem?_eq_none (by rw [hostReadList_length]; omega)

/-- A byte of the data pins after a read (log 5). -/
theorem extract_portData (s : State) (a : Nat) {n k : Nat} (hn : n ≤ 4) (hk : k < n) :
    (BitVec.ofNat 32 (leNat (hostReadList s a n))).extractLsb' (8 * k) 8 = hostReadByte s (a + k) := by
  refine BitVec.eq_of_getLsbD_eq fun i hi => ?_
  rw [← hostReadList_getD s a hk, ← testBit_leNat _ _ _ hi, BitVec.getLsbD_extractLsb', BitVec.getLsbD_ofNat]
  simp only [hi, decide_true, Bool.true_and]
  rw [decide_eq_true (by omega), Bool.true_and]

theorem exec_snapshotCapture (h : s.resetPin = false) (o : BitVec 17) (w : Width) :
    exec (.snapshotCapture o w) s =
      .next (settle (hostRead (o.toNat - o.toNat % widthSize w) (widthSize w) s)) := by
  show done (portAccess _ s) = _
  rw [portAccess_of_low h, done_eq]
  rfl

/-- A read of 32 bits at a multiple of 4 whose bytes are those of a number. -/
theorem portData_of_bytes {a v : Nat} (h : ∀ k < 4, hostReadByte s (a + k) = BitVec.ofNat 8 (v / 256 ^ k)) :
    (hostRead a 4 s).xp.portData = BitVec.ofNat 32 v := by
  show BitVec.ofNat 32 (leNat (hostReadList s a 4)) = _
  rw [hostReadList_eq_leBytes h, leNat_leBytes]
  apply BitVec.eq_of_toNat_eq
  rw [BitVec.toNat_ofNat, BitVec.toNat_ofNat]
  exact Nat.mod_mod _ _

/-! ### Reads of a mark (O17) -/

/-- The lower half of a mark, which no latch covers. -/
theorem portData_lowerHalf (s : State) (f : MarkField) :
    (hostRead f.offset 4 s).xp.portData = BitVec.ofNat 32 (markValue s f) := by
  refine portData_of_bytes fun k hk => ?_
  have unlatched : ¬ latchedAt s.xp.latch (f.offset + k) := by
    rintro ⟨g, -, h1, h2⟩
    have rf := f.offset_range
    have rg := g.offset_range
    omega
  have mem : (f.offset, 8, markValue s f) ∈ anchorFields s := by cases f <;> simp [anchorFields, MarkField.offset]
  have byte := hostReadByte_anchor unlatched mem (Nat.le_add_right _ _) (by show _ < f.offset + 8; omega)
  rwa [Nat.add_sub_cancel_left] at byte

/-- The upper half of a mark, from the latch. -/
theorem portData_upperHalf {f : MarkField} (hf : s.xp.latch.field = some f) :
    (hostRead (f.offset + 4) 4 s).xp.portData = s.xp.latch.value := by
  have bytes := portData_of_bytes (s := s) (a := f.offset + 4) (v := s.xp.latch.value.toNat) fun k hk => by
    rw [hostReadByte_latched hf (by omega) (by omega), show f.offset + 4 + k - f.offset - 4 = k by omega]
  rw [bytes, BitVec.ofNat_toNat, BitVec.setWidth_eq]

theorem lowerHalf_aligned (f : MarkField) :
    (BitVec.ofNat 17 f.offset).toNat - (BitVec.ofNat 17 f.offset).toNat % widthSize .w32 = f.offset := by
  cases f <;> decide

theorem upperHalf_aligned (f : MarkField) :
    (BitVec.ofNat 17 (f.offset + 4)).toNat - (BitVec.ofNat 17 (f.offset + 4)).toNat % widthSize .w32 = f.offset + 4 := by
  cases f <;> decide

/-- A read changes the data pins and the latch only. -/
theorem settle_hostRead_restored (a n : Nat) (s : State) :
    { settle (hostRead a n s) with
      xp := { (settle (hostRead a n s)).xp with portData := s.xp.portData, latch := s.xp.latch }
      ec := { (settle (hostRead a n s)).ec with quiet := s.ec.quiet } } = s := by
  obtain ⟨q, h⟩ := settle_eq (hostRead a n s)
  rw [h]
  rfl

theorem settle_xp (s : State) : (settle s).xp = s.xp := by simp

/-- Settles O17: the halves of a mark, then every byte of a read by the field or region it lies in. -/
theorem snapshotLatchPairsHalves : Obligations.SnapshotLatchPairsHalves := by
  unfold Obligations.SnapshotLatchPairsHalves
  refine ⟨fun f s low => ?halves, fun o w s low => ?bytes⟩
  case halves =>
    have lower := exec_snapshotCapture low (BitVec.ofNat 17 f.offset) .w32
    rw [lowerHalf_aligned] at lower
    refine ⟨_, lower, ?_, ?_, settle_hostRead_restored _ _ s, fun u lowu latch => ?_⟩
    · rw [settle_xp]; exact portData_lowerHalf s f
    · rw [settle_xp]; exact captured_offset s f
    · rw [settle_xp] at latch
      replace latch : u.xp.latch = _ := latch.trans (captured_offset s f)
      have upper := exec_snapshotCapture lowu (BitVec.ofNat 17 (f.offset + 4)) .w32
      rw [upperHalf_aligned] at upper
      have kept : captured u (f.offset + 4) = u.xp.latch := captured_other fun g => by
        have rf := f.offset_range
        have rg := g.offset_range
        omega
      refine ⟨_, upper, ?_, ?_⟩
      · rw [settle_xp]
        exact (portData_upperHalf (by rw [latch])).trans (by rw [latch])
      · obtain ⟨q, hq⟩ := settle_eq (hostRead (f.offset + 4) (widthSize .w32) u)
        rw [hq]
        show { u with xp := { u.xp with latch := captured u (f.offset + 4) } } = u
        rw [kept]
  case bytes =>
    intro a bit mark fields latched
    have hw := widthSize_pos w
    have layout : fields = anchorFields s ++ (0x50, 0x3B0, 0) :: (registerFields s ++ [(0x10018, 0xFFE8, 0)]) := rfl
    have unused (j i : Nat) (hl : ¬ latchedAt s.xp.latch j) (h : (0x50 ≤ j ∧ j < 0x400) ∨ 0x10018 ≤ j) :
        hostReadByte s j = BitVec.ofNat 8 (0 / 256 ^ i) := by
      rw [hostReadByte_unused hl h, Nat.zero_div]
      rfl
    refine ⟨_, exec_snapshotCapture low o w, fun k hk => ?_, ?_, fun f hf => ?_, fun hf => ?_,
      settle_hostRead_restored _ _ s⟩
    · intro byte
      have byte_eq : byte = hostReadByte s (a + k) := by
        show (settle (hostRead _ _ s)).xp.portData.extractLsb' _ _ = _
        rw [settle_xp]
        exact extract_portData s a hw.2 hk
      rw [byte_eq]
      refine ⟨fun e he h1 h2 hl => ?_, hostReadByte_stored, fun f hf h1 h2 => ?_⟩
      · rw [layout, List.mem_append, List.mem_cons, List.mem_append, List.mem_singleton] at he
        rcases he with he | rfl | he | rfl
        · exact hostReadByte_anchor hl he h1 h2
        · exact unused _ _ hl (.inl ⟨h1, h2⟩)
        · exact hostReadByte_register he h1 h2
        · exact unused _ _ hl (.inr h1)
      · rw [hostReadByte_latched hf h1 h2, ofNat_div_eq_extract]
    · rw [settle_xp]
      show (BitVec.ofNat 32 (leNat (hostReadList s a (widthSize w)))).toNat < _
      have bound := leNat_lt (hostReadList s a (widthSize w))
      rw [hostReadList_length] at bound
      rw [BitVec.toNat_ofNat]
      exact (Nat.mod_le _ _).trans_lt bound
    · rw [settle_xp]
      show captured s a = _
      rw [hf, captured_offset]
    · rw [settle_xp]
      exact captured_other hf

end Sys2Proof.Machine
end

section
/-!
PROOF. What a take answers before it serves a card (O20).
-/
namespace Sys2Proof.Machine

-- One proof at a time, as in the tests: proofs checked side by side need more threads than the limits allow.
set_option Elab.async false

/-! ### What a take does before it serves a card (R18, R19, R177, R178) -/

variable {s : State}

/-- Every take command is a take from its path by its row. -/
theorem exec_takeRow {i : Instr} {r : TakeRow} (h : takeRow i = some r) (s : State) :
    ∃ free serve, exec i s = done (pathTake r.path free r.mine r.always serve s) ∧ (free = true ↔ pathFree r.path s) := by
  unfold takeRow at h
  (repeat' split at h) <;> subst_vars <;> cases h <;> exact ⟨_, _, rfl, Option.isNone_iff_eq_none⟩

section
variable {p : CardPath} {free : Bool} {mine : Work → Bool} {always : Bool} {serve : CardIx → Work → State → State}

theorem pathTake_of_blocked (h : ¬ (free = true ∧ (s.ec.engine = .ready ∨ s.ec.engine = .unformatted))) :
    pathTake p free mine always serve s = s := if_neg h

theorem pathTake_of_empty (h : s.ci.queue p = []) : pathTake p free mine always serve s = s := by
  unfold pathTake
  rw [h]
  exact ite_self _

variable {c : CardIx} {rest : List CardIx} (hf : free = true) (he : s.ec.engine = .ready ∨ s.ec.engine = .unformatted)
  (hq : s.ci.queue p = c :: rest)
include hf he hq

theorem pathTake_badKind (hk : (cardWork s c).kind.map Kind.path ≠ some p) :
    pathTake p free mine always serve s = answerCard c (.plain .badKind) (takeHead p c s) := by
  have fault : (cardWork s c).fault p = some .badKind := if_neg hk
  unfold pathTake
  rw [if_pos ⟨hf, he⟩, hq]
  dsimp only
  rw [if_pos (.inr hk), fault]

theorem pathTake_otherRow (hk : (cardWork s c).kind.map Kind.path = some p) (hm : mine (cardWork s c) = false) :
    pathTake p free mine always serve s = s := by
  unfold pathTake
  rw [if_pos ⟨hf, he⟩, hq]
  exact if_neg (by simp [hm, hk])

theorem pathTake_badCard (hk : (cardWork s c).kind.map Kind.path = some p) (hm : mine (cardWork s c) = true)
    (hr : (cardWork s c).reserved ≠ 0) :
    pathTake p free mine always serve s = answerCard c (.plain .badCard) (takeHead p c s) := by
  have fault : (cardWork s c).fault p = some .badCard := (if_pos hk).trans (if_neg hr)
  unfold pathTake
  rw [if_pos ⟨hf, he⟩, hq]
  dsimp only
  rw [if_pos (.inl hm), fault]

theorem pathTake_unformatted (hk : (cardWork s c).kind.map Kind.path = some p) (hm : mine (cardWork s c) = true)
    (hr : (cardWork s c).reserved = 0) (hu : s.ec.engine = .unformatted) (ha : always = false) :
    pathTake p free mine always serve s = answerCard c (.plain .unformatted) (takeHead p c s) := by
  have fault : (cardWork s c).fault p = none := (if_pos hk).trans (if_pos hr)
  unfold pathTake
  rw [if_pos ⟨hf, he⟩, hq]
  dsimp only
  rw [if_pos (.inl hm), fault]
  exact if_pos ⟨hu, by rw [ha]; rfl⟩

end

/-- A card whose state byte moves and which is then answered is answered. -/
theorem MovesCard.answers {c : CardIx} {st : CardState} {r : Answer} {t u : State} (m : MovesCard c st s t)
    (a : AnswersCard c r t u) : AnswersCard c r s u := by
  obtain ⟨shows_, only⟩ := a
  refine ⟨shows_, fun j h1 h2 => (only.bytes j h1 h2).trans (m.bytes j h1),
    fun d hd => (only.bits d hd).trans (m.bits d hd), ?_⟩
  rw [← m.port, ← only.port]

/-- A take makes the card TAKEN (R19). -/
theorem movesCard_takeHead (wf : Memory.wf s.xp.mem = true) (p : CardPath) (c : CardIx) :
    MovesCard c .taken s (takeHead p c s) :=
  (movesCard_setCardState wf c (st := .taken) nofun).setQueue p _

/-- A card taken and answered at once: nothing changes but the card and its queue (R19, R20). -/
theorem takeAnswers_answerCard (wf : Memory.wf s.xp.mem = true) (p : CardPath) (c : CardIx) (r : Answer) :
    TakeAnswers p c r s (answerCard c r (takeHead p c s)) ∧
      { answerCard c r (takeHead p c s) with xp := s.xp, ci := s.ci } = s := by
  have wft : Memory.wf (takeHead p c s).xp.mem = true := by
    simp only [takeHead, setQueue_frame, setCardState_mem]
    exact Memory.wf_store wf _ _
  exact ⟨⟨(movesCard_takeHead wf p c).answers (answersCard_answerCard wft c r), by cases p <;> rfl⟩, by cases p <;> rfl⟩

/-- A refusal in READY or UNFORMATTED ends the take. -/
theorem refusal_of_take {i : Instr} {p : CardPath} {c : CardIx} {r : Answer} {u : State}
    (he : s.ec.engine = .ready ∨ s.ec.engine = .unformatted) (wf : Memory.wf s.xp.mem = true) (hx : exec i s = done u)
    (hu : u = answerCard c r (takeHead p c s)) :
    ∃ t, exec i s = .next t ∧ TakeAnswers p c r s t ∧ { t with xp := s.xp, ci := s.ci } = s := by
  have engine : u.ec.engine = s.ec.engine := by simp [hu]
  have running : u.ec.engine ≠ .stopping := by
    rw [engine]
    rcases he with he | he <;> rw [he] <;> decide
  rw [done_eq, settle_of_ne running, hu] at hx
  exact ⟨_, hx, takeAnswers_answerCard wf p c r⟩

/-- Settles O20, by the branches of a take. -/
theorem takesIdleOrRefused : Obligations.TakesIdleOrRefused := by
  unfold Obligations.TakesIdleOrRefused
  intro i r s row
  obtain ⟨free, serve, hx, hfree⟩ := exec_takeRow row s
  refine ⟨fun h => ⟨settle s, ?_, settle_restored s⟩, fun c he hc path wf => ?_⟩
  · rw [hx, done_eq]
    rcases h with h | h | h
    · rw [pathTake_of_blocked fun k => k.2.elim h.1 h.2]
    · rw [pathTake_of_empty h]
    · rw [pathTake_of_blocked fun k => h (hfree.1 k.1)]
  · extract_lets w
    have hf := hfree.2 path
    obtain ⟨rest, hq⟩ := List.head?_eq_some_iff.1 hc
    split
    next hk => exact refusal_of_take he wf hx (pathTake_badKind hf he hq hk)
    next hk =>
      rw [ne_eq, not_not] at hk
      split
      next hm =>
        have running : s.ec.engine ≠ .stopping := by rcases he with he | he <;> rw [he] <;> decide
        rw [hx, pathTake_otherRow hf he hq hk hm, done_eq, settle_of_ne running]
      next hm =>
        rw [Bool.not_eq_false] at hm
        split
        next hr => exact refusal_of_take he wf hx (pathTake_badCard hf he hq hk hm hr)
        next hr =>
          rw [ne_eq, not_not] at hr
          split
          next hu => exact refusal_of_take he wf hx (pathTake_unformatted hf he hq hk hm hr hu.1 hu.2)
          · trivial

end Sys2Proof.Machine
end

section
/-!
PROOF. The stored image of a record reads back (O24).
-/
namespace Sys2Proof.Machine

-- One proof at a time, as in the tests: proofs checked side by side need more threads than the limits allow.
set_option Elab.async false

/-! ### Fields read back from where they were laid out -/

/-- A field that bytes begin with. -/
theorem field_leBytes_append (n v : Nat) (rest : List Byte) : field (leBytes n v ++ rest) 0 n = v % 256 ^ n := by
  rw [field, List.drop_zero, List.take_left' (leBytes_length n v), leNat_leBytes]

/-- A field behind other bytes. -/
theorem field_append {pre : List Byte} {off : Nat} (h : pre.length ≤ off) (bs : List Byte) (size : Nat) :
    field (pre ++ bs) off size = field bs (off - pre.length) size := by
  rw [field, field, List.drop_append, List.drop_eq_nil_of_le h, List.nil_append]

/-- A field of a layout is its value, as far as it fits the field. -/
theorem field_fieldBytes {base : Nat} {es : List (Nat × Nat × Nat)} (h : LaidOut base es) {e : Nat × Nat × Nat}
    (he : e ∈ es) (rest : List Byte) : field (fieldBytes es ++ rest) (e.1 - base) e.2.1 = e.2.2 % 256 ^ e.2.1 := by
  induction es generalizing base with
  | nil => cases he
  | cons f es ih =>
    obtain ⟨hf, hes⟩ := h
    have hl := leBytes_length f.2.1 f.2.2
    rw [fieldBytes, List.append_assoc]
    rcases List.mem_cons.1 he with rfl | he
    · rw [hf, Nat.sub_self, field_leBytes_append]
    · have := hes.le he
      rw [field_append (by omega), hl, Nat.sub_sub]
      exact ih hes he

/-! ### Stored images (R27, R28) -/

theorem crc16_lt (bs : List Byte) : crc16 bs < 65536 := BitVec.isLt _

theorem le_pad4 (n : Nat) : n ≤ pad4 n := by unfold pad4; omega

variable {class_ key seq : Nat} {payload : List Byte}

theorem storedHead_length (length class_ key seq : Nat) : (storedHead length class_ key seq).length = 14 := by
  simp [storedHead, leBytes_length]

/-- R27: a stored image is as long as the fill counts it. -/
theorem storedImage_length (class_ key seq : Nat) (payload : List Byte) :
    (storedImage class_ key seq payload).length = imageSize payload.length := by
  have := le_pad4 payload.length
  simp only [storedImage, imageSize, List.length_append, storedHead_length, leBytes_length, List.length_replicate]
  omega

/-- The header fields of a stored image (11.4.2). -/
def storedFields (class_ key seq : Nat) (payload : List Byte) : List (Nat × Nat × Nat) := [
  (0, 2, payload.length), (2, 1, class_), (3, 1, 0), (4, 4, key), (8, 6, seq),
  (14, 2, crc16 (storedHead payload.length class_ key seq ++ payload))]

theorem storedFields_laidOut : LaidOut 0 (storedFields class_ key seq payload) := by simp [storedFields, LaidOut]

/-- A stored image is its head, its check, its payload and its padding. -/
theorem storedImage_append (class_ key seq : Nat) (payload rest : List Byte) :
    ∃ tail,
      storedImage class_ key seq payload ++ rest =
        fieldBytes (storedFields class_ key seq payload) ++ (payload ++ tail) ∧
      storedImage class_ key seq payload ++ rest = storedHead payload.length class_ key seq ++
        (leBytes 2 (crc16 (storedHead payload.length class_ key seq ++ payload)) ++ (payload ++ tail)) :=
  ⟨List.replicate (pad4 payload.length - payload.length) 0x00 ++ rest, by
    simp only [storedImage, storedHead, storedFields, fieldBytes, List.append_assoc, List.nil_append, and_self]⟩

/-- Settles O24: the header is a layout of fields, and what is behind it the payload. -/
theorem storedImageReadsBackIntact : Obligations.StoredImageReadsBackIntact := by
  unfold Obligations.StoredImageReadsBackIntact
  intro class_ key seq payload rest hp hc hk hs img h
  obtain ⟨tail, fields, parts⟩ := storedImage_append class_ key seq payload rest
  have header : (storedHead payload.length class_ key seq ++
      leBytes 2 (crc16 (storedHead payload.length class_ key seq ++ payload))).length = 16 := by
    simp [storedHead_length, leBytes_length]
  have read {e : Nat × Nat × Nat} (he : e ∈ storedFields class_ key seq payload) (fits : e.2.2 < 256 ^ e.2.1) :
      field (img ++ rest) e.1 e.2.1 = e.2.2 := by
    rw [show img ++ rest = _ from fields, ← Nat.sub_zero e.1, field_fieldBytes storedFields_laidOut he,
      Nat.mod_eq_of_lt fits]
  have length : h.length = payload.length := read (e := (0, 2, _)) (by simp [storedFields]) (by simp; omega)
  have flags : h.flags = 0 := read (e := (3, 1, _)) (by simp [storedFields]) (by simp)
  have check : h.check = crc16 (storedHead payload.length class_ key seq ++ payload) :=
    read
      (e := (14, 2, crc16 (storedHead payload.length class_ key seq ++ payload))) (by simp [storedFields]) (crc16_lt _)
  have body : ((img ++ rest).drop 16).take payload.length = payload := by
    rw [show img ++ rest = _ from parts, ← List.append_assoc, List.drop_left' header, List.take_left]
  have head : (img ++ rest).take 14 = storedHead payload.length class_ key seq := by
    rw [show img ++ rest = _ from parts, List.take_left' (storedHead_length _ _ _ _)]
  refine ⟨storedImage_length class_ key seq payload, length, ?_, flags, ?_, ?_, ?_, body⟩
  · exact read (e := (2, 1, _)) (by simp [storedFields]) (by simp; omega)
  · exact read (e := (4, 4, _)) (by simp [storedFields]) (by simp [max32] at hk ⊢; omega)
  · exact read (e := (8, 6, _)) (by simp [storedFields]) (by simp [maxSeq] at hs ⊢; omega)
  · rw [StoredHeader.intact, length, flags, check, head, body]
    simp only [hp, decide_true, Bool.and_self]

end Sys2Proof.Machine
end

section
/-!
SUPPORT. Row buffers by name, and what the closing of the FILLING buffer does (R41, R42, R48).
-/
namespace Sys2Proof.Machine

-- One proof at a time, as in the tests: proofs checked side by side need more threads than the limits allow.
set_option Elab.async false

variable {s t : State} {n : BufName}

/-! ### Buffers by name -/

theorem BufName.eq_or_other (n k : BufName) : k = n ∨ k = n.other := by
  cases n <;> cases k <;> decide

@[simp] theorem BufName.other_other (n : BufName) : n.other.other = n := by cases n <;> rfl

theorem Rp.find_eq_some {p : Rp} {st : BufState} :
    p.find st = some n ↔ (p.buf n).state = st ∧ (n = .b → p.bufA.state ≠ st) := by
  unfold Rp.find
  cases n <;> by_cases ha : p.bufA.state = st <;> simp [Rp.buf, ha]

theorem Rp.find_eq_none {p : Rp} {st : BufState} : p.find st = none ↔ ∀ k, (p.buf k).state ≠ st := by
  unfold Rp.find
  constructor
  · intro h k
    by_cases ha : p.bufA.state = st
    · simp [ha] at h
    · by_cases hb : p.bufB.state = st
      · simp [ha, hb] at h
      · cases k
        · exact ha
        · exact hb
  · intro h
    exact (if_neg (h .a)).trans (if_neg (h .b))

theorem Rp.state_of_find {p : Rp} {st : BufState} (h : p.find st = some n) : (p.buf n).state = st :=
  (Rp.find_eq_some.1 h).1

/-- The only buffer in a state is the one found. -/
theorem Rp.find_of_only {p : Rp} {st : BufState} (h : (p.buf n).state = st) (ho : (p.buf n.other).state ≠ st) :
    p.find st = some n :=
  Rp.find_eq_some.2 ⟨h, fun e => by subst e; exact ho⟩

theorem Rp.find_none_of {p : Rp} {st : BufState} (h : (p.buf n).state ≠ st) (ho : (p.buf n.other).state ≠ st) :
    p.find st = none :=
  Rp.find_eq_none.2 fun k => by rcases n.eq_or_other k with rfl | rfl <;> assumption

theorem Rp.state_of_nextClosed {p : Rp} (h : p.nextClosed = some n) : (p.buf n).state = .closed := by
  unfold Rp.nextClosed at h
  split at h
  next both => split at h <;> cases h; exacts [both.1, both.2]
  · exact Rp.state_of_find h

theorem Rp.nextClosed_of_only {p : Rp} (h : (p.buf n).state = .closed) (ho : (p.buf n.other).state ≠ .closed) :
    p.nextClosed = some n := by
  have single : ¬ (p.bufA.state = .closed ∧ p.bufB.state = .closed) := by
    cases n
    · exact fun both => ho both.2
    · exact fun both => ho both.1
  rw [Rp.nextClosed, if_neg single]
  exact Rp.find_of_only h ho

/-! ### Operations handed to the FS (R75) -/

theorem handOp_of_faulted (h : s.ec.engine = .faulted) (src : Source) (act : FlashAct) : handOp src act s = s := if_pos h

theorem handOp_of_ne (h : s.ec.engine ≠ .faulted) (src : Source) (act : FlashAct) :
    handOp src act s = { s with fs := s.fs.push act.die { source := src, act := act } } := if_neg h

/-- An operation handed over joins the tail of its die's queue. -/
theorem queuesGain_handOp (h : s.ec.engine ≠ .faulted) (src : Source) (act : FlashAct) :
    QueuesGain [{ source := src, act := act }] s (handOp src act s) := by
  rw [handOp_of_ne h]
  refine ⟨fun e => ?_, by simp, by simp, by simp⟩
  show ((s.fs.push act.die { source := src, act := act }).die e).queue = _
  rw [Fs.push_queue]
  by_cases he : e = act.die
  · simp [he]
  · simp [he, Ne.symm he]

/-- Of the states, `QueuesGain` sees the FS alone. -/
theorem QueuesGain.of_fs {acts : List FlashOp} {s' t' : State} (h : QueuesGain acts s t) (hs : s'.fs = s.fs)
    (ht : t'.fs = t.fs) : QueuesGain acts s' t' := by
  obtain ⟨queue, mask, corrected, softResets⟩ := h
  exact ⟨by rwa [hs, ht], by rwa [hs, ht], by rwa [hs, ht], by rwa [hs, ht]⟩

/-! ### Handing a CLOSED buffer over (R48) -/

theorem handBuffer_of_dest {d : Dest} (h : (s.rp.buf n).dest = some d) : handBuffer n s =
    handOp .packer (bufferProgram s (s.rp.buf n) d) (setBuf n { s.rp.buf n with state := .inFlight } s) := by
  simp only [handBuffer, h]

theorem handBuffer_of_noDest (h : (s.rp.buf n).dest = none) : handBuffer n s = s := by
  simp only [handBuffer, h]

/-- A hand-over changes the buffers and the FS only. -/
theorem handBuffer_eq (n : BufName) (s : State) :
    ∃ a b f, handBuffer n s = { s with rp := { s.rp with bufA := a, bufB := b }, fs := f } := by
  cases hd : (s.rp.buf n).dest with
  | none => exact ⟨_, _, _, handBuffer_of_noDest hd⟩
  | some d =>
    rw [handBuffer_of_dest hd, handOp]
    split <;> cases n <;> exact ⟨_, _, _, rfl⟩

theorem handClosed_of_busy (h : recordRowInFlight s = true) : handClosed s = s := if_pos h

theorem handClosed_of_none (h : s.rp.nextClosed = none) : handClosed s = s := by
  simp only [handClosed, h, ite_self]

theorem handClosed_of_next (h : recordRowInFlight s = false) (hn : s.rp.nextClosed = some n) :
    handClosed s = handBuffer n s := by
  simp only [handClosed, h, hn, Bool.false_eq_true, if_false]

theorem handClosed_eq (s : State) :
    ∃ a b f, handClosed s = { s with rp := { s.rp with bufA := a, bufB := b }, fs := f } := by
  unfold handClosed
  split
  · exact ⟨_, _, _, rfl⟩
  · split
    · exact ⟨_, _, _, rfl⟩
    · exact handBuffer_eq _ s

/-- A hand-over leaves a buffer as it is, or makes a CLOSED one IN_FLIGHT. -/
theorem handClosed_buf (s : State) (k : BufName) : (handClosed s).rp.buf k = s.rp.buf k ∨
    (s.rp.buf k).state = .closed ∧ (handClosed s).rp.buf k = { s.rp.buf k with state := .inFlight } := by
  unfold handClosed
  split
  · exact .inl rfl
  · split
    · exact .inl rfl
    next m hm =>
      cases hd : (s.rp.buf m).dest with
      | none => exact .inl (by rw [handBuffer_of_noDest hd])
      | some d =>
        rw [handBuffer_of_dest hd]
        rcases m.eq_or_other k with rfl | rfl
        · exact .inr ⟨Rp.state_of_nextClosed hm, by simp⟩
        · exact .inl (by simp)

/-! ### Closing the FILLING buffer (R42, R53) -/

/-- Buffer `n` CLOSED and the linger timer stopped, before any hand-over. -/
def closeBuf (n : BufName) (s : State) : State :=
  setBuf n { s.rp.buf n with state := .closed } { s with rp := { s.rp with lingerTimer := none } }

theorem closeFilling_of_some (h : s.rp.find .filling = some n) : closeFilling s = handClosed (closeBuf n s) := by
  simp only [closeFilling, h, closeBuf]
  cases n <;> rfl

theorem closeFilling_of_none (h : s.rp.find .filling = none) : closeFilling s = s := by
  simp only [closeFilling, h]

/-- Closing changes the buffers, the linger timer and the FS only. -/
theorem closeFilling_eq (s : State) : ∃ a b l f,
    closeFilling s = { s with rp := { s.rp with bufA := a, bufB := b, lingerTimer := l }, fs := f } := by
  cases h : s.rp.find .filling with
  | none => exact ⟨_, _, _, _, closeFilling_of_none h⟩
  | some n =>
    obtain ⟨a, b, f, e⟩ := handClosed_eq (closeBuf n s)
    rw [closeFilling_of_some h, e]
    cases n <;> exact ⟨_, _, _, _, rfl⟩

@[simp] theorem closeFilling_marks (s : State) :
    (closeFilling s).rp.nextSeq = s.rp.nextSeq ∧ (closeFilling s).rp.keyHigh = s.rp.keyHigh ∧
    (closeFilling s).rp.durable = s.rp.durable ∧ (closeFilling s).rp.openSeg = s.rp.openSeg := by
  obtain ⟨a, b, l, f, h⟩ := closeFilling_eq s
  rw [h]
  exact ⟨rfl, rfl, rfl, rfl⟩

theorem closeFilling_linger (h : s.rp.find .filling = some n) : (closeFilling s).rp.lingerTimer = none := by
  rw [closeFilling_of_some h]
  simp [closeBuf]

theorem closeBuf_self (n : BufName) (s : State) : (closeBuf n s).rp.buf n = { s.rp.buf n with state := .closed } :=
  setBuf_buf n _ _

theorem closeBuf_other (n : BufName) (s : State) : (closeBuf n s).rp.buf n.other = s.rp.buf n.other :=
  (setBuf_other n _ _).trans (by cases n <;> rfl)

theorem closeBuf_fs (n : BufName) (s : State) : (closeBuf n s).fs = s.fs := by simp [closeBuf]

theorem recordRowInFlight_closeBuf (n : BufName) (s : State) : recordRowInFlight (closeBuf n s) = recordRowInFlight s := by
  rw [recordRowInFlight, closeBuf_fs, recordRowInFlight]

/-- The FILLING buffer leaves FILLING with its records and destination. -/
theorem closeFilling_buf_self (h : s.rp.find .filling = some n) :
    ∃ st, (st = .closed ∨ st = .inFlight) ∧ (closeFilling s).rp.buf n = { s.rp.buf n with state := st } := by
  rw [closeFilling_of_some h]
  rcases handClosed_buf (closeBuf n s) n with e | ⟨_, e⟩
  · exact ⟨_, .inl rfl, e.trans (closeBuf_self n s)⟩
  · exact ⟨_, .inr rfl, by rw [e, closeBuf_self]⟩

/-- The other buffer stays as it is, or is CLOSED and handed over. -/
theorem closeFilling_buf_other (h : s.rp.find .filling = some n) :
    (closeFilling s).rp.buf n.other = s.rp.buf n.other ∨ (s.rp.buf n.other).state = .closed ∧
      (closeFilling s).rp.buf n.other = { s.rp.buf n.other with state := .inFlight } := by
  have k := handClosed_buf (closeBuf n s) n.other
  rwa [closeBuf_other, ← closeFilling_of_some h] at k

/-- An EMPTY other buffer stays as it is. -/
theorem closeFilling_buf_other_of_empty (h : s.rp.find .filling = some n) (he : (s.rp.buf n.other).state = .empty) :
    (closeFilling s).rp.buf n.other = s.rp.buf n.other :=
  (closeFilling_buf_other h).resolve_right fun k => by rw [he] at k; cases k.1

theorem closeFilling_state_self (h : s.rp.find .filling = some n) (st : BufState) (h1 : st ≠ .closed)
    (h2 : st ≠ .inFlight) : ((closeFilling s).rp.buf n).state ≠ st := by
  obtain ⟨st', hst, e⟩ := closeFilling_buf_self h
  rw [e]
  rintro rfl
  exact hst.elim h1 h2

/-- No hand-over brings the other buffer to a state it was not in, but IN_FLIGHT. -/
theorem closeFilling_state_other (h : s.rp.find .filling = some n) {st : BufState} (hst : st ≠ .inFlight)
    (ho : (s.rp.buf n.other).state ≠ st) : ((closeFilling s).rp.buf n.other).state ≠ st := by
  rcases closeFilling_buf_other h with e | ⟨_, e⟩
  · rwa [e]
  · rw [e]; exact hst.symm

/-- At most one buffer is FILLING, so that none is after closing. -/
theorem closeFilling_find (h : s.rp.find .filling = some n) (ho : (s.rp.buf n.other).state ≠ .filling) :
    (closeFilling s).rp.find .filling = none :=
  Rp.find_none_of (closeFilling_state_self h _ nofun nofun) (closeFilling_state_other h nofun ho)

/-- R48, R53: what closing does is `ClosesFilling`. -/
theorem closesFilling_closeFilling (hf : s.ec.engine ≠ .faulted) : ClosesFilling s (closeFilling s) := by
  unfold ClosesFilling
  split
  next h => rw [closeFilling_of_none h]; exact ⟨rfl, rfl, rfl⟩
  next n h =>
    obtain ⟨st, _, self⟩ := closeFilling_buf_self h
    refine ⟨by rw [self], by rw [self], fun inFlight => ?_, fun free single d hd => ?_⟩
    · have stays : closeFilling s = closeBuf n s := by
        rw [closeFilling_of_some h, handClosed_of_busy (by rwa [recordRowInFlight_closeBuf])]
      rw [stays, closeBuf_self, closeBuf_other]
      exact ⟨rfl, rfl, closeBuf_fs n s⟩
    · have next : (closeBuf n s).rp.nextClosed = some n :=
        Rp.nextClosed_of_only (by rw [closeBuf_self]) (by rwa [closeBuf_other])
      have hand : closeFilling s = handBuffer n (closeBuf n s) := by
        rw [closeFilling_of_some h, handClosed_of_next (by rwa [recordRowInFlight_closeBuf]) next]
      have program : bufferProgram (closeBuf n s) ((closeBuf n s).rp.buf n) d = bufferProgram s (s.rp.buf n) d := by
        rw [closeBuf_self]; cases n <;> rfl
      rw [hand, handBuffer_of_dest (by rwa [closeBuf_self]), program]
      refine ⟨by simp [closeBuf_self], by simp [closeBuf_other], ?_⟩
      exact (queuesGain_handOp (by simpa [closeBuf] using hf) _ _).of_fs (by simp [closeBuf]) rfl

/-- After `t` the buffers and the FS may be read in any state that agrees with `t` on them. -/
theorem ClosesFilling.congr {t' : State} (h : ClosesFilling s t) (buf : ∀ k, t'.rp.buf k = t.rp.buf k) (fs : t'.fs = t.fs) :
    ClosesFilling s t' := by
  unfold ClosesFilling at h ⊢
  split
  next hn => rw [hn] at h; exact ⟨(buf .a).trans h.1, (buf .b).trans h.2.1, fs.trans h.2.2⟩
  next n hn =>
    rw [hn] at h
    obtain ⟨records, dest, inFlight, hands⟩ := h
    simp only [buf, fs]
    exact ⟨records, dest, inFlight, fun free single d hd =>
      ⟨(hands free single d hd).1, (hands free single d hd).2.1, (hands free single d hd).2.2.of_fs rfl fs⟩⟩

/-- Before `s` the closing sees the buffers, the FS, the catalog and the relocation record alone. -/
theorem ClosesFilling.congr_left {s' : State} (h : ClosesFilling s t) (bufA : s'.rp.bufA = s.rp.bufA)
    (bufB : s'.rp.bufB = s.rp.bufB) (fs : s'.fs = s.fs) (cu : s'.cu = s.cu) (rel : s'.rp.relocation = s.rp.relocation) :
    ClosesFilling s' t := by
  have buf (k : BufName) : s'.rp.buf k = s.rp.buf k := by cases k <;> assumption
  have find : s'.rp.find .filling = s.rp.find .filling := by rw [Rp.find, Rp.find, bufA, bufB]
  have inFlight : recordRowInFlight s' = recordRowInFlight s := by rw [recordRowInFlight, recordRowInFlight, fs]
  have program (b : RowBuffer) (d : Dest) : bufferProgram s' b d = bufferProgram s b d := by
    simp only [bufferProgram, segmentHeader, cu, rel]
  unfold ClosesFilling at h ⊢
  rw [find]
  split
  next hn => rw [hn] at h; rwa [bufA, bufB, fs]
  next n hn =>
    rw [hn] at h
    obtain ⟨records, dest, waits, hands⟩ := h
    simp only [buf, fs, inFlight, program]
    exact ⟨records, dest, waits, fun free alone d hd =>
      ⟨(hands free alone d hd).1, (hands free alone d hd).2.1, (hands free alone d hd).2.2.of_fs fs rfl⟩⟩

end Sys2Proof.Machine
end

section
/-!
SUPPORT. The end of a staging and the staging of one record, each as one equation, and what they leave (R27, R30, R31, R39,
R42, R56, R59).
-/
namespace Sys2Proof.Machine

-- One proof at a time, as in the tests: proofs checked side by side need more threads than the limits allow.
set_option Elab.async false

variable {s t : State} {n : BufName} {v : RpServed} {h : HostRecord} {o : OpenSeg} {out : CardOutcome}

/-! ### The served card -/

/-- The RP's served card replaced. -/
def setServed (x : Option RpServed) (s : State) : State := { s with rp := { s.rp with served := x } }

theorem handOp_setServed (x : Option RpServed) (src : Source) (act : FlashAct) (s : State) :
    handOp src act (setServed x s) = setServed x (handOp src act s) := by
  by_cases hf : s.ec.engine = .faulted
  · rw [handOp_of_faulted hf, handOp_of_faulted (s := setServed x s) hf]
  · rw [handOp_of_ne hf, handOp_of_ne (s := setServed x s) hf]; rfl

theorem handBuffer_setServed (x : Option RpServed) (n : BufName) (s : State) :
    handBuffer n (setServed x s) = setServed x (handBuffer n s) := by
  cases hd : (s.rp.buf n).dest with
  | none => rw [handBuffer_of_noDest hd, handBuffer_of_noDest (by cases n <;> exact hd)]
  | some d =>
    rw [handBuffer_of_dest hd, ← handOp_setServed, handBuffer_of_dest (d := d) (by cases n <;> exact hd)]
    cases n <;> rfl

theorem handClosed_setServed (x : Option RpServed) (s : State) :
    handClosed (setServed x s) = setServed x (handClosed s) := by
  cases hb : recordRowInFlight s with
  | true => rw [handClosed_of_busy hb, handClosed_of_busy (s := setServed x s) hb]
  | false =>
    cases hn : s.rp.nextClosed with
    | none => rw [handClosed_of_none hn, handClosed_of_none (s := setServed x s) hn]
    | some n =>
      rw [handClosed_of_next hb hn, handClosed_of_next (s := setServed x s) hb hn, handBuffer_setServed]

/-- What closing does does not depend on the served card. -/
theorem closeFilling_setServed (x : Option RpServed) (s : State) :
    closeFilling (setServed x s) = setServed x (closeFilling s) := by
  cases hn : s.rp.find .filling with
  | none => rw [closeFilling_of_none hn, closeFilling_of_none (s := setServed x s) hn]
  | some n =>
    rw [closeFilling_of_some hn, closeFilling_of_some (s := setServed x s) hn, ← handClosed_setServed]
    cases n <;> rfl

/-- R40, R54, R56: a card whose staging has ended is answered, or waits on the list until its last sequence is durable. -/
def answerOrWait (v : RpServed) (out : CardOutcome) (s : State) : State :=
  if v.work.flag0 = false ∨ s.rp.nextSeq - 1 ≤ s.rp.durable then answerCard v.card (v.answer out) (setServed none s)
  else { s with rp := { s.rp with
    served := none
    waitList := s.rp.waitList ++ [
      { card := v.card, work := v.work, target := s.rp.nextSeq - 1, answer := v.answer out }] } }

/-- R39, R56, R59: the end of a staging. -/
theorem endStaging_eq (v : RpServed) (out : CardOutcome) (s : State) : endStaging v out s =
    answerOrWait v out (if v.work.flag0 = true ∨ s.ec.engine = .stopping then closeFilling s else s) := by
  have clear : closeFilling (clearServed s) = setServed none (closeFilling s) := closeFilling_setServed none s
  unfold endStaging answerOrWait awaitDurable
  dsimp only
  rw [clear]
  cases v.work.flag0 with
  | true => simp only [true_or, if_true, Bool.true_eq_false, false_or]; rfl
  | false =>
    by_cases hs : s.ec.engine = .stopping
    · have he : (clearServed s).ec.engine = .stopping := hs
      simp only [hs, he, or_true, true_or, if_true, Bool.false_eq_true, if_false]
    · have he : (clearServed s).ec.engine ≠ .stopping := hs
      simp only [hs, he, or_false, true_or, if_true, Bool.false_eq_true, if_false]
      rfl

/-- A card that is answered at the end of its staging. -/
theorem answerOrWait_answers (hw : v.work.flag0 = false ∨ s.rp.nextSeq - 1 ≤ s.rp.durable) :
    answerOrWait v out s = answerCard v.card (v.answer out) (setServed none s) := if_pos hw

/-- A SYNC card that waits at the end of its staging. -/
theorem answerOrWait_waits (hw : ¬ (v.work.flag0 = false ∨ s.rp.nextSeq - 1 ≤ s.rp.durable)) :
    answerOrWait v out s = { s with rp := { s.rp with
      served := none
      waitList := s.rp.waitList ++ [
        { card := v.card, work := v.work, target := s.rp.nextSeq - 1, answer := v.answer out }] } } := if_neg hw

theorem answerOrWait_eq (v : RpServed) (out : CardOutcome) (s : State) : ∃ x ws,
    answerOrWait v out s = { s with xp := x, rp := { s.rp with served := none, waitList := ws } } := by
  unfold answerOrWait
  split <;> exact ⟨_, _, rfl⟩

/-- An answer is one from any state with the same Exchange Port. -/
theorem AnswersCard.of_xp {c : CardIx} {r : Answer} {s' : State} (a : AnswersCard c r s t) (hx : s.xp = s'.xp) :
    AnswersCard c r s' t := by
  obtain ⟨shows_, bytes, bits, port⟩ := a
  exact ⟨shows_, hx ▸ bytes, hx ▸ bits, hx ▸ port⟩

/-- What comes of a card whose staging has ended in `t`, seen from a state `s` before, with `q` its last sequence. -/
theorem answerOrWait_card {q : Nat} (hx : t.xp = s.xp) (hw : t.rp.waitList = s.rp.waitList)
    (hd : t.rp.durable = s.rp.durable) (hq : t.rp.nextSeq - 1 = q) (wf : Memory.wf s.xp.mem = true) :
    if v.work.flag0 = false ∨ q ≤ s.rp.durable then
      AnswersCard v.card (v.answer out) s (answerOrWait v out t) ∧ (answerOrWait v out t).rp.waitList = s.rp.waitList
    else (answerOrWait v out t).xp = s.xp ∧ (answerOrWait v out t).rp.waitList = s.rp.waitList ++
      [{ card := v.card, work := v.work, target := q, answer := v.answer out }] := by
  subst hq
  rw [← hd]
  split
  next now =>
    rw [answerOrWait_answers now]
    exact ⟨(answersCard_answerCard (s := setServed none t) (hx ▸ wf) _ _).of_xp hx, by simp [setServed, hw]⟩
  next later =>
    rw [answerOrWait_waits later]
    exact ⟨hx, by rw [hw]⟩

/-! ### A record joins a buffer (R27, R30, R31, R39) -/

theorem recordJoins_self (n : BufName) (h : HostRecord) (s : State) :
    (recordJoins n h s).rp.buf n = { s.rp.buf n with records := (s.rp.buf n).records ++
      [{ seq := s.rp.nextSeq, key := h.key, image := storedImage h.class_ h.key s.rp.nextSeq h.payload }] } :=
  setBuf_buf n _ _

theorem recordJoins_other (n : BufName) (h : HostRecord) (s : State) :
    (recordJoins n h s).rp.buf n.other = s.rp.buf n.other := by cases n <;> rfl

theorem recordJoins_find (hn : s.rp.find .filling = some n) : (recordJoins n h s).rp.find .filling = some n := by
  cases n <;> exact hn

/-- The fill rises by the size of the stored image (R29, R41). -/
theorem fill_recordJoins (n : BufName) (h : HostRecord) (s : State) :
    ((recordJoins n h s).rp.buf n).fill = (s.rp.buf n).fill + imageSize h.payload.length := by
  rw [recordJoins_self]
  simp [RowBuffer.fill, storedImage_length]

/-- The served card with one more record staged, of sequence `q` (R39). -/
def RpServed.counted (v : RpServed) (h : HostRecord) (q : Nat) : RpServed :=
  { v with
    staged := v.staged + 1, first := if v.staged = 0 then q else v.first, last := q, offset := h.next, wait := .staging }

theorem RpServed.counted_of_staging (hw : v.wait = .staging) (h : HostRecord) (q : Nat) : v.counted h q =
    { v with staged := v.staged + 1, first := if v.staged = 0 then q else v.first, last := q, offset := h.next } := by
  rw [RpServed.counted, ← hw]

/-- The buffers after a record joined: a full one closes, and so does that of the last record of a SYNC card, or of any card
in STOPPING (R42, R56, R59). -/
def closedAfter (n : BufName) (v : RpServed) (h : HostRecord) (s : State) : State :=
  if (s.rp.buf n).fill + imageSize h.payload.length = 4096 ∨
      (v.staged + 1 = v.work.argC ∧ (v.work.flag0 = true ∨ s.ec.engine = .stopping)) then
    closeFilling (recordJoins n h s)
  else recordJoins n h s

/-- Where the last counted record fills buffer `n`, that buffer is the one FILLING: the end of the staging finds none to close
again. -/
def FillsAlone (n : BufName) (v : RpServed) (h : HostRecord) (s : State) : Prop :=
  v.staged + 1 = v.work.argC → (s.rp.buf n).fill + imageSize h.payload.length = 4096 →
    s.rp.find .filling = some n ∧ (s.rp.buf n.other).state ≠ .filling

theorem FillsAlone.of_ne (hfill : (s.rp.buf n).fill + imageSize h.payload.length ≠ 4096) : FillsAlone n v h s :=
  fun _ e => absurd e hfill

theorem FillsAlone.of_more (more : v.staged + 1 ≠ v.work.argC) : FillsAlone n v h s := fun last => absurd last more

/-- R39: a record is staged: it joins the buffer, what is to close closes, and the card goes on or ends. -/
theorem stageInto_eq (alone : FillsAlone n v h s) :
    stageInto n v h s =
      if v.staged + 1 = v.work.argC then answerOrWait (v.counted h s.rp.nextSeq) .done (closedAfter n v h s)
      else setServed (some (v.counted h s.rp.nextSeq)) (closedAfter n v h s) := by
  have fill := fill_recordJoins n h s
  unfold stageInto
  extract_lets q b b1 v1 s1 rp1 s2 s3
  have joins : s2 = setServed (some v1) (recordJoins n h s) := by cases n <;> rfl
  have full : b1.fill = (s.rp.buf n).fill + imageSize h.payload.length := by rw [← fill, recordJoins_self]
  have closes : s3 = setServed (some v1) (if (s.rp.buf n).fill + imageSize h.payload.length = 4096 then
      closeFilling (recordJoins n h s) else recordJoins n h s) := by
    rw [apply_ite (setServed (some v1)), ← closeFilling_setServed, ← joins, ← full]
  by_cases last : v.staged + 1 = v.work.argC
  · rw [if_pos last, if_pos (show v1.staged = v.work.argC from last), endStaging_eq, closes, closedAfter]
    have engine : (setServed (some v1) (if (s.rp.buf n).fill + imageSize h.payload.length = 4096 then
        closeFilling (recordJoins n h s) else recordJoins n h s)).ec.engine = s.ec.engine := by
      split <;> simp [setServed, recordJoins]
    have clear (u : State) : answerOrWait v1 .done (setServed (some v1) u) = answerOrWait v1 .done u := rfl
    rw [engine, closeFilling_setServed, ← apply_ite (setServed (some v1)), clear]
    by_cases ends : v.work.flag0 = true ∨ s.ec.engine = .stopping
    · have closing : (s.rp.buf n).fill + imageSize h.payload.length = 4096 ∨
          (v.staged + 1 = v.work.argC ∧ (v.work.flag0 = true ∨ s.ec.engine = .stopping)) := .inr ⟨last, ends⟩
      rw [if_pos (show v1.work.flag0 = true ∨ _ from ends), if_pos closing]
      split
      next hfull =>
        obtain ⟨found, other⟩ := alone last hfull
        rw [closeFilling_of_none (closeFilling_find (recordJoins_find found) (by rwa [recordJoins_other]))]
        rfl
      · rfl
    · rw [if_neg (show ¬ (v1.work.flag0 = true ∨ _) from ends)]
      simp only [ends, and_false, or_false]
      rfl
  · rw [if_neg last, if_neg (show v1.staged ≠ v.work.argC from last), closes]
    simp only [closedAfter, last, false_and, or_false]
    rfl

/-- Joining and closing change the buffers, the linger timer, the FS and the two marks of a staged record. -/
theorem closedAfter_eq (n : BufName) (v : RpServed) (h : HostRecord) (s : State) : ∃ a b l f,
    closedAfter n v h s = { s with
      rp := { s.rp with bufA := a, bufB := b, lingerTimer := l, nextSeq := s.rp.nextSeq + 1, keyHigh := h.key }
      fs := f } := by
  unfold closedAfter
  split
  · obtain ⟨a, b, l, f, e⟩ := closeFilling_eq (recordJoins n h s)
    rw [e]
    cases n <;> exact ⟨_, _, _, _, rfl⟩
  · cases n <;> exact ⟨_, _, _, _, rfl⟩

theorem closedAfter_closes (hc : (s.rp.buf n).fill + imageSize h.payload.length = 4096 ∨
    (v.staged + 1 = v.work.argC ∧ (v.work.flag0 = true ∨ s.ec.engine = .stopping))) :
    closedAfter n v h s = closeFilling (recordJoins n h s) := if_pos hc

theorem closedAfter_stays (hc : (s.rp.buf n).fill + imageSize h.payload.length ≠ 4096)
    (hs : ¬ (v.staged + 1 = v.work.argC ∧ (v.work.flag0 = true ∨ s.ec.engine = .stopping))) :
    closedAfter n v h s = recordJoins n h s := if_neg fun k => k.elim hc hs

/-- The buffer a record joined has its records and destination, in whatever state. -/
theorem closedAfter_buf (hn : s.rp.find .filling = some n) : ∃ st,
    (closedAfter n v h s).rp.buf n = { (recordJoins n h s).rp.buf n with state := st } := by
  unfold closedAfter
  split
  · obtain ⟨st, _, e⟩ := closeFilling_buf_self (recordJoins_find (h := h) hn)
    exact ⟨st, e⟩
  · exact ⟨_, rfl⟩

section
variable (alone : FillsAlone n v h s)
include alone

theorem stageInto_goesOn (more : v.staged + 1 ≠ v.work.argC) :
    stageInto n v h s = setServed (some (v.counted h s.rp.nextSeq)) (closedAfter n v h s) :=
  (stageInto_eq alone).trans (if_neg more)

theorem stageInto_ends (last : v.staged + 1 = v.work.argC) :
    stageInto n v h s = answerOrWait (v.counted h s.rp.nextSeq) .done (closedAfter n v h s) :=
  (stageInto_eq alone).trans (if_pos last)

/-- What happens to the card leaves the buffers, the linger timer, the marks and the FS. -/
theorem stageInto_closedAfter : ∃ x sv ws, stageInto n v h s = { closedAfter n v h s with
    xp := x, rp := { (closedAfter n v h s).rp with served := sv, waitList := ws } } := by
  by_cases last : v.staged + 1 = v.work.argC
  · obtain ⟨x, ws, e⟩ := answerOrWait_eq (v.counted h s.rp.nextSeq) .done (closedAfter n v h s)
    exact ⟨_, _, _, (stageInto_ends alone last).trans e⟩
  · exact ⟨_, _, _, stageInto_goesOn alone last⟩

theorem stageInto_buf (k : BufName) : (stageInto n v h s).rp.buf k = (closedAfter n v h s).rp.buf k := by
  obtain ⟨x, sv, ws, e⟩ := stageInto_closedAfter alone
  rw [e]; cases k <;> rfl

theorem stageInto_rest : (stageInto n v h s).rp.lingerTimer = (closedAfter n v h s).rp.lingerTimer ∧
    (stageInto n v h s).fs = (closedAfter n v h s).fs ∧
    (stageInto n v h s).rp.nextSeq = s.rp.nextSeq + 1 ∧ (stageInto n v h s).rp.keyHigh = h.key := by
  obtain ⟨x, sv, ws, e⟩ := stageInto_closedAfter alone
  obtain ⟨a, b, l, f, c⟩ := closedAfter_eq n v h s
  exact ⟨by rw [e], by rw [e], by rw [e, c], by rw [e, c]⟩

/-- Staging changes nothing but the card, the buffers, the linger timer, the wait list, the marks and the FS. -/
theorem stageInto_restored : { stageInto n v h s with
    rp := { (stageInto n v h s).rp with
      served := s.rp.served, bufA := s.rp.bufA, bufB := s.rp.bufB, lingerTimer := s.rp.lingerTimer
      waitList := s.rp.waitList, nextSeq := s.rp.nextSeq, keyHigh := s.rp.keyHigh }
    xp := s.xp, fs := s.fs } = s := by
  obtain ⟨x, sv, ws, e⟩ := stageInto_closedAfter alone
  obtain ⟨a, b, l, f, c⟩ := closedAfter_eq n v h s
  rw [e, c]

/-- A card that goes on keeps the port and the wait list. -/
theorem stageInto_goesOn_card (more : v.staged + 1 ≠ v.work.argC) : (stageInto n v h s).xp = s.xp ∧
    (stageInto n v h s).rp.waitList = s.rp.waitList ∧
    (stageInto n v h s).rp.served = some (v.counted h s.rp.nextSeq) := by
  obtain ⟨a, b, l, f, c⟩ := closedAfter_eq n v h s
  rw [stageInto_goesOn alone more, c]
  exact ⟨rfl, rfl, rfl⟩

/-- The last counted record's card is answered DONE, or waits for its last sequence (R39, R56). -/
theorem stageInto_ends_card (last : v.staged + 1 = v.work.argC) (wf : Memory.wf s.xp.mem = true) :
    (stageInto n v h s).rp.served = none ∧
    if v.work.flag0 = false ∨ s.rp.nextSeq ≤ s.rp.durable then
      AnswersCard v.card ((v.counted h s.rp.nextSeq).answer .done) s (stageInto n v h s) ∧
        (stageInto n v h s).rp.waitList = s.rp.waitList
    else (stageInto n v h s).xp = s.xp ∧ (stageInto n v h s).rp.waitList = s.rp.waitList ++
      [{ card := v.card, work := v.work, target := s.rp.nextSeq, answer := (v.counted h s.rp.nextSeq).answer .done }] := by
  obtain ⟨a, b, l, f, c⟩ := closedAfter_eq n v h s
  rw [stageInto_ends alone last]
  refine ⟨?_, ?_⟩
  · obtain ⟨x, ws, e⟩ := answerOrWait_eq (v.counted h s.rp.nextSeq) .done (closedAfter n v h s)
    rw [e]
  · exact answerOrWait_card (v := v.counted h s.rp.nextSeq) (by rw [c]) (by rw [c]) (by rw [c]) (by rw [c]; rfl) wf

/-- The wait list after a record is staged (R39, R56). -/
theorem stageInto_waitList (wf : Memory.wf s.xp.mem = true) : (stageInto n v h s).rp.waitList =
    if v.staged + 1 = v.work.argC ∧ v.work.flag0 = true ∧ s.rp.durable < s.rp.nextSeq then
      s.rp.waitList ++ [{ card := v.card, work := v.work, target := s.rp.nextSeq
                          answer := (v.counted h s.rp.nextSeq).answer .done }]
    else s.rp.waitList := by
  by_cases last : v.staged + 1 = v.work.argC
  · obtain ⟨-, card⟩ := stageInto_ends_card alone last wf
    split at card
    next now =>
      obtain ⟨-, waitList⟩ := card
      rw [waitList, if_neg]
      rintro ⟨-, sync, after⟩
      rcases now with plain | reached
      · rw [plain] at sync; cases sync
      · exact Nat.not_le.2 after reached
    next later =>
      obtain ⟨-, waitList⟩ := card
      rw [not_or, Bool.not_eq_false, Nat.not_le] at later
      rw [waitList, if_pos ⟨last, later⟩]
  · obtain ⟨-, waitList, -⟩ := stageInto_goesOn_card alone last
    rw [waitList, if_neg fun k => last k.1]

end

/-- R39, R42, R56, R59: what staging a record into the one FILLING buffer does is `Stages`. -/
theorem stages_stageInto (hf : s.ec.engine ≠ .faulted) (wf : v.staged + 1 = v.work.argC → Memory.wf s.xp.mem = true)
    (hn : s.rp.find .filling = some n) (ho : (s.rp.buf n.other).state ≠ .filling) :
    Stages n v h s (stageInto n v h s) := by
  have alone : FillsAlone n v h s := fun _ _ => ⟨hn, ho⟩
  have buf := stageInto_buf alone
  obtain ⟨linger, fs, nextSeq, keyHigh⟩ := stageInto_rest alone
  have joined := recordJoins_find (h := h) hn
  have engine : (recordJoins n h s).ec.engine ≠ .faulted := by simpa [recordJoins] using hf
  refine ⟨⟨nextSeq, keyHigh⟩, fun hc => ?closes, fun hfill hs => ?stays, fun more => ?goesOn, fun last => ?ends,
    stageInto_restored alone⟩
  case closes =>
    have e := closedAfter_closes hc
    have none_ := closeFilling_find joined (by rwa [recordJoins_other])
    refine ⟨(closesFilling_closeFilling engine).congr (fun k => e ▸ buf k) (e ▸ fs), ?_, ?_⟩
    · rw [Rp.find_eq_none] at none_ ⊢
      exact fun k => by rw [buf, e]; exact none_ k
    · rw [linger, e, closeFilling_linger joined]
  case stays =>
    have e := closedAfter_stays hfill.ne hs
    rw [linger, fs, e]
    exact ⟨e ▸ buf .a, e ▸ buf .b, by simp [recordJoins], by simp [recordJoins]⟩
  case goesOn => exact stageInto_goesOn_card alone more
  case ends => exact stageInto_ends_card alone last (wf last)

/-! ### A record that does not fill its buffer, and one that does (R39, R42) -/

/-- The buffer of a record that does not fill it: it closes where the staging's end closes it. -/
theorem stageInto_below (hn : s.rp.find .filling = some n) (hfill : (s.rp.buf n).fill + imageSize h.payload.length ≠ 4096) :
    ((stageInto n v h s).rp.buf n).records = ((recordJoins n h s).rp.buf n).records ∧
    ((stageInto n v h s).rp.buf n).dest = (s.rp.buf n).dest ∧
    if v.staged + 1 = v.work.argC ∧ (v.work.flag0 = true ∨ s.ec.engine = .stopping) then
      ((stageInto n v h s).rp.buf n).state ≠ .filling ∧ (stageInto n v h s).rp.lingerTimer = none
    else ((stageInto n v h s).rp.buf n).state = .filling ∧ (stageInto n v h s).rp.buf n.other = s.rp.buf n.other ∧
      (stageInto n v h s).rp.lingerTimer = s.rp.lingerTimer ∧ (stageInto n v h s).fs = s.fs := by
  have alone : FillsAlone n v h s := .of_ne hfill
  have joined := recordJoins_find (h := h) hn
  obtain ⟨st, self⟩ := closedAfter_buf (v := v) (h := h) hn
  obtain ⟨linger, fs, -, -⟩ := stageInto_rest alone
  rw [stageInto_buf alone, stageInto_buf alone, linger, fs]
  refine ⟨by rw [self], by rw [self, recordJoins_self], ?_⟩
  split
  next closing =>
    rw [closedAfter_closes (.inr closing)]
    exact ⟨closeFilling_state_self joined _ nofun nofun, closeFilling_linger joined⟩
  next staying =>
    rw [closedAfter_stays hfill staying, recordJoins_self, recordJoins_other]
    exact ⟨Rp.state_of_find hn, rfl, by simp [recordJoins], by simp [recordJoins]⟩

/-- A record that fills its buffer closes it. -/
theorem stageInto_full (hfill : (s.rp.buf n).fill + imageSize h.payload.length = 4096)
    (more : v.staged + 1 ≠ v.work.argC) :
    stageInto n v h s = setServed (some (v.counted h s.rp.nextSeq)) (closeFilling (recordJoins n h s)) := by
  rw [stageInto_goesOn (.of_more more) more, closedAfter_closes (.inl hfill)]

end Sys2Proof.Machine
end

section
/-!
PROOF. What RECORD_STAGE does in READY and STOPPING (O22).
-/
namespace Sys2Proof.Machine

-- One proof at a time, as in the tests: proofs checked side by side need more threads than the limits allow.
set_option Elab.async false

variable {s t : State} {n : BufName} {v : RpServed} {h : HostRecord} {o : OpenSeg} {out : CardOutcome}

/-! ### The checks of a record (R25, R26) -/

theorem readRecord_eq (s : State) (v : RpServed) :
    let head := xmReadList s.xp.mem (v.work.runBase + v.offset) 8
    readRecord s v =
      if v.work.span < v.offset + 8 ∨ 4080 < field head 0 2 ∨ field head 3 1 ≠ 0 ∨
        v.work.span < v.offset + 8 + pad4 (field head 0 2) then .error .badRecord
      else if field head 4 4 < s.rp.keyHigh then .error .keyOrder
      else if s.rp.nextSeq = maxSeq + 1 then .error .seqLimit
      else .ok { class_ := field head 2 1, key := field head 4 4,
                 payload := xmReadList s.xp.mem (v.work.runBase + v.offset + 8) (field head 0 2),
                 next := v.offset + 8 + pad4 (field head 0 2) } := by
  intro head
  unfold readRecord
  extract_lets span base d
  have length : d.length = field head 0 2 := rfl
  have reserved : d.reserved = field head 3 1 := rfl
  rw [← length, ← reserved]
  by_cases h1 : span < v.offset + 8
  · rw [if_pos h1, if_pos (.inl h1)]
  rw [if_neg h1]
  by_cases h2 : 4080 < d.length
  · rw [if_pos h2, if_pos (.inr (.inl h2))]
  rw [if_neg h2]
  by_cases h3 : d.reserved ≠ 0
  · rw [if_pos h3, if_pos (.inr (.inr (.inl h3)))]
  rw [if_neg h3]
  by_cases h4 : span < v.offset + 8 + pad4 d.length
  · rw [if_pos h4, if_pos (.inr (.inr (.inr h4)))]
  rw [if_neg h4]
  refine ((if_neg ?_).trans rfl).symm
  rintro (k | k | k | k)
  exacts [h1 k, h2 k, h3 k, h4 k]

/-! ### Where a record goes (R42, R43) -/

theorem startsFilling_self (n : BufName) (o : OpenSeg) (s : State) : (startsFilling n o s).rp.buf n =
    { state := .filling, records := [], dest := some { seg := o.seg, row := o.nextRow } } := setBuf_buf n _ _

theorem startsFilling_other (n : BufName) (o : OpenSeg) (s : State) :
    (startsFilling n o s).rp.buf n.other = s.rp.buf n.other := by cases n <;> rfl

theorem startsFilling_find (ho : (s.rp.buf n.other).state ≠ .filling) :
    (startsFilling n o s).rp.find .filling = some n :=
  Rp.find_of_only (by rw [startsFilling_self]) (by rwa [startsFilling_other])

/-- A record that goes first into an EMPTY buffer and does not fill it leaves it FILLING. -/
theorem stageInto_startsFilling (small : imageSize h.payload.length < 4096) (more : v.staged + 1 ≠ v.work.argC) :
    stageInto n v h (startsFilling n o s) =
      setServed (some (v.counted h (startsFilling n o s).rp.nextSeq)) (recordJoins n h (startsFilling n o s)) := by
  have fill : ((startsFilling n o s).rp.buf n).fill + imageSize h.payload.length ≠ 4096 := by
    rw [startsFilling_self]
    simpa [RowBuffer.fill] using small.ne
  rw [stageInto_goesOn (.of_more more) more, closedAfter_stays fill fun k => more k.1]

/-- An EMPTY buffer takes the open segment's next row. -/
theorem placeInEmpty_of_open (ho : s.rp.openSeg = some o) (hr : o.nextRow ≤ 62) :
    placeInEmpty n v h s = stageInto n v h (startsFilling n o s) := by
  have row : s.rp.openSeg.filter (fun o => decide (o.nextRow ≤ 62)) = some o := by simp [ho, hr]
  unfold placeInEmpty
  rw [row]
  cases n <;> rfl

theorem placeRecord_of_fits (hn : s.rp.find .filling = some n)
    (hfill : (s.rp.buf n).fill + imageSize h.payload.length ≤ 4096) : placeRecord v h s = stageInto n v h s := by
  simp only [placeRecord, hn, if_pos hfill]

theorem placeRecord_of_over (hn : s.rp.find .filling = some n)
    (hfill : 4096 < (s.rp.buf n).fill + imageSize h.payload.length) :
    placeRecord v h s = placeFresh v h (closeFilling s) := by
  simp only [placeRecord, hn, if_neg (Nat.not_le.2 hfill)]

theorem placeRecord_of_none (hn : s.rp.find .filling = none) : placeRecord v h s = placeFresh v h s := by
  simp only [placeRecord, hn]

theorem placeFresh_of_some (hn : s.rp.find .empty = some n) : placeFresh v h s = placeInEmpty n v h s := by
  simp only [placeFresh, hn]

theorem placeFresh_of_none (hn : s.rp.find .empty = none) : placeFresh v h s = serveWait v .buffer s := by
  simp only [placeFresh, hn]

/-! ### What RECORD_STAGE does (R39) -/

theorem judgeChange_of_cu (hc : t.cu = s.cu) : judgeChange s t = t := if_pos (by rw [hc]; exact ⟨rfl, rfl⟩)

theorem Running.notFaulted (hr : Running s) : s.ec.engine ≠ .faulted := by
  rcases hr with e | e <;> rw [e] <;> decide

section
variable (hr : Running s) (hv : s.rp.served = some v) (hw : v.wait = .staging)
include hr hv hw

/-- A step of the staging without a join is followed by the quiet reports alone (R152). -/
theorem exec_recordStage (hs : stageNext v s = t) (hc : t.cu = s.cu) : exec .recordStage s = .next (settle t) := by
  have step : recordStage s = judgeChange s (stageNext v s) := by
    simp only [recordStage, hv]
    exact if_pos ⟨hw, (running_iff s).1 hr⟩
  show done (recordStage s) = _
  rw [step, hs, judgeChange_of_cu hc, done_eq]

theorem exec_recordStage_refused (hx : readRecord s v = .error out) :
    exec .recordStage s = .next (settle (endStaging v out s)) :=
  exec_recordStage hr hv hw (by simp only [stageNext, hx]) (by simp)

variable (hx : readRecord s v = .ok h)
include hx

theorem exec_recordStage_fits (hn : s.rp.find .filling = some n)
    (hfill : (s.rp.buf n).fill + imageSize h.payload.length ≤ 4096) :
    exec .recordStage s = .next (settle (stageInto n v h s)) :=
  exec_recordStage hr hv hw (by simp only [stageNext, hx, placeRecord_of_fits hn hfill]) (by simp)

theorem exec_recordStage_other (hn : s.rp.find .filling = some n)
    (hfill : 4096 < (s.rp.buf n).fill + imageSize h.payload.length) (he : (s.rp.buf n.other).state = .empty)
    (ho : s.rp.openSeg = some o) (row : o.nextRow ≤ 62) :
    exec .recordStage s = .next (settle (stageInto n.other v h (startsFilling n.other o (closeFilling s)))) := by
  have other := closeFilling_buf_other_of_empty hn he
  have empty : (closeFilling s).rp.find .empty = some n.other :=
    Rp.find_of_only (by rw [other, he]) (by rw [BufName.other_other]; exact closeFilling_state_self hn _ nofun nofun)
  refine exec_recordStage hr hv hw ?_ (by simp [startsFilling])
  simp only [stageNext, hx]
  rw [placeRecord_of_over hn hfill, placeFresh_of_some empty, placeInEmpty_of_open (by simpa using ho) row]

theorem exec_recordStage_waits (hn : s.rp.find .filling = some n)
    (hfill : 4096 < (s.rp.buf n).fill + imageSize h.payload.length) (he : (s.rp.buf n.other).state ≠ .empty) :
    exec .recordStage s = .next (settle (serveWait v .buffer (closeFilling s))) := by
  have empty : (closeFilling s).rp.find .empty = none :=
    Rp.find_none_of (closeFilling_state_self hn _ nofun nofun) (closeFilling_state_other hn nofun he)
  refine exec_recordStage hr hv hw ?_ (by simp)
  simp only [stageNext, hx]
  rw [placeRecord_of_over hn hfill, placeFresh_of_none empty]

theorem exec_recordStage_fresh (hn : s.rp.find .filling = none) (he : s.rp.find .empty = some n)
    (ho : s.rp.openSeg = some o) (row : o.nextRow ≤ 62) :
    exec .recordStage s = .next (settle (stageInto n v h (startsFilling n o s))) := by
  refine exec_recordStage hr hv hw ?_ (by simp [startsFilling])
  simp only [stageNext, hx]
  rw [placeRecord_of_none hn, placeFresh_of_some he, placeInEmpty_of_open ho row]

end

/-! ### What is closed, and what comes of the card -/

/-- The FILLING buffer of a state with sound buffers is the only one. -/
theorem BuffersOk.only (ok : BuffersOk s) (hn : s.rp.find .filling = some n) : (s.rp.buf n.other).state ≠ .filling := by
  have found := Rp.state_of_find hn
  intro other
  cases n
  · exact ok.single ⟨found, other⟩
  · exact ok.single ⟨other, found⟩

/-- A state whose buffers, linger timer and FS are those of the closed one: the FILLING buffer closed and none is left. -/
theorem closesFilling_of_closed (hf : s.ec.engine ≠ .faulted) (ok : BuffersOk s)
    (buf : ∀ k, t.rp.buf k = (closeFilling s).rp.buf k) (linger : t.rp.lingerTimer = (closeFilling s).rp.lingerTimer)
    (fs : t.fs = (closeFilling s).fs) :
    ClosesFilling s t ∧ t.rp.find .filling = none ∧ t.rp.lingerTimer = none := by
  have quiet : (closeFilling s).rp.find .filling = none ∧ (closeFilling s).rp.lingerTimer = none := by
    cases hn : s.rp.find .filling with
    | none =>
      rw [closeFilling_of_none hn]
      exact ⟨hn, by simpa [hn] using ok.linger⟩
    | some n =>
      exact ⟨closeFilling_find hn (ok.only hn), closeFilling_linger hn⟩
  refine ⟨(closesFilling_closeFilling hf).congr buf fs, ?_, linger.trans quiet.2⟩
  have none_ := Rp.find_eq_none.1 quiet.1
  exact Rp.find_eq_none.2 fun k => by rw [buf]; exact none_ k

/-- The end of a staging changes nothing but the card, the wait list, the buffers, the linger timer and the FS. -/
theorem endStaging_restored (v : RpServed) (out : CardOutcome) (s : State) : { endStaging v out s with
    rp := { (endStaging v out s).rp with
      served := s.rp.served, bufA := s.rp.bufA, bufB := s.rp.bufB, lingerTimer := s.rp.lingerTimer
      waitList := s.rp.waitList }
    xp := s.xp, fs := s.fs } = s := by
  obtain ⟨a, b, l, f, e⟩ := closeFilling_eq s
  rw [endStaging_eq, e]
  split
  · obtain ⟨x, ws, k⟩ := answerOrWait_eq v out
      { s with rp := { s.rp with bufA := a, bufB := b, lingerTimer := l }, fs := f }
    rw [k]
  · obtain ⟨x, ws, k⟩ := answerOrWait_eq v out s
    rw [k]

theorem endStaging_served (v : RpServed) (out : CardOutcome) (s : State) : (endStaging v out s).rp.served = none := by
  rw [endStaging_eq]
  generalize (if v.work.flag0 = true ∨ s.ec.engine = .stopping then closeFilling s else s) = u
  obtain ⟨x, ws, k⟩ := answerOrWait_eq v out u
  rw [k]

/-- What comes of a card whose staging ends (R39, R40, R56). -/
theorem endStaging_card (v : RpServed) (out : CardOutcome) (wf : Memory.wf s.xp.mem = true) :
    if v.work.flag0 = false ∨ s.rp.nextSeq - 1 ≤ s.rp.durable then
      AnswersCard v.card (v.answer out) s (endStaging v out s) ∧ (endStaging v out s).rp.waitList = s.rp.waitList
    else (endStaging v out s).xp = s.xp ∧ (endStaging v out s).rp.waitList = s.rp.waitList ++
      [{ card := v.card, work := v.work, target := s.rp.nextSeq - 1, answer := v.answer out }] := by
  rw [endStaging_eq]
  refine answerOrWait_card ?_ ?_ ?_ ?_ wf <;> split <;> simp

/-- A SYNC card's end, and any in STOPPING, closes the FILLING buffer (R56, R59). -/
theorem endStaging_closes (out : CardOutcome) (hf : s.ec.engine ≠ .faulted) (ok : BuffersOk s)
    (hc : v.work.flag0 = true ∨ s.ec.engine = .stopping) : ClosesFilling s (endStaging v out s) ∧
      (endStaging v out s).rp.find .filling = none ∧ (endStaging v out s).rp.lingerTimer = none := by
  obtain ⟨x, ws, k⟩ := answerOrWait_eq v out (closeFilling s)
  rw [endStaging_eq, if_pos hc, k]
  exact closesFilling_of_closed hf ok (fun k => by cases k <;> rfl) rfl rfl

/-- Without SYNC, in READY, the end of a staging changes the card alone (R39). -/
theorem endStaging_plain (out : CardOutcome) (hs : v.work.flag0 = false) (he : s.ec.engine = .ready) :
    endStaging v out s = answerCard v.card (v.answer out) (setServed none s) := by
  rw [endStaging_eq, if_neg (by rw [hs, he]; decide), answerOrWait_answers (.inl hs)]

/-- In READY a card waits. -/
theorem serveWait_of_ready (v : RpServed) (w : RpWait) (he : s.ec.engine = .ready) :
    serveWait v w s = setServed (some { v with wait := w }) s := if_neg (by rw [he]; decide)

/-- In STOPPING a card that comes to wait is answered STOPPED (R59). -/
theorem serveWait_of_stopping (v : RpServed) (w : RpWait) (he : s.ec.engine = .stopping) :
    serveWait v w s = answerCard v.card (v.answer .stopped) (setServed none s) := if_pos he

theorem serveWait_eq (v : RpServed) (w : RpWait) (s : State) : ∃ x sv,
    serveWait v w s = { s with xp := x, rp := { s.rp with served := sv } } := by
  unfold serveWait
  split <;> exact ⟨_, _, rfl⟩

/-- Settles O22, clause by clause, from the equations of the end of a staging and of the staging of one record. -/
theorem recordIsStagedOrRefused : Obligations.RecordIsStagedOrRefused := by
  unfold Obligations.RecordIsStagedOrRefused
  refine ⟨fun s v => readRecord_eq s v, fun s v o hr wf hv hw hx hs => ?refused, fun s v o hr wf ok hv hw hx hs => ?sync,
    fun s v h n hr wf hv hw hx hn hfill => ?joins, fun s v h n hr hv hw hx hn hfill more => ?fills,
    fun s v h n o hr hv hw hx hn hfill he ho row small more => ?moves,
    fun s v h n hr hv hw hx hn hfill he => ?waits, fun s v h n hr wf ok hv hw hx => ?stages⟩
  case refused =>
    have card := endStaging_card v o wf
    rw [if_pos (.inl hs)] at card
    obtain ⟨answers, waitList⟩ := card
    have frame := endStaging_restored v o s
    refine ⟨_, exec_recordStage_refused hr hv hw hx, answers, endStaging_served v o s, fun ready => ?_,
      fun stopping ok => endStaging_closes o hr.notFaulted ok (.inr stopping), ?_,
      congrArg (fun u : State => { u with rp := s.rp }) frame⟩
    · rw [endStaging_plain o hs ready]; rfl
    · have packer := congrArg State.rp frame
      rwa [← waitList] at packer
  case sync =>
    intro target r
    have card := endStaging_card v o wf
    have frame := endStaging_restored v o s
    obtain ⟨closes, none_, linger⟩ := endStaging_closes o hr.notFaulted ok (.inl hs)
    refine ⟨_, exec_recordStage_refused hr hv hw hx, closes, none_, linger, endStaging_served v o s, ?_,
      congrArg State.rp frame, congrArg (fun u : State => { u with rp := s.rp }) frame⟩
    simp only [hs, Bool.true_eq_false, false_or] at card
    exact card
  case joins =>
    intro q first recs r
    have alone : FillsAlone n v h s := .of_ne hfill.ne
    obtain ⟨-, -, nextSeq, keyHigh⟩ := stageInto_rest alone
    obtain ⟨records, dest, closing⟩ := stageInto_below (v := v) hn hfill.ne
    have frame := stageInto_restored alone
    refine ⟨_, exec_recordStage_fits hr hv hw hx hn hfill.le, nextSeq, keyHigh, by rw [records, recordJoins_self], dest, ?_,
      closing, stageInto_waitList alone wf, congrArg State.rp frame, congrArg (fun u : State => { u with rp := s.rp }) frame⟩
    split
    next more =>
      obtain ⟨port, -, served⟩ := stageInto_goesOn_card alone more
      exact ⟨served.trans (congrArg some (v.counted_of_staging hw h q)), port⟩
    next last =>
      obtain ⟨served, card⟩ := stageInto_ends_card alone (not_not.1 last) wf
      refine ⟨served, ?_⟩
      split at card
      next now => rw [if_pos now]; exact card.1
      next later => rw [if_neg later]; exact card.1
  case fills =>
    intro q m
    have joined := recordJoins_find (h := h) hn
    have closes : ClosesFilling m (closeFilling (recordJoins n h s)) := by
      have closes := closesFilling_closeFilling (s := recordJoins n h s) (by simpa [recordJoins] using hr.notFaulted)
      cases n <;> exact closes.congr_left rfl rfl rfl rfl rfl
    obtain ⟨a, b, l, f, c⟩ := closeFilling_eq (recordJoins n h s)
    refine ⟨_, exec_recordStage_fits hr hv hw hx hn hfill.le, ?_⟩
    rw [stageInto_full hfill more, v.counted_of_staging hw]
    refine ⟨closes.congr (fun k => by cases k <;> rfl) rfl, closeFilling_linger joined, ?_⟩
    rw [c]
    cases n <;> exact ⟨rfl, rfl, rfl, rfl, rfl⟩
  case moves =>
    intro q
    obtain ⟨a, b, l, f, c⟩ := closeFilling_eq s
    have closes := closesFilling_closeFilling hr.notFaulted
    rw [ClosesFilling, hn] at closes
    obtain ⟨records, dest, busy, free⟩ := closes
    have staged := stageInto_startsFilling (n := n.other) (o := o) (s := closeFilling s) small more
    have self : (stageInto n.other v h (startsFilling n.other o (closeFilling s))).rp.buf n = (closeFilling s).rp.buf n := by
      rw [staged]; cases n <;> rfl
    have fs : (stageInto n.other v h (startsFilling n.other o (closeFilling s))).fs = (closeFilling s).fs := by
      rw [staged]; cases n <;> rfl
    refine ⟨_, exec_recordStage_other hr hv hw hx hn hfill he ho row, by rw [self, records], by rw [self, dest],
      fun k => ?_, fun k d hd => ?_, ?_⟩
    · obtain ⟨closed, -, kept⟩ := busy k
      rw [self, fs]
      exact ⟨closed, kept⟩
    · obtain ⟨sent, -, gain⟩ := free k (by rw [he]; nofun) d hd
      rw [self]
      exact ⟨sent, gain.of_fs rfl fs⟩
    · rw [staged, v.counted_of_staging hw, c]
      cases n <;> exact ⟨rfl, rfl, rfl, rfl, rfl, rfl, rfl, rfl⟩
  case waits =>
    intro stopped
    obtain ⟨x, sv, e⟩ := serveWait_eq v .buffer (closeFilling s)
    obtain ⟨a, b, l, f, c⟩ := closeFilling_eq s
    refine ⟨_, exec_recordStage_waits hr hv hw hx hn hfill he, ?_, ?_, fun ready => ?_, fun stopping => ?_, ?_, ?_⟩
    · exact (closesFilling_closeFilling hr.notFaulted).congr (fun k => by rw [e]; cases k <;> rfl) (by rw [e])
    · rw [e]; exact closeFilling_linger hn
    · rw [serveWait_of_ready v _ (by simpa using ready), c]; exact ⟨rfl, rfl⟩
    · rw [serveWait_of_stopping v _ (by simpa using stopping)]
      exact ⟨rfl, fun wf => (answersCard_answerCard (by simpa [setServed] using wf) _ _).of_xp (by simp [setServed])⟩
    · rw [e, c]
    · rw [e, c]
  case stages =>
    have hf := hr.notFaulted
    refine ⟨fun hn hfill => ?fits, fun o ho row => ⟨fun hn hfill he => ?other, fun hn he => ?fresh⟩⟩
    case fits =>
      exact ⟨_, exec_recordStage_fits hr hv hw hx hn hfill, stages_stageInto hf (fun _ => wf) hn (ok.only hn)⟩
    case other =>
      have closed : ((closeFilling s).rp.buf n.other.other).state ≠ .filling := by
        rw [BufName.other_other]
        exact closeFilling_state_self hn _ nofun nofun
      refine ⟨closeFilling s, _, exec_recordStage_other hr hv hw hx hn hfill he ho row, closesFilling_closeFilling hf,
        closeFilling_buf_other_of_empty hn he, ?_, stages_stageInto (by simpa [startsFilling] using hf)
          (fun _ => by simpa [startsFilling] using wf) (startsFilling_find closed) (by rwa [startsFilling_other])⟩
      obtain ⟨a, b, l, f, e⟩ := closeFilling_eq s
      rw [e]
    case fresh =>
      have none_ := Rp.find_eq_none.1 hn
      have empty : s.rp.find .empty = some n := by
        rcases he with ⟨rfl, ha⟩ | ⟨rfl, ha, hb⟩
        · exact Rp.find_eq_some.2 ⟨ha, nofun⟩
        · exact Rp.find_eq_some.2 ⟨hb, fun _ => ha⟩
      exact ⟨_, exec_recordStage_fresh hr hv hw hx hn empty ho row, stages_stageInto (by simpa [startsFilling] using hf)
        (fun _ => by simpa [startsFilling] using wf) (startsFilling_find (none_ _))
        (by rw [startsFilling_other]; exact none_ _)⟩

end Sys2Proof.Machine
end

section
/-!
SUPPORT. Several cards answered in one step: what each shows, and what else the Exchange Port keeps (R18, R20, R21, R55, R170).
-/
namespace Sys2Proof.Machine

-- One proof at a time, as in the tests: proofs checked side by side need more threads than the limits allow.
set_option Elab.async false

variable {s t u : State} {ps qs : List (CardIx × Answer)}

/-! ### A list of cards and their answers -/

/-- From `s` to `t` each card of the list is answered with its answer, and the port changed in nothing else. -/
structure AnswersAll (ps : List (CardIx × Answer)) (s t : State) : Prop where
  canonical : Memory.wf t.xp.mem = true
  shown : ∀ p ∈ ps, CardShows t p.1 p.2
  others : OnlyCards (fun c => c ∈ ps.map Prod.fst) s t
  port : { t.xp with mem := s.xp.mem, answered := s.xp.answered } = s.xp
  durable : t.rp.durable = s.rp.durable

/-- A card that is not among those answered shows what it showed. -/
theorem CardShows.keep {P : CardIx → Prop} {c : CardIx} {r : Answer} (h : CardShows s c r) (k : OnlyCards P s t)
    (hc : ¬ P c) (hd : t.rp.durable = s.rp.durable) : CardShows t c r := by
  obtain ⟨state, bit, result⟩ := h
  obtain ⟨bytes, bits⟩ := k
  have own (a : Nat) (h1 : cardBase c ≤ a) (h2 : a < cardBase c + 64) : xmRead t.xp.mem a = xmRead s.xp.mem a := by
    refine bytes a fun d hd => ?_
    have := cardBase_ne fun e : c = d => hc (e ▸ hd)
    unfold answerByte
    omega
  refine ⟨(own _ (Nat.le_refl _) (by omega)).trans state, (bits c hc).trans bit, ?_⟩
  rw [hd, ← result]
  exact xmReadList_eq_of fun a h1 h2 => own a (by omega) (by omega)

theorem AnswersAll.nil (wf : Memory.wf s.xp.mem = true) : AnswersAll [] s s :=
  ⟨wf, nofun, .refl _ s, rfl, rfl⟩

/-- Answers in turn, to cards of which none is answered twice. -/
theorem AnswersAll.trans (h : AnswersAll ps s t) (k : AnswersAll qs t u) (once : ((ps ++ qs).map Prod.fst).Nodup) :
    AnswersAll (ps ++ qs) s u := by
  rw [List.map_append, List.nodup_append] at once
  obtain ⟨-, -, apart⟩ := once
  refine ⟨k.canonical, fun p hp => ?_, (h.others.mono fun c hc => ?_).trans (k.others.mono fun c hc => ?_), ?_,
    k.durable.trans h.durable⟩
  · rcases List.mem_append.1 hp with hp | hp
    · exact (h.shown p hp).keep k.others (fun hq => apart _ (List.mem_map_of_mem hp) _ hq rfl) k.durable
    · exact k.shown p hp
  · rw [List.map_append]; exact List.mem_append_left _ hc
  · rw [List.map_append]; exact List.mem_append_right _ hc
  · rw [← h.port, ← k.port]

theorem AnswersAll.answerCard (wf : Memory.wf s.xp.mem = true) (c : CardIx) (r : Answer) :
    AnswersAll [(c, r)] s (answerCard c r s) :=
  ⟨(answerCard_reads wf c r).2.2.2, fun p hp => by
    rw [List.mem_singleton.1 hp]; exact (answersCard_answerCard wf c r).1,
    (onlyCards_answerCard wf c r).mono fun d hd => by simp [hd], rfl, by simp⟩

/-- Of the state after the answers only the port and durable_mark count. -/
theorem AnswersAll.of_port (h : AnswersAll ps s t) (hx : u.xp = t.xp) (hd : u.rp.durable = t.rp.durable) :
    AnswersAll ps s u := by
  obtain ⟨canonical, shown, ⟨bytes, bits⟩, port, durable⟩ := h
  refine ⟨hx ▸ canonical, fun p hp => ?_, ⟨hx ▸ bytes, hx ▸ bits⟩, hx ▸ port, hd.trans durable⟩
  obtain ⟨state, bit, result⟩ := shown p hp
  unfold cardByte at state
  rw [← hx] at state bit result
  exact ⟨state, bit, hd ▸ result⟩

/-- Of the state before the answers, too. -/
theorem AnswersAll.from_port (h : AnswersAll ps s t) (hx : u.xp = s.xp) (hd : u.rp.durable = s.rp.durable) :
    AnswersAll ps u t := by
  obtain ⟨canonical, shown, ⟨bytes, bits⟩, port, durable⟩ := h
  exact ⟨canonical, shown, ⟨hx ▸ bytes, hx ▸ bits⟩, hx ▸ port, durable.trans hd.symm⟩

/-! ### Queues, the wait list and the served cards -/

theorem answerAll_eq (r : Answer) (q : List CardIx) (s : State) : ∃ x, answerAll r q s = { s with xp := x } := by
  induction q generalizing s with
  | nil => exact ⟨_, rfl⟩
  | cons c q ih =>
    obtain ⟨x, e⟩ := ih (answerCard c r s)
    exact ⟨x, e⟩

theorem answersAll_answerAll (r : Answer) {q : List CardIx} (once : q.Nodup) (wf : Memory.wf s.xp.mem = true) :
    AnswersAll (q.map fun c => (c, r)) s (answerAll r q s) := by
  induction q generalizing s with
  | nil => exact .nil wf
  | cons c q ih =>
    have first := AnswersAll.answerCard wf c r
    refine first.trans (ih (List.nodup_cons.1 once).2 first.canonical) ?_
    simpa [Function.comp_def] using once

/-- A queue answered: nothing but the port and the queue changes (R18). -/
theorem answerQueue_eq (p : CardPath) (r : Answer) (s : State) :
    ∃ x, answerQueue p r s = setQueue p [] { s with xp := x } := by
  obtain ⟨x, e⟩ := answerAll_eq r (s.ci.queue p) s
  exact ⟨x, by rw [answerQueue, e]⟩

theorem answersAll_answerQueue {p : CardPath} (r : Answer) (once : (s.ci.queue p).Nodup) (wf : Memory.wf s.xp.mem = true) :
    AnswersAll ((s.ci.queue p).map fun c => (c, r)) s (answerQueue p r s) :=
  (answersAll_answerAll r once wf).of_port (by simp [answerQueue]) (by simp [answerQueue])

theorem answerEntries_eq (ws : List WaitEntry) (s : State) : ∃ x, answerEntries ws s = { s with xp := x } := by
  induction ws generalizing s with
  | nil => exact ⟨_, rfl⟩
  | cons w ws ih =>
    obtain ⟨x, e⟩ := ih (answerCard w.card w.answer s)
    exact ⟨x, e⟩

theorem answersAll_answerEntries {ws : List WaitEntry} (once : (ws.map WaitEntry.card).Nodup)
    (wf : Memory.wf s.xp.mem = true) :
    AnswersAll (ws.map fun w => (w.card, w.answer)) s (answerEntries ws s) := by
  induction ws generalizing s with
  | nil => exact .nil wf
  | cons w ws ih =>
    have first := AnswersAll.answerCard wf w.card w.answer
    refine first.trans (ih (List.nodup_cons.1 once).2 first.canonical) ?_
    simpa [Function.comp_def] using once

/-- The cards the append path holds, each with an outcome and the counts it had (R57, R170, R181). -/
def appendAnswers (o : CardOutcome) (p : Rp) : List (CardIx × Answer) :=
  (p.served.toList.map fun v => (v.card, v.answer o)) ++
    p.waitList.map fun w => (w.card, { w.answer with outcome := o })

/-- The append path's cards answered: nothing but the port and the two places they stood in changes. -/
theorem answerAppend_eq (o : CardOutcome) (s : State) : ∃ x, answerWaitList o (answerServed o s) =
    { s with xp := x, rp := { s.rp with served := none, waitList := [] } } := by
  have served : ∃ x, answerServed o s = { s with xp := x, rp := { s.rp with served := none } } := by
    unfold answerServed
    split
    next h => exact ⟨s.xp, by rw [← h]⟩
    · exact ⟨_, rfl⟩
  obtain ⟨x, e⟩ := served
  rw [e, answerWaitList]
  obtain ⟨y, k⟩ := answerEntries_eq (s.rp.waitList.map fun w => { w with answer := { w.answer with outcome := o } })
    { s with xp := x, rp := { s.rp with served := none, waitList := [] } }
  exact ⟨y, k⟩

theorem answersAll_answerServed (o : CardOutcome) (wf : Memory.wf s.xp.mem = true) :
    AnswersAll (s.rp.served.toList.map fun v => (v.card, v.answer o)) s (answerServed o s) := by
  unfold answerServed
  split
  next h => rw [h]; exact .nil wf
  next v h => rw [h]; exact (AnswersAll.answerCard wf v.card (v.answer o)).of_port rfl rfl

theorem answersAll_append (o : CardOutcome) (once : ((appendAnswers o s.rp).map Prod.fst).Nodup)
    (wf : Memory.wf s.xp.mem = true) :
    AnswersAll (appendAnswers o s.rp) s (answerWaitList o (answerServed o s)) := by
  have served := answersAll_answerServed o wf
  refine served.trans ?_ once
  have waiting : (answerServed o s).rp.waitList = s.rp.waitList := by simp
  unfold answerWaitList
  rw [waiting]
  have list := answersAll_answerEntries
    (s := { answerServed o s with rp := { (answerServed o s).rp with waitList := [] } })
    (ws := s.rp.waitList.map fun w => { w with answer := { w.answer with outcome := o } }) ?_ served.canonical
  · rw [List.map_map] at list
    exact list.from_port rfl rfl
  · rw [List.map_map]
    rw [appendAnswers, List.map_append, List.nodup_append, List.map_map (l := s.rp.waitList)] at once
    obtain ⟨-, waitOnce, -⟩ := once
    exact waitOnce

end Sys2Proof.Machine
end

section
/-!
PROOF. The taking of FORMAT (O43).
-/
namespace Sys2Proof.Machine

-- One proof at a time, as in the tests: proofs checked side by side need more threads than the limits allow.
set_option Elab.async false

variable {s t : State} {c : CardIx}

/-! ### A take that serves its card (R19) -/

/-- A card of the row's own kind, reserved byte 0, is served. -/
theorem pathTake_serves {p : CardPath} {free : Bool} {mine : Work → Bool} {always : Bool}
    {serve : CardIx → Work → State → State} {rest : List CardIx} (hf : free = true)
    (he : s.ec.engine = .ready ∨ s.ec.engine = .unformatted) (hq : s.ci.queue p = c :: rest)
    (hk : (cardWork s c).kind.map Kind.path = some p) (hm : mine (cardWork s c) = true) (hr : (cardWork s c).reserved = 0)
    (hu : s.ec.engine = .ready ∨ always = true) :
    pathTake p free mine always serve s = serve c (cardWork s c) (takeHead p c s) := by
  have fault : (cardWork s c).fault p = none := (if_pos hk).trans (if_pos hr)
  unfold pathTake
  rw [if_pos ⟨hf, he⟩, hq]
  dsimp only
  rw [if_pos (.inl hm), fault]
  refine if_neg fun k => ?_
  rcases hu with e | e
  · rw [e] at k; cases k.1
  · rw [e] at k; cases k.2

/-! ### What FORMAT does to each block (R170) -/

/-- The RP after a discard (R37), closed and without pending digests: staged records are named by the discard range, and the
marks set back, key_high to `key`. -/
def packerDropped (key : Nat) (p : Rp) : Rp :=
  if p.bufA.records = [] ∧ p.bufB.records = [] then
    { p with
      bufA := .cleared, bufB := .cleared, openSeg := none, rowMap := [], lingerTimer := none, relocation := none
      digests := [] }
  else
    { p with
      bufA := .cleared, bufB := .cleared, openSeg := none, rowMap := [], lingerTimer := none, relocation := none
      digests := [], discardFirst := p.durable + 1, discardLast := p.nextSeq - 1, nextSeq := p.durable + 1, keyHigh := key }

@[simp] theorem packerDropped_frame (key : Nat) (p : Rp) :
    (packerDropped key p).served = p.served ∧ (packerDropped key p).waitList = p.waitList ∧
    (packerDropped key p).durable = p.durable ∧ (packerDropped key p).readOnly = p.readOnly ∧
    (packerDropped key p).fullSeen = p.fullSeen ∧ (packerDropped key p).bufA = .cleared ∧
    (packerDropped key p).bufB = .cleared ∧ (packerDropped key p).openSeg = none ∧ (packerDropped key p).rowMap = [] ∧
    (packerDropped key p).digests = [] ∧ (packerDropped key p).lingerTimer = none ∧
    (packerDropped key p).relocation = none := by
  unfold packerDropped
  split <;> and_intros <;> rfl

theorem formatPacker_dropped (s : State) : formatPacker s =
    if recordRowInFlight s then { s with rp := packerDropped (durableKey s) s.rp }
    else answerWaitList .abortedFormat
      (answerServed .abortedFormat { s with rp := packerDropped (durableKey s) s.rp }) := by
  unfold formatPacker discardStaged packerDropped closePacker
  simp only [List.isEmpty_iff]
  split <;> rfl

/-- A record row program in flight keeps the append path's cards until it completes. -/
theorem formatPacker_of_busy (h : recordRowInFlight s = true) :
    formatPacker s = { s with rp := packerDropped (durableKey s) s.rp } := by
  rw [formatPacker_dropped, if_pos h]

theorem formatPacker_of_free (h : recordRowInFlight s = false) : formatPacker s =
    answerWaitList .abortedFormat
      (answerServed .abortedFormat { s with rp := packerDropped (durableKey s) s.rp }) := by
  rw [formatPacker_dropped, h]; rfl

/-- The append path's cards that FORMAT aborts. -/
def packerAborts (s : State) : List (CardIx × Answer) :=
  if recordRowInFlight s then [] else appendAnswers .abortedFormat s.rp

/-- The RP after FORMAT is taken. -/
def packerFormatted (s : State) : Rp :=
  if recordRowInFlight s then packerDropped (durableKey s) s.rp
  else { packerDropped (durableKey s) s.rp with served := none, waitList := [] }

theorem packerFormatted_frame (s : State) :
    (packerFormatted s).bufA = .cleared ∧ (packerFormatted s).bufB = .cleared ∧ (packerFormatted s).openSeg = none ∧
    (packerFormatted s).rowMap = [] ∧ (packerFormatted s).digests = [] ∧ (packerFormatted s).lingerTimer = none ∧
    (packerFormatted s).relocation = none ∧ (packerFormatted s).durable = s.rp.durable ∧
    (packerFormatted s).readOnly = s.rp.readOnly ∧ (packerFormatted s).fullSeen = s.rp.fullSeen := by
  unfold packerFormatted
  split <;> simp

/-- R37: the discard range and the marks. -/
theorem packerFormatted_marks (s : State) :
    if s.rp.bufA.records = [] ∧ s.rp.bufB.records = [] then
      (packerFormatted s).discardFirst = s.rp.discardFirst ∧ (packerFormatted s).discardLast = s.rp.discardLast ∧
      (packerFormatted s).nextSeq = s.rp.nextSeq ∧ (packerFormatted s).keyHigh = s.rp.keyHigh
    else
      (packerFormatted s).discardFirst = s.rp.durable + 1 ∧ (packerFormatted s).discardLast = s.rp.nextSeq - 1 ∧
      (packerFormatted s).nextSeq = s.rp.durable + 1 ∧ (packerFormatted s).keyHigh = durableKey s := by
  by_cases empty : s.rp.bufA.records = [] ∧ s.rp.bufB.records = []
  · simp only [packerFormatted, packerDropped, if_pos empty]
    split <;> exact ⟨rfl, rfl, rfl, rfl⟩
  · simp only [packerFormatted, packerDropped, if_neg empty]
    split <;> exact ⟨rfl, rfl, rfl, rfl⟩

theorem packerFormatted_of_busy (h : recordRowInFlight s = true) :
    (packerFormatted s).served = s.rp.served ∧ (packerFormatted s).waitList = s.rp.waitList := by
  rw [packerFormatted, if_pos h]
  simp

theorem packerFormatted_of_free (h : ¬ recordRowInFlight s = true) :
    (packerFormatted s).served = none ∧ (packerFormatted s).waitList = [] := by
  rw [packerFormatted, if_neg h]
  exact ⟨rfl, rfl⟩

theorem formatPacker_eq (s : State) : ∃ x, formatPacker s = { s with xp := x, rp := packerFormatted s } := by
  unfold packerFormatted
  cases h : recordRowInFlight s with
  | true => exact ⟨s.xp, formatPacker_of_busy h⟩
  | false =>
    obtain ⟨x, e⟩ := answerAppend_eq .abortedFormat { s with rp := packerDropped (durableKey s) s.rp }
    exact ⟨x, (formatPacker_of_free h).trans e⟩

theorem answersAll_formatPacker (once : ((packerAborts s).map Prod.fst).Nodup) (wf : Memory.wf s.xp.mem = true) :
    AnswersAll (packerAborts s) s (formatPacker s) := by
  have cards : appendAnswers .abortedFormat (packerDropped (durableKey s) s.rp) = appendAnswers .abortedFormat s.rp := by
    simp [appendAnswers]
  have durable : (packerDropped (durableKey s) s.rp).durable = s.rp.durable := by simp
  unfold packerAborts at once ⊢
  cases h : recordRowInFlight s with
  | true => rw [formatPacker_of_busy h]; exact (AnswersAll.nil wf).of_port rfl durable
  | false =>
    rw [h] at once
    have aborted := answersAll_append (s := { s with rp := packerDropped (durableKey s) s.rp }) .abortedFormat (cards ▸ once)
      wf
    rw [formatPacker_of_free h]
    exact cards ▸ aborted.from_port rfl durable.symm

/-- The reader has no operation outstanding. -/
def readerIdle (a : Ar) : Bool :=
  match a.act with
  | .idle => true
  | .awaitPin _ _ => true
  | .digest _ => false
  | .scan _ => false
  | .row => false

theorem readerIdle_iff (a : Ar) : readerIdle a = true ↔ a.act = .idle ∨ ∃ seg next, a.act = .awaitPin seg next := by
  unfold readerIdle
  cases a.act <;> simp

/-- The query card that FORMAT aborts. -/
def readerAborts (a : Ar) : List (CardIx × Answer) :=
  if readerIdle a then a.served.toList.map fun v => (v.card, a.answer .abortedFormat) else []

theorem formatReader_eq (s : State) : formatReader s = if readerIdle s.ar then arAbort s else s := by
  unfold formatReader readerIdle
  cases s.ar.act <;> rfl

theorem answersAll_formatReader (wf : Memory.wf s.xp.mem = true) :
    AnswersAll (readerAborts s.ar) s (formatReader s) := by
  rw [formatReader_eq, readerAborts]
  cases readerIdle s.ar with
  | false => exact .nil wf
  | true =>
    unfold arAbort arAnswer
    simp only [if_true]
    split
    next h => rw [h]; exact .nil wf
    next v h => rw [h]; exact (AnswersAll.answerCard wf _ _).of_port rfl rfl

/-- The AR after FORMAT is taken. -/
def readerFormatted (a : Ar) : Ar := if readerIdle a = true ∧ a.served ≠ none then a.released else a

theorem formatReader_ar (s : State) : ∃ x, formatReader s = { s with xp := x, ar := readerFormatted s.ar } := by
  rw [formatReader_eq, readerFormatted]
  cases hi : readerIdle s.ar with
  | false => exact ⟨s.xp, by simp⟩
  | true =>
    unfold arAbort arAnswer
    simp only [if_true, true_and]
    split
    next h => exact ⟨s.xp, by simp [h]⟩
    next v h => exact ⟨_, by simp only [h, ne_eq, reduceCtorEq, not_false_eq_true, if_true]; rfl⟩

/-! ### The taking of FORMAT as a whole -/

/-- The cards FORMAT aborts, in the order of their answers. -/
def formatAborts (s : State) : List (CardIx × Answer) :=
  (s.ci.append.map fun c => (c, .plain .abortedFormat)) ++
    ((s.ci.query.map fun c => (c, .plain .abortedFormat)) ++ (packerAborts s ++ readerAborts s.ar))

/-- The state after a FORMAT card is taken, but for the Exchange Port. -/
def formatted (c : CardIx) (w : Work) (x : Xp) (s : State) : State :=
  { s with
    xp := x, ci := { append := [], query := [], control := s.ci.control }, rp := packerFormatted s
    ar := readerFormatted s.ar
    cp := { s.cp with served := some { card := c, work := w, job := .format }, holds := List.replicate 8 Hold.freed }
    cu := { s.cu with orderList := [], freePool := [], retired := [], oldest := 0 }
    ru := { s.ru with claim := none, superseded := [], heldPin := none, heldHold := none }
    ec := { s.ec with engine := .formatting, loaded := false, step := .formatWait } }

/-- The state after the queues are answered and RP and AR have done their part of FORMAT. -/
def pathsAborted (s : State) : State :=
  formatReader (formatPacker
    (answerQueue .query (.plain .abortedFormat) (answerQueue .append (.plain .abortedFormat) s)))

theorem pathsAborted_eq (s : State) : ∃ x, pathsAborted s = { s with
    xp := x, ci := { append := [], query := [], control := s.ci.control }, rp := packerFormatted s
    ar := readerFormatted s.ar } := by
  obtain ⟨x1, e1⟩ := answerQueue_eq .append (.plain .abortedFormat) s
  obtain ⟨x2, e2⟩ := answerQueue_eq .query (.plain .abortedFormat) (setQueue .append [] { s with xp := x1 })
  obtain ⟨x3, e3⟩ := formatPacker_eq (setQueue .query [] { setQueue .append [] { s with xp := x1 } with xp := x2 })
  rw [pathsAborted, e1, e2, e3]
  exact formatReader_ar _

/-- The queues, the append path's cards and the query card are answered in turn. -/
theorem answersAll_pathsAborted (once : ((formatAborts s).map Prod.fst).Nodup) (wf : Memory.wf s.xp.mem = true) :
    AnswersAll (formatAborts s) s (pathsAborted s) := by
  let r := Answer.plain .abortedFormat
  have query : (answerQueue .append r s).ci.queue .query = s.ci.query := by
    obtain ⟨x, e⟩ := answerQueue_eq .append r s
    rw [e]; rfl
  have packer : packerAborts (answerQueue .query r (answerQueue .append r s)) = packerAborts s := by
    have fs : (answerQueue .query r (answerQueue .append r s)).fs = s.fs := by simp
    have rp : (answerQueue .query r (answerQueue .append r s)).rp = s.rp := by simp
    unfold packerAborts recordRowInFlight
    rw [fs, rp]
  have reader : readerAborts (formatPacker (answerQueue .query r (answerQueue .append r s))).ar = readerAborts s.ar := by
    simp
  have onceAll : (s.ci.append ++ (s.ci.query ++
      ((packerAborts s).map Prod.fst ++ (readerAborts s.ar).map Prod.fst))).Nodup := by
    simpa only [formatAborts, List.map_append, List.map_map, Function.comp_def, List.map_id'] using once
  have onceRest := onceAll.of_append_right
  have onceHeld := onceRest.of_append_right
  have a1 := answersAll_answerQueue (p := .append) r (show s.ci.append.Nodup from onceAll.of_append_left) wf
  have a2 := answersAll_answerQueue (p := .query) r (by rw [query]; exact onceRest.of_append_left) a1.canonical
  have a3 := answersAll_formatPacker (by rw [packer]; exact onceHeld.of_append_left) a2.canonical
  have a4 := answersAll_formatReader a3.canonical
  rw [query] at a2
  rw [packer] at a3
  rw [reader] at a4
  refine a1.trans (a2.trans (a3.trans a4 (by rwa [List.map_append])) ?_) once
  simpa only [List.map_append, List.map_map, Function.comp_def, List.map_id'] using onceRest

/-- A FORMAT card in hand: the blocks change as `formatted` says, and the cards of `formatAborts` are answered. -/
theorem serveFormat_taken {w : Work} (hw : w.argC ≤ 1) (once : ((formatAborts s).map Prod.fst).Nodup)
    (wf : Memory.wf s.xp.mem = true) :
    ∃ x, serveFormat c w s = formatted c w x s ∧ AnswersAll (formatAborts s) s (formatted c w x s) := by
  obtain ⟨x, e⟩ := pathsAborted_eq s
  have answers := answersAll_pathsAborted once wf
  have serves : serveFormat c w s = { formatUnload (pathsAborted s) with
      cp := { (formatUnload (pathsAborted s)).cp with served := some { card := c, work := w, job := .format } } } :=
    if_neg (Nat.not_lt.2 hw)
  refine ⟨x, ?_, ?_⟩
  · rw [serves, e]; rfl
  · rw [e] at answers
    exact answers.of_port rfl rfl

/-- The cards FORMAT aborts are each aborted once, and the FORMAT card is none of them. -/
theorem formatAborts_once (ok : CardsOk s) (hc : c ∈ s.ci.control) : (c :: (formatAborts s).map Prod.fst).Nodup := by
  have all : (queuedCards s ++ heldCards s).Nodup := by
    refine List.nodup_append.2 ⟨ok.queuedOnce, ok.heldOnce, fun x hx y hy e => ?_⟩
    subst e
    have := (ok.queued x).1 hx
    rw [(ok.held x).1 hy] at this
    exact absurd this (by decide)
  have packer : ((packerAborts s).map Prod.fst).Sublist
      ((s.rp.served.map RpServed.card).toList ++ s.rp.waitList.map WaitEntry.card) := by
    unfold packerAborts appendAnswers
    split
    · exact List.nil_sublist _
    · rw [List.map_append, List.map_map, List.map_map]
      cases s.rp.served <;> exact .refl _
  have reader : ((readerAborts s.ar).map Prod.fst).Sublist (s.ar.served.map ArServed.card).toList := by
    unfold readerAborts
    split
    · cases s.ar.served <;> exact .refl _
    · exact List.nil_sublist _
  have held : ((packerAborts s).map Prod.fst ++ (readerAborts s.ar).map Prod.fst).Sublist (heldCards s) := by
    refine (packer.append reader).trans ?_
    rw [heldCards, ← List.append_assoc (as := (s.rp.served.map RpServed.card).toList)]
    exact (List.Sublist.refl _).append (List.sublist_append_left _ _)
  have part : (s.ci.append ++ (s.ci.query ++ ([c] ++
      ((packerAborts s).map Prod.fst ++ (readerAborts s.ar).map Prod.fst)))).Sublist (queuedCards s ++ heldCards s) := by
    rw [queuedCards, List.append_assoc, List.append_assoc]
    exact (List.Sublist.refl _).append ((List.Sublist.refl _).append ((List.singleton_sublist.2 hc).append held))
  have place : (s.ci.append ++ (s.ci.query ++ ([c] ++
      ((packerAborts s).map Prod.fst ++ (readerAborts s.ar).map Prod.fst)))).Perm (c :: (formatAborts s).map Prod.fst) := by
    simp only [formatAborts, List.map_append, List.map_map, Function.comp_def, List.map_id']
    rw [← List.append_assoc, ← List.append_assoc (as := s.ci.append)]
    exact List.perm_middle
  exact place.nodup_iff.1 (all.sublist part)

/-- The cards FORMAT aborts: those in the two queues, the append path's unless a record row program is in flight, and the query
card where its reader has no operation outstanding. -/
theorem mem_formatAborts (s : State) (x : CardIx) : x ∈ (formatAborts s).map Prod.fst ↔
    x ∈ s.ci.append ∨ x ∈ s.ci.query ∨
      (recordRowInFlight s = false ∧ (servedByAppend s x ∨ onWaitList s x)) ∨
      (servedByQuery s x ∧ (s.ar.act = .idle ∨ ∃ seg next, s.ar.act = .awaitPin seg next)) := by
  have packer : x ∈ (packerAborts s).map Prod.fst ↔
      recordRowInFlight s = false ∧ (servedByAppend s x ∨ onWaitList s x) := by
    unfold packerAborts
    cases recordRowInFlight s <;> simp [appendAnswers, servedByAppend, onWaitList]
  have reader : x ∈ (readerAborts s.ar).map Prod.fst ↔ servedByQuery s x ∧ readerIdle s.ar = true := by
    unfold readerAborts
    cases readerIdle s.ar <;> simp [servedByQuery]
  rw [← readerIdle_iff, ← packer, ← reader]
  simp only [formatAborts, List.map_append, List.mem_append, List.map_map, Function.comp_def, List.map_id']

/-- Settles O43: a take whose cards are answered in turn. -/
theorem formatIsTaken : Obligations.FormatIsTaken := by
  unfold Obligations.FormatIsTaken
  intro c s he hc free hr ok w hk
  obtain ⟨rest, hq⟩ := List.head?_eq_some_iff.1 hc
  have kind : (cardWork s c).kind = some .format := hk
  have serves : exec .format s = done (serveFormat c w (takeHead .control c s)) :=
    congrArg done (pathTake_serves (Option.isNone_iff_eq_none.2 free) he hq (by rw [kind]; rfl) (by rw [kind]; rfl) hr
      (.inr rfl))
  refine ⟨fun hw => refusal_of_take he ok.canonical serves (if_pos hw), fun hw => ?_⟩
  obtain ⟨state, bit, takenBytes, takenBits, takenPort⟩ := movesCard_takeHead ok.canonical .control c
  have queued : c ∈ s.ci.control := by rw [show s.ci.control = c :: rest from hq]; exact .head _
  obtain ⟨fresh, once⟩ := List.nodup_cons.1 (formatAborts_once ok queued)
  have wf : Memory.wf (takeHead .control c s).xp.mem = true := Memory.wf_store ok.canonical _ _
  obtain ⟨x, e, answers⟩ := serveFormat_taken (c := c) (s := takeHead .control c s) hw once wf
  obtain ⟨-, shown, ⟨bytes, bits⟩, port, -⟩ := answers
  rw [e, done_eq, settle_of_ne (show EngineState.formatting ≠ .stopping by decide)] at serves
  obtain ⟨bufA, bufB, openSeg, rowMap, digests, linger, relocation, durable, readOnly, fullSeen⟩ := packerFormatted_frame s
  have answered_iff := mem_formatAborts s
  refine ⟨_, serves, rfl, rfl, ?card, rfl, rfl, rfl, ?queues, rfl, rfl, bufA, bufB, openSeg, rowMap, digests, linger,
    relocation, durable, readOnly, fullSeen, packerFormatted_marks s, ?append, ?reader, ?readerBusy, ?others, ?port, ?rest⟩
  case card =>
    refine (bytes _ fun d hd => ?_).trans state
    have := cardBase_ne fun e : c = d => fresh (e ▸ hd)
    unfold answerByte
    omega
  case queues =>
    intro y hy
    refine shown (y, .plain .abortedFormat) (show _ ∈ formatAborts s from ?_)
    rcases hy with hy | hy <;> simp [formatAborts, hy]
  case append =>
    split
    next busy => exact packerFormatted_of_busy busy
    next free =>
      obtain ⟨served, waitList⟩ := packerFormatted_of_free free
      have aborts (p : CardIx × Answer) (hp : p ∈ appendAnswers .abortedFormat s.rp) :=
        shown p (show p ∈ formatAborts s by simp [formatAborts, packerAborts, free, hp])
      refine ⟨served, waitList, fun v hv => aborts (v.card, v.answer .abortedFormat) (by simp [appendAnswers, hv]),
        fun y hy => aborts (y.card, _) ?_⟩
      exact List.mem_append_right _ (List.mem_map.2 ⟨y, hy, rfl⟩)
  case reader =>
    intro v hv idle
    have idle := (readerIdle_iff s.ar).2 idle
    refine ⟨if_pos ⟨idle, by rw [show (takeHead .control c s).ar = s.ar by simp, hv]; nofun⟩,
      shown (v.card, s.ar.answer .abortedFormat) ?_⟩
    show _ ∈ formatAborts s
    simp [formatAborts, readerAborts, idle, hv]
  case readerBusy =>
    intro notIdle notPin
    refine if_neg fun k => ?_
    rcases (readerIdle_iff s.ar).1 k.1 with h | ⟨seg, next, h⟩
    · exact notIdle h
    · exact notPin seg next h
  case others =>
    refine ⟨fun a ha hn => (bytes a fun y hy => hn y ((answered_iff y).1 hy)).trans (takenBytes a ha), fun y hy => ?_⟩
    refine (bits y fun k => hy ((answered_iff y).1 k)).trans ?_
    by_cases hyc : y = c
    · rw [hyc, bit, ok.answered, (ok.queued c).1 (by simp [queuedCards, queued])]
      rfl
    · exact takenBits y hyc
  case port => rw [← takenPort, ← port]
  case rest => rfl

end Sys2Proof.Machine
end

section
/-!
SUPPORT. The record row programs in the die queues: which operations add or remove one (R48, R64, R75).
-/
namespace Sys2Proof.Machine

-- One proof at a time, as in the tests: proofs checked side by side need more threads than the limits allow.
set_option Elab.async false

variable {s t : State}

/-! ### Operations in the die queues -/

theorem Fs.has_iff {f : Fs} {p : FlashOp → Bool} : f.has p = true ↔ ∃ c, ∃ op ∈ (f.die c).queue, p op = true := by
  simp only [Fs.has, List.any_eq_true]
  constructor
  · rintro ⟨c, -, op, h⟩
    exact ⟨c, op, h⟩
  · rintro ⟨c, op, h⟩
    exact ⟨c, by fin_cases c <;> simp [chipEnables], op, h⟩

theorem Fs.has_push (f : Fs) (c : Fin 4) (op : FlashOp) (p : FlashOp → Bool) :
    (f.push c op).has p = (f.has p || p op) := by
  rw [Bool.eq_iff_iff, Bool.or_eq_true, Fs.has_iff, Fs.has_iff]
  constructor
  · rintro ⟨e, x, hx, h⟩
    rw [Fs.push_queue] at hx
    split at hx
    next he =>
      rcases List.mem_append.1 hx with hx | hx
      · exact .inl ⟨c, x, hx, h⟩
      · exact .inr (List.mem_singleton.1 hx ▸ h)
    · exact .inl ⟨e, x, hx, h⟩
  · rintro (⟨e, x, hx, h⟩ | h)
    · refine ⟨e, x, ?_, h⟩
      rw [Fs.push_queue]
      split
      next he => exact List.mem_append_left _ (he ▸ hx)
      · exact hx
    · exact ⟨c, op, by rw [Fs.push_queue, if_pos rfl]; simp, h⟩

/-- An operation that is not of the kind leaves its queue. -/
theorem Fs.has_complete {f : Fs} {c : Fin 4} {op : FlashOp} {p : FlashOp → Bool} (head : (f.die c).queue.head? = some op)
    (h : p op = false) : (f.complete c).has p = f.has p := by
  obtain ⟨rest, hq⟩ := List.head?_eq_some_iff.1 head
  rw [Bool.eq_iff_iff, Fs.has_iff, Fs.has_iff]
  constructor
  · rintro ⟨e, x, hx, hp⟩
    rw [Fs.complete_queue] at hx
    split at hx
    next he => exact ⟨c, x, List.mem_of_mem_tail hx, hp⟩
    · exact ⟨e, x, hx, hp⟩
  · rintro ⟨e, x, hx, hp⟩
    refine ⟨e, x, ?_, hp⟩
    rw [Fs.complete_queue]
    split
    next he =>
      subst he
      rw [hq] at hx ⊢
      rcases List.mem_cons.1 hx with rfl | hx
      · rw [h] at hp; cases hp
      · exact hx
    · exact hx

theorem Fs.not_has_of_quiet {f : Fs} (h : f.quiet = true) (p : FlashOp → Bool) : f.has p = false := by
  rw [Bool.eq_false_iff, ne_eq, Fs.has_iff]
  rintro ⟨c, op, hop, -⟩
  simp only [Fs.quiet, Bool.and_eq_true, List.all_eq_true] at h
  have empty := h.2 c (by fin_cases c <;> simp [chipEnables])
  rw [List.isEmpty_iff.1 empty] at hop
  cases hop

/-- The operation that ends is the head of its die's queue. -/
theorem Fs.head_of_ending {f : Fs} {c : Fin 4} {op : FlashOp} (h : f.ending = some (c, op)) :
    (f.die c).queue.head? = some op := by
  unfold Fs.ending at h
  split at h
  · cases h
  next d hd =>
    split at h
    · cases h
    next o rest hq =>
      split at h
      · cases h; rw [hq]; rfl
      · cases h

/-- Only the packer hands record rows. -/
theorem FlashOp.isRecordRow_eq_false {op : FlashOp} (h : op.source ≠ .packer) : op.isRecordRow = false := by
  unfold FlashOp.isRecordRow
  split <;> simp [h]

/-- A digest row is no record row. -/
theorem FlashOp.isRecordRow_of_isDigestRow {op : FlashOp} (h : op.isDigestRow = true) : op.isRecordRow = false := by
  unfold FlashOp.isDigestRow at h
  unfold FlashOp.isRecordRow
  split at h <;> simp_all

/-! ### What keeps the record row programs in flight -/

theorem recordRowInFlight_of_fs (h : t.fs = s.fs) : recordRowInFlight t = recordRowInFlight s := by
  rw [recordRowInFlight, h, recordRowInFlight]

theorem recordRowInFlight_handOp_packer (h : s.ec.engine ≠ .faulted) (act : FlashAct) :
    recordRowInFlight (handOp .packer act s) =
      (recordRowInFlight s || FlashOp.isRecordRow { source := .packer, act := act }) := by
  rw [handOp_of_ne h]
  exact Fs.has_push _ _ _ _

/-- An operation of any other source adds no record row. -/
@[simp] theorem recordRows_handOp {src : Source} (h : src ≠ .packer) (act : FlashAct) (s : State) :
    (handOp src act s).fs.has FlashOp.isRecordRow = s.fs.has FlashOp.isRecordRow := by
  by_cases hf : s.ec.engine = .faulted
  · rw [handOp_of_faulted hf]
  · rw [handOp_of_ne hf]
    refine (Fs.has_push _ _ _ _).trans ?_
    rw [FlashOp.isRecordRow_eq_false (op := { source := src, act := act }) h, Bool.or_false]

/-- A digest row is none. -/
@[simp] theorem recordRows_handDigest (j : DigestJob) (s : State) :
    (handDigest j s).fs.has FlashOp.isRecordRow = s.fs.has FlashOp.isRecordRow := by
  unfold handDigest
  by_cases hf : s.ec.engine = .faulted
  · rw [handOp_of_faulted hf]
  · rw [handOp_of_ne hf]
    exact (Fs.has_push _ _ _ _).trans (Bool.or_false _)

theorem recordRows_completeOp {c : Fin 4} {op : FlashOp} (head : (s.fs.die c).queue.head? = some op)
    (h : op.isRecordRow = false) : (completeOp c s).fs.has FlashOp.isRecordRow = s.fs.has FlashOp.isRecordRow :=
  Fs.has_complete head h

@[simp] theorem recordRows_countCorrected (r : ReadRow) (s : State) :
    (countCorrected r s).fs.has FlashOp.isRecordRow = s.fs.has FlashOp.isRecordRow := rfl

@[simp] theorem recordRows_phaseEnd (f : Fs) : f.phaseEnd.has FlashOp.isRecordRow = f.has FlashOp.isRecordRow := by
  have grant (g : Fs) : g.grant.has FlashOp.isRecordRow = g.has FlashOp.isRecordRow := by
    simp only [Fs.has, Fs.grant_die]
  unfold Fs.phaseEnd
  split
  · exact grant _
  · split
    · rfl
    next c _ =>
      split
      · rfl
      · split
        · rfl
        · split
          · rw [grant]; fin_cases c <;> rfl
          · rfl

@[simp] theorem recordRows_ready (f : Fs) (c : Fin 4) : (f.ready c).has FlashOp.isRecordRow = f.has FlashOp.isRecordRow := by
  unfold Fs.ready
  split
  · rfl
  · split
    · have grant (g : Fs) : g.grant.has FlashOp.isRecordRow = g.has FlashOp.isRecordRow := by
        simp only [Fs.has, Fs.grant_die]
      rw [grant]; fin_cases c <;> rfl
    · rfl

/-! ### The RU -/

@[simp] theorem recordRows_ruErase (seg : Nat) (s : State) :
    (ruErase seg s).fs.has FlashOp.isRecordRow = s.fs.has FlashOp.isRecordRow := by simp [ruErase]

@[simp] theorem recordRows_ruJudge (s : State) :
    (ruJudge s).fs.has FlashOp.isRecordRow = s.fs.has FlashOp.isRecordRow := by
  unfold ruJudge
  (repeat' split) <;> simp

/-! ### The AR -/

@[simp] theorem recordRows_arReadRow (seg row : Nat) (s : State) :
    (arReadRow seg row s).fs.has FlashOp.isRecordRow = s.fs.has FlashOp.isRecordRow := by simp [arReadRow]

@[simp] theorem recordRows_arReadDigest (seg : Nat) (next : Bool) (s : State) :
    (arReadDigest seg next s).fs.has FlashOp.isRecordRow = s.fs.has FlashOp.isRecordRow := by simp [arReadDigest]

@[simp] theorem recordRows_arScan (seg : Nat) (p : ScanPos) (s : State) :
    (arScan seg p s).fs.has FlashOp.isRecordRow = s.fs.has FlashOp.isRecordRow := by simp [arScan]

@[simp] theorem recordRows_arBegin (w : Work) (seg row firstSeq : Nat) (s : State) :
    (arBegin w seg row firstSeq s).fs.has FlashOp.isRecordRow = s.fs.has FlashOp.isRecordRow := by
  unfold arBegin
  (repeat' split) <;> simp

@[simp] theorem recordRows_arBeginKnown (w : Work) (seg : Nat) (rows : List RowMapEntry) (s : State) :
    (arBeginKnown w seg rows s).fs.has FlashOp.isRecordRow = s.fs.has FlashOp.isRecordRow := by
  unfold arBeginKnown
  split <;> simp

@[simp] theorem recordRows_arLocate (w : Work) (seg : Nat) (s : State) :
    (arLocate w seg s).fs.has FlashOp.isRecordRow = s.fs.has FlashOp.isRecordRow := by
  unfold arLocate
  (repeat' split) <;> simp

@[simp] theorem recordRows_arEnter (seg : Nat) (s : State) :
    (arEnter seg s).fs.has FlashOp.isRecordRow = s.fs.has FlashOp.isRecordRow := by
  unfold arEnter
  split <;> simp

@[simp] theorem recordRows_arChoose (w : Work) (seg row : Nat) (s : State) :
    (arChoose w seg row s).fs.has FlashOp.isRecordRow = s.fs.has FlashOp.isRecordRow := by
  unfold arChoose
  dsimp only
  (repeat' split) <;> simp

@[simp] theorem recordRows_arContinue (w : Work) (seg row : Nat) (st : Option ReadStop) (s : State) :
    (arContinue w seg row st s).fs.has FlashOp.isRecordRow = s.fs.has FlashOp.isRecordRow := by
  unfold arContinue
  split <;> simp

@[simp] theorem recordRows_arAcceptRow (w : Work) (seg row : Nat) (r : ReadRow) (s : State) :
    (arAcceptRow w seg row r s).fs.has FlashOp.isRecordRow = s.fs.has FlashOp.isRecordRow := by
  unfold arAcceptRow
  dsimp only
  (repeat' split) <;> simp

@[simp] theorem recordRows_arDamagedRow (w : Work) (seg row : Nat) (s : State) :
    (arDamagedRow w seg row s).fs.has FlashOp.isRecordRow = s.fs.has FlashOp.isRecordRow := by
  unfold arDamagedRow
  dsimp only
  (repeat' split) <;> simp

@[simp] theorem recordRows_arRowRead (w : Work) (seg row : Nat) (r : ReadRow) (s : State) :
    (arRowRead w seg row r s).fs.has FlashOp.isRecordRow = s.fs.has FlashOp.isRecordRow := by
  unfold arRowRead
  dsimp only
  split <;> simp

@[simp] theorem recordRows_arDigestRead (w : Work) (seg : Nat) (next : Bool) (r : ReadRow) (s : State) :
    (arDigestRead w seg next r s).fs.has FlashOp.isRecordRow = s.fs.has FlashOp.isRecordRow := by
  unfold arDigestRead
  dsimp only
  (repeat' split) <;> simp

@[simp] theorem recordRows_scanStopAt (w : Work) (seg : Nat) (x : Trailer) (p : ScanPos) (s : State) :
    (scanStopAt w seg x p s).fs.has FlashOp.isRecordRow = s.fs.has FlashOp.isRecordRow := by
  unfold scanStopAt
  (repeat' split) <;> simp

@[simp] theorem recordRows_arTrailerRead (w : Work) (seg : Nat) (p : ScanPos) (r : ReadSpare) (s : State) :
    (arTrailerRead w seg p r s).fs.has FlashOp.isRecordRow = s.fs.has FlashOp.isRecordRow := by
  unfold arTrailerRead scanStopBad
  dsimp only
  (repeat' split) <;> simp

@[simp] theorem recordRows_arPinGranted (w : Work) (seg : Nat) (next : Bool) (s : State) :
    (arPinGranted w seg next s).fs.has FlashOp.isRecordRow = s.fs.has FlashOp.isRecordRow := by
  unfold arPinGranted
  dsimp only
  split <;> simp

@[simp] theorem recordRows_arPinRefused (w : Work) (next : Bool) (s : State) :
    (arPinRefused w next s).fs.has FlashOp.isRecordRow = s.fs.has FlashOp.isRecordRow := by
  unfold arPinRefused
  (repeat' split) <;> simp

@[simp] theorem recordRows_answerPin (granted : Bool) (seg : Nat) (s : State) :
    (answerPin granted seg s).fs.has FlashOp.isRecordRow = s.fs.has FlashOp.isRecordRow := by
  unfold answerPin
  (repeat' split) <;> simp

@[simp] theorem recordRows_takePinRequest (seg : Nat) (s : State) :
    (takePinRequest seg s).fs.has FlashOp.isRecordRow = s.fs.has FlashOp.isRecordRow := by
  unfold takePinRequest
  (repeat' split) <;> simp

@[simp] theorem recordRows_answerHeld (granted : Bool) (s : State) :
    (answerHeld granted s).fs.has FlashOp.isRecordRow = s.fs.has FlashOp.isRecordRow := by
  unfold answerHeld
  dsimp only
  (repeat' split) <;> simp

end Sys2Proof.Machine
end

section
/-!
SUPPORT. The laws of the row buffers, of the one IN_FLIGHT and of the marks by buffer name, and two relations between states that
keep them: `Calm`, where nothing they speak of changes for the worse, and `Moves`, which carries them along the append path.
-/
namespace Sys2Proof.Machine

-- One proof at a time, as in the tests: proofs checked side by side need more threads than the limits allow.
set_option Elab.async false

variable {s t u : State} {n : BufName}

/-! ### The laws by buffer name -/

theorem BufName.forall_iff {P : BufName → Prop} : (∀ k, P k) ↔ P .a ∧ P .b :=
  ⟨fun h => ⟨h .a, h .b⟩, fun h k => by cases k; exacts [h.1, h.2]⟩

theorem setBuf_buf_eq (n k : BufName) (b : RowBuffer) (s : State) :
    (setBuf n b s).rp.buf k = if k = n then b else s.rp.buf k := by
  cases n <;> cases k <;> rfl

theorem Rp.find_isSome_iff {p : Rp} {st : BufState} : p.find st ≠ none ↔ ∃ k, (p.buf k).state = st := by
  rw [ne_eq, Rp.find_eq_none]
  simp

/-- The laws of the buffers (R41, R53). -/
theorem buffersOk_iff (s : State) : BuffersOk s ↔ (∀ k, (s.rp.buf k).ok) ∧
    (∀ k, (s.rp.buf k).state = .filling → (s.rp.buf k.other).state ≠ .filling) ∧
    (s.rp.lingerTimer.isSome = true → ∃ k, (s.rp.buf k).state = .filling) := by
  rw [← Rp.find_isSome_iff]
  constructor
  · rintro ⟨a, b, single, linger⟩
    refine ⟨BufName.forall_iff.2 ⟨a, b⟩, BufName.forall_iff.2 ⟨fun x y => single ⟨x, y⟩, fun x y => single ⟨y, x⟩⟩, linger⟩
  · rintro ⟨ok, single, linger⟩
    exact ⟨ok .a, ok .b, fun h => single .a h.1 h.2, linger⟩

theorem BuffersOk.of_rp (ok : BuffersOk s) (h : t.rp = s.rp) : BuffersOk t := by
  rw [buffersOk_iff] at ok ⊢
  rwa [h]

/-- The laws of the buffer in flight that do not speak of the die queues (R41, R43). -/
structure RowsOk (s : State) : Prop where
  single : ∀ k, (s.rp.buf k).state = .inFlight → (s.rp.buf k.other).state ≠ .inFlight
  rows : ∀ k d, (s.rp.buf k).dest = some d → d.row ≤ 62

/-- The laws of the buffer in flight, but for the states without a catalog (R48). -/
structure FlightOk (s : State) : Prop where
  rows : RowsOk s
  handed : ∀ k, (s.rp.buf k).state = .inFlight → recordRowInFlight s = true

theorem inFlightOk_iff (s : State) : InFlightOk s ↔
    FlightOk s ∧ (s.ec.engine.running = false → s.rp.bufA = .cleared ∧ s.rp.bufB = .cleared) := by
  constructor
  · rintro ⟨single, handed, rows, idle⟩
    exact ⟨⟨⟨BufName.forall_iff.2 ⟨fun x y => single ⟨x, y⟩, fun x y => single ⟨y, x⟩⟩, rows⟩,
      BufName.forall_iff.2 ⟨fun x => handed (.inl x), fun x => handed (.inr x)⟩⟩, idle⟩
  · rintro ⟨⟨⟨single, rows⟩, handed⟩, idle⟩
    exact ⟨fun h => single .a h.1 h.2, fun h => h.elim (handed .a) (handed .b), rows, idle⟩

/-! ### Nothing of the laws changes for the worse -/

/-- The fields of the RP that the laws of buffers and marks speak of. -/
def Rp.core (p : Rp) : RowBuffer × RowBuffer × Option Nat × Nat × Nat × Option Relocation :=
  (p.bufA, p.bufB, p.lingerTimer, p.durable, p.nextSeq, p.relocation)

/-- From `s` to `t` the buffers and marks are kept, the linger timer may stop, the relocation record may clear, members may leave
the order list, first sequences do not rise, and no record row leaves the die queues. -/
structure Calm (s t : State) : Prop where
  bufA : t.rp.bufA = s.rp.bufA
  bufB : t.rp.bufB = s.rp.bufB
  linger : t.rp.lingerTimer.isSome = true → s.rp.lingerTimer.isSome = true
  durable : t.rp.durable = s.rp.durable
  nextSeq : t.rp.nextSeq = s.rp.nextSeq
  relocation : ∀ r, t.rp.relocation = some r → s.rp.relocation = some r
  oldest : t.cu.oldest = s.cu.oldest
  order : ∀ m ∈ t.cu.orderList, m ∈ s.cu.orderList
  catalog : CatalogOk s → CatalogOk t
  entries : CatalogOk s → ∀ m, (t.cu.entry m).firstSeq ≤ (s.cu.entry m).firstSeq
  inFlight : recordRowInFlight s = true → recordRowInFlight t = true

theorem Calm.of_core (core : t.rp.core = s.rp.core) (cu : t.cu = s.cu)
    (fs : t.fs.has FlashOp.isRecordRow = s.fs.has FlashOp.isRecordRow) : Calm s t := by
  simp only [Rp.core, Prod.mk.injEq] at core
  obtain ⟨bufA, bufB, linger, durable, nextSeq, relocation⟩ := core
  exact ⟨bufA, bufB, by rw [linger]; exact id, durable, nextSeq, by rw [relocation]; exact fun _ => id, by rw [cu],
    by rw [cu]; exact fun _ => id, by rw [CatalogOk, CatalogOk, cu]; exact id, by rw [cu]; exact fun _ _ => Nat.le_refl _,
    by rw [recordRowInFlight, recordRowInFlight, fs]; exact id⟩

/-- Nothing the laws speak of changed. -/
theorem Calm.of_eq (rp : t.rp = s.rp := by simp) (cu : t.cu = s.cu := by simp)
    (fs : t.fs.has FlashOp.isRecordRow = s.fs.has FlashOp.isRecordRow := by simp) : Calm s t :=
  .of_core (by rw [rp]) cu fs

theorem Calm.refl (s : State) : Calm s s := .of_eq rfl rfl rfl

theorem Calm.trans (h : Calm s t) (k : Calm t u) : Calm s u where
  bufA := k.bufA.trans h.bufA
  bufB := k.bufB.trans h.bufB
  linger x := h.linger (k.linger x)
  durable := k.durable.trans h.durable
  nextSeq := k.nextSeq.trans h.nextSeq
  relocation r x := h.relocation r (k.relocation r x)
  oldest := k.oldest.trans h.oldest
  order m x := h.order m (k.order m x)
  catalog x := k.catalog (h.catalog x)
  entries x m := (k.entries (h.catalog x) m).trans (h.entries x m)
  inFlight x := k.inFlight (h.inFlight x)

theorem Calm.buf (h : Calm s t) (k : BufName) : t.rp.buf k = s.rp.buf k := by
  cases k
  exacts [h.bufA, h.bufB]

theorem Calm.orderList_nil (h : Calm s t) (none_ : s.cu.orderList = []) : t.cu.orderList = [] :=
  List.eq_nil_iff_forall_not_mem.2 fun m hm => by simpa [none_] using h.order m hm

theorem Calm.staged (h : Calm s t) : t.rp.staged = s.rp.staged := by rw [Rp.staged, h.bufA, h.bufB, Rp.staged]

/-- The entry of a segment after a change of one entry (R83). -/
theorem entry_setEntry (ok : CatalogOk s) (seg x : Nat) (e : Entry) :
    (setEntry seg e s).cu.entry x = if x = seg then e else s.cu.entry x :=
  Sparse.get_set ok seg x e

theorem catalogOk_setEntry (ok : CatalogOk s) (seg : Nat) (e : Entry) : CatalogOk (setEntry seg e s) :=
  Sparse.wf_set ok seg e

/-- A change of one entry that does not raise its first sequence. -/
theorem Calm.setEntry {seg : Nat} {e : Entry} (h : e.firstSeq ≤ (s.cu.entry seg).firstSeq) : Calm s (setEntry seg e s) where
  bufA := rfl
  bufB := rfl
  linger := id
  durable := rfl
  nextSeq := rfl
  relocation _ := id
  oldest := rfl
  order _ := id
  catalog ok := catalogOk_setEntry ok seg e
  entries ok m := by
    rw [entry_setEntry ok]
    split
    next hm => rw [hm]; exact h
    · exact Nat.le_refl _
  inFlight := id

/-- Members leave the order list, and nothing else the laws speak of changes. -/
theorem Calm.of_order (rp : t.rp = s.rp) (oldest : t.cu.oldest = s.cu.oldest) (order : ∀ m ∈ t.cu.orderList, m ∈ s.cu.orderList)
    (catalog : t.cu.catalog = s.cu.catalog) (fs : t.fs = s.fs) : Calm s t where
  bufA := by rw [rp]
  bufB := by rw [rp]
  linger := by rw [rp]; exact id
  durable := by rw [rp]
  nextSeq := by rw [rp]
  relocation := by rw [rp]; exact fun _ => id
  oldest := oldest
  order := order
  catalog := by rw [CatalogOk, CatalogOk, catalog]; exact id
  entries _ m := by rw [Cu.entry, Cu.entry, catalog]
  inFlight := by rw [recordRowInFlight, recordRowInFlight, fs]; exact id

/-! ### The laws carried along -/

/-- From `s` to `t` the laws of buffers, of the catalog's form and of the marks are carried along, and the laws `F` of the buffer
in flight become `G`. -/
structure Carries (F G : State → Prop) (s t : State) : Prop where
  buffers : BuffersOk s → BuffersOk t
  flight : BuffersOk s → F s → G t
  catalog : BuffersOk s → CatalogOk s → CatalogOk t
  marks : BuffersOk s → F s → CatalogOk s → RunningMarks s → RunningMarks t

/-- All the laws are carried along. -/
abbrev Moves := Carries FlightOk FlightOk

/-- The laws are carried along, while the program of the buffer IN_FLIGHT may have left its queue. -/
abbrev Keeps := Carries RowsOk RowsOk

/-- From a state where the program of the buffer IN_FLIGHT may have left its queue, all the laws are reached again. -/
abbrev Lands := Carries RowsOk FlightOk

section
variable {F G H : State → Prop}

theorem Carries.refl (s : State) : Carries F F s s := ⟨id, fun _ => id, fun _ => id, fun _ _ _ => id⟩

theorem Carries.trans (h : Carries F G s t) (k : Carries G H t u) : Carries F H s u where
  buffers b := k.buffers (h.buffers b)
  flight b f := k.flight (h.buffers b) (h.flight b f)
  catalog b c := k.catalog (h.buffers b) (h.catalog b c)
  marks b f c m := k.marks (h.buffers b) (h.flight b f) (h.catalog b c) (h.marks b f c m)

/-- The laws of the buffers may be used. -/
theorem Carries.of_buffersOk (h : BuffersOk s → Carries F G s t) : Carries F G s t :=
  ⟨fun b => (h b).buffers b, fun b => (h b).flight b, fun b => (h b).catalog b, fun b => (h b).marks b⟩

end

theorem Calm.buffersOk (h : Calm s t) (b : BuffersOk s) : BuffersOk t := by
  rw [buffersOk_iff] at b ⊢
  obtain ⟨ok, single, linger⟩ := b
  simp only [h.buf]
  exact ⟨ok, single, fun x => linger (h.linger x)⟩

theorem Calm.rowsOk (h : Calm s t) (f : RowsOk s) : RowsOk t := by
  obtain ⟨single, rows⟩ := f
  exact ⟨by simpa only [h.buf] using single, by simpa only [h.buf] using rows⟩

theorem Calm.flightOk (h : Calm s t) (f : FlightOk s) : FlightOk t :=
  ⟨h.rowsOk f.rows, fun k x => h.inFlight (f.handed k (by rwa [h.buf] at x))⟩

theorem Calm.runningMarks (h : Calm s t) (c : CatalogOk s) (m : RunningMarks s) : RunningMarks t where
  oldest := by rw [h.oldest, h.durable]; exact m.oldest
  durable := by rw [h.durable, h.nextSeq]; exact m.durable
  next := by rw [h.nextSeq]; exact m.next
  staged := by rw [h.staged, h.durable, h.nextSeq]; exact m.staged
  sent k x := by rw [h.buf] at x ⊢; rw [h.durable]; exact m.sent k x
  filling k x := by rw [h.buf] at x ⊢; rw [h.nextSeq]; exact m.filling k x
  members x hx := by rw [h.durable]; exact (h.entries c x).trans (m.members x (h.order x hx))
  replacing r x := by rw [h.durable]; exact m.replacing r (h.relocation r x)

theorem RunningMarks.of_rp (m : RunningMarks s) (rp : t.rp = s.rp) (cu : t.cu = s.cu) : RunningMarks t := by
  obtain ⟨oldest, durable, next, staged, sent, filling, members, replacing⟩ := m
  exact ⟨by rwa [rp, cu], by rwa [rp], by rwa [rp], by rwa [rp], by rwa [rp], by rwa [rp], by rwa [rp, cu], by rwa [rp]⟩

theorem Calm.moves (h : Calm s t) : Moves s t :=
  ⟨h.buffersOk, fun _ => h.flightOk, fun _ => h.catalog, fun _ _ => h.runningMarks⟩

theorem Calm.keeps (h : Calm s t) : Keeps s t :=
  ⟨h.buffersOk, fun _ => h.rowsOk, fun _ => h.catalog, fun _ _ => h.runningMarks⟩

/-! ### Calm operations -/

theorem calm_handOp {src : Source} (h : src ≠ .packer) (act : FlashAct) (s : State) : Calm s (handOp src act s) :=
  .of_eq (fs := recordRows_handOp h act s)

theorem calm_handDigest (j : DigestJob) (s : State) : Calm s (handDigest j s) := .of_eq

theorem calm_answerCard (c : CardIx) (r : Answer) (s : State) : Calm s (answerCard c r s) := .of_eq

theorem calm_setEvent (e : Event) (s : State) : Calm s (setEvent e s) := .of_eq rfl rfl rfl

theorem calm_setServed (x : Option RpServed) (s : State) : Calm s (setServed x s) := .of_core rfl rfl rfl

theorem calm_answerOrWait (v : RpServed) (out : CardOutcome) (s : State) : Calm s (answerOrWait v out s) := by
  obtain ⟨x, ws, e⟩ := answerOrWait_eq v out s
  rw [e]
  exact .of_core rfl rfl rfl

theorem calm_serveWait (v : RpServed) (w : RpWait) (s : State) : Calm s (serveWait v w s) := by
  obtain ⟨x, sv, e⟩ := serveWait_eq v w s
  rw [e]
  exact .of_core rfl rfl rfl

theorem calm_answerEntries (ws : List WaitEntry) (s : State) : Calm s (answerEntries ws s) := .of_eq

theorem calm_answerReached (s : State) : Calm s (answerReached s) :=
  Calm.trans (t := { s with rp := { s.rp with waitList := s.rp.waitList.dropWhile fun w => decide (w.target ≤ s.rp.durable) } })
    (.of_core rfl rfl rfl) (calm_answerEntries _ _)

theorem calm_answerServed (o : CardOutcome) (s : State) : Calm s (answerServed o s) := by
  unfold answerServed
  split
  · exact .refl s
  next v _ => exact (calm_answerCard v.card (v.answer o) s).trans (calm_setServed none _)

/-- The append path's cards are answered (R57, R170, R181). -/
theorem calm_answerAppend (o : CardOutcome) (s : State) : Calm s (answerWaitList o (answerServed o s)) := by
  obtain ⟨x, e⟩ := answerAppend_eq o s
  rw [e]
  exact .of_core rfl rfl rfl

theorem calm_awaitDurable (c : CardIx) (w : Work) (target : Nat) (r : Answer) (s : State) :
    Calm s (awaitDurable c w target r s) := by
  unfold awaitDurable
  split
  · exact calm_answerCard _ _ _
  · exact .of_core rfl rfl rfl

theorem calm_ruJudge (s : State) : Calm s (ruJudge s) := .of_eq

theorem calm_joinRetired (seg : Nat) (cause : RetireCause) (s : State) : Calm s (joinRetired seg cause s) :=
  (Calm.setEntry (e := .retiredWith cause) (Nat.zero_le _)).trans (.of_order rfl rfl (fun _ => id) rfl rfl)

theorem calm_claimRowPass (seg firstKey lastSeq lastKey : Nat) (s : State) :
    Calm s (claimRowPass seg firstKey lastSeq lastKey s) := .setEntry (Nat.le_refl _)

theorem calm_claimCut (seg k : Nat) (s : State) : Calm s (claimCut seg k s) := .setEntry (Nat.le_refl _)

theorem calm_claimDigest (seg : Nat) (passed : Bool) (s : State) : Calm s (claimDigest seg passed s) := by
  unfold claimDigest
  dsimp only
  split
  · split <;> exact .setEntry (Nat.le_refl _)
  · exact .refl s

theorem calm_claimFreed (seg : Nat) (s : State) : Calm s (claimFreed seg s) :=
  (Calm.setEntry (e := .freed) (Nat.zero_le _)).trans (.of_order rfl rfl (fun _ => id) rfl rfl)

/-- A failed replacement leaves the order list (R105). -/
theorem calm_claimRetireLast (seg : Nat) (s : State) : Calm s (claimRetireLast seg s) :=
  (calm_joinRetired seg .program s).trans (.of_order rfl rfl (fun _ h => (List.mem_filter.1 h).1) rfl rfl)

/-- An empty last member leaves the order list (R89). -/
theorem calm_supersede (s : State) : Calm s (supersede s) := by
  unfold supersede
  split
  · exact .refl s
  next m _ =>
    dsimp only
    split
    · exact (Calm.setEntry (seg := m) (e := { s.cu.entry m with state := .erasing }) (Nat.le_refl _)).trans
        (.of_order rfl rfl (fun _ h => List.mem_of_mem_dropLast h) rfl rfl)
    · exact .refl s

/-- R51: the close of a segment and the hand-over of its digest. -/
theorem calm_closeSegment (seg : Nat) (s : State) : Calm s (closeSegment seg s) := by
  have close : Calm s (claimClose seg s) := .setEntry (Nat.le_refl _)
  unfold closeSegment
  dsimp only
  split
  · exact close.trans (.of_core rfl rfl rfl)
  · refine close.trans (Calm.trans ?_ (calm_handDigest _ _))
    exact .of_core rfl rfl rfl

theorem calm_nextDigest (s : State) : Calm s (nextDigest s) := by
  unfold nextDigest
  split
  · exact .refl s
  next j js _ =>
    exact Calm.trans (t := { s with rp := { s.rp with digests := js } }) (.of_core rfl rfl rfl) (calm_handDigest j _)

theorem calm_closePacker (s : State) : Calm s (closePacker s) where
  bufA := rfl
  bufB := rfl
  linger := nofun
  durable := rfl
  nextSeq := rfl
  relocation := nofun
  oldest := rfl
  order _ := id
  catalog := id
  entries _ _ := Nat.le_refl _
  inFlight := id

/-- The completion of an operation that is no record row. -/
theorem calm_completeOp {c : Fin 4} {op : FlashOp} (h : s.fs.ending = some (c, op)) (hop : op.isRecordRow = false) :
    Calm s (completeOp c s) :=
  .of_eq (fs := recordRows_completeOp (Fs.head_of_ending h) hop)

end Sys2Proof.Machine
end

section
/-!
SUPPORT. The append path carries the laws of buffers and marks along: which buffer holds the last staged records, what a
hand-over, a closing and a staged record do to them (R36, R41 to R48).
-/
namespace Sys2Proof.Machine

-- One proof at a time, as in the tests: proofs checked side by side need more threads than the limits allow.
set_option Elab.async false

variable {s t u : State} {n : BufName} {p : Rp} {b : RowBuffer} {v : RpServed} {h : HostRecord} {o : OpenSeg}

/-! ### The sequences of a buffer -/

/-- The sequences of a buffer's records. -/
def RowBuffer.seqs (b : RowBuffer) : List Nat := b.records.map StagedRec.seq

theorem RowBuffer.seqs_eq_nil : b.seqs = [] ↔ b.records = [] := List.map_eq_nil_iff

/-- First and last sequence of a buffer that holds a range. -/
theorem RowBuffer.bounds_of_range {q k : Nat} (hs : b.seqs = List.range' q k) (hb : b.records ≠ []) :
    b.firstSeq = q ∧ b.lastSeq + 1 = q + k ∧ 0 < k := by
  have hk : k ≠ 0 := fun e => hb (RowBuffer.seqs_eq_nil.1 (by rw [hs, e]; rfl))
  have first : b.firstSeq = b.seqs.head?.getD 0 := by rw [RowBuffer.firstSeq, RowBuffer.seqs, List.head?_map]
  have last : b.lastSeq = b.seqs.getLast?.getD 0 := by rw [RowBuffer.lastSeq, RowBuffer.seqs, List.getLast?_map]
  rw [first, last, hs, List.head?_range', List.getLast?_range', if_neg hk, if_neg hk, Option.getD_some, Option.getD_some]
  omega

/-- Buffer `n` holds the last of the staged records, the other one those before: together the sequences between the marks. -/
def Rp.LastBuffer (n : BufName) (p : Rp) : Prop :=
  ∃ i, p.durable + 1 + i ≤ p.nextSeq ∧ (p.buf n.other).seqs = List.range' (p.durable + 1) i ∧
    (p.buf n).seqs = List.range' (p.durable + 1 + i) (p.nextSeq - (p.durable + 1 + i))

theorem Rp.lastBuffer_iff (hd : p.durable + 1 ≤ p.nextSeq) : p.LastBuffer n ↔
    (p.buf n.other).seqs ++ (p.buf n).seqs = List.range' (p.durable + 1) (p.nextSeq - (p.durable + 1)) := by
  rw [eq_comm, List.range'_eq_append_iff]
  have size (i : Nat) : p.nextSeq - (p.durable + 1) - i = p.nextSeq - (p.durable + 1 + i) := by omega
  have room (i : Nat) : i ≤ p.nextSeq - (p.durable + 1) ↔ p.durable + 1 + i ≤ p.nextSeq := by omega
  simp only [Nat.mul_one, size, room]
  rfl

/-- `Rp.staged` puts the buffers in the order of their sequences. -/
theorem Rp.staged_iff (hd : p.durable + 1 ≤ p.nextSeq) :
    p.staged.map StagedRec.seq = List.range' (p.durable + 1) (p.nextSeq - (p.durable + 1)) ↔ ∃ n, p.LastBuffer n := by
  have joined (x y : RowBuffer) : (x.records ++ y.records).map StagedRec.seq = x.seqs ++ y.seqs := List.map_append
  unfold Rp.staged
  constructor
  · intro e
    split at e
    · exact ⟨.a, (Rp.lastBuffer_iff hd).2 ((joined _ _).symm.trans e)⟩
    · exact ⟨.b, (Rp.lastBuffer_iff hd).2 ((joined _ _).symm.trans e)⟩
  · rintro ⟨n, last⟩
    have whole := (Rp.lastBuffer_iff hd).1 last
    obtain ⟨i, -, first, rest⟩ := last
    rw [apply_ite (List.map StagedRec.seq), joined, joined]
    cases n
    case a =>
      split
      · exact whole
      next c =>
        by_cases hB : p.bufB.records = []
        · rwa [RowBuffer.seqs_eq_nil.2 hB, List.append_nil, ← List.nil_append p.bufA.seqs, ← RowBuffer.seqs_eq_nil.2 hB]
        · refine absurd ⟨hB, or_iff_not_imp_left.2 fun hA => ?_⟩ c
          have firstB := RowBuffer.bounds_of_range (b := p.bufB) first hB
          have firstA := RowBuffer.bounds_of_range (b := p.bufA) rest hA
          omega
    case b =>
      split
      next c =>
        obtain ⟨hB, hA | lower⟩ := c
        · rwa [RowBuffer.seqs_eq_nil.2 hA, List.append_nil, ← List.nil_append p.bufB.seqs, ← RowBuffer.seqs_eq_nil.2 hA]
        · by_cases hA : p.bufA.records = []
          · rwa [RowBuffer.seqs_eq_nil.2 hA, List.append_nil, ← List.nil_append p.bufB.seqs, ← RowBuffer.seqs_eq_nil.2 hA]
          · have firstA := RowBuffer.bounds_of_range (b := p.bufA) first hA
            have firstB := RowBuffer.bounds_of_range (b := p.bufB) rest hB
            omega
      · exact whole

/-- While the other buffer is EMPTY a buffer is first and last. -/
theorem Rp.LastBuffer.swap (l : p.LastBuffer n) (he : (p.buf n).seqs = [] ∨ (p.buf n.other).seqs = []) :
    p.LastBuffer n.other := by
  obtain ⟨i, hi, first, last⟩ := l
  rw [Rp.lastBuffer_iff (by omega), BufName.other_other]
  have whole := (Rp.lastBuffer_iff (by omega)).1 ⟨i, hi, first, last⟩
  rcases he with e | e <;> rw [e] at whole ⊢ <;> simpa using whole

theorem RunningMarks.lastBuffer (m : RunningMarks s) : ∃ k, s.rp.LastBuffer k := (Rp.staged_iff m.durable).1 m.staged

theorem RowBuffer.ok.records_ne (ok : b.ok) (hb : b.state ≠ .empty) : b.records ≠ [] := fun e => hb (ok.records.2 e)

theorem RowBuffer.ok.dest_ne (ok : b.ok) (hb : b.state ≠ .empty) : ∃ d, b.dest = some d :=
  Option.ne_none_iff_exists'.1 fun e => hb (ok.dest.2 e)

/-- An EMPTY buffer is cleared. -/
theorem RowBuffer.ok.eq_cleared (ok : b.ok) (hb : b.state = .empty) : b = .cleared := by
  cases b
  cases ok.records.1 hb
  cases ok.dest.1 hb
  cases hb
  rfl

section
variable (ok : BuffersOk s) (m : RunningMarks s)
include ok m

/-- The FILLING buffer is the last. -/
theorem RunningMarks.lastBuffer_of_filling (hn : (s.rp.buf n).state = .filling) : s.rp.LastBuffer n := by
  obtain ⟨bufs, -, -⟩ := (buffersOk_iff s).1 ok
  obtain ⟨k, l⟩ := m.lastBuffer
  rcases n.eq_or_other k with rfl | rfl
  · exact l
  · have end_ := m.filling n hn
    obtain ⟨i, hi, first, last⟩ := l
    rw [BufName.other_other] at first
    obtain ⟨-, self, -⟩ := RowBuffer.bounds_of_range first ((bufs n).records_ne (by rw [hn]; decide))
    have none_ : (s.rp.buf n.other).seqs = [] := by rw [last, List.range'_eq_nil_iff]; omega
    simpa using Rp.LastBuffer.swap (n := n.other) ⟨i, hi, by rwa [BufName.other_other], last⟩ (.inl none_)

/-- The IN_FLIGHT buffer is the first. -/
theorem RunningMarks.lastBuffer_of_sent (hn : (s.rp.buf n).state = .inFlight) : s.rp.LastBuffer n.other := by
  obtain ⟨bufs, -, -⟩ := (buffersOk_iff s).1 ok
  obtain ⟨k, l⟩ := m.lastBuffer
  rcases n.eq_or_other k with rfl | rfl
  · have begin_ := m.sent k hn
    obtain ⟨i, hi, first, last⟩ := l
    obtain ⟨self, -, -⟩ := RowBuffer.bounds_of_range last ((bufs k).records_ne (by rw [hn]; decide))
    have none_ : (s.rp.buf k.other).seqs = [] := by rw [first, List.range'_eq_nil_iff]; omega
    exact Rp.LastBuffer.swap ⟨i, hi, first, last⟩ (.inr none_)
  · exact l

/-- While nothing is IN_FLIGHT the CLOSED buffer to hand first is the first (R48). -/
theorem RunningMarks.lastBuffer_of_nextClosed (hn : s.rp.nextClosed = some n)
    (idle : ∀ k, (s.rp.buf k).state ≠ .inFlight) : s.rp.LastBuffer n.other := by
  obtain ⟨bufs, -, -⟩ := (buffersOk_iff s).1 ok
  have closed := Rp.state_of_nextClosed hn
  obtain ⟨k, l⟩ := m.lastBuffer
  rcases n.eq_or_other k with rfl | rfl
  · by_cases he : (s.rp.buf k.other).state = .empty
    · exact l.swap (.inr (RowBuffer.seqs_eq_nil.2 ((bufs _).records.1 he)))
    · obtain ⟨i, hi, first, last⟩ := l
      have other := RowBuffer.bounds_of_range first ((bufs _).records_ne he)
      have self := RowBuffer.bounds_of_range last ((bufs k).records_ne (by rw [closed]; decide))
      exfalso
      cases hs : (s.rp.buf k.other).state with
      | empty => exact he hs
      | filling => have end_ := m.filling _ hs; omega
      | inFlight => exact idle _ hs
      | closed =>
        have lower : (s.rp.buf k.other).firstSeq < (s.rp.buf k).firstSeq := by omega
        unfold Rp.nextClosed at hn
        cases k
        · rw [if_pos ⟨closed, hs⟩] at hn
          cases hn.symm.trans (if_neg (Nat.not_le.2 lower))
        · rw [if_pos ⟨hs, closed⟩] at hn
          cases hn.symm.trans (if_pos (Nat.le_of_lt lower))
  · exact l

end

/-- The first of the buffers with records begins at durable_mark + 1. -/
theorem Rp.LastBuffer.firstSeq (l : p.LastBuffer n.other) (hn : (p.buf n).records ≠ []) :
    (p.buf n).firstSeq = p.durable + 1 := by
  obtain ⟨i, -, first, -⟩ := l
  rw [BufName.other_other] at first
  exact (RowBuffer.bounds_of_range first hn).1

/-! ### A buffer changes its state -/

/-- Buffer `n` in another state, with its records and destination. -/
def restate (n : BufName) (st : BufState) (s : State) : State := setBuf n { s.rp.buf n with state := st } s

theorem restate_buf (n k : BufName) (st : BufState) (s : State) :
    (restate n st s).rp.buf k = if k = n then { s.rp.buf n with state := st } else s.rp.buf k := setBuf_buf_eq n k _ s

theorem restate_records (n k : BufName) (st : BufState) (s : State) :
    ((restate n st s).rp.buf k).records = (s.rp.buf k).records := by
  rw [restate_buf]
  split
  next hk => rw [hk]
  · rfl

theorem RowBuffer.ok.restate {st : BufState} (ok : b.ok) (hb : b.state ≠ .empty) (hst : st ≠ .empty) :
    RowBuffer.ok { b with state := st } := by
  obtain ⟨records, dest⟩ := ok
  simp only [hb, false_iff] at records dest
  exact ⟨by simpa [hst] using records, by simpa [hst] using dest⟩

/-- A FILLING buffer closes or a CLOSED one is handed: the laws of the buffers. -/
theorem buffersOk_restate {st : BufState} (ok : BuffersOk s) (hn : (s.rp.buf n).state ≠ .empty)
    (linger : s.rp.lingerTimer.isSome = true → (s.rp.buf n).state ≠ .filling) (h1 : st ≠ .empty) (h2 : st ≠ .filling) :
    BuffersOk (restate n st s) := by
  rw [buffersOk_iff] at ok ⊢
  obtain ⟨bufs, single, timer⟩ := ok
  have lt : (restate n st s).rp.lingerTimer = s.rp.lingerTimer := by simp [restate]
  refine ⟨fun k => ?_, fun k hk hk' => ?_, fun ht => ?_⟩
  · rw [restate_buf]
    split
    · exact (bufs n).restate hn h1
    · exact bufs k
  · rw [restate_buf] at hk hk'
    split at hk
    · exact h2 hk
    · split at hk'
      · exact h2 hk'
      · exact single k hk hk'
  · rw [lt] at ht
    obtain ⟨k, hk⟩ := timer ht
    refine ⟨k, ?_⟩
    rw [restate_buf, if_neg fun e : k = n => linger ht (e ▸ hk)]
    exact hk

theorem rowsOk_restate {st : BufState} (ok : RowsOk s)
    (hst : st = .inFlight → (s.rp.buf n.other).state ≠ .inFlight) : RowsOk (restate n st s) := by
  obtain ⟨single, rows⟩ := ok
  refine ⟨fun k hk => ?_, fun k d hd => rows k d ?_⟩
  · rw [restate_buf] at hk ⊢
    rcases n.eq_or_other k with rfl | rfl
    · rw [if_pos rfl] at hk
      rw [if_neg (by cases k <;> decide)]
      exact hst hk
    · rw [if_neg (by cases n <;> decide)] at hk
      rw [BufName.other_other, if_pos rfl]
      intro e
      exact hst e hk
  · rw [restate_buf] at hd
    split at hd
    next hk => rw [hk]; exact hd
    · exact hd

theorem runningMarks_restate {st : BufState} (m : RunningMarks s)
    (sent : st = .inFlight → (s.rp.buf n).firstSeq = s.rp.durable + 1) (hst : st ≠ .filling) :
    RunningMarks (restate n st s) := by
  have records (k : BufName) := restate_records n k st s
  have durable : (restate n st s).rp.durable = s.rp.durable := by simp [restate]
  have nextSeq : (restate n st s).rp.nextSeq = s.rp.nextSeq := by simp [restate]
  have relocation : (restate n st s).rp.relocation = s.rp.relocation := by simp [restate]
  have cu : (restate n st s).cu = s.cu := by simp [restate]
  have seqs (k : BufName) : ((restate n st s).rp.buf k).seqs = (s.rp.buf k).seqs := by
    rw [RowBuffer.seqs, records, RowBuffer.seqs]
  refine ⟨by rw [cu, durable]; exact m.oldest, by rw [durable, nextSeq]; exact m.durable, by rw [nextSeq]; exact m.next, ?_,
    fun k hk => ?_, fun k hk => ?_, by rw [cu, durable]; exact m.members, by rw [relocation, durable]; exact m.replacing⟩
  · rw [Rp.staged_iff (by rw [durable, nextSeq]; exact m.durable)]
    simpa only [Rp.LastBuffer, seqs, durable, nextSeq] using m.lastBuffer
  · rw [RowBuffer.firstSeq, records, durable]
    rw [restate_buf] at hk
    split at hk
    next e => rw [e]; exact sent hk
    · exact m.sent k hk
  · rw [RowBuffer.lastSeq, records, nextSeq]
    rw [restate_buf] at hk
    split at hk
    · exact absurd hk hst
    · exact m.filling k hk

/-! ### Hand-over and closing (R42, R48) -/

theorem bufferProgram_isRecordRow {d : Dest} (hd : d.row ≤ 62) (s : State) (b : RowBuffer) :
    FlashOp.isRecordRow { source := .packer, act := bufferProgram s b d } = true := by
  have : (d.row != 63) = true := by rw [bne_iff_ne]; omega
  simpa [bufferProgram, FlashOp.isRecordRow] using this

/-- The program of a buffer joins its die's queue: nothing else the laws speak of changes, and a record row is in flight. -/
theorem handProgram_calm (hf : s.ec.engine ≠ .faulted) (act : FlashAct) : Calm s (handOp .packer act s) where
  bufA := by simp
  bufB := by simp
  linger := by simp
  durable := by simp
  nextSeq := by simp
  relocation := by simp
  oldest := by simp
  order := by simp
  catalog := by simp [CatalogOk]
  entries := by simp
  inFlight x := by rw [recordRowInFlight_handOp_packer hf, x]; rfl

/-- A buffer is handed over (R48): it is IN_FLIGHT with its program in a die queue. -/
theorem handBuffer_restates {d : Dest} (hf : s.ec.engine ≠ .faulted) (hd : (s.rp.buf n).dest = some d) (row : d.row ≤ 62) :
    Calm (restate n .inFlight s) (handBuffer n s) ∧ recordRowInFlight (handBuffer n s) = true := by
  have engine : (restate n .inFlight s).ec.engine ≠ .faulted := by simpa [restate] using hf
  rw [handBuffer_of_dest hd]
  refine ⟨handProgram_calm engine _, ?_⟩
  exact (recordRowInFlight_handOp_packer engine _).trans (by rw [bufferProgram_isRecordRow row, Bool.or_true])

/-- A CLOSED buffer is handed over when no record row program is in flight (R48). -/
theorem handClosed_moves (hf : s.ec.engine ≠ .faulted) : Moves s (handClosed s) := by
  by_cases busy : recordRowInFlight s = true
  · rw [handClosed_of_busy busy]; exact .refl s
  rw [Bool.not_eq_true] at busy
  cases hn : s.rp.nextClosed with
  | none => rw [handClosed_of_none hn]; exact .refl s
  | some n =>
    rw [handClosed_of_next busy hn]
    have closed := Rp.state_of_nextClosed hn
    cases hd : (s.rp.buf n).dest with
    | none => rw [handBuffer_of_noDest hd]; exact .refl s
    | some d =>
      have idle (f : FlightOk s) (k : BufName) : (s.rp.buf k).state ≠ .inFlight := fun hk => by
        rw [f.handed k hk] at busy; cases busy
      have buffers (ok : BuffersOk s) : BuffersOk (restate n .inFlight s) :=
        buffersOk_restate ok (by rw [closed]; decide) (fun _ => by rw [closed]; decide) nofun nofun
      have engine : (restate n .inFlight s).ec.engine ≠ .faulted := by simpa [restate] using hf
      have same : Calm (restate n .inFlight s) (handBuffer n s) := by
        rw [handBuffer_of_dest hd]; exact handProgram_calm engine _
      refine ⟨fun ok => same.buffersOk (buffers ok), fun ok f => ?_, fun _ c => same.catalog (by simpa [restate, CatalogOk] using c),
        fun ok f c m => same.runningMarks (by simpa [restate, CatalogOk] using c) (runningMarks_restate m (fun _ => ?_) nofun)⟩
      · have hands := handBuffer_restates hf hd (f.rows.rows n d hd)
        exact ⟨same.rowsOk (rowsOk_restate f.rows fun _ => idle f _), fun _ _ => hands.2⟩
      · obtain ⟨bufs, -, -⟩ := (buffersOk_iff s).1 ok
        exact (m.lastBuffer_of_nextClosed ok hn (idle f)).firstSeq ((bufs n).records_ne (by rw [closed]; decide))

theorem closeBuf_eq_restate (n : BufName) (s : State) :
    closeBuf n s = restate n .closed { s with rp := { s.rp with lingerTimer := none } } := by cases n <;> rfl

/-- The linger timer stops. -/
theorem calm_stopLinger (s : State) : Calm s { s with rp := { s.rp with lingerTimer := none } } :=
  ⟨rfl, rfl, nofun, rfl, rfl, fun _ => id, rfl, fun _ => id, id, fun _ _ => Nat.le_refl _, id⟩

theorem closeBuf_moves (hn : (s.rp.buf n).state = .filling) : Moves s (closeBuf n s) := by
  rw [closeBuf_eq_restate]
  refine (calm_stopLinger s).moves.trans ⟨fun ok => buffersOk_restate ok ?_ nofun nofun nofun, fun _ f => ⟨rowsOk_restate f.rows nofun, ?_⟩,
    fun _ c => by simpa [restate, CatalogOk] using c, fun _ _ _ m => runningMarks_restate m nofun nofun⟩
  · have : (s.rp.buf n).state ≠ .empty := by rw [hn]; decide
    cases n <;> exact this
  · intro k hk
    rw [restate_buf] at hk
    split at hk
    · cases hk
    · simpa [restate, recordRowInFlight] using f.handed k hk

/-- The FILLING buffer closes (R42, R53). -/
theorem closeFilling_moves (hf : s.ec.engine ≠ .faulted) : Moves s (closeFilling s) := by
  cases hn : s.rp.find .filling with
  | none => rw [closeFilling_of_none hn]; exact .refl s
  | some n =>
    rw [closeFilling_of_some hn]
    exact (closeBuf_moves (Rp.state_of_find hn)).trans (handClosed_moves (by simpa [closeBuf] using hf))

/-- In FAULTED too, where the FS drops what is handed, closing keeps the laws of the buffers. -/
theorem buffersOk_closeFilling (ok : BuffersOk s) : BuffersOk (closeFilling s) := by
  cases hn : s.rp.find .filling with
  | none => rwa [closeFilling_of_none hn]
  | some n =>
    rw [closeFilling_of_some hn]
    have closed := (closeBuf_moves (Rp.state_of_find hn)).buffers ok
    unfold handClosed
    split
    · exact closed
    · split
      · exact closed
      next k hk =>
        have st := Rp.state_of_nextClosed hk
        cases hd : ((closeBuf n s).rp.buf k).dest with
        | none => rwa [handBuffer_of_noDest hd]
        | some d =>
          have sent : BuffersOk (restate k .inFlight (closeBuf n s)) :=
            buffersOk_restate closed (by rw [st]; decide) (fun _ => by rw [st]; decide) nofun nofun
          rw [handBuffer_of_dest hd]
          exact sent.of_rp (by simp [restate])

end Sys2Proof.Machine
end

section
/-!
SUPPORT. Staging, joining a segment and the reactions of the append path carry the laws of buffers and marks along (R39 to R47,
R88, R152).
-/
namespace Sys2Proof.Machine

-- One proof at a time, as in the tests: proofs checked side by side need more threads than the limits allow.
set_option Elab.async false

variable {s t u : State} {n : BufName} {v : RpServed} {h : HostRecord} {o : OpenSeg} {F : State → Prop}

/-! ### A buffer ready for a record -/

/-- Buffer `n` is FILLING with a destination, whether it holds a record yet or not, and the other buffer is sound. -/
structure BufferReady (n : BufName) (s : State) : Prop where
  state : (s.rp.buf n).state = .filling
  dest : (s.rp.buf n).dest ≠ none
  other : (s.rp.buf n.other).ok
  alone : (s.rp.buf n.other).state ≠ .filling

/-- The marks while buffer `n` is ready for a record, and a sequence is left. -/
structure MarksReady (n : BufName) (s : State) : Prop where
  oldest : s.cu.oldest ≤ s.rp.durable + 1
  durable : s.rp.durable + 1 ≤ s.rp.nextSeq
  next : s.rp.nextSeq ≤ maxSeq
  last : s.rp.LastBuffer n
  sent : ∀ k, (s.rp.buf k).state = .inFlight → (s.rp.buf k).firstSeq = s.rp.durable + 1
  members : ∀ m ∈ s.cu.orderList, (s.cu.entry m).firstSeq ≤ s.rp.durable + 1
  replacing : ∀ r, s.rp.relocation = some r → 1 ≤ r.firstSeq ∧ r.firstSeq ≤ s.rp.durable + 1

theorem BuffersOk.ready (ok : BuffersOk s) (hn : s.rp.find .filling = some n) : BufferReady n s := by
  have state := Rp.state_of_find hn
  have alone := ok.only hn
  obtain ⟨bufs, -, -⟩ := (buffersOk_iff s).1 ok
  obtain ⟨d, hd⟩ := (bufs n).dest_ne (by rw [state]; decide)
  exact ⟨state, by rw [hd]; exact Option.some_ne_none d, bufs _, alone⟩

theorem RunningMarks.ready (ok : BuffersOk s) (m : RunningMarks s) (hn : s.rp.find .filling = some n)
    (room : s.rp.nextSeq ≠ maxSeq + 1) : MarksReady n s :=
  ⟨m.oldest, m.durable, by have := m.next; omega, m.lastBuffer_of_filling ok (Rp.state_of_find hn), m.sent, m.members,
    m.replacing⟩

theorem BufferReady.fillsAlone (r : BufferReady n s) : FillsAlone n v h s := fun _ _ =>
  ⟨Rp.find_of_only r.state r.alone, r.alone⟩

/-- A buffer that goes from EMPTY to FILLING is ready for its first record. -/
theorem bufferReady_startsFilling (ok : BuffersOk s) (none_ : ∀ k, (s.rp.buf k).state ≠ .filling) (n : BufName) (o : OpenSeg) :
    BufferReady n (startsFilling n o s) := by
  obtain ⟨bufs, -, -⟩ := (buffersOk_iff s).1 ok
  refine ⟨by rw [startsFilling_self], by rw [startsFilling_self]; exact nofun, ?_, ?_⟩
  · rw [startsFilling_other]; exact bufs _
  · rw [startsFilling_other]; exact none_ _

theorem marksReady_startsFilling (ok : BuffersOk s) (m : RunningMarks s) (he : (s.rp.buf n).state = .empty)
    (room : s.rp.nextSeq ≠ maxSeq + 1) : MarksReady n (startsFilling n o s) := by
  obtain ⟨bufs, -, -⟩ := (buffersOk_iff s).1 ok
  have none_ : (s.rp.buf n).seqs = [] := RowBuffer.seqs_eq_nil.2 ((bufs n).records.1 he)
  have last : s.rp.LastBuffer n := by
    obtain ⟨k, l⟩ := m.lastBuffer
    rcases n.eq_or_other k with rfl | rfl
    · exact l
    · simpa using l.swap (.inr (by rwa [BufName.other_other]))
  have durable : (startsFilling n o s).rp.durable = s.rp.durable := by simp [startsFilling]
  have nextSeq : (startsFilling n o s).rp.nextSeq = s.rp.nextSeq := by simp [startsFilling]
  have relocation : (startsFilling n o s).rp.relocation = s.rp.relocation := by simp [startsFilling]
  have cu : (startsFilling n o s).cu = s.cu := by simp [startsFilling]
  have empty : ((startsFilling n o s).rp.buf n).seqs = [] := by rw [startsFilling_self]; rfl
  refine ⟨by rw [cu, durable]; exact m.oldest, by rw [durable, nextSeq]; exact m.durable,
    by rw [nextSeq]; have := m.next; omega, ?_, fun k hk => ?_, by rw [cu, durable]; exact m.members,
    by rw [relocation, durable]; exact m.replacing⟩
  · rw [Rp.LastBuffer, startsFilling_other, empty, ← none_, durable, nextSeq]
    exact last
  · rcases n.eq_or_other k with rfl | rfl
    · rw [startsFilling_self] at hk; cases hk
    · rw [startsFilling_other] at hk ⊢
      rw [durable]
      exact m.sent _ hk

theorem flightOk_startsFilling (f : FlightOk s) (row : o.nextRow ≤ 62) : FlightOk (startsFilling n o s) := by
  obtain ⟨⟨single, rows⟩, handed⟩ := f
  have fs : (startsFilling n o s).fs = s.fs := by simp [startsFilling]
  refine ⟨⟨fun k hk => ?_, fun k d hd => ?_⟩, fun k hk => ?_⟩
  · rcases n.eq_or_other k with rfl | rfl
    · rw [startsFilling_self] at hk; cases hk
    · rw [BufName.other_other, startsFilling_self]; exact nofun
  · rcases n.eq_or_other k with rfl | rfl
    · rw [startsFilling_self] at hd; cases hd; exact row
    · rw [startsFilling_other] at hd; exact rows _ d hd
  · rw [recordRowInFlight_of_fs fs]
    rcases n.eq_or_other k with rfl | rfl
    · rw [startsFilling_self] at hk; cases hk
    · rw [startsFilling_other] at hk; exact handed _ hk

/-! ### A record joins (R27, R30) -/

theorem buffersOk_recordJoins (r : BufferReady n s) : BuffersOk (recordJoins n h s) := by
  obtain ⟨state, dest, other, alone⟩ := r
  rw [buffersOk_iff]
  refine ⟨fun k => ?_, fun k hk hk' => ?_, fun _ => ⟨n, by rw [recordJoins_self]; exact state⟩⟩
  · rcases n.eq_or_other k with rfl | rfl
    · rw [recordJoins_self]
      exact ⟨by simp [state], by simp [state, dest]⟩
    · rw [recordJoins_other]; exact other
  · rcases n.eq_or_other k with rfl | rfl
    · rw [recordJoins_other] at hk'; exact alone hk'
    · rw [recordJoins_other] at hk; exact alone hk

theorem flightOk_recordJoins (f : FlightOk s) : FlightOk (recordJoins n h s) := by
  obtain ⟨⟨single, rows⟩, handed⟩ := f
  have same (k : BufName) : ((recordJoins n h s).rp.buf k).state = (s.rp.buf k).state ∧
      ((recordJoins n h s).rp.buf k).dest = (s.rp.buf k).dest := by
    rcases n.eq_or_other k with rfl | rfl
    · rw [recordJoins_self]; exact ⟨rfl, rfl⟩
    · rw [recordJoins_other]; exact ⟨rfl, rfl⟩
  have fs : (recordJoins n h s).fs = s.fs := by simp [recordJoins]
  refine ⟨⟨fun k hk => ?_, fun k d hd => ?_⟩, fun k hk => ?_⟩
  · rw [(same _).1] at hk ⊢; exact single k hk
  · rw [(same _).2] at hd; exact rows k d hd
  · rw [(same _).1] at hk; rw [recordRowInFlight_of_fs fs]; exact handed k hk

theorem runningMarks_recordJoins (r : BufferReady n s) (m : MarksReady n s) : RunningMarks (recordJoins n h s) := by
  have durable : (recordJoins n h s).rp.durable = s.rp.durable := by simp [recordJoins]
  have nextSeq : (recordJoins n h s).rp.nextSeq = s.rp.nextSeq + 1 := by simp [recordJoins]
  have relocation : (recordJoins n h s).rp.relocation = s.rp.relocation := by simp [recordJoins]
  have cu : (recordJoins n h s).cu = s.cu := by simp [recordJoins]
  have joined : ((recordJoins n h s).rp.buf n).seqs = (s.rp.buf n).seqs ++ [s.rp.nextSeq] := by
    rw [recordJoins_self]; simp [RowBuffer.seqs]
  obtain ⟨i, hi, first, last⟩ := m.last
  refine ⟨by rw [cu, durable]; exact m.oldest, by rw [durable, nextSeq]; have := m.durable; omega,
    by rw [nextSeq]; have := m.next; omega, ?_, fun k hk => ?_, fun k hk => ?_, by rw [cu, durable]; exact m.members,
    by rw [relocation, durable]; exact m.replacing⟩
  · rw [Rp.staged_iff (by rw [durable, nextSeq]; omega)]
    refine ⟨n, i, by rw [durable, nextSeq]; omega, by rw [recordJoins_other, durable]; exact first, ?_⟩
    have grows : s.rp.nextSeq + 1 - (s.rp.durable + 1 + i) = s.rp.nextSeq - (s.rp.durable + 1 + i) + 1 := by omega
    have end_ : s.rp.durable + 1 + i + (s.rp.nextSeq - (s.rp.durable + 1 + i)) = s.rp.nextSeq := by omega
    rw [joined, durable, nextSeq, last, grows, List.range'_1_concat, end_]
  · rcases n.eq_or_other k with rfl | rfl
    · rw [recordJoins_self] at hk
      have filling := r.state
      rw [show (s.rp.buf k).state = .inFlight from hk] at filling
      cases filling
    · rw [recordJoins_other] at hk ⊢; rw [durable]; exact m.sent _ hk
  · rcases n.eq_or_other k with rfl | rfl
    · rw [recordJoins_self, nextSeq]; simp [RowBuffer.lastSeq]
    · rw [recordJoins_other] at hk; exact absurd hk r.alone

/-- What follows a record that joined: what is to close closes, and the card goes on or ends (R39, R42, R56). -/
theorem stageInto_moves (hf : s.ec.engine ≠ .faulted) (alone : FillsAlone n v h s) :
    Moves (recordJoins n h s) (stageInto n v h s) := by
  have closed : Moves (recordJoins n h s) (closedAfter n v h s) := by
    unfold closedAfter
    split
    · exact closeFilling_moves (by simpa [recordJoins] using hf)
    · exact .refl _
  refine closed.trans ?_
  by_cases last : v.staged + 1 = v.work.argC
  · rw [stageInto_ends alone last]; exact (calm_answerOrWait _ _ _).moves
  · rw [stageInto_goesOn alone last]; exact (calm_setServed _ _).moves

theorem catalogOk_recordJoins (c : CatalogOk s) : CatalogOk (recordJoins n h s) := by
  simpa [recordJoins, CatalogOk] using c

/-- A record is staged into the FILLING buffer. -/
theorem stageInto_filling_moves (hf : s.ec.engine ≠ .faulted) (hn : s.rp.find .filling = some n)
    (room : s.rp.nextSeq ≠ maxSeq + 1) : Moves s (stageInto n v h s) := by
  refine .of_buffersOk fun ok => Carries.trans (t := recordJoins n h s) ?_ (stageInto_moves hf (ok.ready hn).fillsAlone)
  exact ⟨fun _ => buffersOk_recordJoins (ok.ready hn), fun _ => flightOk_recordJoins, fun _ => catalogOk_recordJoins,
    fun _ _ _ m => runningMarks_recordJoins (ok.ready hn) (m.ready ok hn room)⟩

/-- A record is staged into an EMPTY buffer that becomes FILLING for it. -/
theorem stageInto_empty_moves (hf : s.ec.engine ≠ .faulted) (none_ : ∀ k, (s.rp.buf k).state ≠ .filling)
    (he : (s.rp.buf n).state = .empty) (row : o.nextRow ≤ 62) (room : s.rp.nextSeq ≠ maxSeq + 1) :
    Moves s (stageInto n v h (startsFilling n o s)) := by
  have engine : (startsFilling n o s).ec.engine ≠ .faulted := by simpa [startsFilling] using hf
  refine .of_buffersOk fun ok => ?_
  have ready := bufferReady_startsFilling ok none_ n o
  refine Carries.trans (t := recordJoins n h (startsFilling n o s)) ?_ (stageInto_moves engine ready.fillsAlone)
  exact ⟨fun _ => buffersOk_recordJoins ready, fun _ f => flightOk_recordJoins (flightOk_startsFilling f row),
    fun _ c => catalogOk_recordJoins (by simpa [startsFilling, CatalogOk] using c),
    fun _ _ _ m => runningMarks_recordJoins ready (marksReady_startsFilling ok m he room)⟩

/-! ### The end of a staging (R39, R40, R56) -/

theorem endStaging_moves (hf : s.ec.engine ≠ .faulted) (v : RpServed) (out : CardOutcome) : Moves s (endStaging v out s) := by
  rw [endStaging_eq]
  split
  · exact (closeFilling_moves hf).trans (calm_answerOrWait _ _ _).moves
  · exact (calm_answerOrWait _ _ _).moves

/-! ### A segment joins (R45, R88, R103) -/

/-- The laws of the buffer in flight see the RP and the FS alone. -/
theorem RowsOk.of_rp (f : RowsOk s) (rp : t.rp = s.rp) : RowsOk t := by
  obtain ⟨single, rows⟩ := f
  exact ⟨by rwa [rp], by rwa [rp]⟩

theorem FlightOk.of_rp (f : FlightOk s) (rp : t.rp = s.rp) (fs : t.fs = s.fs) : FlightOk t := by
  obtain ⟨rows, handed⟩ := f
  exact ⟨rows.of_rp rp, by rwa [rp, recordRowInFlight_of_fs fs]⟩

/-- The entries after a join (R88). -/
theorem entry_joinSegment (c : CatalogOk s) (seg q x : Nat) : (joinSegment seg q s).cu.entry x =
    if x = seg then .joining q s.cu.nextSerial else (supersede s).cu.entry x :=
  entry_setEntry ((calm_supersede s).catalog c) seg x _

/-- Where the members begin at a bound or below, and so does the segment that joins, so do the members after. -/
theorem firstSeq_joinSegment_le {seg q bound : Nat} (c : CatalogOk s) (hq : q ≤ bound)
    (members : ∀ x ∈ s.cu.orderList, (s.cu.entry x).firstSeq ≤ bound) :
    ∀ x ∈ (joinSegment seg q s).cu.orderList, ((joinSegment seg q s).cu.entry x).firstSeq ≤ bound := by
  intro x hx
  have calm := calm_supersede s
  rw [entry_joinSegment c]
  split
  · exact hq
  next ne =>
    have old : x ∈ (supersede s).cu.orderList := (List.mem_append.1 hx).resolve_right fun e => ne (List.mem_singleton.1 e)
    exact (calm.entries c x).trans (members x (calm.order x old))

theorem runningMarks_joinSegment {seg q : Nat} (c : CatalogOk s) (m : RunningMarks s) (hq : q ≤ s.rp.durable + 1) :
    RunningMarks (joinSegment seg q s) := by
  have rp : (joinSegment seg q s).rp = s.rp := by simp
  exact ⟨by rw [rp]; exact (calm_supersede s).oldest.trans_le m.oldest, by rw [rp]; exact m.durable, by rw [rp]; exact m.next,
    by rw [rp]; exact m.staged, by rw [rp]; exact m.sent, by rw [rp]; exact m.filling,
    by rw [rp]; exact firstSeq_joinSegment_le c hq m.members, by rw [rp]; exact m.replacing⟩

/-- A segment joins at a sequence no higher than durable_mark + 1. -/
theorem joinSegment_carries {seg q : Nat} (same : F s → F (joinSegment seg q s))
    (hq : BuffersOk s → F s → RunningMarks s → q ≤ s.rp.durable + 1) : Carries F F s (joinSegment seg q s) :=
  ⟨fun ok => ok.of_rp (by simp), fun _ => same, fun _ c => catalogOk_setEntry ((calm_supersede s).catalog c) _ _,
    fun ok f c m => runningMarks_joinSegment c m (hq ok f m)⟩

theorem calm_openFresh (seg next : Nat) (s : State) : Calm s (openFresh seg next s) := .of_core rfl rfl rfl

/-- With both buffers EMPTY no record is staged. -/
theorem RunningMarks.nextSeq_of_empty (m : RunningMarks s) (none_ : ∀ k, (s.rp.buf k).records = []) :
    s.rp.nextSeq = s.rp.durable + 1 := by
  obtain ⟨k, i, hi, first, last⟩ := m.lastBuffer
  rw [RowBuffer.seqs_eq_nil.2 (none_ _), eq_comm, List.range'_eq_nil_iff] at first last
  omega

/-- The head of the pool joins for new records while both buffers are EMPTY (R45). -/
theorem takeForRecords_moves (empty : ∀ k, (s.rp.buf k).state = .empty) (seg : Nat) : Moves s (takeForRecords seg s) := by
  refine Carries.trans (joinSegment_carries (fun f => f.of_rp (by simp) (by simp)) fun ok _ m => ?_)
    (calm_openFresh seg 1 _).moves
  obtain ⟨bufs, -, -⟩ := (buffersOk_iff s).1 ok
  exact (m.nextSeq_of_empty fun k => (bufs k).records.1 (empty k)).le

/-! ### Placing a record (R42 to R46) -/

/-- A record that passed its checks has a sequence left (R26). -/
theorem readRecord_room (hx : readRecord s v = .ok h) : s.rp.nextSeq ≠ maxSeq + 1 := by
  have e := readRecord_eq s v
  extract_lets head at e
  rw [hx] at e
  intro full
  rw [if_pos full] at e
  split at e
  · cases e
  · split at e <;> cases e

/-- An EMPTY buffer takes the open segment's next row. -/
theorem startFilling_openSeg (n : BufName) (o : OpenSeg) (s : State) : startFilling n { seg := o.seg, row := o.nextRow }
    { s with rp := { s.rp with openSeg := some { o with nextRow := o.nextRow + 1 } } } = startsFilling n o s := by
  cases n <;> rfl

/-- An EMPTY buffer takes row 0 of the head of the pool. -/
theorem startFilling_takeForRecords (n : BufName) (seg : Nat) (s : State) :
    startFilling n { seg := seg, row := 0 } (takeForRecords seg s) =
      startsFilling n { seg := seg, nextRow := 0 } (takeForRecords seg s) := by
  cases n <;> rfl

theorem calm_setEvent_fullSeen (s : State) :
    Calm s (setEvent .archiveFull { s with rp := { s.rp with fullSeen := true } }) := .of_core rfl rfl rfl

theorem placeInEmpty_moves (hf : s.ec.engine ≠ .faulted) (none_ : ∀ k, (s.rp.buf k).state ≠ .filling)
    (he : (s.rp.buf n).state = .empty) (room : s.rp.nextSeq ≠ maxSeq + 1) : Moves s (placeInEmpty n v h s) := by
  have full : Moves s (endStaging v .archiveFull (setEvent .archiveFull { s with rp := { s.rp with fullSeen := true } })) :=
    (calm_setEvent_fullSeen s).moves.trans
      (endStaging_moves (s := setEvent .archiveFull { s with rp := { s.rp with fullSeen := true } }) hf v .archiveFull)
  unfold placeInEmpty
  split
  next o ho =>
    obtain ⟨-, row⟩ := Option.filter_eq_some_iff.1 ho
    rw [startFilling_openSeg]
    exact stageInto_empty_moves hf none_ he (of_decide_eq_true row) room
  · split
    · exact (calm_serveWait _ _ _).moves
    next other =>
      rw [not_not] at other
      split
      next seg rest _ =>
        split
        · have empty (k : BufName) : (s.rp.buf k).state = .empty := by
            rcases n.eq_or_other k with rfl | rfl <;> assumption
          have buf (k : BufName) : (takeForRecords seg s).rp.buf k = s.rp.buf k := by cases k <;> simp [Rp.buf]
          rw [startFilling_takeForRecords]
          refine (takeForRecords_moves empty seg).trans (stageInto_empty_moves (by simpa using hf) (fun k => ?_) ?_ (Nat.zero_le _) ?_)
          · rw [buf]; exact none_ k
          · rw [buf]; exact he
          · simpa [takeForRecords, openFresh] using room
        · split
          · exact (calm_serveWait _ _ _).moves
          · exact full
      · split
        · exact (calm_serveWait _ _ _).moves
        · exact full

theorem placeFresh_moves (hf : s.ec.engine ≠ .faulted) (none_ : s.rp.find .filling = none)
    (room : s.rp.nextSeq ≠ maxSeq + 1) : Moves s (placeFresh v h s) := by
  unfold placeFresh
  split
  · exact (calm_serveWait _ _ _).moves
  next n he => exact placeInEmpty_moves hf (Rp.find_eq_none.1 none_) (Rp.state_of_find he) room

theorem placeRecord_moves (hf : s.ec.engine ≠ .faulted) (room : s.rp.nextSeq ≠ maxSeq + 1) :
    Moves s (placeRecord v h s) := by
  unfold placeRecord
  split
  next n hn =>
    split
    · exact stageInto_filling_moves hf hn room
    · exact .of_buffersOk fun ok => (closeFilling_moves hf).trans
        (placeFresh_moves (by simpa using hf) (closeFilling_find hn (ok.only hn)) (by simpa using room))
  next hn => exact placeFresh_moves hf hn room

theorem stageNext_moves (hf : s.ec.engine ≠ .faulted) (v : RpServed) : Moves s (stageNext v s) := by
  unfold stageNext
  split
  · exact endStaging_moves hf _ _
  next h hx => exact placeRecord_moves hf (readRecord_room hx)

/-! ### Reactions (R42, R47, R152) -/

theorem notFaulted_of_running (h : s.ec.engine.running = true) : s.ec.engine ≠ .faulted :=
  ((running_iff s).2 h).notFaulted

theorem reexamineBuffer_moves (s : State) : Moves s (reexamineBuffer s) := by
  unfold reexamineBuffer
  split
  · split
    next h => exact stageNext_moves (notFaulted_of_running h.2) _
    · exact .refl s
  · exact .refl s

theorem reexamineSpace_moves (s : State) : Moves s (reexamineSpace s) := by
  unfold reexamineSpace
  split
  · split
    next h => exact stageNext_moves (notFaulted_of_running h.2) _
    · exact .refl s
  · exact .refl s

theorem react_moves (s : State) : Moves s (react s) :=
  ((calm_ruJudge s).moves.trans (reexamineSpace_moves _)).trans (calm_ruJudge _).moves

theorem judgeChange_moves (old s : State) : Moves s (judgeChange old s) := by
  unfold judgeChange
  split
  · exact .refl s
  · exact (calm_ruJudge s).moves

theorem recordStage_moves (s : State) : Moves s (recordStage s) := by
  unfold recordStage
  split
  · split
    next h => exact (stageNext_moves (notFaulted_of_running h.2) _).trans (judgeChange_moves _ _)
    · exact .refl s
  · exact .refl s

end Sys2Proof.Machine
end

section
/-!
SUPPORT. Discards, passed rows, relocations and removals reach the laws of buffers and marks again (R37, R49, R57, R91, R102 to
R107).
-/
namespace Sys2Proof.Machine

-- One proof at a time, as in the tests: proofs checked side by side need more threads than the limits allow.
set_option Elab.async false

variable {s t u : State} {n : BufName} {d : Dest} {F : State → Prop}

/-! ### Discards (R37, R57) -/

/-- Both buffers are EMPTY and the linger timer stands. -/
structure PackerEmpty (s : State) : Prop where
  buf : ∀ k, s.rp.buf k = .cleared
  linger : s.rp.lingerTimer = none

theorem PackerEmpty.buffersOk (e : PackerEmpty s) : BuffersOk s := by
  rw [buffersOk_iff]
  simp only [e.buf, e.linger]
  exact ⟨fun _ => ⟨by simp [RowBuffer.cleared], by simp [RowBuffer.cleared]⟩, fun _ => nofun, nofun⟩

theorem flightOk_of_cleared (empty : ∀ k, s.rp.buf k = .cleared) : FlightOk s := by
  refine ⟨⟨fun k hk => ?_, fun k d hd => ?_⟩, fun k hk => ?_⟩
  · rw [empty] at hk; cases hk
  · rw [empty] at hd; cases hd
  · rw [empty] at hk; cases hk

theorem PackerEmpty.flightOk (e : PackerEmpty s) : FlightOk s := flightOk_of_cleared e.buf

theorem inFlightOk_of_cleared (empty : ∀ k, s.rp.buf k = .cleared) : InFlightOk s :=
  (inFlightOk_iff s).2 ⟨flightOk_of_cleared empty, fun _ => ⟨empty .a, empty .b⟩⟩

/-- The marks of a packer that holds nothing. -/
theorem PackerEmpty.runningMarks (e : PackerEmpty s) (next : s.rp.nextSeq = s.rp.durable + 1) (bound : s.rp.durable ≤ maxSeq)
    (relocation : s.rp.relocation = none) (oldest : s.cu.oldest ≤ s.rp.durable + 1)
    (members : ∀ m ∈ s.cu.orderList, (s.cu.entry m).firstSeq ≤ s.rp.durable + 1) : RunningMarks s where
  oldest := oldest
  durable := next.ge
  next := by rw [next]; omega
  staged := by
    rw [Rp.staged_iff next.ge]
    refine ⟨.a, 0, next.ge, ?_, ?_⟩
    · rw [e.buf]; rfl
    · rw [e.buf, next, Nat.add_zero, Nat.sub_self]; rfl
  sent k hk := by rw [e.buf] at hk; cases hk
  filling k hk := by rw [e.buf] at hk; cases hk
  members := members
  replacing r hr := by rw [relocation] at hr; cases hr

/-- The packer discards and closes (R37, R57, R170). -/
def packerEmptied (s : State) : State := closePacker (discardStaged s)

theorem packerEmpty_packerEmptied (s : State) : PackerEmpty (packerEmptied s) := by
  unfold packerEmptied discardStaged
  refine ⟨fun k => ?_, rfl⟩
  split <;> cases k <;> rfl

theorem packerEmptied_durable (s : State) : (packerEmptied s).rp.durable = s.rp.durable := by
  unfold packerEmptied discardStaged
  split <;> rfl

/-- After a discard next_seq is durable_mark + 1 (R37). -/
theorem packerEmptied_nextSeq (m : RunningMarks s) : (packerEmptied s).rp.nextSeq = s.rp.durable + 1 := by
  unfold packerEmptied discardStaged
  split
  next none_ =>
    refine m.nextSeq_of_empty fun k => ?_
    cases k
    · exact List.isEmpty_iff.1 none_.1
    · exact List.isEmpty_iff.1 none_.2
  · rfl

theorem packerEmptied_lands (s : State) : Lands s (packerEmptied s) := by
  have empty := packerEmpty_packerEmptied s
  have cu : (packerEmptied s).cu = s.cu := by simp [packerEmptied]
  have durable := packerEmptied_durable s
  refine ⟨fun _ => empty.buffersOk, fun _ _ => empty.flightOk, fun _ c => by simpa [CatalogOk, cu] using c, fun _ _ _ m => ?_⟩
  refine empty.runningMarks (by rw [packerEmptied_nextSeq m, durable]) ?_ rfl (by rw [cu, durable]; exact m.oldest)
    (by rw [cu, durable]; exact m.members)
  have := m.durable
  have := m.next
  omega

theorem enterReadOnly_lands (s : State) : Lands s (enterReadOnly s) := by
  refine (packerEmptied_lands s).trans (Calm.moves ?_)
  refine Calm.trans (t := { packerEmptied s with rp := { (packerEmptied s).rp with readOnly := true } }) (.of_core rfl rfl rfl) ?_
  exact (calm_answerAppend .readOnly _).trans (.of_eq rfl rfl rfl)

/-! ### A passed record row (R49) -/

section
variable (hn : (s.rp.buf n).state = .inFlight)
include hn

theorem applyRowPass_lands : Lands s (applyRowPass n d s) := by
  have self : (applyRowPass n d s).rp.buf n = .cleared := by cases n <;> rfl
  have other : (applyRowPass n d s).rp.buf n.other = s.rp.buf n.other := by cases n <;> rfl
  have durable : (applyRowPass n d s).rp.durable = (s.rp.buf n).lastSeq := rfl
  have nextSeq : (applyRowPass n d s).rp.nextSeq = s.rp.nextSeq := by cases n <;> rfl
  have calm : Calm s (claimRowPass d.seg (s.rp.buf n).firstKey (s.rp.buf n).lastSeq (s.rp.buf n).lastKey s) :=
    calm_claimRowPass _ _ _ _ s
  have cu : (applyRowPass n d s).cu =
      (claimRowPass d.seg (s.rp.buf n).firstKey (s.rp.buf n).lastSeq (s.rp.buf n).lastKey s).cu := by cases n <;> rfl
  refine ⟨fun ok => ?buffers, fun ok f => ?flight, fun _ c => by rw [CatalogOk, cu]; exact calm.catalog c, fun ok f c m => ?marks⟩
  case buffers =>
    rw [buffersOk_iff] at ok ⊢
    obtain ⟨bufs, single, linger⟩ := ok
    refine ⟨fun k => ?_, fun k hk => ?_, fun ht => ?_⟩
    · rcases n.eq_or_other k with rfl | rfl
      · rw [self]; exact ⟨by simp [RowBuffer.cleared], by simp [RowBuffer.cleared]⟩
      · rw [other]; exact bufs _
    · rcases n.eq_or_other k with rfl | rfl
      · rw [self] at hk; cases hk
      · rw [BufName.other_other, self]; exact nofun
    · obtain ⟨k, hk⟩ := linger (by simpa using ht)
      rcases n.eq_or_other k with rfl | rfl
      · rw [hn] at hk; cases hk
      · exact ⟨_, by rw [other]; exact hk⟩
  case flight =>
    have idle (k : BufName) : ((applyRowPass n d s).rp.buf k).state ≠ .inFlight := by
      rcases n.eq_or_other k with rfl | rfl
      · rw [self]; exact nofun
      · rw [other]; exact f.single n hn
    refine ⟨⟨fun k hk => absurd hk (idle k), fun k d hd => ?_⟩, fun k hk => absurd hk (idle k)⟩
    rcases n.eq_or_other k with rfl | rfl
    · rw [self] at hd; cases hd
    · rw [other] at hd; exact f.rows _ d hd
  case marks =>
    obtain ⟨bufs, -, -⟩ := (buffersOk_iff s).1 ok
    obtain ⟨i, hi, first, last⟩ := m.lastBuffer_of_sent ok hn
    rw [BufName.other_other] at first
    obtain ⟨-, reaches, -⟩ := RowBuffer.bounds_of_range first ((bufs n).records_ne (by rw [hn]; decide))
    have passed := m.durable
    refine ⟨?_, ?_, by rw [nextSeq]; exact m.next, ?_, fun k hk => ?_, fun k hk => ?_, fun x hx => ?_, nofun⟩
    · rw [cu, durable]
      have := calm.oldest.trans_le m.oldest
      omega
    · rw [durable, nextSeq]; omega
    · rw [Rp.staged_iff (by rw [durable, nextSeq]; omega)]
      refine ⟨n.other, 0, by rw [durable, nextSeq]; omega, by rw [BufName.other_other, self]; rfl, ?_⟩
      rw [other, durable, nextSeq, reaches, Nat.add_zero]
      exact last
    · rcases n.eq_or_other k with rfl | rfl
      · rw [self] at hk; cases hk
      · rw [other] at hk; exact absurd hk (f.single n hn)
    · rcases n.eq_or_other k with rfl | rfl
      · rw [self] at hk; cases hk
      · rw [other] at hk ⊢; rw [nextSeq]; exact m.filling _ hk
    · rw [cu] at hx ⊢
      rw [durable]
      have := (calm.entries c x).trans (m.members x (calm.order x hx))
      omega

theorem rowPassed_lands (hf : s.ec.engine ≠ .faulted) : Lands s (rowPassed n d s) := by
  have handed := (applyRowPass_lands (d := d) hn).trans (handClosed_moves (by simpa using hf))
  unfold rowPassed
  refine Carries.trans ?_ ((calm_answerReached _).moves.trans (reexamineBuffer_moves _))
  split
  · exact handed.trans (calm_closeSegment _ _).moves
  · exact handed

theorem rowPass_lands (hf : s.ec.engine ≠ .faulted) : Lands s (rowPass n d s) := by
  unfold rowPass
  dsimp only
  split
  · exact (rowPassed_lands hn hf).trans (calm_ruJudge _).moves
  · exact (rowPassed_lands hn hf).trans (judgeChange_moves _ _)

end

/-! ### Relocation (R102 to R107) -/

/-- A buffer is aimed at another row (R104). -/
theorem redest_keeps {k : BufName} {dst : Dest} (hk : (s.rp.buf k).state ≠ .empty) (row : dst.row ≤ 62) :
    Keeps s (setBuf k { s.rp.buf k with dest := some dst } s) := by
  have buf (j : BufName) := setBuf_buf_eq k j { s.rp.buf k with dest := some dst } s
  have same (j : BufName) : ∃ x, (setBuf k { s.rp.buf k with dest := some dst } s).rp.buf j = { s.rp.buf j with dest := x } := by
    rw [buf]; split
    next e => rw [e]; exact ⟨_, rfl⟩
    · exact ⟨_, rfl⟩
  refine ⟨fun ok => ?buffers, fun _ f => ⟨fun j hj => ?_, fun j d hd => ?_⟩, fun _ c => by simpa [CatalogOk] using c,
    fun _ _ _ m => ?marks⟩
  case buffers =>
    rw [buffersOk_iff] at ok ⊢
    obtain ⟨bufs, single, linger⟩ := ok
    refine ⟨fun j => ?_, fun j hj => ?_, fun ht => ?_⟩
    · rw [buf]
      split
      · exact ⟨(bufs k).records, by simp [hk]⟩
      · exact bufs j
    · obtain ⟨x, e⟩ := same j
      obtain ⟨y, e'⟩ := same j.other
      rw [e] at hj
      rw [e']
      exact single j hj
    · obtain ⟨j, hj⟩ := linger (by simpa using ht)
      obtain ⟨x, e⟩ := same j
      exact ⟨j, by rw [e]; exact hj⟩
  · obtain ⟨x, e⟩ := same j
    obtain ⟨y, e'⟩ := same j.other
    rw [e] at hj
    rw [e']
    exact f.single j hj
  · rw [buf] at hd
    split at hd
    · cases hd; exact row
    · exact f.rows j d hd
  case marks =>
    have seqs (j : BufName) : ((setBuf k { s.rp.buf k with dest := some dst } s).rp.buf j).seqs = (s.rp.buf j).seqs := by
      obtain ⟨x, e⟩ := same j
      rw [e]; rfl
    refine ⟨by simpa using m.oldest, by simpa using m.durable, by simpa using m.next, ?_, fun j hj => ?_, fun j hj => ?_,
      by simpa using m.members, by simpa using m.replacing⟩
    · rw [Rp.staged_iff (by simpa using m.durable)]
      simpa [Rp.LastBuffer, seqs] using m.lastBuffer
    · obtain ⟨x, e⟩ := same j
      rw [e] at hj ⊢
      exact (m.sent j hj).trans (by simp)
    · obtain ⟨x, e⟩ := same j
      rw [e] at hj ⊢
      exact (m.filling j hj).trans (by simp)

theorem reaimOther_keeps (n : BufName) (seg : Nat) (s : State) : Keeps s (reaimOther n seg s) := by
  unfold reaimOther
  dsimp only
  split
  next hk =>
    refine (redest_keeps (k := n.other) (dst := { seg := seg, row := 1 }) ?_ (by simp)).trans (Calm.keeps (.of_core rfl rfl rfl))
    rcases hk with e | e <;> rw [e] <;> decide
  · exact .refl s

theorem reaimOther_self (n : BufName) (seg : Nat) (s : State) : (reaimOther n seg s).rp.buf n = s.rp.buf n := by
  unfold reaimOther
  dsimp only
  split
  · cases n <;> rfl
  · rfl

/-- The relocation record is set for a replacement that begins at durable_mark + 1 at the latest (R102). -/
theorem setRelocation_keeps {r : Relocation}
    (hr : BuffersOk s → RunningMarks s → 1 ≤ r.firstSeq ∧ r.firstSeq ≤ s.rp.durable + 1) :
    Keeps s { s with rp := { s.rp with relocation := some r } } :=
  ⟨fun ok => ⟨ok.bufA, ok.bufB, ok.single, ok.linger⟩, fun _ f => ⟨f.single, f.rows⟩, fun _ c => c, fun ok _ _ m =>
    { oldest := m.oldest, durable := m.durable, next := m.next, staged := m.staged, sent := m.sent, filling := m.filling
      members := m.members
      replacing := fun x hx => by cases hx; exact hr ok m }⟩

section
variable (hn : (s.rp.buf n).state = .inFlight) (hf : s.ec.engine ≠ .faulted)
include hn

/-- The buffer IN_FLIGHT begins at durable_mark + 1 (R48). -/
theorem RunningMarks.firstSeq_of_sent (m : RunningMarks s) :
    1 ≤ (s.rp.buf n).firstSeq ∧ (s.rp.buf n).firstSeq ≤ s.rp.durable + 1 := by
  rw [m.sent n hn]; omega

include hf

/-- The buffer whose program failed is handed over again as row 0 of the replacement (R103, R104). -/
theorem takeReplacement_lands {seg q : Nat} (hq : BuffersOk s → RunningMarks s → q ≤ s.rp.durable + 1) :
    Lands s (takeReplacement n seg q s) := by
  have joined : Keeps s (openFresh seg 1 (joinSegment seg q s)) :=
    (joinSegment_carries (fun f => f.of_rp (by simp)) fun ok _ m => hq ok m).trans (calm_openFresh seg 1 _).keeps
  have buf : (openFresh seg 1 (joinSegment seg q s)).rp.buf n = s.rp.buf n := by cases n <;> simp [Rp.buf]
  unfold takeReplacement
  extract_lets s1 b1 s2
  have aimed : Keeps s1 s2 := redest_keeps (by rw [buf, hn]; decide) (Nat.zero_le _)
  have self : (reaimOther n seg s2).rp.buf n = { s.rp.buf n with dest := some { seg := seg, row := 0 } } := by
    rw [reaimOther_self, setBuf_buf, show b1 = s.rp.buf n from buf]
  have engine : (reaimOther n seg s2).ec.engine ≠ .faulted := by simpa [s2, s1] using hf
  refine ((joined.trans aimed).trans (reaimOther_keeps n seg s2)).trans ?_
  have restated : restate n .inFlight (reaimOther n seg s2) = reaimOther n seg s2 := by
    unfold restate
    rw [show ({ (reaimOther n seg s2).rp.buf n with state := .inFlight } : RowBuffer) = (reaimOther n seg s2).rp.buf n by
      rw [self, ← hn]]
    cases n <;> rfl
  obtain ⟨same, flies⟩ := handBuffer_restates (n := n) engine (by rw [self]) (Nat.zero_le _)
  rw [restated] at same
  exact ⟨same.buffersOk, fun _ f => ⟨same.rowsOk f, fun _ _ => flies⟩, fun _ => same.catalog, fun _ _ => same.runningMarks⟩

theorem relocate_lands : Lands s (relocate n d s) := by
  unfold relocate
  extract_lets first s1 rp1 s2
  have cut : Calm s s1 := calm_claimCut _ _ s
  have buf : s2.rp.buf n = s.rp.buf n := by cases n <;> rfl
  have begun : Keeps s s2 := cut.keeps.trans
    (setRelocation_keeps fun _ m => RunningMarks.firstSeq_of_sent (s := s1) (n := n) (by cases n <;> exact hn) m)
  split
  · split
    · refine begun.trans (takeReplacement_lands (by rw [buf, hn]) (by simpa [s2, s1] using hf) fun ok m => ?_)
      exact (m.replacing _ rfl).2
    · exact begun.trans (enterReadOnly_lands s2)
  · exact begun.trans (enterReadOnly_lands s2)

theorem relocateAgain_lands {r : Relocation} (hr : s.rp.relocation = some r) : Lands s (relocateAgain n r d s) := by
  have readOnly : Lands s (enterReadOnly (claimCut d.seg 0 s)) :=
    (calm_claimCut _ _ s).keeps.trans (enterReadOnly_lands _)
  unfold relocateAgain
  split
  · split
    · refine (calm_claimRetireLast d.seg s).keeps.trans (takeReplacement_lands ?_ (by simpa using hf) fun ok m => ?_)
      · cases n <;> simpa [Rp.buf] using hn
      · exact (m.replacing r (by simpa using hr)).2
    · exact readOnly
  · exact readOnly

theorem rowFail_lands : Lands s (rowFail n d s) := by
  unfold rowFail
  dsimp only
  split
  · exact (relocate_lands hn hf).trans (calm_ruJudge _).moves
  · exact (relocate_lands hn hf).trans (react_moves _)

theorem replacementFail_lands {r : Relocation} (hr : s.rp.relocation = some r) : Lands s (replacementFail r n d s) := by
  unfold replacementFail
  dsimp only
  split
  · exact (relocateAgain_lands hn hf hr).trans (calm_ruJudge _).moves
  · exact (relocateAgain_lands hn hf hr).trans (react_moves _)

end

/-- The completion of any operation keeps what does not speak of the die queues. -/
theorem completeOp_keeps (c : Fin 4) (s : State) : Keeps s (completeOp c s) :=
  ⟨fun ok => ok.of_rp (by simp), fun _ f => f.of_rp (by simp), fun _ c => by simpa [CatalogOk] using c,
    fun _ _ _ m => m.of_rp (by simp) (by simp)⟩

/-! ### Removal (R91) -/

/-- The next member becomes the head and gives oldest_seq. -/
theorem claimRemoval_moves (seg : Nat) (s : State) : Moves s (claimRemoval seg s) := by
  have cut : Calm s (setEntry seg { s.cu.entry seg with state := .erasing } s) := .setEntry (Nat.le_refl _)
  refine cut.moves.trans ⟨fun ok => ok.of_rp rfl, fun _ f => f.of_rp rfl rfl, fun _ c => c, fun _ _ _ m => ?_⟩
  refine ⟨?_, m.durable, m.next, m.staged, m.sent, m.filling, fun x hx => m.members x (List.mem_of_mem_tail hx), m.replacing⟩
  show (match (setEntry seg { s.cu.entry seg with state := .erasing } s).cu.orderList.tail with
    | h :: _ => ((setEntry seg { s.cu.entry seg with state := .erasing } s).cu.entry h).firstSeq
    | [] => (setEntry seg { s.cu.entry seg with state := .erasing } s).cu.oldest) ≤ _
  split
  next h rest e => exact m.members h (List.mem_of_mem_tail (by rw [e]; exact List.mem_cons_self))
  · exact m.oldest

end Sys2Proof.Machine
end

section
/-!
SUPPORT. What a command keeps of the laws of paths, buffers and marks (R36, R41, R48, R59, R179), and the ways commands keep it.
-/
namespace Sys2Proof.Machine

-- One proof at a time, as in the tests: proofs checked side by side need more threads than the limits allow.
set_option Elab.async false

variable {s t u : State} {p : Prop} {c : Fin 4} {op : FlashOp}

/-! ### What is kept -/

/-- The laws of the append path across the engine states, but for the quiet flags, which every step sets anew. -/
structure PathsHeld (s : State) : Prop where
  appendIdle : s.ec.engine.running = false → s.ec.engine ≠ .formatting → AppendIdle s
  formatting : s.ec.engine = .formatting → AppendIdle s ∨ (s.ec.step = .formatWait ∧ recordRowInFlight s = true)

/-- From `s` to `t` the laws of paths, buffers and marks are kept, the last where `p` holds. -/
structure LawsKept (p : Prop) (s t : State) : Prop where
  paths : PathsOk s → PathsHeld t
  buffers : BuffersOk s → BuffersOk t
  flight : PathsOk s → BuffersOk s → InFlightOk s → InFlightOk t
  marks : BuffersOk s → InFlightOk s → CatalogOk s → MarksOk s → p → MarksOk t

theorem LawsKept.mono {q : Prop} (h : LawsKept p s t) (of : q → p) : LawsKept q s t :=
  ⟨h.paths, h.buffers, h.flight, fun b f c m hq => h.marks b f c m (of hq)⟩

/-- What the marks see of the EC. -/
def Ec.procedure (e : Ec) : EngineState × ProcStep × List Candidate × List Candidate × List Member :=
  (e.engine, e.step, e.candidates, e.scanHeld, e.members)

/-! ### The law of the marks by engine state -/

theorem MarksOk.of_running (h : t.ec.engine.running = true) (m : RunningMarks t) : MarksOk t := by
  have formatting : t.ec.engine ≠ .formatting := fun e => by rw [e] at h; exact absurd h (by decide)
  have mounting : t.ec.engine ≠ .mounting := fun e => by rw [e] at h; exact absurd h (by decide)
  exact ⟨fun _ => m, fun e => absurd e formatting, fun e => absurd e formatting, fun e => absurd e mounting,
    fun e => absurd e mounting, fun e => absurd e mounting, fun e => absurd e mounting⟩

theorem MarksOk.of_down (hr : t.ec.engine.running = false) (formatting : t.ec.engine ≠ .formatting)
    (mounting : t.ec.engine ≠ .mounting) : MarksOk t :=
  ⟨fun e => absurd e (by rw [hr]; decide), fun e => absurd e formatting, fun e => absurd e formatting, fun e => absurd e mounting,
    fun e => absurd e mounting, fun e => absurd e mounting, fun e => absurd e mounting⟩

theorem MarksOk.of_formatting (engine : t.ec.engine = .formatting) (empty : t.ec.step ≠ .formatHeader → t.cu.orderList = [])
    (header : ∀ m ∈ t.cu.orderList, (t.cu.entry m).firstSeq ≤ 1) : MarksOk t := by
  have mounting : t.ec.engine ≠ .mounting := by rw [engine]; decide
  exact ⟨fun e => by rw [engine] at e; exact absurd e (by decide), fun _ => empty, fun _ => header, fun e => absurd e mounting,
    fun e => absurd e mounting, fun e => absurd e mounting, fun e => absurd e mounting⟩

/-- A FORMAT whose order list is empty. -/
theorem MarksOk.of_formatEmpty (engine : t.ec.engine = .formatting) (empty : t.cu.orderList = []) : MarksOk t :=
  .of_formatting engine (fun _ => empty) (by simp [empty])

section
variable (engine : t.ec.engine = .mounting)
include engine

theorem MarksOk.of_scan (step : t.ec.step = .scan)
    (scanned : ∀ c ∈ t.ec.candidates ++ t.ec.scanHeld, 1 ≤ c.header.firstSeq ∧ c.trailer.firstSeq = c.header.firstSeq)
    (bounded : ∀ c ∈ t.ec.candidates, c.trailer.lastSeq ≤ maxSeq) : MarksOk t where
  running e := by rw [engine] at e; exact absurd e (by decide)
  formatEmpty e := by rw [engine] at e; cases e
  formatHeader e := by rw [engine] at e; cases e
  scanned _ _ := scanned
  bounded _ _ := bounded
  extents _ e := by rw [step] at e; cases e
  kept _ e := by rw [step] at e; rcases e with e | e <;> cases e

theorem MarksOk.of_memberRead (step : t.ec.step = .memberRead) (extents : ∀ m ∈ t.ec.members, m.ok) : MarksOk t where
  running e := by rw [engine] at e; exact absurd e (by decide)
  formatEmpty e := by rw [engine] at e; cases e
  formatHeader e := by rw [engine] at e; cases e
  scanned _ e := by rw [step] at e; cases e
  bounded _ e := by rw [step] at e; cases e
  extents _ _ := extents
  kept _ e := by rw [step] at e; rcases e with e | e <;> cases e

theorem MarksOk.of_kept (step : t.ec.step = .erase ∨ t.ec.step = .build)
    (kept : ∀ z, t.ec.members.getLast? = some z →
      z.lastSeq ≤ maxSeq ∧ ∀ m ∈ t.ec.members, 1 ≤ m.header.firstSeq ∧ m.header.firstSeq ≤ z.lastSeq + 1) : MarksOk t where
  running e := by rw [engine] at e; exact absurd e (by decide)
  formatEmpty e := by rw [engine] at e; cases e
  formatHeader e := by rw [engine] at e; cases e
  scanned _ e := by rw [e] at step; rcases step with step | step <;> cases step
  bounded _ e := by rw [e] at step; rcases step with step | step <;> cases step
  extents _ e := by rw [e] at step; rcases step with step | step <;> cases step
  kept _ _ := kept

end

/-- A procedure's marks see the EC and, but for RUNNING states, the order list with the first sequences of its members. -/
theorem MarksOk.of_procedure (m : MarksOk s) (ec : t.ec.procedure = s.ec.procedure)
    (running : s.ec.engine.running = true → RunningMarks t) (order : ∀ x ∈ t.cu.orderList, x ∈ s.cu.orderList)
    (entries : ∀ x, (t.cu.entry x).firstSeq ≤ (s.cu.entry x).firstSeq) : MarksOk t := by
  simp only [Ec.procedure, Prod.mk.injEq] at ec
  obtain ⟨engine, step, candidates, scanHeld, members⟩ := ec
  exact
    { running := fun e => running (by rwa [engine] at e)
      formatEmpty := fun e x => List.eq_nil_iff_forall_not_mem.2 fun y hy => by
        have old := order y hy
        rw [m.formatEmpty (by rwa [engine] at e) (by rwa [step] at x)] at old
        cases old
      formatHeader := fun e x hx => (entries x).trans (m.formatHeader (by rwa [engine] at e) x (order x hx))
      scanned := by rw [engine, step, candidates, scanHeld]; exact m.scanned
      bounded := by rw [engine, step, candidates]; exact m.bounded
      extents := by rw [engine, step, members]; exact m.extents
      kept := by rw [engine, step, members]; exact m.kept }

/-! ### Ways to keep the laws -/

/-- The catalog is in use before and after. -/
theorem LawsKept.of_moves (hs : s.ec.engine.running = true) (engine : t.ec.engine.running = true) (h : Moves s t) :
    LawsKept p s t where
  paths _ := ⟨fun e => absurd e (by rw [engine]; decide), fun e => by rw [e] at engine; exact absurd engine (by decide)⟩
  buffers := h.buffers
  flight _ b f := (inFlightOk_iff t).2 ⟨h.flight b ((inFlightOk_iff s).1 f).1, fun e => by rw [engine] at e; cases e⟩
  marks b f c m _ := .of_running engine (h.marks b ((inFlightOk_iff s).1 f).1 c (m.running hs))

/-- Nothing the laws speak of changes for the worse, in any engine state. -/
theorem LawsKept.of_calm (h : Calm s t) (ec : t.ec.procedure = s.ec.procedure := by simp)
    (idle : AppendIdle s → AppendIdle t := by simp [AppendIdle]) : LawsKept p s t := by
  have same := ec
  simp only [Ec.procedure, Prod.mk.injEq] at same
  obtain ⟨engine, step, -⟩ := same
  refine ⟨fun paths => ⟨fun r f => ?_, fun f => ?_⟩, h.buffersOk, fun _ b f => (inFlightOk_iff t).2 ?_, fun _ _ c m _ => ?_⟩
  · rw [engine] at r f
    exact idle (paths.appendIdle r f)
  · rw [engine] at f
    rw [step]
    exact (paths.formatting f).imp idle (And.imp_right h.inFlight)
  · obtain ⟨flight, cleared⟩ := (inFlightOk_iff s).1 f
    exact ⟨h.flightOk flight, by rw [engine, h.bufA, h.bufB]; exact cleared⟩
  · exact m.of_procedure ec (fun r => h.runningMarks c (m.running r)) h.order (h.entries c)

/-- STOPPING is entered (R59). -/
theorem enterStopping_moves (s : State) : Moves s (enterStopping s) ∧ (enterStopping s).ec.engine = .stopping := by
  unfold enterStopping
  extract_lets ec1 s1 s2
  have stopped : Calm s s1 := .of_core rfl rfl rfl
  have answered : Calm s1 s2 ∧ s2.ec = s1.ec := by
    cases h : s1.rp.served with
    | none => simp only [s2, h]; exact ⟨.refl s1, trivial⟩
    | some v =>
      simp only [s2, h]
      split
      · exact ⟨.refl s1, rfl⟩
      · exact ⟨calm_answerServed _ s1, by simp⟩
  have engine : s2.ec.engine = .stopping := by rw [answered.2]
  exact ⟨(stopped.trans answered.1).moves.trans (closeFilling_moves (by rw [engine]; decide)), by simpa using engine⟩

theorem LawsKept.refl (s : State) : LawsKept p s s := .of_calm (.refl s) rfl id

theorem InFlightOk.of_rp (f : InFlightOk s) (rp : t.rp = s.rp) (fs : t.fs = s.fs) (engine : t.ec.engine = s.ec.engine) :
    InFlightOk t := by
  obtain ⟨flight, idle⟩ := (inFlightOk_iff s).1 f
  exact (inFlightOk_iff t).2 ⟨flight.of_rp rp fs, by rwa [rp, engine]⟩

/-- Before, the laws see RP, CU, FS and EC and the conditions of the quiet flags alone. -/
theorem LawsKept.of_alike (rp : u.rp = s.rp) (cu : u.cu = s.cu) (fs : u.fs = s.fs) (ec : u.ec = s.ec)
    (quiet : quietNow u = quietNow s) (h : LawsKept p u t) : LawsKept p s t := by
  have paths (k : PathsOk s) : PathsOk u := by
    obtain ⟨appendIdle, formatting, flags⟩ := k
    exact ⟨by rwa [AppendIdle, rp, ec], by rwa [AppendIdle, rp, ec, recordRowInFlight_of_fs fs], by rwa [ec, quiet]⟩
  have flight (f : InFlightOk s) : InFlightOk u := f.of_rp rp fs (by rw [ec])
  have marks (m : MarksOk s) : MarksOk u :=
    m.of_procedure (by rw [ec]) (fun r => (m.running r).of_rp rp cu) (by rw [cu]; exact fun _ => id)
      (by rw [cu]; exact fun _ => Nat.le_refl _)
  exact ⟨fun k => h.paths (paths k), fun b => h.buffers (b.of_rp rp), fun k b f => h.flight (paths k) (b.of_rp rp) (flight f),
    fun b f c m => h.marks (b.of_rp rp) (flight f) (by rwa [CatalogOk, cu]) (marks m)⟩

/-- The laws do not see the quiet flags that end a step. -/
theorem LawsKept.settle (h : LawsKept p s t) : LawsKept p s (settle t) := by
  obtain ⟨q, e⟩ := settle_eq t
  rw [e]
  refine ⟨fun k => ?_, fun b => (h.buffers b).of_rp rfl, fun k b f => (h.flight k b f).of_rp rfl rfl rfl, fun b f c m hp => ?_⟩
  · obtain ⟨appendIdle, formatting⟩ := h.paths k
    exact ⟨appendIdle, formatting⟩
  · have kept := h.marks b f c m hp
    exact kept.of_procedure rfl (fun r => (kept.running r).of_rp rfl rfl) (fun _ => id) fun _ => Nat.le_refl _

/-- After, the append path is idle and both buffers are EMPTY. -/
theorem LawsKept.of_idle (idle : PathsOk s → AppendIdle t)
    (buffers : BuffersOk s → BuffersOk t) (empty : PathsOk s → BuffersOk s → InFlightOk s → ∀ k, t.rp.buf k = .cleared)
    (marks : CatalogOk s → MarksOk s → p → MarksOk t) : LawsKept p s t :=
  ⟨fun k => ⟨fun _ _ => idle k, fun _ => .inl (idle k)⟩, buffers, fun k b f => inFlightOk_of_cleared (empty k b f),
    fun _ _ c m => marks c m⟩

/-- A procedure goes on, with the buffers and the linger timer as they were. -/
theorem LawsKept.of_procedure (hs : s.ec.engine.running = false)
    (rp : t.rp.bufA = s.rp.bufA ∧ t.rp.bufB = s.rp.bufB ∧ t.rp.lingerTimer = s.rp.lingerTimer)
    (idle : PathsOk s → AppendIdle t) (marks : CatalogOk s → MarksOk s → p → MarksOk t) : LawsKept p s t := by
  obtain ⟨bufA, bufB, linger⟩ := rp
  refine .of_idle idle (fun ok => ?_) (fun _ _ f k => ?_) marks
  · obtain ⟨a, b, single, timer⟩ := ok
    exact ⟨by rwa [bufA], by rwa [bufB], by rwa [bufA, bufB], by rw [linger, Rp.find, bufA, bufB]; exact timer⟩
  · obtain ⟨a, b⟩ := f.idle hs
    cases k
    · exact bufA.trans a
    · exact bufB.trans b

/-- The packer is emptied and the engine is in none of the states that use the catalog or build it. -/
theorem LawsKept.of_emptied (hr : t.ec.engine.running = false) (formatting : t.ec.engine ≠ .formatting)
    (mounting : t.ec.engine ≠ .mounting) (empty : PackerEmpty t) (idle : AppendIdle t) : LawsKept p s t :=
  .of_idle (fun _ => idle) (fun _ => empty.buffersOk) (fun _ _ _ => empty.buf)
    fun _ _ _ => .of_down hr formatting mounting

/-- The catalog comes into use with an empty packer. -/
theorem LawsKept.of_loaded (empty : PackerEmpty u) (engine : t.ec.engine.running = true) (h : Moves u t)
    (catalog : CatalogOk s → CatalogOk u) (marks : CatalogOk s → MarksOk s → p → RunningMarks u) : LawsKept p s t where
  paths _ := ⟨fun e => absurd e (by rw [engine]; decide), fun e => by rw [e] at engine; exact absurd engine (by decide)⟩
  buffers _ := h.buffers empty.buffersOk
  flight _ _ _ := (inFlightOk_iff t).2 ⟨h.flight empty.buffersOk empty.flightOk, fun e => by rw [engine] at e; cases e⟩
  marks _ _ c m hp := .of_running engine (h.marks empty.buffersOk empty.flightOk (catalog c) (marks c m hp))

/-! ### The reactions of RU and RP -/

theorem ruJudge_of_idle (h : s.ec.engine.running = false) : ruJudge s = s :=
  if_neg fun k => by rw [h] at k; exact Bool.false_ne_true k.1

theorem reexamineSpace_of_idle (h : s.ec.engine.running = false) : reexamineSpace s = s := by
  unfold reexamineSpace
  split
  · exact if_neg fun k => by rw [h] at k; exact Bool.false_ne_true k.2
  · rfl

theorem react_of_idle (h : s.ec.engine.running = false) : react s = s := by
  rw [react, ruJudge_of_idle h, reexamineSpace_of_idle h, ruJudge_of_idle h]

theorem LawsKept.react (h : Calm s u) (ec : u.ec.procedure = s.ec.procedure := by simp)
    (idle : AppendIdle s → AppendIdle u := by simp [AppendIdle]) : LawsKept p s (react u) := by
  have engine : u.ec.engine = s.ec.engine := congrArg Prod.fst ec
  cases hr : s.ec.engine.running with
  | true => exact .of_moves hr (by simpa [engine] using hr) (h.moves.trans (react_moves u))
  | false => rw [react_of_idle (by rwa [engine])]; exact .of_calm h ec idle

theorem LawsKept.reactPin (old : State) (h : Calm s u) (ec : u.ec.procedure = s.ec.procedure := by simp)
    (idle : AppendIdle s → AppendIdle u := by simp [AppendIdle]) : LawsKept p s (reactPin old u) := by
  unfold Machine.reactPin
  split
  · exact .of_calm h ec idle
  · exact .react h ec idle

/-! ### Operations aside of the append path -/

/-- Neither RP nor CU nor EC changes, and no record row joins or leaves the die queues. -/
structure Aside (s t : State) : Prop where
  rp : t.rp = s.rp := by simp
  cu : t.cu = s.cu := by simp
  ec : t.ec = s.ec := by simp
  fs : t.fs.has FlashOp.isRecordRow = s.fs.has FlashOp.isRecordRow := by simp

theorem Aside.refl (s : State) : Aside s s := ⟨rfl, rfl, rfl, rfl⟩

theorem Aside.trans (h : Aside s t) (k : Aside t u) : Aside s u :=
  ⟨k.rp.trans h.rp, k.cu.trans h.cu, k.ec.trans h.ec, k.fs.trans h.fs⟩

theorem Aside.calm (h : Aside s t) : Calm s t := .of_eq h.rp h.cu h.fs

theorem Aside.appendIdle (h : Aside s t) (idle : AppendIdle s) : AppendIdle t := by rwa [AppendIdle, h.rp]

theorem Aside.kept (h : Aside s t) : LawsKept p s t := .of_calm h.calm (by rw [h.ec]) h.appendIdle

theorem Aside.reactPin (h : Aside s u) (old : State) : LawsKept p s (reactPin old u) :=
  .reactPin old h.calm (by rw [h.ec]) h.appendIdle

/-- The completion of an operation that is no record row. -/
theorem aside_completeOp (head : (s.fs.die c).queue.head? = some op) (h : op.isRecordRow = false) : Aside s (completeOp c s) :=
  { fs := recordRows_completeOp head h }

theorem aside_completeOp_of_source (h : s.fs.ending = some (c, op)) (source : op.source ≠ .packer) : Aside s (completeOp c s) :=
  aside_completeOp (Fs.head_of_ending h) (FlashOp.isRecordRow_eq_false source)

/-! ### Takes -/

theorem calm_takeHead (path : CardPath) (c : CardIx) (s : State) : Calm s (takeHead path c s) := .of_eq

/-- Everything a take does short of serving a card. -/
theorem LawsKept.pathTake {path : CardPath} {free : Bool} {mine : Work → Bool} {always : Bool}
    {serve : CardIx → Work → State → State}
    (serves : ∀ c w, s.ec.engine = .ready ∨ always = true → LawsKept p s (serve c w (takeHead path c s))) :
    LawsKept p s (pathTake path free mine always serve s) :=
  pathTake_ind (.refl s) (fun _ _ _ _ _ => .of_calm .of_eq) fun c _ _ _ _ h => serves c _ h

/-- A kind that READY alone serves. -/
theorem LawsKept.take {path : CardPath} {free : Bool} {mine : Work → Bool} {serve : CardIx → Work → State → State}
    (ec : ∀ c w u, (serve c w u).ec = u.ec) (moves : ∀ c w u, u.ec.engine = .ready → Moves u (serve c w u)) :
    LawsKept p s (Machine.pathTake path free mine false serve s) := by
  refine .pathTake fun c w h => ?_
  have ready : s.ec.engine = .ready := h.resolve_right nofun
  have taken : (takeHead path c s).ec.engine = .ready := by simpa using ready
  exact .of_moves (by rw [ready]; rfl) (by rw [ec, taken]; rfl) ((calm_takeHead path c s).moves.trans (moves c w _ taken))

/-! ### The result of a record row program -/

theorem Carries.of_lands (h : Lands s t) : Moves s t :=
  ⟨h.buffers, fun b f => h.flight b f.rows, h.catalog, fun b f => h.marks b f.rows⟩

/-- While nothing is IN_FLIGHT any operation may complete. -/
theorem completeOp_moves (c : Fin 4) (none_ : s.rp.find .inFlight = none) : Moves s (completeOp c s) :=
  ((completeOp_keeps c s).trans ⟨id, fun _ f => ⟨f, fun k hk => absurd hk (Rp.find_eq_none.1 (by simpa using none_) k)⟩,
    fun _ => id, fun _ _ _ => id⟩ : Lands s (completeOp c s)) |>.of_lands

/-- The completion of a record row outside READY and STOPPING. -/
theorem MarksOk.completeOp (m : MarksOk s) (hs : s.ec.engine.running = false) (c : Fin 4) : MarksOk (completeOp c s) :=
  m.of_procedure (by simp) (fun e => by rw [hs] at e; cases e) (by simp) (by simp)

theorem abortAppend_idle (s : State) : AppendIdle (abortAppend s) := by
  unfold abortAppend
  obtain ⟨x, e⟩ := answerAppend_eq .abortedFormat s
  rw [e]
  exact ⟨rfl, rfl⟩

theorem LawsKept.recordRowResult {use : BufName → Dest → State → State} (ec : ∀ n d u, (use n d u).ec = u.ec)
    (lands : s.ec.engine.running = true → ∀ n d u, (u.rp.buf n).state = .inFlight → u.ec.engine ≠ .faulted → u.rp.relocation = s.rp.relocation →
      Lands u (use n d u)) : LawsKept p s (recordRowResult use s) := by
  unfold Machine.recordRowResult
  split
  · exact .refl s
  next c op _ =>
    split
    · dsimp only
      split
      next hr =>
        have running : s.ec.engine.running = true := by simpa using hr
        split
        next none_ => exact .of_moves running hr (completeOp_moves c (by simpa using none_))
        next n hn =>
          have sent := Rp.state_of_find hn
          split
          next noDest =>
            refine .of_moves running hr (.of_buffersOk fun ok => ?_)
            obtain ⟨bufs, -, -⟩ := (buffersOk_iff _).1 ((completeOp_keeps c s).buffers ok)
            obtain ⟨d, hd⟩ := (bufs n).dest_ne (by rw [sent]; decide)
            rw [noDest] at hd
            cases hd
          next d _ =>
            refine .of_moves running (by rwa [ec]) (Carries.of_lands ((completeOp_keeps c s).trans ?_))
            exact lands running n d _ sent (notFaulted_of_running hr) (by simp)
      next hr =>
        have idle : s.ec.engine.running = false := by simpa using hr
        split
        next formatting =>
          refine .of_procedure idle (by simp) (fun _ => abortAppend_idle _) fun _ m _ => ?_
          exact (m.completeOp idle c).of_procedure (by simp) (fun e => absurd e hr) (by simp) (by simp)
        next formatting =>
          exact .of_procedure idle (by simp)
            (fun k => by simpa [AppendIdle] using k.appendIdle idle (by simpa using formatting)) fun _ m _ => m.completeOp idle c
    · exact .refl s

end Sys2Proof.Machine
end

section
/-!
SUPPORT. What a mount and a FORMAT keep of the laws of paths, buffers and marks (R36, R160 to R168, R170 to R172).
-/
namespace Sys2Proof.Machine

-- One proof at a time, as in the tests: proofs checked side by side need more threads than the limits allow.
set_option Elab.async false

variable {s t u : State} {p : Prop} {seg : Nat} {m : Member} {c : Candidate}

/-! ### The scan (R160, R161) -/

theorem PathsOk.idle_of_mounting (k : PathsOk s) (he : s.ec.engine = .mounting) (served : t.rp.served = s.rp.served)
    (waitList : t.rp.waitList = s.rp.waitList) : AppendIdle t := by
  obtain ⟨a, b⟩ := k.mountingIdle he
  exact ⟨served.trans a, waitList.trans b⟩

/-- A candidate of the scan as the marks need it: its sequences begin at 1 or above, and its trailer begins with it. -/
def Candidate.ok (c : Candidate) : Prop := 1 ≤ c.header.firstSeq ∧ c.trailer.firstSeq = c.header.firstSeq

theorem candidate_ok_of_possible {r : ReadSpare} (h : possibleCandidate seg r = true) :
    Candidate.ok { seg := seg, header := Header.parse r.spare1, trailer := Trailer.parse r.spare0 } := by
  obtain ⟨⟨-, -, -, -, first, -⟩, -, -, same, -⟩ := (possibleCandidate_iff seg r).1 h
  exact ⟨first, same⟩

theorem scanTrailers_step (seg : Nat) (r : ReadSpare) (s : State) : (scanTrailers seg r s).ec.step = s.ec.step := by
  unfold scanTrailers
  dsimp only
  (repeat' split) <;> simp

/-- R161: a read of the trailers adds no candidate; what it holds back for row 0 is a possible candidate. -/
theorem scanTrailers_candidates (seg : Nat) (r : ReadSpare) (s : State) :
    (scanTrailers seg r s).ec.candidates = s.ec.candidates ∧
      ∀ c ∈ (scanTrailers seg r s).ec.scanHeld, c ∈ s.ec.scanHeld ∨ c.ok := by
  unfold scanTrailers
  split
  · simpa using fun _ => Or.inl
  · split
    · simpa using fun _ => Or.inl
    · split
      · simpa using fun _ => Or.inl
      · split
        next possible =>
          have held : ∀ c ∈ s.ec.scanHeld ++ [{ seg := seg, header := Header.parse r.spare1, trailer := Trailer.parse r.spare0 }],
              c ∈ s.ec.scanHeld ∨ c.ok := fun c hc => (List.mem_append.1 hc).imp id fun h => by
            rw [List.mem_singleton.1 h]; exact candidate_ok_of_possible possible
          dsimp only
          split
          · exact ⟨rfl, held⟩
          · exact ⟨by simp, by simpa using held⟩
        · simpa using fun _ => Or.inl

theorem scanRow0_step (seg : Nat) (r : ReadRow) (s : State) : (scanRow0 seg r s).ec.step = s.ec.step := by
  unfold scanRow0
  dsimp only
  (repeat' split) <;> simp

/-- R161: row 0 of a possible candidate makes it a candidate with the trailer as read, or drops it. -/
theorem scanRow0_candidates (seg : Nat) (r : ReadRow) (s : State) :
    (∀ c ∈ (scanRow0 seg r s).ec.scanHeld, c ∈ s.ec.scanHeld) ∧
      ∀ c ∈ (scanRow0 seg r s).ec.candidates, c ∈ s.ec.candidates ∨
        ∃ x ∈ s.ec.scanHeld, x.seg = seg ∧ c = { seg := seg, header := x.header, trailer := rowTrailer r } := by
  unfold scanRow0
  split
  · simpa using fun _ => Or.inl
  next x hx =>
    have found : x ∈ s.ec.scanHeld ∧ x.seg = seg := ⟨List.mem_of_find?_eq_some hx, by simpa using List.find?_some hx⟩
    have left : ∀ c ∈ s.ec.scanHeld.filter (fun x => x.seg != seg), c ∈ s.ec.scanHeld := fun c hc => List.mem_of_mem_filter hc
    dsimp only
    split
    · simp only [scanNext_frame]
      refine ⟨left, fun c hc => (List.mem_append.1 hc).imp id fun h => ?_⟩
      exact ⟨x, found.1, found.2, List.mem_singleton.1 h⟩
    · simp only [scanNext_frame, classify_frame]
      exact ⟨left, fun c => Or.inl⟩

theorem scanResult_kept (r : FlashRead) (s : State) : LawsKept (readsSound s (.mountScanResult r)) s (scanResult r s) := by
  unfold scanResult
  split
  next h =>
    obtain ⟨engine, step⟩ := h
    have idle : s.ec.engine.running = false := by rw [engine]; rfl
    split
    · exact .refl s
    next d op ending =>
      split
      next seg row x _ act =>
        refine .of_procedure idle (by simp) (fun k => k.idle_of_mounting engine (by simp) (by simp)) fun _ m _ => ?_
        obtain ⟨candidates, held⟩ := scanTrailers_candidates seg x (completeOp d s)
        simp only [completeOp_frame] at candidates held
        have old := m.scanned engine step
        refine .of_scan (by simpa using engine) (by simpa [scanTrailers_step] using step) (fun c hc => ?_)
          (by rw [candidates]; exact m.bounded engine step)
        rw [candidates] at hc
        rcases List.mem_append.1 hc with hc | hc
        · exact old c (List.mem_append_left _ hc)
        · exact (held c hc).elim (fun hc => old c (List.mem_append_right _ hc)) id
      next seg row x source act =>
        refine .of_procedure idle (by simp) (fun k => k.idle_of_mounting engine (by simp) (by simp)) fun _ m sound => ?_
        obtain ⟨last, first⟩ := sound
        obtain ⟨held, candidates⟩ := scanRow0_candidates seg x (countCorrected x (completeOp d s))
        simp only [completeOp_frame, countCorrected_frame] at candidates held
        have old := m.scanned engine step
        have ending' : s.fs.ending = some (d, { source := .engine, act := .readRow seg row }) := by
          rw [ending]; cases op; cases source; cases act; rfl
        refine .of_scan (by simpa using engine) (by simpa [scanRow0_step] using step) (fun c hc => ?_) fun c hc => ?_
        · rcases List.mem_append.1 hc with hc | hc
          · rcases candidates c hc with hc | ⟨y, hy, seg_, rfl⟩
            · exact old c (List.mem_append_left _ hc)
            · obtain ⟨begins, same⟩ := old y (List.mem_append_right _ hy)
              exact ⟨begins, (first d seg row ending' y hy seg_).trans same⟩
          · exact old c (List.mem_append_right _ (held c hc))
        · rcases candidates c hc with hc | ⟨y, -, -, rfl⟩
          · exact m.bounded engine step c hc
          · exact last
      · exact .refl s
  · exact .refl s

/-! ### The members (R163 to R165) -/

theorem mem_insertSerial (c x : Candidate) (cs : List Candidate) : x ∈ insertSerial c cs → x = c ∨ x ∈ cs := by
  induction cs with
  | nil => simp [insertSerial]
  | cons h t ih =>
    unfold insertSerial
    split
    · simp
    · intro hx
      rcases List.mem_cons.1 hx with rfl | hx
      · exact .inr List.mem_cons_self
      · exact (ih hx).imp id (List.mem_cons_of_mem _)

/-- The order by open_serial has the candidates it is made of. -/
theorem mem_sortSerial {cs : List Candidate} (h : c ∈ sortSerial cs) : c ∈ cs := by
  have from_ : ∀ (xs l : List Candidate), c ∈ xs.foldl (fun l c => insertSerial c l) l → c ∈ l ∨ c ∈ xs := by
    intro xs
    induction xs with
    | nil => exact fun l => Or.inl
    | cons x xs ih =>
      intro l hc
      rcases ih _ hc with hc | hc
      · rcases mem_insertSerial x c l hc with rfl | hc
        · exact .inr List.mem_cons_self
        · exact .inl hc
      · exact .inr (List.mem_cons_of_mem _ hc)
  exact (from_ cs [] h).resolve_left nofun

/-- R163: the member a candidate becomes. -/
theorem memberOf_ok (cs : List Candidate) (h : c.ok) (bound : c.trailer.lastSeq ≤ maxSeq) : (memberOf cs c).ok := by
  obtain ⟨first, same⟩ := h
  have last : c.trailer.lastSeq = c.header.firstSeq + c.trailer.count - 1 := by rw [Trailer.lastSeq, same]
  obtain ⟨limit, extent⟩ : ∃ limit, (memberOf cs c).lastSeq =
      if decide (1 ≤ c.trailer.count) ∧ limit ≠ 0 then c.trailer.lastSeq else c.header.firstSeq - 1 := ⟨_, rfl⟩
  obtain ⟨limit', prog⟩ : ∃ limit, (memberOf cs c).prog =
      if limit = 63 then .digestRow else if limit ≤ 1 then .done else .scanRow 1 := ⟨_, rfl⟩
  refine ⟨first, ?_, ?_, fun es hes => ?_⟩
  · show c.header.firstSeq ≤ _
    rw [extent]
    split
    next holds => have := of_decide_eq_true holds.1; omega
    · omega
  · rw [extent]
    split <;> omega
  · rw [prog] at hes
    split at hes
    · cases hes
    · split at hes <;> cases hes

theorem scanEnd_kept (s : State) : LawsKept p s (scanEnd s) := by
  unfold scanEnd
  split
  next h =>
    obtain ⟨engine, step, -⟩ := h
    have idle : s.ec.engine.running = false := by rw [engine]; rfl
    split
    · exact .of_emptied rfl nofun nofun ⟨fun k => by cases k <;> rfl, rfl⟩ ⟨rfl, rfl⟩
    · extract_lets epoch sorted single kept stale dropped s1 ec1
      refine .of_procedure idle (by simp [s1]) (fun k => k.idle_of_mounting engine (by simp [s1]) (by simp [s1])) fun _ m _ => ?_
      refine .of_memberRead (by simpa [s1, ec1] using engine) (by simp) fun x hx => ?_
      obtain ⟨c, hc, rfl⟩ := List.mem_map.1 (by simpa using hx)
      have candidate : c ∈ s.ec.candidates :=
        List.mem_of_mem_filter (mem_sortSerial (List.mem_of_mem_filter (List.mem_of_mem_filter hc)))
      exact memberOf_ok kept (m.scanned engine step c (List.mem_append_left _ candidate)) (m.bounded engine step c candidate)
  · exact .refl s

/-- In a digest that chains no entry begins before the first. -/
theorem digestChain_rises {es : List DigestEntry} (h : digestChain es = true) {a b : DigestEntry} (ha : es.head? = some a)
    (hb : es.getLast? = some b) : a.firstSeq ≤ b.firstSeq := by
  induction es generalizing a with
  | nil => cases ha
  | cons e t ih =>
    cases ha
    cases t with
    | nil => cases hb; exact Nat.le_refl _
    | cons f t =>
      simp only [digestChain, Bool.and_eq_true, decide_eq_true_eq] at h
      have rest : f.firstSeq ≤ b.firstSeq := ih h.2 rfl (by simpa using hb)
      omega

theorem memberDigest_sound {r : ReadRow} {es : List DigestEntry} (h : memberDigest m r = some es) :
    digestChain es = true ∧ es.head?.map DigestEntry.firstSeq = some m.header.firstSeq := by
  unfold memberDigest at h
  dsimp only at h
  split at h
  next sound => cases h; exact sound.2
  · cases h

/-- A member goes on to another read, none of a digest's last row. -/
theorem Member.ok.withProg (ok : m.ok) (prog : MemberProg) (h : ∀ es, prog ≠ .trailer62 (some es)) :
    Member.ok { m with prog := prog } := ⟨ok.first, ok.last, ok.bound, fun es hes => absurd hes (h es)⟩

theorem Member.ok.extend (ok : m.ok) (row : Nat) {t : Trailer} (count : 1 ≤ t.count) (first : t.firstSeq = m.lastSeq + 1)
    (bound : t.lastSeq ≤ maxSeq) : (m.extend row t).ok := by
  refine ⟨ok.first, ?_, bound, fun es hes => ?_⟩
  · show m.header.firstSeq ≤ t.lastSeq + 1
    have := ok.last
    rw [Trailer.lastSeq]
    omega
  · unfold Member.extend at hes
    dsimp only at hes
    split at hes <;> cases hes

/-- R164, R165: a row read of a member. -/
theorem Member.ok.afterRow (ok : m.ok) (row : Nat) {x : ReadRow} (bound : (rowTrailer x).lastSeq ≤ maxSeq) :
    (m.afterRow row x).ok := by
  unfold Member.afterRow
  split
  · exact ⟨ok.first, ok.last, ok.bound, fun es hes => memberDigest_sound (MemberProg.trailer62.inj hes)⟩
  · split
    · split
      next accepted =>
        have row := (memberRowAccepted_iff _ _ _).1 accepted
        exact ok.extend _ row.records row.first bound
      · exact ok.withProg _ nofun
    · exact ok
  · exact ok
  · exact ok

/-- R164: the read of a member's row-62 trailer. -/
theorem Member.ok.afterTrailer (ok : m.ok) {x : ReadSpare} (bound : (Trailer.parse x.spare0).lastSeq ≤ maxSeq) :
    (m.afterTrailer x).ok := by
  unfold Member.afterTrailer
  dsimp only
  split
  next es prog =>
    split
    next agrees =>
      obtain ⟨chain, head⟩ := ok.digest es prog
      have row := (digestAgrees_iff _ _ _).1 agrees
      obtain ⟨a, ha, first⟩ := Option.map_eq_some_iff.1 head
      have rises := digestChain_rises chain ha row.last
      have count : 1 ≤ (Trailer.parse x.spare0).count := row.records
      refine ⟨ok.first, ?_, bound, nofun⟩
      show m.header.firstSeq ≤ (Trailer.parse x.spare0).lastSeq + 1
      have begins : m.header.firstSeq ≤ (Trailer.parse x.spare0).firstSeq := first ▸ rises
      rw [Trailer.lastSeq]
      omega
    · exact ok.withProg _ nofun
  · exact ok.withProg _ nofun
  · exact ok
  · exact ok
  · exact ok

/-- A read of a member changes that member alone. -/
theorem updateMember_marks {f : Member → Member} (engine : s.ec.engine = .mounting) (step : s.ec.step = .memberRead)
    (m : MarksOk s) (ok : ∀ x : Member, x.ok → (f x).ok) (ec : t.ec = (updateMember seg f s).ec) : MarksOk t := by
  refine .of_memberRead (by rw [ec]; exact engine) (by rw [ec]; exact step) fun x hx => ?_
  rw [ec] at hx
  obtain ⟨y, hy, rfl⟩ := List.mem_map.1 hx
  have old := m.extents engine step y hy
  split
  · exact ok y old
  · exact old

theorem memberResult_kept (r : FlashRead) (s : State) :
    LawsKept (readsSound s (.memberReadResult r)) s (memberResult r s) := by
  unfold memberResult
  split
  next h =>
    obtain ⟨engine, step⟩ := h
    have idle : s.ec.engine.running = false := by rw [engine]; rfl
    split
    · exact .refl s
    next d op _ =>
      split
      next seg row x _ _ =>
        refine .of_procedure idle (by simp) (fun k => k.idle_of_mounting engine (by simp) (by simp)) fun _ m sound => ?_
        exact updateMember_marks (seg := seg) (f := fun m => m.afterTrailer x) engine step m
          (fun _ ok => ok.afterTrailer sound) (by simp [updateMember])
      next seg row x _ _ =>
        refine .of_procedure idle (by simp) (fun k => k.idle_of_mounting engine (by simp) (by simp)) fun _ m sound => ?_
        exact updateMember_marks (seg := seg) (f := fun m => m.afterRow row x) engine step m
          (fun _ ok => ok.afterRow row sound) (by simp [updateMember])
      · exact .refl s
  · exact .refl s

/-! ### The kept members and their erases (R166, R167) -/

/-- The run goes back from the newest member, and each of its members begins no later than the newest ends. -/
theorem linkedRun_kept {n : Member} {ms : List Member} (ok : ∀ m ∈ n :: ms, m.ok) :
    (∃ rest, linkedRun (n :: ms) = n :: rest) ∧
      ∀ m ∈ linkedRun (n :: ms), m.ok ∧ m.header.firstSeq ≤ n.lastSeq + 1 := by
  have self : n.ok ∧ n.header.firstSeq ≤ n.lastSeq + 1 := ⟨ok n List.mem_cons_self, (ok n List.mem_cons_self).last⟩
  induction ms generalizing n with
  | nil => exact ⟨⟨[], rfl⟩, fun m hm => by rw [List.mem_singleton.1 hm]; exact self⟩
  | cons older t ih =>
    unfold linkedRun
    split
    next links =>
      have link : n.header.firstSeq = older.lastSeq + 1 := by
        rw [linkHolds, Bool.and_eq_true] at links
        exact of_decide_eq_true links.1
      have olderOk : ∀ m ∈ older :: t, m.ok := fun m hm => ok m (List.mem_cons_of_mem _ hm)
      have tail := ih olderOk ⟨olderOk older List.mem_cons_self, (olderOk older List.mem_cons_self).last⟩
      refine ⟨⟨_, rfl⟩, fun m hm => ?_⟩
      rcases List.mem_cons.1 hm with rfl | hm
      · exact self
      · obtain ⟨ok', first⟩ := tail.2 m hm
        exact ⟨ok', by omega⟩
    · exact ⟨⟨[], rfl⟩, fun m hm => by rw [List.mem_singleton.1 hm]; exact self⟩

@[simp] theorem ecEraseNext_procedure (d : Fin 4) (s : State) : (ecEraseNext d s).ec.procedure = s.ec.procedure := by
  unfold ecEraseNext
  dsimp only
  (repeat' split) <;> simp [Ec.procedure]

@[simp] theorem handErases_procedure (cs : List (Fin 4)) (s : State) : (handErases cs s).ec.procedure = s.ec.procedure := by
  induction cs generalizing s with
  | nil => rfl
  | cons c cs ih => simp [handErases, ih]

theorem calm_ecEraseNext (d : Fin 4) (s : State) : Calm s (ecEraseNext d s) := by
  unfold ecEraseNext
  dsimp only
  split
  · exact .refl s
  · split
    · exact .refl s
    next seg _ =>
      refine (Calm.setEntry (seg := seg) (e := { s.cu.entry seg with state := .erasing, cause := .noCause })
        (Nat.le_refl _)).trans (Calm.trans ?_ (calm_handOp (by decide) _ _))
      exact .of_core rfl rfl rfl

theorem calm_handErases (cs : List (Fin 4)) (s : State) : Calm s (handErases cs s) := by
  induction cs generalizing s with
  | nil => exact .refl s
  | cons c cs ih => exact (calm_ecEraseNext c s).trans (ih _)

theorem readsEnd_kept (s : State) : LawsKept p s (readsEnd s) := by
  unfold readsEnd
  split
  next h =>
    obtain ⟨engine, step, -⟩ := h
    have idle : s.ec.engine.running = false := by rw [engine]; rfl
    extract_lets left kept removed dirty s1 list
    refine .of_procedure idle (by simp [s1]) (fun k => k.idle_of_mounting engine (by simp [s1]) (by simp [s1])) fun _ m _ => ?_
    have ec := handErases_procedure chipEnables { s1 with ec := { s1.ec with
      members := kept
      orphans := s1.ec.orphans + BitVec.ofNat 32 (left.length - kept.length)
      eraseList := list
      step := if list.isEmpty then .build else .erase } }
    simp only [Ec.procedure, Prod.mk.injEq] at ec
    obtain ⟨engine', step', -, -, members⟩ := ec
    refine .of_kept (engine'.trans (by simpa [s1] using engine)) ?_ fun z hz => ?_
    · rw [step']
      split
      · exact .inr rfl
      · exact .inl rfl
    · rw [members] at hz ⊢
      have ok : ∀ m ∈ left.reverse, m.ok := fun x hx =>
        m.extents engine step x (List.mem_of_mem_filter (List.mem_reverse.1 hx))
      cases hl : left.reverse with
      | nil => rw [show kept = [] by simp [kept, hl, linkedRun]] at hz; cases hz
      | cons n older =>
        rw [hl] at ok
        obtain ⟨⟨rest, begins⟩, run⟩ := linkedRun_kept ok
        have newest : n = z := by
          have : kept.getLast? = some n := by simp only [kept, hl, List.getLast?_reverse, begins]; rfl
          exact Option.some.inj (this.symm.trans hz)
        refine newest ▸ ⟨(ok n List.mem_cons_self).bound, fun x hx => ?_⟩
        obtain ⟨xok, first⟩ := run x (by simpa [kept, hl] using hx)
        exact ⟨xok.first, first⟩
  · exact .refl s

/-! ### Loading (R168) -/

/-- The entries after the kept members are loaded. -/
theorem loadEntries_entry (ok : CatalogOk s) (ms : List Member) : CatalogOk (loadEntries ms s) ∧
    ∀ x, (∃ m ∈ ms, (loadEntries ms s).cu.entry x = m.entry) ∨
      (x ∉ ms.map Member.seg ∧ (loadEntries ms s).cu.entry x = s.cu.entry x) := by
  induction ms generalizing s with
  | nil => exact ⟨ok, fun x => .inr ⟨nofun, rfl⟩⟩
  | cons m ms ih =>
    obtain ⟨wf, rest⟩ := ih (catalogOk_setEntry ok m.seg m.entry)
    refine ⟨wf, fun x => ?_⟩
    rcases rest x with ⟨y, hy, e⟩ | ⟨ne, e⟩
    · exact .inl ⟨y, List.mem_cons_of_mem _ hy, e⟩
    · rw [entry_setEntry ok] at e
      split at e
      · exact .inl ⟨m, List.mem_cons_self, e⟩
      next other =>
        refine .inr ⟨fun hx => ?_, e⟩
        rcases List.mem_cons.1 hx with hx | hx
        · exact other hx
        · exact ne hx

theorem packerEmpty_loadCatalog (head newest : Member) (s : State) : PackerEmpty (loadCatalog head newest s) :=
  ⟨fun k => by cases k <;> rfl, rfl⟩

theorem loadCatalog_catalog (head newest : Member) (s : State) :
    (loadCatalog head newest s).cu.catalog = (loadEntries s.ec.members s).cu.catalog := by
  unfold loadCatalog
  simp

theorem catalogLoad_kept (s : State) : LawsKept p s (catalogLoad s) := by
  unfold catalogLoad
  split
  next h =>
    obtain ⟨engine, step, -⟩ := h
    split
    next head newest first last =>
      have empty := packerEmpty_loadCatalog head newest s
      have calm : Calm (loadCatalog head newest s) (ruJudge (setEvent .mounted (loadCatalog head newest s))) :=
        (calm_setEvent _ _).trans (calm_ruJudge _)
      have ready : (loadCatalog head newest s).ec.engine = .ready := rfl
      refine .of_loaded empty (by simp [ready, EngineState.running]) calm.moves
        (fun ok => by rw [CatalogOk, loadCatalog_catalog]; exact (loadEntries_entry ok s.ec.members).1) fun ok m _ => ?_
      obtain ⟨bound, kept⟩ := m.kept engine step newest last
      refine empty.runningMarks rfl bound rfl (kept head (List.mem_of_mem_head? first)).2 fun x hx => ?_
      rcases (loadEntries_entry ok s.ec.members).2 x with ⟨y, hy, e⟩ | ⟨ne, -⟩
      · rw [Cu.entry, loadCatalog_catalog, ← Cu.entry, e]
        exact (kept y hy).2
      · exact absurd hx ne
    · exact .refl s
  · exact .refl s

/-! ### The taking of FORMAT and its erases (R170, R171) -/

theorem serveFormat_kept (taken : Aside s u) (c : CardIx) (w : Work) : LawsKept p s (serveFormat c w u) := by
  unfold serveFormat
  split
  · exact (taken.trans (t := u) {}).kept
  · extract_lets r s1 s2 cp2
    obtain ⟨x, packed⟩ := formatPacker_eq s1
    have rp : s2.rp = packerFormatted s1 := by simp [s2, packed]
    have fs : s2.fs = s1.fs := by simp [s2]
    obtain ⟨bufA, bufB, -, -, -, linger, -⟩ := packerFormatted_frame s1
    have empty : PackerEmpty { s2 with cp := { cp2 with served := some { card := c, work := w, job := .format } } } := by
      refine ⟨fun k => ?_, (congrArg Rp.lingerTimer rp).trans linger⟩
      cases k
      · exact (congrArg Rp.bufA rp).trans bufA
      · exact (congrArg Rp.bufB rp).trans bufB
    refine ⟨fun _ => ⟨fun _ e => absurd rfl e, fun _ => ?_⟩, fun _ => empty.buffersOk,
      fun _ _ _ => inFlightOk_of_cleared empty.buf, fun _ _ _ _ _ => .of_formatEmpty rfl rfl⟩
    by_cases busy : recordRowInFlight s1 = true
    · exact .inr ⟨rfl, (recordRowInFlight_of_fs fs).trans busy⟩
    · obtain ⟨served, waitList⟩ := packerFormatted_of_free busy
      exact .inl ⟨(congrArg Rp.served rp).trans served, (congrArg Rp.waitList rp).trans waitList⟩

theorem notRunning_of_formatting (h : s.ec.engine = .formatting) : s.ec.engine.running = false := by rw [h]; rfl

/-- The row program of a FORMAT's taking has completed once the FS is quiet. -/
theorem PathsOk.idle_of_quiet (k : PathsOk s) (engine : s.ec.engine = .formatting) (quiet : s.fs.quiet = true) :
    AppendIdle s :=
  (k.formatting engine).resolve_right fun h => absurd h.2 (by rw [recordRowInFlight, Fs.not_has_of_quiet quiet]; decide)

theorem formatQuiet_kept (s : State) : LawsKept p s (formatQuiet s) := by
  unfold formatQuiet
  split
  next h =>
    obtain ⟨engine, step, quiet⟩ := h
    refine .of_procedure (notRunning_of_formatting engine) (by simp)
      (fun k => by simpa [AppendIdle] using k.idle_of_quiet engine quiet) fun _ m _ => ?_
    have order := m.formatEmpty engine (by rw [step]; decide)
    exact .of_formatEmpty (by simpa using engine) ((calm_handErases _ _).orderList_nil order)
  · exact .refl s

/-! ### The opening (R99, R172) -/

theorem formatFailed_engine (s : State) : (formatFailed s).ec.engine = .halted ∨ (formatFailed s).ec.engine = .unformatted := by
  unfold formatFailed
  dsimp only
  split
  · exact .inl rfl
  · exact .inr rfl

theorem LawsKept.openFormatSegment (hs : s.ec.engine = .formatting) (idle : PathsOk s → AppendIdle s) (rp : u.rp = s.rp)
    (ec : u.ec = s.ec) (catalog : CatalogOk s → CatalogOk u)
    (order : CatalogOk s → MarksOk s → ∀ x ∈ u.cu.orderList, (u.cu.entry x).firstSeq ≤ 1) :
    LawsKept p s (openFormatSegment u) := by
  have still (k : PathsOk s) : AppendIdle (Machine.openFormatSegment u) := by
    simpa [AppendIdle, rp] using idle k
  refine .of_procedure (notRunning_of_formatting hs) (by simp [rp]) still fun c m _ => ?_
  unfold Machine.openFormatSegment
  split
  next seg _ _ =>
    have header := firstSeq_joinSegment_le (seg := seg) (catalog c) (Nat.le_refl 1) (order c m)
    exact .of_formatting (by simpa [ec] using hs) (by simp) (by simpa using header)
  · rcases formatFailed_engine u with e | e
    · exact .of_down (by rw [e]; rfl) (by rw [e]; decide) (by rw [e]; decide)
    · exact .of_down (by rw [e]; rfl) (by rw [e]; decide) (by rw [e]; decide)

theorem raiseEpoch_orderList (s : State) : (raiseEpoch s).cu.orderList = s.cu.orderList := by
  unfold raiseEpoch
  split <;> rfl

theorem formatErasesEnd_kept (s : State) : LawsKept p s (formatErasesEnd s) := by
  unfold formatErasesEnd
  split
  next h =>
    obtain ⟨engine, step, -, quiet⟩ := h
    refine .openFormatSegment engine (fun k => k.idle_of_quiet engine quiet) (by simp) (by simp) (by simp [CatalogOk]) fun _ m x hx => ?_
    have order := m.formatEmpty engine (by rw [step]; decide)
    have none_ : x ∈ (raiseEpoch (rebuildPools s)).cu.orderList := hx
    rw [raiseEpoch_orderList] at none_
    simp [rebuildPools, order] at none_
  · exact .refl s

/-- R172: READY, or STOPPING, with the header row's segment as the one member. -/
theorem LawsKept.formatDone (calm : Calm s u)
    (order : CatalogOk s → MarksOk s → ∀ x ∈ u.cu.orderList, (u.cu.entry x).firstSeq ≤ 1) (seg : Nat) :
    LawsKept p s (formatDone seg u) := by
  unfold Machine.formatDone
  extract_lets e1 s1 rp2 cp2 cu2 s2 s3
  have row : Calm u s1 := .setEntry (Nat.le_refl _)
  have rp : (enterReady s3).rp = s2.rp := by simp [s3, s2]
  have cu : (enterReady s3).cu = s2.cu := by simp [s3, s2]
  have empty : PackerEmpty (enterReady s3) := ⟨fun k => by rw [rp]; cases k <;> rfl, by rw [rp]; rfl⟩
  have wf (c : CatalogOk s) : CatalogOk (enterReady s3) := by
    rw [CatalogOk, cu]; exact row.catalog (calm.catalog c)
  have marks (c : CatalogOk s) (m : MarksOk s) : RunningMarks (enterReady s3) := by
    refine empty.runningMarks (by rw [rp]; rfl) (by rw [rp]; exact Nat.zero_le _) (by rw [rp]; rfl) (by rw [rp, cu]; exact Nat.le_refl _)
      fun x hx => ?_
    rw [rp, cu]
    rw [cu] at hx
    exact (row.entries (calm.catalog c) x).trans (order c m x (row.order x hx))
  split
  · obtain ⟨stops, engine⟩ := enterStopping_moves (enterReady s3)
    exact .of_loaded empty (by simp [engine, EngineState.running]) (stops.trans (calm_ruJudge _).moves) wf fun c m _ => marks c m
  · have ready : (enterReady s3).ec.engine = .ready := rfl
    exact .of_loaded empty (by simp [ready, EngineState.running]) (calm_ruJudge _).moves wf fun c m _ => marks c m

theorem headerRowResult_kept (passed : Bool) (s : State) : LawsKept p s (headerRowResult passed s) := by
  unfold headerRowResult
  split
  next h =>
    obtain ⟨engine, step⟩ := h
    split
    · exact .refl s
    next d op ending =>
      split
      next seg _ _ _ _ source _ =>
        have done : Calm s (completeOp d s) :=
          calm_completeOp ending (FlashOp.isRecordRow_eq_false (by rw [source]; decide))
        have members (t : State) (calm : Calm s t) (c : CatalogOk s) (m : MarksOk s) :
            ∀ x ∈ t.cu.orderList, (t.cu.entry x).firstSeq ≤ 1 := fun x hx =>
          (calm.entries c x).trans (m.formatHeader engine x (calm.order x hx))
        dsimp only
        split
        · exact .formatDone done (members _ done) seg
        · have retired := done.trans (calm_claimRetireLast seg _)
          exact .openFormatSegment engine (fun k => k.formatHeaderIdle engine step) (by simp) (by simp) retired.catalog
            (members _ retired)
      · exact .refl s
  · exact .refl s

end Sys2Proof.Machine
end

section
/-!
PROOF. Every step keeps the laws of the paths (O7), and of the row buffers, the buffer in flight and the marks (O8).
-/
namespace Sys2Proof.Machine

-- One proof at a time, as in the tests: proofs checked side by side need more threads than the limits allow.
set_option Elab.async false

variable {s t u : State} {p : Prop} {c : Fin 4}

/-! ### The reader and the RU -/

theorem aside_readerResult {use : Work → State → State} (h : ∀ w t, Aside t (use w t)) (s : State) :
    Aside s (readerResult use s) :=
  readerResult_ind (.refl s) (fun v _ _ => h v.work s) fun _ => {}

theorem trailersResult_kept (r : ReadSpare) (s : State) : LawsKept p s (trailersResult r s) := by
  unfold trailersResult
  split
  · exact .refl s
  next d op ending =>
    split
    next seg _ source _ =>
      refine ((aside_completeOp_of_source ending (by rw [source]; decide)).trans (aside_readerResult (fun w t => ?_) _)).reactPin s
      split
      · exact {}
      all_goals exact .refl t
    · exact .refl s

theorem readRowResult_kept (r : ReadRow) (s : State) : LawsKept p s (readRowResult r s) := by
  unfold readRowResult
  split
  · exact .refl s
  next d op ending =>
    split
    next seg row source _ =>
      have counted : Aside (completeOp d s) (countCorrected r (completeOp d s)) := {}
      refine (((aside_completeOp_of_source ending (by rw [source]; decide)).trans counted).trans
        (aside_readerResult (fun w t => ?_) _)).reactPin s
      split
      · exact {}
      · exact {}
      all_goals exact .refl t
    · exact .refl s

theorem pinRequest_kept (s : State) : LawsKept p s (pinRequest s) := by
  unfold pinRequest
  split
  · split
    · exact Aside.reactPin {} s
    · exact .refl s
  all_goals exact .refl s

theorem removalClaim_kept (s : State) : LawsKept p s (removalClaim s) := by
  unfold removalClaim
  split
  · exact .refl s
  next seg _ =>
    split
    next running =>
      extract_lets ru1 s1 s2
      have claimed : Aside s s1 := ⟨rfl, rfl, rfl, rfl⟩
      split
      · have erases : Aside (claimRemoval seg s1) (ruErase seg (answerHeld true (claimRemoval seg s1))) := {}
        refine .of_moves running (by simpa [s2, s1] using running) ?_
        exact (claimed.calm.moves.trans (claimRemoval_moves seg s1)).trans
          ((erases.calm.moves.trans (reexamineSpace_moves s2)).trans (judgeChange_moves _ _))
      · have refused : Aside s1 (ruJudge (answerHeld false s1)) := {}
        exact (claimed.trans refused).reactPin s
    · exact .refl s

theorem reclaimErase_kept (p0 p1 : PlaneStatus) (s : State) : LawsKept p s (reclaimErase p0 p1 s) := by
  unfold reclaimErase
  split
  · exact .refl s
  next d op ending =>
    split
    next seg source _ =>
      have done := (aside_completeOp_of_source ending (by rw [source]; decide)).calm
      extract_lets s1
      split
      · split
        · refine .react (done.trans (Calm.trans (t := { s1 with ru := { s1.ru with op := .mark seg } }) (.of_core rfl rfl rfl)
            (calm_handOp (by decide) _ _))) (by simp [s1]) (by simp [AppendIdle, s1])
        · exact .react (done.trans ((calm_claimFreed seg s1).trans (.of_core rfl rfl rfl))) (by simp [s1]) (by simp [AppendIdle, s1])
      · exact .of_calm (done.trans (.of_core rfl rfl rfl)) (by simp [s1]) (by simp [AppendIdle, s1])
    · exact .refl s

theorem markResult_kept (p0 : PlaneStatus) (s : State) : LawsKept p s (markResult p0 s) := by
  unfold markResult
  split
  · exact .refl s
  next d op ending =>
    split
    next seg failed source _ =>
      have done := (aside_completeOp_of_source ending (by rw [source]; decide)).calm
      have ended : Calm s (ruEnd (completeOp d s)) := done.trans (.of_core rfl rfl rfl)
      dsimp only
      split
      · exact .of_calm (ended.trans ((calm_joinRetired _ _ _).trans (calm_ruJudge _)))
      · exact .of_calm ended
    next seg failed source _ =>
      have done := (aside_completeOp_of_source ending (by rw [source]; decide)).calm
      exact .of_calm (done.trans ((calm_joinRetired _ _ _).trans (calm_ecEraseNext d _)))
    · exact .refl s

theorem ecErase_kept (p0 p1 : PlaneStatus) (s : State) : LawsKept p s (ecErase p0 p1 s) := by
  unfold ecErase
  split
  · exact .refl s
  next d op ending =>
    split
    next seg source _ =>
      have done := aside_completeOp_of_source ending (by rw [source]; decide)
      have freed : Calm s (setEntry seg .freed (completeOp d s)) := done.calm.trans (.setEntry (Nat.zero_le _))
      dsimp only
      split
      · split
        · exact done.kept
        · exact .of_calm (done.calm.trans (calm_handOp (by decide) _ _))
      · exact .of_calm (freed.trans (calm_ecEraseNext d _))
    · exact .refl s

theorem digestResult_kept (passed : Bool) (s : State) : LawsKept p s (digestResult passed s) := by
  unfold digestResult
  split
  · exact .refl s
  next d op ending =>
    split
    case h_1 =>
      split
      next digest =>
        have done := aside_completeOp (Fs.head_of_ending ending) (FlashOp.isRecordRow_of_isDigestRow digest)
        dsimp only
        split
        · exact .of_calm (done.calm.trans ((calm_claimDigest _ _ _).trans (calm_nextDigest _)))
        · exact done.kept
      · exact .refl s
    all_goals exact .refl s

/-! ### The flash events (R64 to R66, R73) -/

theorem discardStaged_cleared (s : State) (k : BufName) : (discardStaged s).rp.buf k = .cleared := by
  unfold discardStaged
  split <;> cases k <;> rfl

theorem enterFaulted_kept (cause : FaultCause) (s u : State) : LawsKept p s (enterFaulted cause u) := by
  unfold enterFaulted
  extract_lets ec1 s1 r s2 s3 rp3 s4 s5
  obtain ⟨x, answered⟩ := answerAppend_eq .faulted (discardStaged s2)
  have rp : s5.rp = s4.rp := by simp [s5]
  have engine : s5.ec.engine = .faulted := by simp [s5, s4, s3, s2, s1]
  have cleared (k : BufName) : s4.rp.buf k = .cleared := by
    have kept : s4.rp.buf k = (discardStaged s2).rp.buf k := by
      cases k <;> simp [Rp.buf, s4, rp3, s3]
    rw [kept, discardStaged_cleared]
  refine .of_emptied (by rw [engine]; rfl) (by rw [engine]; decide) (by rw [engine]; decide) ⟨fun k => ?_, ?_⟩ ⟨?_, ?_⟩
  · rw [rp]; exact cleared k
  · rw [rp]; rfl
  · rw [rp]; simp [s4, rp3, s3, answered]
  · rw [rp]; simp [s4, rp3, s3, answered]

theorem Fs.head_of_resetting {f : Fs} (h : f.resetting c = true) :
    ∃ op, (f.die c).queue.head? = some op ∧ op.isRecordRow = false := by
  unfold Fs.resetting at h
  split at h
  · cases h
  next op rest hq =>
    rw [Bool.and_eq_true] at h
    refine ⟨op, by rw [hq]; rfl, ?_⟩
    unfold FlashOp.isRecordRow
    unfold FlashAct.isResetDie at h
    split <;> simp_all

theorem aside_resetting (h : s.fs.resetting c = true) : Aside s (completeOp c s) := by
  obtain ⟨op, head, row⟩ := Fs.head_of_resetting h
  exact aside_completeOp head row

theorem setProbeRec_kept (h : Aside s t) (c : Fin 4) (r : ProbeRec) : LawsKept p s (setProbeRec c r t) :=
  .of_calm (h.calm.trans (.of_core rfl rfl rfl)) (by rw [← h.ec]; rfl) fun idle => h.appendIdle idle

theorem resetDieReady_kept (c : Fin 4) (s : State) : LawsKept p s (resetDieReady c s) := by
  unfold resetDieReady
  split
  next h =>
    have done := aside_resetting h
    dsimp only
    split
    · exact .of_calm (done.calm.trans (calm_handOp (by decide) _ _))
    · exact done.kept
  · exact .refl s

theorem resetDieExpired_kept (c : Fin 4) (s : State) : LawsKept p s (resetDieExpired c s) := by
  unfold resetDieExpired
  split
  next h => exact setProbeRec_kept (aside_resetting h.1) c _
  · exact .refl s

theorem probeResult_kept (id : List Byte) (s : State) : LawsKept p s (probeResult id s) := by
  unfold probeResult
  split
  · exact .refl s
  next d op ending =>
    split
    next act =>
      refine setProbeRec_kept (aside_completeOp (Fs.head_of_ending ending) ?_) d _
      simp only [FlashOp.isRecordRow, act]
    all_goals exact .refl s

/-! ### Resets, RUN and the stops (R23, R24, R175, R176, R180) -/

theorem resetAll_kept (s : State) : LawsKept p s (resetAll s) :=
  .of_emptied rfl nofun nofun ⟨fun k => by cases k <;> rfl, rfl⟩ ⟨rfl, rfl⟩

theorem resetSoft_kept (s : State) : LawsKept p s (resetSoft s) :=
  .of_emptied rfl nofun nofun ⟨fun k => by cases k <;> rfl, rfl⟩ ⟨rfl, rfl⟩

/-- A stop outside READY, STOPPING and FORMATTING. -/
theorem enterHalted_kept (hr : s.ec.engine.running = false) (hf : s.ec.engine ≠ .formatting) : LawsKept p s (enterHalted s) :=
  .of_procedure hr (by simp) (fun k => by simpa [AppendIdle] using k.appendIdle hr hf) fun _ _ _ => .of_down rfl nofun nofun

theorem stopProcedure_kept (h : s.ec.engine = .probing ∨ s.ec.engine = .mounting) : LawsKept p s (stopProcedure s) := by
  unfold stopProcedure
  split
  · rcases h with h | h
    · exact enterHalted_kept (by rw [h]; rfl) (by rw [h]; decide)
    · exact enterHalted_kept (by rw [h]; rfl) (by rw [h]; decide)
  · exact .of_calm (.of_core rfl rfl rfl) rfl id

theorem runEvent0_kept (s : State) : LawsKept p s (runEvent0 s) := by
  unfold runEvent0
  split
  next => exact .refl s
  next h => exact stopProcedure_kept (.inl h)
  next h => exact stopProcedure_kept (.inr h)
  next h => exact enterHalted_kept (by rw [h]; rfl) (by rw [h]; decide)
  next h =>
    obtain ⟨moves, engine⟩ := enterStopping_moves s
    exact .of_moves (by rw [h]; rfl) (by rw [engine]; rfl) moves
  next => exact .of_calm (.of_core rfl rfl rfl) rfl id
  next => exact .refl s
  next h => exact enterHalted_kept (by rw [h]; rfl) (by rw [h]; decide)

theorem startProbe_engine (s : State) : (startProbe s).ec.engine = .probing := by simp [startProbe]

theorem runEvent1_kept (s : State) : LawsKept p s (runEvent1 s) := by
  unfold runEvent1
  split
  next h =>
    have hr : s.ec.engine.running = false := by rw [h]; rfl
    have engine := startProbe_engine s
    exact .of_procedure hr (by simp) (fun k => by simpa [AppendIdle] using k.appendIdle hr (by rw [h]; decide)) fun _ _ _ =>
      .of_down (by rw [engine]; rfl) (by rw [engine]; decide) (by rw [engine]; decide)
  · exact .refl s

theorem writeRun_kept (v : Bool) (linger : Option Byte) (s : State) : LawsKept p s (writeRun v linger s) := by
  obtain ⟨x, e⟩ : ∃ x, writeRun v linger s = if v then runEvent1 { s with xp := x } else runEvent0 { s with xp := x } := by
    cases linger <;> exact ⟨_, rfl⟩
  rw [e]
  refine .of_alike (u := { s with xp := x }) rfl rfl rfl rfl rfl ?_
  split
  · exact runEvent1_kept _
  · exact runEvent0_kept _

theorem controlWrite_kept (lane0 lane1 : Option Byte) (s : State) : LawsKept p s (controlWrite lane0 lane1 s) := by
  unfold controlWrite
  split
  · split
    · exact resetSoft_kept s
    · exact writeRun_kept _ _ s
  · split
    · exact Aside.kept {}
    · exact .refl s

theorem registerStore_kept (a : Nat) (bytes : List Byte) (s : State) : LawsKept p s (registerStore a bytes s) := by
  unfold registerStore
  dsimp only
  split
  · exact controlWrite_kept _ _ s
  · split
    · split
      · exact Aside.kept {}
      · exact .refl s
    · split
      · exact Aside.kept ⟨rfl, rfl, rfl, rfl⟩
      · split
        · exact Aside.kept ⟨rfl, rfl, rfl, rfl⟩
        · exact .refl s

theorem portAccess_kept {f : State → State} (h : LawsKept p s (f s)) : LawsKept p s (portAccess f s) :=
  portAccess_ind (.refl s) h

theorem haltOnQuiet_kept (s : State) : LawsKept p s (haltOnQuiet s) := by
  unfold haltOnQuiet
  split
  next h =>
    obtain ⟨-, engine, -⟩ := h
    rcases engine with h | h
    · exact enterHalted_kept (by rw [h]; rfl) (by rw [h]; decide)
    · exact enterHalted_kept (by rw [h]; rfl) (by rw [h]; decide)
  · exact .refl s

/-- R59: what the quiet report of the append path says of the RP. -/
theorem idle_of_appendQuiet (h : appendQuiet s = true) :
    AppendIdle s ∧ s.rp.bufA.state = .empty ∧ s.rp.bufB.state = .empty := by
  simp only [appendQuiet, Bool.and_eq_true, Option.isNone_iff_eq_none, beq_iff_eq, List.isEmpty_iff] at h
  obtain ⟨⟨⟨⟨⟨⟨served, a⟩, b⟩, -⟩, -⟩, -⟩, waitList⟩ := h
  exact ⟨⟨served, waitList⟩, a, b⟩

theorem PathsOk.appendQuiet (k : PathsOk s) (engine : s.ec.engine = .stopping) (h : s.ec.quiet.all = true) :
    appendQuiet s = true := by
  rw [k.quiet engine] at h
  simp only [QuietFlags.all, Bool.and_eq_true] at h
  obtain ⟨⟨⟨⟨append, -⟩, -⟩, -⟩, -⟩ := h
  exact append

theorem stopComplete_kept (s : State) : LawsKept p s (stopComplete s) := by
  unfold stopComplete
  split
  next h =>
    obtain ⟨engine, quiet⟩ := h
    have idle (k : PathsOk s) := idle_of_appendQuiet (k.appendQuiet engine quiet)
    refine .of_idle (fun k => (idle k).1) (fun ok => ?_) (fun k ok _ n => ?_) fun _ _ _ => .of_down rfl nofun nofun
    · exact ((calm_closePacker s).buffersOk ok).of_rp rfl
    · obtain ⟨-, a, b⟩ := idle k
      cases n
      · exact ok.bufA.eq_cleared a
      · exact ok.bufB.eq_cleared b
  · exact .refl s

/-! ### The append path's takes and timer (R38, R53, R54) -/

theorem serveAppend_moves (c : CardIx) (w : Work) (s : State) : Moves s (serveAppend c w s) := by
  unfold serveAppend
  split
  · exact (calm_answerCard _ _ _).moves
  · split
    · exact (calm_answerCard _ _ _).moves
    · exact (calm_setServed _ _).moves

theorem serveFlush_moves (hf : s.ec.engine ≠ .faulted) (c : CardIx) (w : Work) : Moves s (serveFlush c w s) := by
  unfold serveFlush
  split
  · exact (calm_answerCard _ _ _).moves
  · exact (closeFilling_moves hf).trans (calm_awaitDurable _ _ _ _ _).moves

theorem closeFilling_inFlight (h : recordRowInFlight s = true) : recordRowInFlight (closeFilling s) = true := by
  cases hn : s.rp.find .filling with
  | none => rwa [closeFilling_of_none hn]
  | some n =>
    have busy : recordRowInFlight (closeBuf n s) = true := by rwa [recordRowInFlight_closeBuf]
    rwa [closeFilling_of_some hn, handClosed_of_busy busy]

theorem lingerExpire_kept (s : State) : LawsKept p s (lingerExpire s) := by
  unfold lingerExpire
  split
  · exact .refl s
  · have stops := calm_stopLinger (closeFilling s)
    cases hr : s.ec.engine.running with
    | true =>
      exact .of_moves hr (by simpa using hr) ((closeFilling_moves (notFaulted_of_running hr)).trans stops.moves)
    | false =>
      refine ⟨fun k => ⟨fun r f => ?_, fun f => ?_⟩, fun ok => stops.buffersOk (buffersOk_closeFilling ok), fun _ _ f => ?_,
        fun _ _ _ m _ => ?_⟩
      · simpa [AppendIdle] using k.appendIdle hr (by simpa using f)
      · exact (k.formatting (by simpa using f)).imp (by simp [AppendIdle])
          (And.imp (by simp) closeFilling_inFlight)
      · obtain ⟨a, b⟩ := f.idle hr
        have none_ : s.rp.find .filling = none := by rw [Rp.find, a, b]; rfl
        refine inFlightOk_of_cleared fun n => ?_
        rw [stops.buf, closeFilling_of_none none_]
        cases n
        exacts [a, b]
      · exact m.of_procedure (by simp) (fun e => by rw [hr] at e; cases e) (by simp) (by simp)

theorem recordStage_kept (s : State) : LawsKept p s (recordStage s) := by
  cases hr : s.ec.engine.running with
  | true => exact .of_moves hr (by simpa using hr) (recordStage_moves s)
  | false =>
    have still : recordStage s = s := by
      unfold recordStage
      split
      · exact if_neg fun k => by rw [hr] at k; exact Bool.false_ne_true k.2
      · rfl
    rw [still]
    exact .refl s

/-! ### Space and leases -/

theorem serveRelease_moves (c : CardIx) (w : Work) (s : State) : Moves s (serveRelease c w s) := by
  unfold serveRelease
  split
  · exact (calm_answerCard _ _ _).moves
  · split
    · exact (calm_answerCard _ _ _).moves
    · refine (Calm.moves ?_).trans (react_moves _)
      exact .of_eq

theorem serveTrim_moves (c : CardIx) (w : Work) (s : State) : Moves s (serveTrim c w s) := by
  unfold serveTrim
  split
  · exact (calm_answerCard _ _ _).moves
  · extract_lets q cp1 s1
    have trimmed : Calm s s1 := .of_eq (by simp [s1]) (by simp [s1]) (by simp [s1])
    split
    · exact trimmed.moves
    · exact trimmed.moves.trans (react_moves _)

theorem leaseTick_kept (s : State) : LawsKept p s (leaseTick s) := by
  unfold leaseTick
  extract_lets cp1 s1
  split
  · exact .react (.of_eq rfl rfl rfl) rfl id
  · exact .of_calm (.of_eq rfl rfl rfl) rfl id

/-! ### The mount's beginning (R159, R160) -/

theorem startMount_ec (s : State) : (startMount s).ec.engine = .mounting ∧ (startMount s).ec.step = .scan ∧
    (startMount s).ec.candidates = [] ∧ (startMount s).ec.scanHeld = [] := by simp [startMount, Ec.noProcedure]

theorem probeEnd_kept (s : State) : LawsKept p s (probeEnd s) := by
  unfold probeEnd
  split
  next h =>
    obtain ⟨engine, -⟩ := h
    have hr : s.ec.engine.running = false := by rw [engine]; rfl
    extract_lets fs1 cu1 s1
    split
    · exact enterFaulted_kept _ s s1
    · obtain ⟨mounting, scan, candidates, scanHeld⟩ := startMount_ec s1
      refine .of_procedure hr (by simp [s1]) (fun k => ?_) fun _ _ _ => ?_
      · simpa [AppendIdle, s1] using k.appendIdle hr (by rw [engine]; decide)
      · exact .of_scan mounting scan (by simp [candidates, scanHeld]) (by simp [candidates])
  · exact .refl s

theorem dieTimeout_kept (c : Fin 4) (s : State) : LawsKept p s (dieTimeout c s) := by
  unfold dieTimeout
  split
  · exact enterFaulted_kept _ s s
  · exact .refl s

/-! ### Every command -/

/-- Every command keeps the laws, up to the quiet reports that end it. -/
theorem exec_keepsLaws (i : Instr) (s : State) : ∃ t, exec i s = done t ∧ LawsKept (readsSound s i) s t := by
  cases i with
  | powerOnReset => exact ⟨_, rfl, resetAll_kept s⟩
  | pinReset asserted =>
    refine ⟨_, rfl, ?_⟩
    split
    · exact .of_emptied rfl nofun nofun ⟨fun k => by cases k <;> rfl, rfl⟩ ⟨rfl, rfl⟩
    · exact Aside.kept ⟨rfl, rfl, rfl, rfl⟩
  | softReset => exact ⟨_, rfl, portAccess_kept (resetSoft_kept s)⟩
  | runWritten1 l => exact ⟨_, rfl, portAccess_kept (writeRun_kept _ _ s)⟩
  | runWritten0 l => exact ⟨_, rfl, portAccess_kept (writeRun_kept _ _ s)⟩
  | lingerWrite v => exact ⟨_, rfl, portAccess_kept (Aside.kept {})⟩
  | eventsWrite v => exact ⟨_, rfl, portAccess_kept (Aside.kept {})⟩
  | registerWrite o w d => exact ⟨_, rfl, portAccess_kept (registerStore_kept _ _ s)⟩
  | hostXmWrite o w d => exact ⟨_, rfl, portAccess_kept (Aside.kept {})⟩
  | snapshotCapture o w => exact ⟨_, rfl, portAccess_kept (Aside.kept {})⟩
  | stateByteWrite c w d => exact ⟨_, rfl, portAccess_kept (Aside.kept {})⟩
  | append => exact ⟨_, rfl, .take (by simp) fun c w u _ => serveAppend_moves c w u⟩
  | recordStage => exact ⟨_, rfl, recordStage_kept s⟩
  | flush => exact ⟨_, rfl, .take (by simp) fun c w u h => serveFlush_moves (by rw [h]; decide) c w⟩
  | lingerExpiry => exact ⟨_, rfl, lingerExpire_kept s⟩
  | rowProgramPass => exact ⟨_, rfl, .recordRowResult (by simp) fun _ n d u hn hf _ => rowPass_lands hn hf⟩
  | rowProgramFail planes =>
    cases h : s.rp.relocation with
    | none =>
      exact ⟨recordRowResult rowFail s, by simp only [exec, execRowProgramFail, h],
        .recordRowResult (by simp) fun _ n d u hn hf _ => rowFail_lands hn hf⟩
    | some r => exact ⟨s, by simp only [exec, execRowProgramFail, h], .refl s⟩
  | replacementRow0Fail planes =>
    cases h : s.rp.relocation with
    | some r =>
      exact ⟨recordRowResult (replacementFail r) s, by simp only [exec, execReplacementRow0Fail, h],
        .recordRowResult (by simp) fun _ n d u hn hf hr => replacementFail_lands hn hf (hr.trans h)⟩
    | none =>
      by_cases hf : s.ec.engine = .formatting
      · exact ⟨recordRowResult (fun _ _ t => t) s, by simp only [exec, execReplacementRow0Fail, h, if_pos hf],
          .recordRowResult (fun _ _ _ => rfl) fun hr => absurd hr (by rw [hf]; decide)⟩
      · exact ⟨s, by simp only [exec, execReplacementRow0Fail, h, if_neg hf], .refl s⟩
  | digestProgramComplete p0 p1 => exact ⟨_, rfl, digestResult_kept _ s⟩
  | readSeq => exact ⟨_, rfl, .take (by simp) fun c w u _ => Calm.moves .of_eq⟩
  | readKey => exact ⟨_, rfl, .take (by simp) fun c w u _ => Calm.moves .of_eq⟩
  | pinRequest => exact ⟨_, rfl, pinRequest_kept s⟩
  | arTrailersResult r => exact ⟨_, rfl, trailersResult_kept r s⟩
  | arReadRowResult r => exact ⟨_, rfl, readRowResult_kept r s⟩
  | hold => exact ⟨_, rfl, .take (by simp) fun c w u _ => Calm.moves .of_eq⟩
  | holdRequest => exact ⟨_, rfl, Aside.kept {}⟩
  | holdRenew => exact ⟨_, rfl, .take (by simp) fun c w u _ => Calm.moves .of_eq⟩
  | release => exact ⟨_, rfl, .take (by simp) fun c w u _ => serveRelease_moves c w u⟩
  | trim => exact ⟨_, rfl, .take (by simp) fun c w u _ => serveTrim_moves c w u⟩
  | census => exact ⟨_, rfl, .pathTake fun c w _ => Aside.kept {}⟩
  | format => exact ⟨_, rfl, .pathTake fun c w _ => serveFormat_kept {} c w⟩
  | leaseTick =>
    refine ⟨_, rfl, ?_⟩
    split
    · exact leaseTick_kept s
    · exact .refl s
  | holdExpiry =>
    refine ⟨_, rfl, ?_⟩
    split
    · exact leaseTick_kept s
    · exact .refl s
  | removalClaim => exact ⟨_, rfl, removalClaim_kept s⟩
  | reclaimEraseComplete p0 p1 => exact ⟨_, rfl, reclaimErase_kept p0 p1 s⟩
  | programMarkComplete p0 => exact ⟨_, rfl, markResult_kept p0 s⟩
  | ecEraseComplete p0 p1 => exact ⟨_, rfl, ecErase_kept p0 p1 s⟩
  | flashPhaseEnd => exact ⟨_, rfl, Aside.kept { rp := rfl, cu := rfl, ec := rfl }⟩
  | dieReady c => exact ⟨_, rfl, Aside.kept { rp := rfl, cu := rfl, ec := rfl }⟩
  | dieTimeout c => exact ⟨_, rfl, dieTimeout_kept c s⟩
  | resetDieComplete c => exact ⟨_, rfl, resetDieReady_kept c s⟩
  | resetDieNoReady c => exact ⟨_, rfl, resetDieExpired_kept c s⟩
  | probe b0 b1 b2 b3 => exact ⟨_, rfl, probeResult_kept _ s⟩
  | probeEnd => exact ⟨_, rfl, probeEnd_kept s⟩
  | mountScanResult r => exact ⟨_, rfl, scanResult_kept r s⟩
  | mountScanEnd => exact ⟨_, rfl, scanEnd_kept s⟩
  | memberReadResult r => exact ⟨_, rfl, memberResult_kept r s⟩
  | memberReadsEnd => exact ⟨_, rfl, readsEnd_kept s⟩
  | catalogLoad => exact ⟨_, rfl, catalogLoad_kept s⟩
  | formatQuiet => exact ⟨_, rfl, formatQuiet_kept s⟩
  | formatErasesEnd => exact ⟨_, rfl, formatErasesEnd_kept s⟩
  | formatHeaderRowComplete p0 p1 => exact ⟨_, rfl, headerRowResult_kept _ s⟩
  | haltOnQuiet => exact ⟨_, rfl, haltOnQuiet_kept s⟩
  | stopComplete => exact ⟨_, rfl, stopComplete_kept s⟩

/-! ### Every step -/

/-- A step is the effect of the command at the front, or none. -/
theorem step_keepsLaws (h : step s = .next t) :
    LawsKept (∀ c, s.pending.head? = some c → readsSound s c) s t := by
  unfold step at h
  split at h
  · cases h; exact .refl s
  next c rest pending =>
    obtain ⟨u, hu, kept⟩ := exec_keepsLaws c { s with pending := rest }
    rw [hu, done_eq] at h
    cases h
    have sound (hp : ∀ c, s.pending.head? = some c → readsSound s c) : readsSound { s with pending := rest } c :=
      hp c (by rw [pending]; rfl)
    exact .of_alike (u := { s with pending := rest }) rfl rfl rfl rfl rfl (kept.settle.mono sound)

/-- R179: after a step in STOPPING each quiet flag stands as its block's condition does. -/
theorem step_settles (h : step s = .next t) (k : PathsOk s) (engine : t.ec.engine = .stopping) :
    t.ec.quiet = quietNow t := by
  unfold step at h
  split at h
  · cases h; exact k.quiet engine
  next c rest _ =>
    obtain ⟨u, hu, -⟩ := exec_eq_done c { s with pending := rest }
    rw [hu, done_eq] at h
    cases h
    have same : quietNow (settle u) = quietNow u := by
      obtain ⟨q, e⟩ := settle_eq u
      rw [e]; rfl
    rw [same]
    exact settle_quiet (by simpa using engine)

/-- Settles O7: each command keeps where the append path may hold cards, and the quiet reports end the step. -/
theorem stepKeepsPaths : Obligations.StepKeepsPaths := by
  unfold Obligations.StepKeepsPaths
  intro s t k h
  obtain ⟨appendIdle, formatting⟩ := (step_keepsLaws h).paths k
  exact ⟨appendIdle, formatting, step_settles h k⟩

/-- Settles O8: each command keeps the three laws together, by the operations it is made of: those that leave the append path as
it is, those that move records along it, and the procedures that build its marks anew. -/
theorem stepKeepsBuffers : Obligations.StepKeepsBuffers := by
  unfold Obligations.StepKeepsBuffers
  exact ⟨fun _ _ b h => (step_keepsLaws h).buffers b, fun _ _ k b f h => (step_keepsLaws h).flight k b f,
    fun _ _ b f c m sound h => (step_keepsLaws h).marks b f c m sound⟩

end Sys2Proof.Machine
end

section
/-!
SUPPORT. The die queues after a completion, and the entries and takes that results and cards go through (R19, R51, R52, R64, R83).
-/
namespace Sys2Proof.Machine

-- One proof at a time, as in the tests: proofs checked side by side need more threads than the limits allow.
set_option Elab.async false

variable {s t u : State} {d : Fin 4} {seg : Nat} {e : Entry} {acts more : List FlashOp} {c : CardIx}

/-! ### The die queues after a completion (R64) -/

theorem queuesAfter_completeOp (d : Fin 4) (s : State) : QueuesAfter d [] s (completeOp d s) := by
  refine ⟨fun x => ?_, by simp [completeOp], by simp [completeOp], by simp [completeOp]⟩
  rw [List.filter_nil, List.append_nil]
  refine (Fs.complete_queue s.fs d x).trans ?_
  by_cases h : x = d <;> simp [h]

theorem QueuesAfter.gain (h : QueuesAfter d acts s t) (k : QueuesGain more t u) : QueuesAfter d (acts ++ more) s u where
  queue x := by rw [k.queue, h.queue, List.filter_append, List.append_assoc]
  mask := k.mask.trans h.mask
  corrected := k.corrected.trans h.corrected
  softResets := k.softResets.trans h.softResets

theorem QueuesAfter.of_fs (h : QueuesAfter d acts s t) (fs : u.fs = t.fs) : QueuesAfter d acts s u := by
  obtain ⟨queue, mask, corrected, softResets⟩ := h
  exact ⟨by rwa [fs], by rwa [fs], by rwa [fs], by rwa [fs]⟩

/-- The program of a segment's digest row (R51). -/
def digestProgram (epoch : Nat) (j : DigestJob) : FlashAct :=
  .programRow j.seg 63 (digestData j.entries) (trailerBytes epoch 63 0 0 0 0 756 (digestData j.entries)) (erased 31)

theorem handDigest_eq (j : DigestJob) (s : State) : handDigest j s = handOp .packer (digestProgram s.cu.epoch j) s := rfl

theorem queuesGain_handDigest (hf : s.ec.engine ≠ .faulted) (j : DigestJob) :
    QueuesGain [{ source := .packer, act := digestProgram s.cu.epoch j }] s (handDigest j s) := queuesGain_handOp hf _ _

/-! ### One entry changes (R83) -/

theorem onlyEntry_setEntry (ok : CatalogOk s) (seg : Nat) (e : Entry) : OnlyEntry seg e s (setEntry seg e s) :=
  ⟨by rw [entry_setEntry ok, if_pos rfl], fun x hx => by rw [entry_setEntry ok, if_neg hx]⟩

theorem OnlyEntry.refl (seg : Nat) (s : State) : OnlyEntry seg (s.cu.entry seg) s s := ⟨rfl, fun _ _ => rfl⟩

/-- Of the states, `OnlyEntry` sees the catalog alone. -/
theorem OnlyEntry.of_catalog {s' t' : State} (h : OnlyEntry seg e s t) (hs : s'.cu.catalog = s.cu.catalog)
    (ht : t'.cu.catalog = t.cu.catalog) : OnlyEntry seg e s' t' := by
  unfold OnlyEntry Cu.entry at h ⊢
  rwa [hs, ht]

/-! ### Cards taken (R19) -/

theorem MovesCard.of_xp {st : CardState} (m : MovesCard c st s t) (hx : u.xp = t.xp) : MovesCard c st s u := by
  obtain ⟨state, bit, bytes, bits, port⟩ := m
  exact ⟨by rwa [cardByte, hx], by rwa [hx], by rwa [hx], by rwa [hx], by rwa [hx]⟩

/-- A card that its row serves in READY. -/
theorem Takes.serves {path : CardPath} {free : Bool} {mine : Work → Bool} {always : Bool}
    {serve : CardIx → Work → State → State} (k : Takes path c s) (hf : free = true)
    (hk : (cardWork s c).kind.map Kind.path = some path) (hm : mine (cardWork s c) = true) :
    pathTake path free mine always serve s = serve c (cardWork s c) (takeHead path c s) := by
  obtain ⟨rest, hq⟩ := List.head?_eq_some_iff.1 k.head
  exact pathTake_serves hf (.inl k.ready) hq hk hm k.reserved (.inl k.ready)

theorem wf_takeHead (wf : Memory.wf s.xp.mem = true) (path : CardPath) (c : CardIx) :
    Memory.wf (takeHead path c s).xp.mem = true := by
  simp only [takeHead, setQueue_frame, setCardState_mem]
  exact Memory.wf_store wf _ _

theorem Work.badRun_iff (w : Work) : w.badRun = true ↔ w.parcelCount = 0 ∨ 110 < w.parcelFirst + w.parcelCount := by
  simp [Work.badRun]

end Sys2Proof.Machine
end

section
/-!
PROOF. An APPEND and a FLUSH card taken, the linger timer's expiry, and the result of a digest program (O21, O25, O26, O31).
-/
namespace Sys2Proof.Machine

-- One proof at a time, as in the tests: proofs checked side by side need more threads than the limits allow.
set_option Elab.async false

variable {s t : State} {c : CardIx} {w : Work} {seg : Nat}

/-! ### APPEND (R38) -/

theorem takeHead_append (c : CardIx) (s : State) :
    ∃ x q, takeHead .append c s = { s with xp := x, ci := { s.ci with append := q } } := ⟨_, _, rfl⟩

/-- Settles O21: the checks of an APPEND in their order. -/
theorem appendIsServedOrRefused : Obligations.AppendIsServedOrRefused := by
  unfold Obligations.AppendIsServedOrRefused
  intro c s take w kind
  have free : s.rp.served = none := take.free
  have serves : exec .append s = done (serveAppend c w (takeHead .append c s)) :=
    congrArg done (take.serves (by simp [free]) (by rw [show (cardWork s c).kind = _ from kind]; rfl)
      (by rw [show (cardWork s c).kind = _ from kind]; rfl))
  have rp : (takeHead .append c s).rp = s.rp := by simp
  by_cases readOnly : s.rp.readOnly = true
  · obtain ⟨t, ht, answers⟩ := refusal_of_take (.inl take.ready) take.memory serves (if_pos (by rwa [rp]))
    exact ⟨t, ht, by rwa [if_pos readOnly]⟩
  simp only [if_neg readOnly]
  have checks : (w.argC = 0 ∨ 255 < w.argC ∨ w.badRun = true) ↔
      (w.argC = 0 ∨ 255 < w.argC ∨ w.parcelCount = 0 ∨ 110 < w.parcelFirst + w.parcelCount) := by rw [Work.badRun_iff]
  by_cases bad : w.argC = 0 ∨ 255 < w.argC ∨ w.badRun = true
  · obtain ⟨t, ht, answers⟩ := refusal_of_take (.inl take.ready) take.memory serves
      ((if_neg (by rwa [rp])).trans (if_pos bad))
    exact ⟨t, ht, by rwa [if_pos (checks.1 bad)]⟩
  simp only [if_neg (mt checks.2 bad)]
  have served : serveAppend c w (takeHead .append c s) = setServed (some
      { card := c, work := w, staged := 0, first := 0, last := 0, offset := 0, wait := .staging }) (takeHead .append c s) :=
    (if_neg (by rwa [rp])).trans (if_neg bad)
  have engine : (serveAppend c w (takeHead .append c s)).ec.engine ≠ .stopping := by simp [take.ready]
  rw [done_eq, settle_of_ne engine, served] at serves
  exact ⟨_, serves, ⟨(movesCard_takeHead take.memory .append c).of_xp rfl, rfl⟩, rfl, rfl, rfl⟩

/-! ### FLUSH (R54) -/

section
variable {target : Nat} {r : Answer}

theorem awaitDurable_of_reached (h : target ≤ s.rp.durable) : awaitDurable c w target r s = answerCard c r s := if_pos h

theorem awaitDurable_of_ahead (h : ¬ target ≤ s.rp.durable) : awaitDurable c w target r s = { s with rp := { s.rp with
    waitList := s.rp.waitList ++ [{ card := c, work := w, target := target, answer := r }] } } := if_neg h

end

/-- Settles O25: the FILLING buffer closes, and the card is answered or joins the wait list. -/
theorem flushAnswersOrWaits : Obligations.FlushAnswersOrWaits := by
  unfold Obligations.FlushAnswersOrWaits
  intro c s take ok w kind
  have free : s.rp.served = none := take.free
  have serves : exec .flush s = done (serveFlush c w (takeHead .append c s)) :=
    congrArg done (take.serves (by simp [free]) (by rw [show (cardWork s c).kind = _ from kind]; rfl)
      (by rw [show (cardWork s c).kind = _ from kind]; rfl))
  have rp : (takeHead .append c s).rp = s.rp := by simp
  refine ⟨fun readOnly => refusal_of_take (.inl take.ready) take.memory serves (if_pos (by rwa [rp])), fun writable => ?_⟩
  obtain ⟨x, q, taken⟩ := takeHead_append c s
  have moved := movesCard_takeHead take.memory .append c
  have wf := wf_takeHead take.memory .append c
  have tail : (takeHead .append c s).ci = tailed .append s := rfl
  have notFaulted : (takeHead .append c s).ec.engine ≠ .faulted := by simp [take.ready]
  generalize takeHead .append c s = u at *
  have closing (t : State) := closesFilling_of_closed (t := t) notFaulted (ok.of_rp rp)
  have closed : ∃ a b l f, closeFilling u =
      { s with xp := x, ci := { s.ci with append := q }, rp := { s.rp with bufA := a, bufB := b, lingerTimer := l }, fs := f } := by
    obtain ⟨a, b, l, f, e⟩ := closeFilling_eq u
    exact ⟨a, b, l, f, by rw [e, taken]⟩
  have port : (closeFilling u).xp = u.xp := by simp
  have queue : (closeFilling u).ci = u.ci := by simp
  have flushes : serveFlush c w u =
      awaitDurable c w ((closeFilling u).rp.nextSeq - 1) (flushAnswer ((closeFilling u).rp.nextSeq - 1)) (closeFilling u) :=
    if_neg (by rw [rp, writable]; decide)
  rw [done_eq, settle_of_ne (by simp [taken, take.ready]), flushes] at serves
  refine ⟨_, serves, ?_⟩
  obtain ⟨closes, none_, linger⟩ := closing (awaitDurable c w ((closeFilling u).rp.nextSeq - 1)
    (flushAnswer ((closeFilling u).rp.nextSeq - 1)) (closeFilling u)) (fun k => by cases k <;> simp [Rp.buf]) (by simp) (by simp)
  refine ⟨closes.congr_left (by rw [rp]) (by rw [rp]) (by simp [taken]) (by simp [taken]) (by rw [rp]), none_, linger,
    by simp [rp, free], ?_⟩
  have marks : (closeFilling u).rp.nextSeq = s.rp.nextSeq ∧ (closeFilling u).rp.durable = s.rp.durable := by simp [rp]
  obtain ⟨nextSeq, durable⟩ := marks
  rw [nextSeq]
  obtain ⟨a, b, l, f, e⟩ := closed
  by_cases reached : s.rp.nextSeq - 1 ≤ s.rp.durable
  · have answers := answersCard_answerCard (s := closeFilling u) (by rwa [port]) c (flushAnswer (s.rp.nextSeq - 1))
    rw [awaitDurable_of_reached (by rwa [durable])]
    refine ⟨?_, by rw [e]; rfl, by rw [e]; rfl⟩
    simp only [if_pos reached]
    exact ⟨⟨(moved.of_xp port).answers answers, by simpa [queue] using tail⟩, by rw [e]; rfl⟩
  · rw [awaitDurable_of_ahead (by rwa [durable])]
    refine ⟨?_, by rw [e], by rw [e]⟩
    simp only [if_neg reached]
    exact ⟨⟨moved.of_xp port, queue.trans tail⟩, by rw [e]; rfl⟩

/-! ### The linger timer (R53) -/

/-- Settles O26: the expiry closes the FILLING buffer. -/
theorem lingerExpiryClosesBuffer : Obligations.LingerExpiryClosesBuffer := by
  unfold Obligations.LingerExpiryClosesBuffer
  intro s ms hr ok timer
  have expires : lingerExpire s = { closeFilling s with rp := { (closeFilling s).rp with lingerTimer := none } } := by
    simp only [lingerExpire, timer]
  have stopped : (closeFilling s).rp.lingerTimer = none := by
    obtain ⟨n, hn⟩ := Option.ne_none_iff_exists'.1 (ok.linger (by rw [timer]; rfl))
    exact closeFilling_linger hn
  have same : lingerExpire s = closeFilling s := by rw [expires, ← stopped]
  obtain ⟨closes, none_, linger⟩ := closesFilling_of_closed hr.notFaulted ok (t := closeFilling s) (fun _ => rfl) rfl rfl
  obtain ⟨a, b, l, f, e⟩ := closeFilling_eq s
  exact ⟨_, by rw [← same]; rfl, closes, none_, linger, by rw [e], by rw [e]⟩

/-! ### The result of a digest program (R52) -/

/-- R52, R90: the result counts for a SHORT member with 63 rows. -/
theorem onlyEntry_claimDigest (ok : CatalogOk s) (seg : Nat) (passed : Bool) : OnlyEntry seg
    (if seg ∈ s.cu.orderList ∧ (s.cu.entry seg).state = .short ∧ (s.cu.entry seg).rowsValid = 63 then
      if passed then { s.cu.entry seg with state := .full, rowsValid := 64, hasDigest := true }
      else { s.cu.entry seg with retire := true }
    else s.cu.entry seg) s (claimDigest seg passed s) := by
  unfold claimDigest
  simp only [List.contains_eq_mem, decide_eq_true_eq]
  split
  · split
    · exact onlyEntry_setEntry ok _ _
    · exact onlyEntry_setEntry ok _ _
  · exact .refl seg s

theorem claimDigest_eq (seg : Nat) (passed : Bool) (s : State) :
    ∃ cat, claimDigest seg passed s = { s with cu := { s.cu with catalog := cat } } := by
  unfold claimDigest
  dsimp only
  split
  · split <;> exact ⟨_, rfl⟩
  · exact ⟨_, rfl⟩

theorem nextDigest_nil (h : s.rp.digests = []) : nextDigest s = s := by simp only [nextDigest, h]

theorem nextDigest_cons {j : DigestJob} {js : List DigestJob} (h : s.rp.digests = j :: js) :
    nextDigest s = handDigest j { s with rp := { s.rp with digests := js } } := by simp only [nextDigest, h]

theorem queuesGain_nextDigest {j : DigestJob} {js : List DigestJob} (hf : s.ec.engine ≠ .faulted)
    (h : s.rp.digests = j :: js) :
    QueuesGain [{ source := .packer, act := digestProgram s.cu.epoch j }] s (nextDigest s) := by
  rw [nextDigest_cons h]
  exact (queuesGain_handDigest (s := { s with rp := { s.rp with digests := js } }) hf j).of_fs rfl rfl

theorem nextDigest_eq (s : State) : ∃ ds f, nextDigest s = { s with rp := { s.rp with digests := ds }, fs := f } := by
  unfold nextDigest
  split
  · exact ⟨_, _, rfl⟩
  · rw [handDigest_eq, handOp]
    split <;> exact ⟨_, _, rfl⟩

/-- Settles O31: the completed program leaves its queue, the entry is settled, and the next digest is handed over. -/
theorem digestResultSettlesSegment : Obligations.DigestResultSettlesSegment := by
  unfold Obligations.DigestResultSettlesSegment
  intro s p0 p1 d seg data sp0 sp1 ⟨running, ending⟩ ok e
  have result : digestResult (bothPass p0 p1) s = nextDigest (claimDigest seg (bothPass p0 p1) (completeOp d s)) := by
    have use : (completeOp d s).ec.engine.running = true := by simpa using (running_iff s).1 running
    simp only [digestResult, ending, FlashOp.isDigestRow, beq_self_eq_true, Bool.and_self, if_true]
    exact if_pos ((running_iff s).1 running)
  have settled := onlyEntry_claimDigest (s := completeOp d s) ok seg (bothPass p0 p1)
  have passed : (bothPass p0 p1 = true) = (p0 = .pass ∧ p1 = .pass) := by simp [bothPass]
  simp only [passed] at settled
  obtain ⟨cat, claimed⟩ := claimDigest_eq seg (bothPass p0 p1) (completeOp d s)
  refine ⟨_, congrArg done result, settled.of_catalog rfl (by simp), ?digests, ?frame⟩
  case frame =>
    obtain ⟨ds, f, e⟩ := nextDigest_eq (claimDigest seg (bothPass p0 p1) (completeOp d s))
    rw [e, claimed]
    rfl
  case digests =>
    have claims : (claimDigest seg (bothPass p0 p1) (completeOp d s)).rp = s.rp := by simp
    have after := (queuesAfter_completeOp d s).of_fs (u := claimDigest seg (bothPass p0 p1) (completeOp d s)) (by simp)
    cases waiting : s.rp.digests with
    | nil =>
      rw [nextDigest_nil (by rw [claims, waiting])]
      exact ⟨by rw [claims, waiting], after⟩
    | cons j js =>
      have hands := queuesGain_nextDigest (by simpa using running.notFaulted) (claims ▸ waiting)
      have epoch : (claimDigest seg (bothPass p0 p1) (completeOp d s)).cu.epoch = s.cu.epoch := by rw [claimed]; rfl
      rw [epoch] at hands
      rw [nextDigest_cons (by rw [claims, waiting])] at hands ⊢
      exact ⟨by simp, after.gain hands⟩

end Sys2Proof.Machine
end

section
/-!
SUPPORT. What a passed record row changes before any card is re-examined (R48, R49, R55).
-/
namespace Sys2Proof.Machine

-- One proof at a time, as in the tests: proofs checked side by side need more threads than the limits allow.
set_option Elab.async false

variable {s t u : State} {d : Fin 4} {n : BufName} {dst : Dest}

/-! ### The result of a record row program in READY and STOPPING (R49, R50) -/

/-- The completion of the program of the buffer IN_FLIGHT reaches the RP with that buffer and its destination. -/
theorem recordRowResult_of_ends {sg row : Nat} {data sp0 sp1 : List Byte} (use : BufName → Dest → State → State)
    (ends : Ends d .packer (.programRow sg row data sp0 sp1) s) (hrow : row ≠ 63) (hn : s.rp.find .inFlight = some n)
    (hd : (s.rp.buf n).dest = some dst) : recordRowResult use s = use n dst (completeOp d s) := by
  obtain ⟨running, ending⟩ := ends
  have record : FlashOp.isRecordRow { source := .packer, act := .programRow sg row data sp0 sp1 } = true := by
    simpa [FlashOp.isRecordRow] using hrow
  have use_ : (completeOp d s).ec.engine.running = true := (running_iff s).1 running
  have found : (completeOp d s).rp.find .inFlight = some n := hn
  have dest : ((completeOp d s).rp.buf n).dest = some dst := hd
  simp only [recordRowResult, ending, record, if_true, found, dest]
  exact if_pos use_

/-- While no card waits for a buffer none is re-examined for one (R42). -/
theorem reexamineBuffer_of_none (h : ∀ v, s.rp.served = some v → v.wait ≠ .buffer) : reexamineBuffer s = s := by
  unfold reexamineBuffer
  split
  next v hv => exact if_neg fun k => h v hv k.1
  · rfl

/-! ### The row itself (R49) -/

/-- The entry of a segment after a buffer's row passed. -/
def Entry.passed (e : Entry) (b : RowBuffer) : Entry :=
  { e with
    rowsValid := e.rowsValid + 1, lastSeq := b.lastSeq, lastKey := b.lastKey
    firstKey := if e.lastSeq + 1 = e.firstSeq then b.firstKey else e.firstKey }

/-- The row of a buffer in the row map. -/
def RowBuffer.mapped (b : RowBuffer) (row : Nat) : RowMapEntry :=
  { row := row, firstSeq := b.firstSeq, firstKey := b.firstKey, count := b.records.length }

/-- From `s` to `t` the row of buffer `n` became durable. -/
structure PassesRow (n : BufName) (dst : Dest) (s t : State) : Prop where
  durable : t.rp.durable = (s.rp.buf n).lastSeq
  relocation : t.rp.relocation = none
  rowMap : t.rp.rowMap = s.rp.rowMap ++ [(s.rp.buf n).mapped dst.row]
  entry : OnlyEntry dst.seg ((s.cu.entry dst.seg).passed (s.rp.buf n)) s t

theorem PassesRow.of_same (h : PassesRow n dst s t) (durable : u.rp.durable = t.rp.durable)
    (relocation : u.rp.relocation = t.rp.relocation) (rowMap : u.rp.rowMap = t.rp.rowMap) (cu : u.cu = t.cu) :
    PassesRow n dst s u :=
  ⟨durable.trans h.durable, relocation.trans h.relocation, rowMap.trans h.rowMap, h.entry.of_catalog rfl (by rw [cu])⟩

theorem onlyEntry_claimRowPass (ok : CatalogOk s) (seg : Nat) (b : RowBuffer) :
    OnlyEntry seg ((s.cu.entry seg).passed b) s (claimRowPass seg b.firstKey b.lastSeq b.lastKey s) := by
  have passed : { s.cu.entry seg with
      rowsValid := (s.cu.entry seg).rowsValid + 1
      firstKey := if (s.cu.entry seg).empty then b.firstKey else (s.cu.entry seg).firstKey
      lastSeq := b.lastSeq, lastKey := b.lastKey } = (s.cu.entry seg).passed b := by
    simp only [Entry.empty, decide_eq_true_eq, Entry.passed]
  rw [← passed]
  exact onlyEntry_setEntry ok _ _

theorem applyRowPass_eq (n : BufName) (dst : Dest) (s : State) : ∃ a b cat, applyRowPass n dst s = { s with
    rp := { s.rp with
      bufA := a, bufB := b, durable := (s.rp.buf n).lastSeq
      rowMap := s.rp.rowMap ++ [(s.rp.buf n).mapped dst.row], relocation := none }
    cu := { s.cu with catalog := cat } } := by
  cases n <;> exact ⟨_, _, _, rfl⟩

theorem applyRowPass_self (n : BufName) (dst : Dest) (s : State) : (applyRowPass n dst s).rp.buf n = .cleared := by
  cases n <;> rfl

theorem applyRowPass_other (n : BufName) (dst : Dest) (s : State) :
    (applyRowPass n dst s).rp.buf n.other = s.rp.buf n.other := by
  cases n <;> rfl

theorem passesRow_applyRowPass (ok : CatalogOk s) (n : BufName) (dst : Dest) :
    PassesRow n dst s (applyRowPass n dst s) := by
  refine ⟨by cases n <;> rfl, by cases n <;> rfl, by cases n <;> rfl, ?_⟩
  exact (onlyEntry_claimRowPass ok dst.seg (s.rp.buf n)).of_catalog rfl (by cases n <;> rfl)

/-! ### The other buffer (R48) -/

theorem Rp.nextClosed_none_of {p : Rp} (h : ∀ k, (p.buf k).state ≠ .closed) : p.nextClosed = none := by
  unfold Rp.nextClosed
  rw [if_neg fun both => h .a both.1]
  exact Rp.find_eq_none.2 h

/-- Nothing is handed over while the other buffer is not CLOSED. -/
theorem handClosed_applyRowPass_stays (ho : (s.rp.buf n.other).state ≠ .closed) :
    handClosed (applyRowPass n dst s) = applyRowPass n dst s := by
  refine handClosed_of_none (Rp.nextClosed_none_of fun k => ?_)
  rcases n.eq_or_other k with rfl | rfl
  · rw [applyRowPass_self]; exact nofun
  · rwa [applyRowPass_other]

/-- A buffer's program sees the catalog and the relocation record alone. -/
theorem bufferProgram_congr (cu : t.cu = s.cu) (relocation : t.rp.relocation = s.rp.relocation) (b : RowBuffer) (dst : Dest) :
    bufferProgram t b dst = bufferProgram s b dst := by
  simp only [bufferProgram, segmentHeader, cu, relocation]

/-- A CLOSED other buffer is handed over. -/
theorem handClosed_applyRowPass_hands {dst2 : Dest} (hf : s.ec.engine ≠ .faulted) (ho : (s.rp.buf n.other).state = .closed)
    (hd : (s.rp.buf n.other).dest = some dst2) (free : recordRowInFlight s = false) :
    (handClosed (applyRowPass n dst s)).rp.buf n = .cleared ∧
    (handClosed (applyRowPass n dst s)).rp.buf n.other = { s.rp.buf n.other with state := .inFlight } ∧
    QueuesGain [{ source := .packer, act := bufferProgram (handClosed (applyRowPass n dst s)) (s.rp.buf n.other) dst2 }]
      s (handClosed (applyRowPass n dst s)) := by
  have self := applyRowPass_self n dst s
  have other := applyRowPass_other n dst s
  have next : (applyRowPass n dst s).rp.nextClosed = some n.other :=
    Rp.nextClosed_of_only (by rwa [other]) (by rw [BufName.other_other, self]; exact nofun)
  have busy : recordRowInFlight (applyRowPass n dst s) = false := (recordRowInFlight_of_fs (by simp)).trans free
  have program : bufferProgram (handClosed (applyRowPass n dst s)) (s.rp.buf n.other) dst2 =
      bufferProgram (applyRowPass n dst s) (s.rp.buf n.other) dst2 := by
    obtain ⟨a, b, f, e⟩ := handClosed_eq (applyRowPass n dst s)
    exact bufferProgram_congr (by rw [e]) (by rw [e]) _ _
  rw [program, handClosed_of_next busy next, handBuffer_of_dest (by rw [other, hd]), other]
  refine ⟨?_, by simp, (queuesGain_handOp (by simpa using hf) _ _).of_fs (by simp) rfl⟩
  have kept := setBuf_other n.other { s.rp.buf n.other with state := .inFlight } (applyRowPass n dst s)
  simpa [self] using kept

/-! ### The wait list (R55) -/

/-- The entries at the head of the wait list whose targets are reached. -/
def Rp.reached (p : Rp) : List WaitEntry := p.waitList.takeWhile fun w => decide (w.target ≤ p.durable)

theorem Rp.drop_reached (p : Rp) :
    p.waitList.drop p.reached.length = p.waitList.dropWhile fun w => decide (w.target ≤ p.durable) := by
  have parts : p.reached ++ p.waitList.dropWhile (fun w => decide (w.target ≤ p.durable)) = p.waitList :=
    List.takeWhile_append_dropWhile
  conv_lhs => rw [← parts]
  exact List.drop_left

theorem answerReached_eq (s : State) : ∃ x, answerReached s =
    { s with xp := x, rp := { s.rp with waitList := s.rp.waitList.drop s.rp.reached.length } } := by
  rw [Rp.drop_reached]
  exact answerEntries_eq _ _

/-- An empty wait list has no entry to answer. -/
theorem answerReached_of_empty (h : s.rp.waitList = []) : answerReached s = s := by
  unfold answerReached
  rw [h]
  exact congrArg (fun ws => { s with rp := { s.rp with waitList := ws } }) h.symm

/-- The cards of the wait list are each there once. -/
theorem CardsOk.waitOnce (ok : CardsOk s) : (s.rp.waitList.map WaitEntry.card).Nodup := by
  have held := ok.heldOnce
  unfold heldCards at held
  exact (List.nodup_append.1 (List.nodup_append.1 held).2.1).1

theorem answersAll_answerReached (once : (s.rp.waitList.map WaitEntry.card).Nodup) (wf : Memory.wf s.xp.mem = true) :
    AnswersAll (s.rp.reached.map fun w => (w.card, w.answer)) s (answerReached s) := by
  have part : (s.rp.reached.map WaitEntry.card).Nodup := once.sublist ((List.takeWhile_sublist _).map _)
  exact (answersAll_answerEntries (s := { s with rp := { s.rp with
    waitList := s.rp.waitList.dropWhile fun w => decide (w.target ≤ s.rp.durable) } }) part wf).from_port rfl rfl

end Sys2Proof.Machine
end

section
/-!
PROOF. A passed record row, before the last of its segment and as the last (O27, O28).
-/
namespace Sys2Proof.Machine

-- One proof at a time, as in the tests: proofs checked side by side need more threads than the limits allow.
set_option Elab.async false

variable {s t u : State} {d : Fin 4} {n : BufName} {dst dst2 : Dest} {v : RpServed} {h : HostRecord} {o : OpenSeg}
  {sg row : Nat} {data sp0 sp1 : List Byte}

/-! ### The pass of a row before the last (R49) -/

/-- The state after the row of buffer `n` passed and the other buffer, CLOSED, was handed over. -/
def handedPass (n : BufName) (dst : Dest) (d : Fin 4) (s : State) : State :=
  handClosed (applyRowPass n dst (completeOp d s))

theorem handedPass_eq (n : BufName) (dst : Dest) (d : Fin 4) (s : State) : ∃ a b cat f, handedPass n dst d s = { s with
    rp := { s.rp with
      bufA := a, bufB := b, durable := (s.rp.buf n).lastSeq
      rowMap := s.rp.rowMap ++ [(s.rp.buf n).mapped dst.row], relocation := none }
    cu := { s.cu with catalog := cat }, fs := f } := by
  obtain ⟨a, b, f, e⟩ := handClosed_eq (applyRowPass n dst (completeOp d s))
  obtain ⟨a', b', cat, k⟩ := applyRowPass_eq n dst (completeOp d s)
  exact ⟨a, b, cat, f, by rw [handedPass, e, k]; rfl⟩

theorem passesRow_handedPass (ok : CatalogOk s) (n : BufName) (dst : Dest) (d : Fin 4) :
    PassesRow n dst s (handedPass n dst d s) := by
  obtain ⟨a, b, f, e⟩ := handClosed_eq (applyRowPass n dst (completeOp d s))
  obtain ⟨durable, relocation, rowMap, entry⟩ :=
    (passesRow_applyRowPass (s := completeOp d s) ok n dst).of_same (u := handedPass n dst d s)
      (by rw [handedPass, e]) (by rw [handedPass, e]) (by rw [handedPass, e]) (by rw [handedPass, e])
  exact ⟨durable, relocation, rowMap, entry.of_catalog rfl rfl⟩

/-- A pass makes no join, so that the RU does not judge (R152). -/
theorem exec_rowPass (ends : Ends d .packer (.programRow sg row data sp0 sp1) s) (hrow : row ≠ 63)
    (hn : s.rp.find .inFlight = some n) (hd : (s.rp.buf n).dest = some dst) (before : dst.row ≠ 62)
    (ht : reexamineBuffer (answerReached (handedPass n dst d s)) = t) (freePool : t.cu.freePool = s.cu.freePool)
    (orderList : t.cu.orderList = s.cu.orderList) : exec .rowProgramPass s = .next (settle t) := by
  have passes : rowPass n dst (completeOp d s) = judgeChange (completeOp d s) t := by
    simp only [rowPass, rowPassed, if_neg before]
    rw [← ht]; rfl
  have still : judgeChange (completeOp d s) t = t := if_pos ⟨congrArg List.length freePool, orderList⟩
  show done (recordRowResult rowPass s) = _
  rw [recordRowResult_of_ends rowPass ends hrow hn hd, passes, still, done_eq]

/-! ### The cards of the entries reached (R55) -/

theorem OnlyCards.from_xp {P : CardIx → Prop} (k : OnlyCards P s t) (hx : u.xp = s.xp) : OnlyCards P u t := by
  obtain ⟨bytes, bits⟩ := k
  exact ⟨by rwa [hx], by rwa [hx]⟩

/-- The state after the answers of a passed row, where no card waits for a buffer. -/
theorem exec_rowPass_answers (ends : Ends d .packer (.programRow sg row data sp0 sp1) s) (hrow : row ≠ 63) (cards : CardsOk s)
    (hn : s.rp.find .inFlight = some n) (hd : (s.rp.buf n).dest = some dst) (before : dst.row ≠ 62)
    (noWait : ∀ v, s.rp.served = some v → v.wait ≠ .buffer) :
    let reached := s.rp.waitList.takeWhile fun w => decide (w.target ≤ (s.rp.buf n).lastSeq)
    ∃ x, let t := { handedPass n dst d s with
          xp := x, rp := { (handedPass n dst d s).rp with waitList := s.rp.waitList.drop reached.length } }
      exec .rowProgramPass s = .next (settle t) ∧ (∀ w ∈ reached, CardShows t w.card w.answer) ∧
      OnlyCards (fun c => ∃ w ∈ reached, w.card = c) s t ∧
      { x with mem := s.xp.mem, answered := s.xp.answered } = s.xp := by
  intro reached
  obtain ⟨a, b, cat, f, handed⟩ := handedPass_eq n dst d s
  have port : (handedPass n dst d s).xp = s.xp := by rw [handed]
  have list : (handedPass n dst d s).rp.waitList = s.rp.waitList := by rw [handed]
  have same : (handedPass n dst d s).rp.reached = reached := by rw [handed]; rfl
  obtain ⟨-, shown, others, rest, -⟩ :=
    answersAll_answerReached (s := handedPass n dst d s) (list ▸ cards.waitOnce) (port ▸ cards.canonical)
  obtain ⟨x, answered⟩ := answerReached_eq (handedPass n dst d s)
  rw [same, list] at answered
  rw [answered, same] at shown others
  rw [answered, port] at rest
  refine ⟨x, exec_rowPass ends hrow hn hd before ?_ (by rw [handed]) (by rw [handed]),
    fun w hw => shown (w.card, w.answer) (List.mem_map.2 ⟨w, hw, rfl⟩), ?_, rest⟩
  · rw [answered]
    exact reexamineBuffer_of_none (by rwa [handed])
  · refine OnlyCards.from_xp (others.mono fun c hc => ?_) port.symm
    obtain ⟨p, hp, rfl⟩ := List.mem_map.1 hc
    obtain ⟨w, hw, rfl⟩ := List.mem_map.1 hp
    exact ⟨w, hw, rfl⟩

/-! ### A card waiting for a buffer (R42) -/

theorem readRecord_congr (mem : t.xp.mem = s.xp.mem) (keyHigh : t.rp.keyHigh = s.rp.keyHigh)
    (nextSeq : t.rp.nextSeq = s.rp.nextSeq) (v : RpServed) : readRecord t v = readRecord s v := by
  simp only [readRecord, mem, keyHigh, nextSeq]

/-- The state after the record of card `v` was staged as the first of buffer `n`, at the next row of the open segment. -/
def stagedAfresh (n : BufName) (v : RpServed) (h : HostRecord) (o : OpenSeg) (s : State) : State :=
  setServed (some (v.counted h s.rp.nextSeq)) (recordJoins n h (startsFilling n o s))

theorem stagedAfresh_self (n : BufName) (v : RpServed) (h : HostRecord) (o : OpenSeg) (s : State) :
    (stagedAfresh n v h o s).rp.buf n = {
      state := .filling, dest := some { seg := o.seg, row := o.nextRow }
      records := [{ seq := s.rp.nextSeq, key := h.key, image := storedImage h.class_ h.key s.rp.nextSeq h.payload }] } := by
  cases n <;> rfl

theorem stagedAfresh_other (n : BufName) (v : RpServed) (h : HostRecord) (o : OpenSeg) (s : State) :
    (stagedAfresh n v h o s).rp.buf n.other = s.rp.buf n.other := by
  cases n <;> rfl

theorem stagedAfresh_eq (n : BufName) (v : RpServed) (h : HostRecord) (o : OpenSeg) (s : State) :
    ∃ a b, stagedAfresh n v h o s = { s with rp := { s.rp with
      bufA := a, bufB := b, served := some (v.counted h s.rp.nextSeq), openSeg := some { o with nextRow := o.nextRow + 1 }
      lingerTimer := if s.xp.linger = 0 then none else some s.xp.linger.toNat
      nextSeq := s.rp.nextSeq + 1, keyHigh := h.key } } := by
  cases n <;> exact ⟨_, _, rfl⟩

/-- The record of a card waiting for a buffer goes into the one EMPTY buffer, at the open segment's next row. -/
theorem reexamineBuffer_stages (hr : s.ec.engine.running = true) (hv : s.rp.served = some v) (hw : v.wait = .buffer)
    (hx : readRecord s v = .ok h) (he : (s.rp.buf n).state = .empty) (ho : (s.rp.buf n.other).state = .inFlight)
    (hopen : s.rp.openSeg = some o) (row : o.nextRow ≤ 62) (small : imageSize h.payload.length < 4096)
    (more : v.staged + 1 ≠ v.work.argC) : reexamineBuffer s = stagedAfresh n v h o s := by
  have filling : s.rp.find .filling = none := Rp.find_none_of (n := n) (by rw [he]; decide) (by rw [ho]; decide)
  have empty : s.rp.find .empty = some n := Rp.find_of_only he (by rw [ho]; decide)
  have staged : reexamineBuffer s = stageNext v s := by
    simp only [reexamineBuffer, hv]
    exact if_pos ⟨hw, hr⟩
  rw [staged, stageNext, hx]
  dsimp only
  rw [placeRecord_of_none filling, placeFresh_of_some empty, placeInEmpty_of_open hopen row, stageInto_startsFilling small more]
  cases n <;> rfl

/-! ### The two ways of the other buffer -/

theorem handedPass_stays (ho : (s.rp.buf n.other).state ≠ .closed) :
    (handedPass n dst d s).rp.buf n = .cleared ∧ (handedPass n dst d s).rp.buf n.other = s.rp.buf n.other ∧
    QueuesAfter d [] s (handedPass n dst d s) := by
  rw [handedPass, handClosed_applyRowPass_stays (s := completeOp d s) ho]
  exact ⟨applyRowPass_self .., applyRowPass_other .., (queuesAfter_completeOp d s).of_fs (by simp)⟩

theorem handedPass_hands (hf : s.ec.engine ≠ .faulted) (ho : (s.rp.buf n.other).state = .closed)
    (hd : (s.rp.buf n.other).dest = some dst2)
    (noRow : ∀ e, ∀ op ∈ (if e = d then (s.fs.die e).queue.tail else (s.fs.die e).queue), op.isRecordRow = false) :
    (handedPass n dst d s).rp.buf n = .cleared ∧
    (handedPass n dst d s).rp.buf n.other = { s.rp.buf n.other with state := .inFlight } ∧
    QueuesAfter d [{ source := .packer, act := bufferProgram (handedPass n dst d s) (s.rp.buf n.other) dst2 }]
      s (handedPass n dst d s) := by
  have free : recordRowInFlight (completeOp d s) = false := by
    rw [recordRowInFlight, Bool.eq_false_iff, ne_eq, Fs.has_iff]
    rintro ⟨e, op, hop, record⟩
    rw [show (completeOp d s).fs = s.fs.complete d from rfl, Fs.complete_queue] at hop
    have other : op.isRecordRow = false := noRow e op (by split at hop <;> simp_all)
    rw [other] at record
    cases record
  obtain ⟨self, other, gain⟩ := handClosed_applyRowPass_hands (s := completeOp d s) (n := n) (dst := dst) hf ho hd free
  exact ⟨self, other, (queuesAfter_completeOp d s).gain gain⟩

/-! ### The obligations -/

/-- Settles O27: the row's change, the hand-over of the other buffer, the answers, and the card waiting for a buffer. -/
theorem rowPassMakesRowDurable : Obligations.RowPassMakesRowDurable := by
  unfold Obligations.RowPassMakesRowDurable
  constructor
  case left =>
    intro s d sg row data sp0 sp1 n dst ends hrow ok cards hn hd before other noWait b e reached
    obtain ⟨self, kept, queues⟩ := handedPass_stays (dst := dst) (d := d) other
    have pass := passesRow_handedPass ok n dst d
    obtain ⟨a, b', cat, f, handed⟩ := handedPass_eq n dst d s
    obtain ⟨x, ends_, shows_, others, port⟩ := exec_rowPass_answers ends hrow cards hn hd before noWait
    refine ⟨_, ends_, pass.durable, self, kept, pass.relocation, pass.rowMap, pass.entry, rfl, shows_, others,
      queues.of_fs rfl, port, ?_, ?_⟩
    all_goals rw [handed]
  case right =>
    intro s d sg row data sp0 sp1 n dst dst2 ends hrow ok cards hn hd before closed hd2 noRow b e passed
    obtain ⟨self, handedOver, queues⟩ := handedPass_hands (dst := dst) ends.1.notFaulted closed hd2 noRow
    have pass := passesRow_handedPass ok n dst d
    obtain ⟨a, b', cat, f, handed⟩ := handedPass_eq n dst d s
    have passed_of {t : State} (durable : t.rp.durable = (handedPass n dst d s).rp.durable)
        (relocation : t.rp.relocation = (handedPass n dst d s).rp.relocation)
        (rowMap : t.rp.rowMap = (handedPass n dst d s).rp.rowMap) (cu : t.cu = (handedPass n dst d s).cu)
        (other : t.rp.buf n.other = (handedPass n dst d s).rp.buf n.other) (fs : t.fs = (handedPass n dst d s).fs) :
        passed t := by
      have same := pass.of_same durable relocation rowMap cu
      refine ⟨same.durable, same.relocation, same.rowMap, same.entry, other.trans handedOver, ?_⟩
      rw [bufferProgram_congr cu relocation]
      exact queues.of_fs fs
    constructor
    case left =>
      intro noWait reached
      obtain ⟨x, ends_, shows_, others, port⟩ := exec_rowPass_answers ends hrow cards hn hd before noWait
      refine ⟨_, ends_, passed_of rfl rfl rfl rfl rfl rfl, self, rfl, shows_, others, port, ?_, ?_⟩
      all_goals rw [handed]
    case right =>
      intro v h o hv hw hx empty hopen room small more q
      have noAnswer : answerReached (handedPass n dst d s) = handedPass n dst d s :=
        answerReached_of_empty (by rw [handed]; exact empty)
      have stages := reexamineBuffer_stages (s := handedPass n dst d s) (n := n) (v := v) (h := h) (o := o)
        (by rw [handed]; exact (running_iff s).1 ends.1) (by rw [handed]; exact hv) hw
        ((readRecord_congr (by rw [handed]) (by rw [handed]) (by rw [handed]) v).trans hx) (by rw [self]; rfl)
        (by rw [handedOver]) (by rw [handed]; exact hopen) room small more
      have ends_ := (congrArg reexamineBuffer noAnswer).trans stages
      have first := stagedAfresh_self n v h o (handedPass n dst d s)
      have other := stagedAfresh_other n v h o (handedPass n dst d s)
      obtain ⟨a₂, b₂, staged⟩ := stagedAfresh_eq n v h o (handedPass n dst d s)
      have marks : (handedPass n dst d s).rp.nextSeq = s.rp.nextSeq ∧ (handedPass n dst d s).xp.linger = s.xp.linger := by
        rw [handed]; exact ⟨rfl, rfl⟩
      obtain ⟨nextSeq, linger⟩ := marks
      rw [nextSeq] at first staged
      rw [linger] at staged
      refine ⟨_, exec_rowPass ends hrow hn hd before ends_ (by rw [staged, handed]) (by rw [staged, handed]),
        passed_of (by rw [staged]) (by rw [staged]) (by rw [staged]) (by rw [staged]) other (by rw [staged]), first, ?_⟩
      rw [staged, handed]
      exact ⟨rfl, rfl, rfl, rfl, rfl, rfl, rfl⟩

end Sys2Proof.Machine
end

section
/-!
PROOF. The last row of a segment passed (O28).
-/
namespace Sys2Proof.Machine

-- One proof at a time, as in the tests: proofs checked side by side need more threads than the limits allow.
set_option Elab.async false

variable {s t u : State} {d : Fin 4} {n : BufName} {dst : Dest} {seg sg row : Nat} {e e' : Entry}
  {data sp0 sp1 : List Byte}

/-! ### The close of a segment (R51) -/

theorem OnlyEntry.trans (h : OnlyEntry seg e s t) (k : OnlyEntry seg e' t u) : OnlyEntry seg e' s u := by
  obtain ⟨-, others⟩ := h
  obtain ⟨own, others'⟩ := k
  exact ⟨own, fun x hx => (others' x hx).trans (others x hx)⟩

/-- The digest of a segment's rows, as the row map holds them. -/
def Rp.digestJob (p : Rp) (seg : Nat) : DigestJob where
  seg := seg
  entries := p.rowMap.map fun m => { firstSeq := m.firstSeq, firstKey := m.firstKey, count := m.count }

/-- The state before the digest of a closed segment is handed over or waits. -/
def segmentClosed (seg : Nat) (s : State) : State :=
  { claimClose seg s with rp := { s.rp with openSeg := none, rowMap := [] } }

theorem closeSegment_of_busy (h : digestInFlight s = true) : closeSegment seg s =
    { segmentClosed seg s with rp := { (segmentClosed seg s).rp with digests := s.rp.digests ++ [s.rp.digestJob seg] } } :=
  if_pos h

theorem closeSegment_of_free (h : ¬ digestInFlight s = true) :
    closeSegment seg s = handDigest (s.rp.digestJob seg) (segmentClosed seg s) := if_neg h

theorem closeSegment_eq (seg : Nat) (s : State) : ∃ ds cat f, closeSegment seg s = { s with
    rp := { s.rp with openSeg := none, rowMap := [], digests := ds }, cu := { s.cu with catalog := cat }, fs := f } := by
  by_cases h : digestInFlight s = true
  · exact ⟨_, _, _, closeSegment_of_busy h⟩
  · rw [closeSegment_of_free h, handDigest_eq, handOp]
    split <;> exact ⟨_, _, _, rfl⟩

theorem onlyEntry_closeSegment (ok : CatalogOk s) (seg : Nat) : OnlyEntry seg
    { s.cu.entry seg with state := .short, rowsValid := 63, hasDigest := false, retire := false } s (closeSegment seg s) := by
  refine (onlyEntry_setEntry ok seg _).of_catalog rfl ?_
  by_cases h : digestInFlight s = true
  · rw [closeSegment_of_busy h]; rfl
  · rw [closeSegment_of_free h]; simp [handDigest_eq, segmentClosed, claimClose]

theorem catalogOk_applyRowPass (ok : CatalogOk s) (n : BufName) (dst : Dest) : CatalogOk (applyRowPass n dst s) := by
  have same : (applyRowPass n dst s).cu =
      (claimRowPass dst.seg (s.rp.buf n).firstKey (s.rp.buf n).lastSeq (s.rp.buf n).lastKey s).cu := by cases n <;> rfl
  rw [CatalogOk, same]
  exact catalogOk_setEntry ok _ _

/-! ### The obligation -/

/-- A record row's completion ends no digest program. -/
theorem digestInFlight_completeOp (ends : Ends d .packer (.programRow sg row data sp0 sp1) s) (hrow : row ≠ 63) :
    digestInFlight (completeOp d s) = digestInFlight s :=
  Fs.has_complete (Fs.head_of_ending ends.2) (by simpa [FlashOp.isDigestRow] using hrow)

/-- With an empty wait list and no card waiting for a buffer the pass of row 62 is the row's change and the close. -/
theorem exec_rowPass_last (ends : Ends d .packer (.programRow sg row data sp0 sp1) s) (hrow : row ≠ 63)
    (hn : s.rp.find .inFlight = some n) (hd : (s.rp.buf n).dest = some dst) (last : dst.row = 62)
    (ho : (s.rp.buf n.other).state ≠ .closed) (noWait : ∀ v, s.rp.served = some v → v.wait ≠ .buffer)
    (empty : s.rp.waitList = []) : exec .rowProgramPass s =
      .next (settle (ruJudge (closeSegment dst.seg (applyRowPass n dst (completeOp d s))))) := by
  have passed : rowPassed n dst (completeOp d s) = closeSegment dst.seg (applyRowPass n dst (completeOp d s)) := by
    obtain ⟨a, b, cat, e⟩ := applyRowPass_eq n dst (completeOp d s)
    obtain ⟨ds, cat', f, e'⟩ := closeSegment_eq dst.seg (applyRowPass n dst (completeOp d s))
    rw [rowPassed, if_pos last, handClosed_applyRowPass_stays (s := completeOp d s) ho,
      answerReached_of_empty (by rw [e', e]; exact empty)]
    exact reexamineBuffer_of_none (by rw [e', e]; exact noWait)
  show done (recordRowResult rowPass s) = _
  rw [recordRowResult_of_ends rowPass ends hrow hn hd, rowPass, if_pos last, passed, done_eq]

/-- Settles O28: the pass, the close, and the digest handed over or waiting. -/
theorem lastRowClosesSegment : Obligations.LastRowClosesSegment := by
  unfold Obligations.LastRowClosesSegment
  intro s d sg row data sp0 sp1 n dst ends hrow ok hn hd last other noWait empty b e es act
  refine ⟨_, exec_rowPass_last ends hrow hn hd last other noWait empty, ?_⟩
  obtain ⟨durable, relocation, rowMap, entry⟩ := passesRow_applyRowPass (s := completeOp d s) ok n dst
  have catalog : CatalogOk (applyRowPass n dst (completeOp d s)) :=
    catalogOk_applyRowPass (s := completeOp d s) ok n dst
  have busy : digestInFlight (applyRowPass n dst (completeOp d s)) = digestInFlight s := by
    rw [← digestInFlight_completeOp ends hrow]
    simp [digestInFlight]
  have after : QueuesAfter d [] s (applyRowPass n dst (completeOp d s)) := (queuesAfter_completeOp d s).of_fs (by simp)
  have self := applyRowPass_self n dst (completeOp d s)
  have notFaulted : (applyRowPass n dst (completeOp d s)).ec.engine ≠ .faulted := by simpa using ends.1.notFaulted
  obtain ⟨a, b', cat, change⟩ := applyRowPass_eq n dst (completeOp d s)
  have digests : (applyRowPass n dst (completeOp d s)).rp.digests = s.rp.digests := by rw [change]; rfl
  have epoch : (applyRowPass n dst (completeOp d s)).cu.epoch = s.cu.epoch := by rw [change]; rfl
  have job : (applyRowPass n dst (completeOp d s)).rp.digestJob dst.seg = { seg := dst.seg, entries := es } := by
    rw [Rp.digestJob, rowMap, List.map_append]; rfl
  have closed := onlyEntry_closeSegment catalog dst.seg
  rw [entry.1] at closed
  obtain ⟨ds, cat', f, close⟩ := closeSegment_eq dst.seg (applyRowPass n dst (completeOp d s))
  refine ⟨(entry.of_catalog rfl rfl).trans closed, by rw [close]; exact durable, by rw [close], by rw [close],
    by rw [close]; exact self, ?digest, by rw [close, change]; rfl, by rw [close, change]; rfl⟩
  case digest =>
    rw [← busy]
    split
    next h =>
      rw [closeSegment_of_busy h, digests, job]
      exact ⟨rfl, after.of_fs rfl⟩
    next h =>
      rw [closeSegment_of_free h, job]
      have hands := queuesGain_handDigest (s := segmentClosed dst.seg (applyRowPass n dst (completeOp d s))) notFaulted
        { seg := dst.seg, entries := es }
      refine ⟨by simp [handDigest_eq, segmentClosed, digests], ?_⟩
      have gained := (after.of_fs (u := segmentClosed dst.seg (applyRowPass n dst (completeOp d s))) rfl).gain hands
      rw [show (segmentClosed dst.seg (applyRowPass n dst (completeOp d s))).cu.epoch = s.cu.epoch from epoch] at gained
      exact gained

end Sys2Proof.Machine
end

section
/-!
SUPPORT. A record that needs a segment: the join, the waits, and the archive that is full (R45, R46, R88, R89, R152).
-/
namespace Sys2Proof.Machine

-- One proof at a time, as in the tests: proofs checked side by side need more threads than the limits allow.
set_option Elab.async false

variable {s t : State} {seg m : Nat} {rest : List Nat}

/-! ### Whether space may come back (R46, R151, R157) -/

theorem orderHead_eq_some {u : Cu} {x : Nat} : orderHead u = some x ↔ ∃ next rest, u.orderList = x :: next :: rest := by
  unfold orderHead
  split
  next head next rest e => simp [e]
  next none_ =>
    refine ⟨nofun, fun ⟨next, rest, e⟩ => absurd e (none_ _ _ _)⟩

/-- R151 but for the pin: what makes a member a candidate. -/
def Reclaimable (s : State) (x : Nat) : Prop :=
  ((s.cu.entry x).state = .full ∨ (s.cu.entry x).state = .short) ∧
  (∀ k ∈ s.cp.holds, k.active = true → (s.cu.entry x).lastSeq < k.lowSeq) ∧
  ((s.cu.entry x).lastSeq ≤ s.cp.trimPoint ∨ (s.cu.mode = .wrap ∧ s.cu.freePool.length < 6))

theorem candidateButPin_isSome_iff : (candidateButPin s).isSome = true ↔ ∃ x, orderHead s.cu = some x ∧ Reclaimable s x := by
  unfold candidateButPin
  cases orderHead s.cu with
  | none => simp
  | some x =>
    have held (k : Hold) : (!(k.active && decide (k.lowSeq ≤ (s.cu.entry x).lastSeq))) = true ↔
        (k.active = true → (s.cu.entry x).lastSeq < k.lowSeq) := by
      cases k.active <;> simp
    have same : ((s.cp.holds.all fun k => !(k.active && decide (k.lowSeq ≤ (s.cu.entry x).lastSeq))) = true) =
        (∀ k ∈ s.cp.holds, k.active = true → (s.cu.entry x).lastSeq < k.lowSeq) := by
      simp only [List.all_eq_true, held]
    simp only [same, Option.some.injEq, exists_eq_left', Reclaimable]
    split <;> simp_all

theorem spaceMayReturn_iff : spaceMayReturn s = true ↔ (∃ x, s.ru.op = .erase x) ∨ s.ru.claim ≠ none ∨
    ∃ x, orderHead s.cu = some x ∧ Reclaimable s x := by
  rw [← candidateButPin_isSome_iff, ← Option.isSome_iff_ne_none]
  unfold spaceMayReturn
  cases s.ru.op <;> simp

/-! ### The join (R45, R88, R89) -/

/-- The members that stay as another segment joins: an empty last one leaves. -/
def Cu.remaining (u : Cu) : List Nat :=
  match u.orderList.getLast? with
  | some m => if (u.entry m).empty then u.orderList.dropLast else u.orderList
  | none => u.orderList

theorem supersede_eq (s : State) : ∃ cat sup, supersede s = { s with
    cu := { s.cu with catalog := cat, orderList := s.cu.remaining }, ru := { s.ru with superseded := sup } } := by
  unfold supersede Cu.remaining
  cases s.cu.orderList.getLast? with
  | none => exact ⟨_, _, rfl⟩
  | some m =>
    dsimp only
    split <;> exact ⟨_, _, rfl⟩

theorem supersede_of_empty (hm : s.cu.orderList.getLast? = some m) (he : (s.cu.entry m).lastSeq + 1 = (s.cu.entry m).firstSeq) :
    supersede s = { setEntry m { s.cu.entry m with state := .erasing } s with
      cu := { (setEntry m { s.cu.entry m with state := .erasing } s).cu with orderList := s.cu.orderList.dropLast }
      ru := { s.ru with superseded := s.ru.superseded ++ [m] } } := by
  have empty : (s.cu.entry m).empty = true := decide_eq_true he
  simp only [supersede, hm, empty, if_true]
  rfl

theorem takeForRecords_eq (seg : Nat) (s : State) : ∃ cat sup, takeForRecords seg s = { s with
    rp := { s.rp with openSeg := some { seg := seg, nextRow := 1 }, rowMap := [], fullSeen := false }
    cu := { s.cu with
      catalog := cat, freePool := s.cu.freePool.tail, orderList := s.cu.remaining ++ [seg]
      nextSerial := s.cu.nextSerial + 1 }
    ru := { s.ru with superseded := sup } } := by
  obtain ⟨cat, sup, e⟩ := supersede_eq s
  rw [takeForRecords, openFresh, joinSegment, e]
  exact ⟨_, sup, rfl⟩

/-- The superseded member is handed to the RU (R89). -/
theorem takeForRecords_supersedes (ok : CatalogOk s) (hm : s.cu.orderList.getLast? = some m)
    (he : (s.cu.entry m).lastSeq + 1 = (s.cu.entry m).firstSeq) (hne : m ≠ seg) :
    (takeForRecords seg s).cu.entry m = { s.cu.entry m with state := .erasing } ∧
    (takeForRecords seg s).ru = { s.ru with superseded := s.ru.superseded ++ [m] } := by
  have gone := supersede_of_empty hm he
  constructor
  · refine (entry_joinSegment ok seg s.rp.nextSeq m).trans ?_
    rw [if_neg hne, gone]
    exact (entry_setEntry ok m m _).trans (if_pos rfl)
  · show (supersede s).ru = _
    rw [gone]

/-! ### The RU's judgement (R152) -/

theorem ruJudge_of_busy (hb : s.ru.op ≠ .idle ∨ s.ru.claim ≠ none) : ruJudge s = s := by
  refine if_neg fun k => ?_
  have idle := k.2
  simp only [Ru.idle, Bool.and_eq_true, beq_iff_eq, Option.isNone_iff_eq_none] at idle
  exact hb.elim (absurd idle.1) (absurd idle.2)

theorem ruJudge_erases (hr : Running s) (hop : s.ru.op = .idle) (hc : s.ru.claim = none) (hs : s.ru.superseded = m :: rest)
    (hp : s.ar.pin ≠ some m) : ruJudge s = ruErase m { s with ru := { s.ru with superseded := rest } } := by
  have judges : s.ec.engine.running = true ∧ s.ru.idle = true := ⟨(running_iff s).1 hr, by simp [Ru.idle, hop, hc]⟩
  unfold ruJudge
  rw [if_pos judges]
  simp only [hs, if_neg hp]

theorem ruErase_ru (seg : Nat) (s : State) : (ruErase seg s).ru = { s.ru with op := .erase seg } := by
  simp [ruErase]

theorem mem_queue_ruErase (hf : s.ec.engine ≠ .faulted) (seg : Nat) :
    { source := .reclaim, act := .eraseSegment seg } ∈ ((ruErase seg s).fs.die (segDie seg)).queue := by
  have gain := queuesGain_handOp (s := { s with ru := { s.ru with op := .erase seg } }) hf .reclaim (.eraseSegment seg)
  have queue := gain.queue (segDie seg)
  rw [ruErase, queue]
  simp [FlashAct.die]

theorem judgeChange_of_pool (hp : t.cu.freePool.length ≠ s.cu.freePool.length) : judgeChange s t = ruJudge t :=
  if_neg fun k => hp k.1

end Sys2Proof.Machine
end

section
/-!
PROOF. A record that needs a segment (O23).
-/
namespace Sys2Proof.Machine

-- One proof at a time, as in the tests: proofs checked side by side need more threads than the limits allow.
set_option Elab.async false

variable {s t : State} {n : BufName} {v : RpServed} {w : RpWait} {h : HostRecord} {seg m : Nat} {rest : List Nat}

/-! ### Where a record that needs a segment goes (R43, R45, R46) -/

/-- The open segment, where there is one, has no row left. -/
def NeedsSegment (s : State) : Prop := ∀ o, s.rp.openSeg = some o → 62 < o.nextRow

theorem NeedsSegment.filter (needs : NeedsSegment s) : s.rp.openSeg.filter (fun o => decide (o.nextRow ≤ 62)) = none := by
  rw [Option.filter_eq_none_iff]
  intro o ho
  have := needs o ho
  simp only [decide_eq_true_eq]
  omega

/-- The state as the archive is found full. -/
def archiveFull (s : State) : State := setEvent .archiveFull { s with rp := { s.rp with fullSeen := true } }

/-- The state after record `h` was staged at row 0 of segment `seg`, the head of the pool. -/
def stagedInNew (v : RpServed) (h : HostRecord) (seg : Nat) (s : State) : State :=
  stageInto .a v h (startsFilling .a { seg := seg, nextRow := 0 } (takeForRecords seg s))

section
variable (needs : NeedsSegment s)
include needs

theorem placeInEmpty_of_busyOther (ho : (s.rp.buf n.other).state ≠ .empty) : placeInEmpty n v h s = serveWait v .buffer s := by
  simp only [placeInEmpty, needs.filter]
  exact if_pos ho

theorem placeInEmpty_of_pool (he : s.rp.bufB.state = .empty) (hp : s.cu.freePool = seg :: rest) (room : 2 ≤ rest.length)
    (serial : s.cu.nextSerial ≤ max32) : placeInEmpty .a v h s = stagedInNew v h seg s := by
  have granted : recordClaimGranted s = true := by
    simp only [recordClaimGranted, serialLeft, hp, Bool.and_eq_true, decide_eq_true_eq, List.length_cons]
    omega
  have empty : ¬ (s.rp.buf BufName.a.other).state ≠ .empty := not_not.2 he
  simp only [placeInEmpty, needs.filter, if_neg empty, hp, if_pos granted, startFilling_takeForRecords]
  rfl

theorem placeInEmpty_of_reserve (he : s.rp.bufB.state = .empty) (low : s.cu.freePool.length ≤ 2 ∨ max32 < s.cu.nextSerial) :
    placeInEmpty .a v h s =
      if spaceMayReturn s then serveWait v .space s else endStaging v .archiveFull (archiveFull s) := by
  have refused : ¬ recordClaimGranted s = true := by
    simp only [recordClaimGranted, serialLeft, Bool.and_eq_true, decide_eq_true_eq]
    omega
  have empty : ¬ (s.rp.buf BufName.a.other).state ≠ .empty := not_not.2 he
  simp only [placeInEmpty, needs.filter, if_neg empty]
  cases s.cu.freePool with
  | nil => rfl
  | cons seg rest => exact if_neg refused

end

theorem stageNext_of_fresh (hx : readRecord s v = .ok h) (none_ : s.rp.find .filling = none)
    (found : s.rp.find .empty = some n) : stageNext v s = placeInEmpty n v h s := by
  simp only [stageNext, hx]
  rw [placeRecord_of_none none_, placeFresh_of_some found]

/-! ### What RECORD_STAGE does with it (R39, R59) -/

section
variable (hr : Running s) (hv : s.rp.served = some v) (hw : v.wait = .staging)
include hr hv hw

/-- A step of the staging with a join makes the RU judge (R152). -/
theorem exec_recordStage_joins (hs : stageNext v s = t) (hp : t.cu.freePool.length ≠ s.cu.freePool.length) :
    exec .recordStage s = .next (settle (ruJudge t)) := by
  have step : recordStage s = judgeChange s (stageNext v s) := by
    simp only [recordStage, hv]
    exact if_pos ⟨hw, (running_iff s).1 hr⟩
  show done (recordStage s) = _
  rw [step, hs, judgeChange_of_pool hp, done_eq]

/-- In READY the card waits, and nothing else changes. -/
theorem exec_recordStage_waitsReady (ready : s.ec.engine = .ready) (hs : stageNext v s = serveWait v w s) :
    exec .recordStage s = .next { s with rp := { s.rp with served := some { v with wait := w } } } := by
  rw [serveWait_of_ready v w ready] at hs
  rw [exec_recordStage hr hv hw hs rfl, settle_of_ne]
  · rfl
  · show s.ec.engine ≠ .stopping
    rw [ready]
    decide

/-- In STOPPING it is answered STOPPED. -/
theorem endsStopped_of_waits (stopping : s.ec.engine = .stopping) (wf : Memory.wf s.xp.mem = true)
    (hs : stageNext v s = serveWait v w s) : EndsStopped v s := by
  rw [serveWait_of_stopping v w stopping] at hs
  refine ⟨_, exec_recordStage hr hv hw hs rfl, ?_, rfl, rfl⟩
  exact (answersCard_answerCard (s := setServed none s) wf _ _).of_xp rfl

end

/-! ### The record in the new segment (R45) -/

theorem filling_none_of_empty (ea : s.rp.bufA.state = .empty) (eb : s.rp.bufB.state = .empty) :
    s.rp.find .filling = none :=
  Rp.find_eq_none.2 fun k => by cases k <;> simp [Rp.buf, ea, eb]

theorem stagedInNew_alone (eb : s.rp.bufB.state = .empty) :
    FillsAlone .a v h (startsFilling .a { seg := seg, nextRow := 0 } (takeForRecords seg s)) := by
  have other : (startsFilling .a { seg := seg, nextRow := 0 } (takeForRecords seg s)).rp.bufB.state ≠ .filling := by
    rw [show (startsFilling .a { seg := seg, nextRow := 0 } (takeForRecords seg s)).rp.bufB = s.rp.bufB by
      simp [startsFilling, setBuf], eb]
    decide
  exact fun _ _ => ⟨Rp.find_of_only rfl other, other⟩

/-- Joining, filling and staging leave all but the card, the packer, the catalog, the superseded list and the FS. -/
theorem stagedInNew_eq (eb : s.rp.bufB.state = .empty) : ∃ x sv a b l ws f, stagedInNew v h seg s =
    { takeForRecords seg s with
      xp := x
      rp := { (takeForRecords seg s).rp with
        served := sv, bufA := a, bufB := b, lingerTimer := l, waitList := ws
        nextSeq := (takeForRecords seg s).rp.nextSeq + 1, keyHigh := h.key }
      fs := f } := by
  obtain ⟨x, sv, ws, e⟩ := stageInto_closedAfter (stagedInNew_alone (v := v) (h := h) (seg := seg) eb)
  obtain ⟨a, b, l, f, c⟩ := closedAfter_eq .a v h (startsFilling .a { seg := seg, nextRow := 0 } (takeForRecords seg s))
  rw [stagedInNew, e, c]
  exact ⟨_, _, _, _, _, _, _, rfl⟩

theorem stagedInNew_bufA (eb : s.rp.bufB.state = .empty) :
    (stagedInNew v h seg s).rp.bufA.records =
      [{ seq := s.rp.nextSeq, key := h.key, image := storedImage h.class_ h.key s.rp.nextSeq h.payload }] ∧
    (stagedInNew v h seg s).rp.bufA.dest = some { seg := seg, row := 0 } := by
  have alone := stagedInNew_alone (v := v) (h := h) (seg := seg) eb
  have found : (startsFilling .a { seg := seg, nextRow := 0 } (takeForRecords seg s)).rp.find .filling = some .a := rfl
  obtain ⟨st, closed⟩ := closedAfter_buf (v := v) (h := h) found
  obtain ⟨cat, sup, taken⟩ := takeForRecords_eq seg s
  have buf : (stagedInNew v h seg s).rp.bufA = _ := (stageInto_buf alone .a).trans closed
  rw [buf, recordJoins_self, startsFilling_self, taken]
  exact ⟨rfl, rfl⟩

/-! ### The archive is full (R46, R56) -/

/-- No buffer is FILLING: the end of the staging finds none to close. -/
theorem endStaging_of_none (out : CardOutcome) (none_ : s.rp.find .filling = none) :
    endStaging v out s = answerOrWait v out s := by
  rw [endStaging_eq, closeFilling_of_none none_, ite_self]

/-- The card ends with ARCHIVE_FULL: answered, or waiting for its last sequence. -/
theorem exec_recordStage_full (hr : Running s) (hv : s.rp.served = some v) (hw : v.wait = .staging)
    (wf : Memory.wf s.xp.mem = true) (none_ : s.rp.find .filling = none)
    (hs : stageNext v s = endStaging v .archiveFull (archiveFull s)) : ∃ ws x,
    let t := { archiveFull s with xp := x, rp := { (archiveFull s).rp with served := none, waitList := ws } }
    exec .recordStage s = .next (settle t) ∧
    if v.work.flag0 = false ∨ s.rp.nextSeq - 1 ≤ s.rp.durable then
      AnswersCard v.card (v.answer .archiveFull) (archiveFull s) t ∧ ws = s.rp.waitList
    else x = (archiveFull s).xp ∧ ws = s.rp.waitList ++
      [{ card := v.card, work := v.work, target := s.rp.nextSeq - 1, answer := v.answer .archiveFull }] := by
  have card := answerOrWait_card (v := v) (out := .archiveFull) (s := archiveFull s) (t := archiveFull s) rfl rfl rfl rfl wf
  obtain ⟨x, ws, e⟩ := answerOrWait_eq v .archiveFull (archiveFull s)
  rw [endStaging_of_none (s := archiveFull s) .archiveFull none_, e] at hs
  rw [e] at card
  exact ⟨ws, x, exec_recordStage hr hv hw hs rfl, card⟩

/-! ### The obligation -/

/-- Settles O23: when space may come back, the wait for a buffer, the join, and the archive that is full. -/
theorem newSegmentOrArchiveFull : Obligations.NewSegmentOrArchiveFull := by
  unfold Obligations.NewSegmentOrArchiveFull
  refine ⟨fun s => ?space, fun s v h n hr hv hw hx none_ he ho needs => ?buffer,
    fun s v h hr wf ok hv hw hx ea eb needs => ?segment⟩
  case space =>
    rw [spaceMayReturn_iff]
    simp only [orderHead_eq_some, Reclaimable]
    refine or_congr Iff.rfl (or_congr Iff.rfl ⟨?_, ?_⟩)
    · rintro ⟨head, ⟨next, rest, list⟩, state, holds, freed⟩
      exact ⟨head, next, rest, list, state, holds, freed⟩
    · rintro ⟨head, next, rest, list, state, holds, freed⟩
      exact ⟨head, ⟨next, rest, list⟩, state, holds, freed⟩
  case buffer =>
    have waits : stageNext v s = serveWait v .buffer s :=
      (stageNext_of_fresh hx none_ (Rp.find_of_only he ho)).trans (placeInEmpty_of_busyOther needs ho)
    exact ⟨fun ready => exec_recordStage_waitsReady hr hv hw ready waits,
      fun stopping wf => endsStopped_of_waits hr hv hw stopping wf waits⟩
  case segment =>
    have none_ : s.rp.find .filling = none := filling_none_of_empty ea eb
    have fresh := stageNext_of_fresh (v := v) hx none_ (Rp.find_eq_some.2 ⟨ea, nofun⟩ : s.rp.find .empty = some .a)
    refine ⟨fun seg rest hp room serial => ?join, fun low => ?reserve⟩
    case join =>
      rw [placeInEmpty_of_pool needs eb hp room serial] at fresh
      obtain ⟨records, dest⟩ := stagedInNew_bufA (v := v) (h := h) (seg := seg) eb
      obtain ⟨x, sv, a, b, l, ws, f, staged⟩ := stagedInNew_eq (v := v) (h := h) (seg := seg) eb
      obtain ⟨cat, sup, taken⟩ := takeForRecords_eq seg s
      have pool : (stagedInNew v h seg s).cu.freePool = rest := by rw [staged, taken, hp]; rfl
      refine ⟨_, exec_recordStage_joins hr hv hw fresh (by rw [pool, hp]; simp), ?_⟩
      simp only [ruJudge_frame]
      refine ⟨pool, by rw [staged, taken], by rw [staged, taken], ?_, by rw [staged, taken]; rfl, by rw [staged, taken],
        by rw [staged, taken], by rw [staged, taken], records, dest, by rw [staged, taken], by rw [staged], ?_, by rw [staged, taken],
        by rw [staged, taken], by rw [staged, taken], by rw [staged, taken]⟩
      · rw [staged]
        exact (entry_joinSegment ok seg s.rp.nextSeq seg).trans (if_pos rfl)
      · intro m hm empty ne
        obtain ⟨gone, ru⟩ := takeForRecords_supersedes ok hm empty ne
        refine ⟨by rw [staged]; exact gone, fun idle noClaim noneLeft pin => ?_, fun busy => ?_⟩
        · have superseded : (stagedInNew v h seg s).ru = { s.ru with superseded := [m] } := by
            rw [staged]
            simpa [noneLeft] using ru
          have running : Running (stagedInNew v h seg s) := by rw [staged, taken]; exact hr
          rw [ruJudge_erases running (by rw [superseded]; exact idle) (by rw [superseded]; exact noClaim)
            (by rw [superseded]) (by rw [staged, taken]; exact pin)]
          refine ⟨?_, mem_queue_ruErase (by exact running.notFaulted) m⟩
          rw [ruErase_ru, superseded, ← noneLeft]
        · rw [ruJudge_of_busy (by rw [staged, taken]; exact busy), staged]
          exact ru
    case reserve =>
      rw [placeInEmpty_of_reserve needs eb low] at fresh
      refine ⟨fun may ready => ?_, fun may stopping => ?_, fun noMore plain => ?_, fun noMore sync => ?_⟩
      · rw [if_pos may] at fresh
        exact exec_recordStage_waitsReady hr hv hw ready fresh
      · rw [if_pos may] at fresh
        exact endsStopped_of_waits hr hv hw stopping wf fresh
      · obtain ⟨ws, x, ends, card⟩ := exec_recordStage_full hr hv hw wf none_ (fresh.trans (if_neg (by simp [noMore])))
        rw [if_pos (.inl plain)] at card
        obtain ⟨answers, rfl⟩ := card
        exact ⟨_, ends, answers.of_xp rfl, rfl, rfl⟩
      · obtain ⟨ws, x, ends, card⟩ := exec_recordStage_full hr hv hw wf none_ (fresh.trans (if_neg (by simp [noMore])))
        simp only [sync, Bool.true_eq_false, false_or] at card
        intro full target r wait
        refine ⟨_, ends, ?_, ?_, rfl⟩
        · split
          next now => rw [if_pos now] at card; exact card.1.of_xp rfl
          next later => rw [if_neg later] at card; exact card.1
        · split
          next now => rw [if_pos now] at card; rw [card.2]; rfl
          next later => rw [if_neg later] at card; rw [card.2]; rfl

end Sys2Proof.Machine
end

section
/-!
SUPPORT. The bus arbiter: which die gets the bus, and the laws of the bus after a phase or a ready output (R64, R72, R78, R82).
-/
namespace Sys2Proof.Machine

-- One proof at a time, as in the tests: proofs checked side by side need more threads than the limits allow.
set_option Elab.async false

variable {f : Fs} {c e : Fin 4} {d : Die}

/-! ### A die changed (R64) -/

theorem mem_chipEnables (c : Fin 4) : c ∈ chipEnables := by fin_cases c <;> decide

theorem Fs.die_setDie_same (f : Fs) (c : Fin 4) (d : Die) : (f.setDie c d).die c = d := by rw [Fs.die_setDie, if_pos rfl]

theorem Fs.die_setDie_other (h : e ≠ c) : (f.setDie c d).die e = f.die e := by rw [Fs.die_setDie, if_neg h]

theorem Fs.busBusy_setDie (h : d.selected = (f.die c).selected) : (f.setDie c d).busBusy = f.busBusy := by
  have same (e : Fin 4) : ((f.setDie c d).die e).selected = (f.die e).selected := by
    rw [Fs.die_setDie]
    split
    next he => rw [h, he]
    · rfl
  simp only [Fs.busBusy, same, Fs.setDie_frame]

theorem Fs.nextGrant_setDie (new : d.waiting = false) (old : (f.die c).waiting = false) :
    (f.setDie c d).nextGrant = f.nextGrant := by
  have same (e : Fin 4) : ((f.setDie c d).die e).waiting = (f.die e).waiting := by
    rw [Fs.die_setDie]
    split
    next he => rw [new, he, old]
    · rfl
  simp only [Fs.nextGrant, same, Fs.setDie_frame]

/-- The bus is free when no soft reset's command and no phase is on it. -/
theorem Fs.busBusy_of_free (reset : f.softResets = []) (off : ∀ c, (f.die c).selected = false) : f.busBusy = false := by
  simp [Fs.busBusy, reset, off]

/-- With no soft reset's command on the bus the die whose phase runs is the one on it (R78). -/
theorem Fs.onBus_of_selected (ok : BusOk f) (reset : f.softResets = []) (on : (f.die c).selected = true) :
    f.onBus = some c := by
  unfold Fs.onBus
  simp only [reset, List.isEmpty_nil, if_true]
  cases found : chipEnables.find? fun e => (f.die e).selected with
  | none => exact absurd on (List.find?_eq_none.1 found c (mem_chipEnables c))
  | some e => rw [ok.single e c (List.find?_some (p := fun e => (f.die e).selected) found) on]

/-! ### The arbiter (R78) -/

theorem Fs.grant_of_busy (h : f.busBusy = true) : f.grant = f := if_pos h

theorem Fs.grant_of_none (h : f.nextGrant = none) : f.grant = f := by
  unfold Fs.grant
  rw [h]
  exact ite_self f

theorem Fs.grant_of_next (free : f.busBusy = false) (h : f.nextGrant = some c) :
    f.grant = { f.setDie c (f.die c).granted with lastGranted := c } := by
  unfold Fs.grant
  rw [free, h]
  rfl

/-- The die granted the bus runs its phase, every other die stays as it was. -/
theorem Fs.die_grant_of_next (free : f.busBusy = false) (h : f.nextGrant = some c) (e : Fin 4) :
    f.grant.die e = if e = c then (f.die c).granted else f.die e := by
  rw [Fs.grant_of_next free h]
  exact Fs.die_setDie f c e _

theorem Fs.selected_grant_of_next (ok : BusPre f) (free : f.busBusy = false) (h : f.nextGrant = some c) (e : Fin 4) :
    (f.grant.die e).selected = true ↔ e = c := by
  obtain ⟨-, off⟩ := Fs.busBusy_false free
  obtain ⟨-, on⟩ := Die.granted_ok (ok.dies c) (Fs.nextGrant_some h)
  rw [Fs.die_grant_of_next free h]
  split
  next he => exact ⟨fun _ => he, fun _ => on⟩
  next he => exact ⟨fun k => absurd k (by simp [off e]), fun k => absurd k he⟩

/-- A die without a pending phase is left alone. -/
theorem Fs.die_grant_of_not_waiting (h : (f.die e).waiting = false) : f.grant.die e = f.die e := by
  unfold Fs.grant
  split
  · rfl
  · split
    · rfl
    next c next =>
      refine (Fs.die_setDie f c e _).trans (if_neg ?_)
      rintro rfl
      rw [Fs.nextGrant_some next] at h
      cases h

/-- On a free bus the one die with a pending phase is next. -/
theorem Fs.nextGrant_of_only (on : (f.die c).waiting = true) (only : ∀ e, e ≠ c → (f.die e).waiting = false) :
    f.nextGrant = some c := by
  cases next : f.nextGrant with
  | none =>
    have empty := Fs.nextGrant_none next
    rw [Fs.pendingSet, List.filter_eq_nil_iff] at empty
    exact absurd on (empty c (mem_chipEnables c))
  | some e =>
    by_contra ne
    have waits := Fs.nextGrant_some next
    rw [only e fun h => ne (by rw [h])] at waits
    cases waits

/-! ### Phases and ready outputs (R64, R72, R78, R82) -/

/-- A die whose first phase is over is busy with its timer running. -/
theorem Die.startBusy_ok {d : Die} (hq : d.queue ≠ []) (limit : Nat) : (d.startBusy limit).ok :=
  ⟨by simp [Die.startBusy, hq], by simp [Die.startBusy]⟩

/-- A ready die has its last phase pending and its timer stopped. -/
theorem Die.becomeReady_ok {d : Die} (hq : d.queue ≠ []) : d.becomeReady.ok :=
  ⟨by simp [Die.becomeReady, hq], by simp [Die.becomeReady]⟩

theorem Fs.phaseEnd_ok (h : BusOk f) : BusOk f.phaseEnd := by
  unfold Fs.phaseEnd
  split
  next rest reset =>
    have off := h.resetFirst (by rw [reset]; nofun)
    exact Fs.grant_ok ⟨h.dies, h.single, fun _ => off⟩
  next =>
    split
    · exact h
    next c _ =>
      split
      · exact h
      next op rest queue =>
        split
        · exact h
        next limit _ =>
          split
          · exact Fs.grant_ok (Fs.setDie_pre h.pre c (Die.startBusy_ok (by rw [queue]; nofun) limit) nofun)
          · exact h

theorem Fs.ready_ok (h : BusOk f) (c : Fin 4) : BusOk (f.ready c) := by
  unfold Fs.ready
  split
  · exact h
  next op rest queue =>
    split
    · exact Fs.grant_ok (Fs.setDie_pre h.pre c (Die.becomeReady_ok (by rw [queue]; nofun)) nofun)
    · exact h

end Sys2Proof.Machine
end

section
/-!
SUPPORT. The operations that hand work to the FS keep the laws of the bus: what is handed over joins its die's queue, the bus is
arbitrated again (R75, R78), and nothing else they do reaches the FS.
-/
namespace Sys2Proof.Machine

-- One proof at a time, as in the tests: proofs checked side by side need more threads than the limits allow.
set_option Elab.async false

variable {s : State}

/-! ### The RU (R152, R153) -/

@[simp] theorem ruErase_keepsBus {seg : Nat} (h : BusOk s.fs) : BusOk (ruErase seg s).fs := handOp_ok _ _ h

@[simp] theorem ruJudge_keepsBus (h : BusOk s.fs) : BusOk (ruJudge s).fs := by
  unfold ruJudge
  (repeat' split) <;> simp [h]

@[simp] theorem judgeChange_keepsBus {old : State} (h : BusOk s.fs) : BusOk (judgeChange old s).fs := by
  unfold judgeChange
  split <;> simp [h]

/-! ### The RP (R39 to R56, R102 to R107) -/

@[simp] theorem handBuffer_keepsBus {n : BufName} (h : BusOk s.fs) : BusOk (handBuffer n s).fs := by
  unfold handBuffer
  dsimp only
  split <;> simp [handOp_ok, h]

@[simp] theorem handClosed_keepsBus (h : BusOk s.fs) : BusOk (handClosed s).fs := by
  unfold handClosed
  (repeat' split) <;> simp [h]

@[simp] theorem closeFilling_keepsBus (h : BusOk s.fs) : BusOk (closeFilling s).fs := by
  unfold closeFilling
  split <;> simp [h]

@[simp] theorem endStaging_keepsBus {v : RpServed} {o : CardOutcome} (h : BusOk s.fs) : BusOk (endStaging v o s).fs := by
  unfold endStaging
  dsimp only
  (repeat' split) <;> simp [h]

@[simp] theorem stageInto_keepsBus {n : BufName} {v : RpServed} {r : HostRecord} (h : BusOk s.fs) :
    BusOk (stageInto n v r s).fs := by
  unfold stageInto
  dsimp only
  (repeat' split) <;> simp [h]

@[simp] theorem placeInEmpty_keepsBus {n : BufName} {v : RpServed} {r : HostRecord} (h : BusOk s.fs) :
    BusOk (placeInEmpty n v r s).fs := by
  unfold placeInEmpty
  (repeat' split) <;> simp [h]

@[simp] theorem placeFresh_keepsBus {v : RpServed} {r : HostRecord} (h : BusOk s.fs) : BusOk (placeFresh v r s).fs := by
  unfold placeFresh
  split <;> simp [h]

@[simp] theorem placeRecord_keepsBus {v : RpServed} {r : HostRecord} (h : BusOk s.fs) : BusOk (placeRecord v r s).fs := by
  unfold placeRecord
  (repeat' split) <;> simp [h]

@[simp] theorem stageNext_keepsBus {v : RpServed} (h : BusOk s.fs) : BusOk (stageNext v s).fs := by
  unfold stageNext
  split <;> simp [h]

@[simp] theorem reexamineBuffer_keepsBus (h : BusOk s.fs) : BusOk (reexamineBuffer s).fs := by
  unfold reexamineBuffer
  (repeat' split) <;> simp [h]

@[simp] theorem reexamineSpace_keepsBus (h : BusOk s.fs) : BusOk (reexamineSpace s).fs := by
  unfold reexamineSpace
  (repeat' split) <;> simp [h]

@[simp] theorem react_keepsBus (h : BusOk s.fs) : BusOk (react s).fs :=
  ruJudge_keepsBus (reexamineSpace_keepsBus (ruJudge_keepsBus h))

@[simp] theorem reactPin_keepsBus {old : State} (h : BusOk s.fs) : BusOk (reactPin old s).fs := by
  unfold reactPin
  split <;> simp [h]

@[simp] theorem handDigest_keepsBus {j : DigestJob} (h : BusOk s.fs) : BusOk (handDigest j s).fs := handOp_ok _ _ h

@[simp] theorem closeSegment_keepsBus {seg : Nat} (h : BusOk s.fs) : BusOk (closeSegment seg s).fs := by
  unfold closeSegment
  dsimp only
  split <;> simp [h]

@[simp] theorem nextDigest_keepsBus (h : BusOk s.fs) : BusOk (nextDigest s).fs := by
  unfold nextDigest
  split <;> simp [h]

@[simp] theorem rowPassed_keepsBus {n : BufName} {d : Dest} (h : BusOk s.fs) : BusOk (rowPassed n d s).fs := by
  unfold rowPassed
  extract_lets s1 s2
  have handed : BusOk s1.fs := handClosed_keepsBus (by simp [h])
  refine reexamineBuffer_keepsBus ?_
  simp only [s2, answerReached_frame]
  split
  · exact closeSegment_keepsBus handed
  · exact handed

@[simp] theorem takeReplacement_keepsBus {n : BufName} {seg firstSeq : Nat} (h : BusOk s.fs) :
    BusOk (takeReplacement n seg firstSeq s).fs := by
  unfold takeReplacement
  exact handBuffer_keepsBus (by simp [h])

@[simp] theorem relocate_keepsBus {n : BufName} {d : Dest} (h : BusOk s.fs) : BusOk (relocate n d s).fs := by
  unfold relocate
  dsimp only
  (repeat' split) <;> simp [h]

@[simp] theorem relocateAgain_keepsBus {n : BufName} {r : Relocation} {d : Dest} (h : BusOk s.fs) :
    BusOk (relocateAgain n r d s).fs := by
  unfold relocateAgain
  (repeat' split) <;> simp [h]

/-! ### The AR (R122 to R134) -/

@[simp] theorem arReadRow_keepsBus {seg row : Nat} (h : BusOk s.fs) : BusOk (arReadRow seg row s).fs := handOp_ok _ _ h

@[simp] theorem arReadDigest_keepsBus {seg : Nat} {next : Bool} (h : BusOk s.fs) :
    BusOk (arReadDigest seg next s).fs := handOp_ok _ _ h

@[simp] theorem arScan_keepsBus {seg : Nat} {p : ScanPos} (h : BusOk s.fs) : BusOk (arScan seg p s).fs := handOp_ok _ _ h

@[simp] theorem arBegin_keepsBus {w : Work} {seg row firstSeq : Nat} (h : BusOk s.fs) :
    BusOk (arBegin w seg row firstSeq s).fs := by
  unfold arBegin
  dsimp only
  (repeat' split) <;> simp [h]

@[simp] theorem arBeginKnown_keepsBus {w : Work} {seg : Nat} {rows : List RowMapEntry} (h : BusOk s.fs) :
    BusOk (arBeginKnown w seg rows s).fs := by
  unfold arBeginKnown
  split <;> simp [h]

@[simp] theorem arLocate_keepsBus {w : Work} {seg : Nat} (h : BusOk s.fs) : BusOk (arLocate w seg s).fs := by
  unfold arLocate
  (repeat' split) <;> simp [h]

@[simp] theorem arEnter_keepsBus {seg : Nat} (h : BusOk s.fs) : BusOk (arEnter seg s).fs := by
  unfold arEnter
  dsimp only
  split <;> simp [h]

@[simp] theorem arChoose_keepsBus {w : Work} {seg row : Nat} (h : BusOk s.fs) : BusOk (arChoose w seg row s).fs := by
  unfold arChoose
  dsimp only
  (repeat' split) <;> simp [h]

@[simp] theorem arContinue_keepsBus {w : Work} {seg row : Nat} {st : Option ReadStop} (h : BusOk s.fs) :
    BusOk (arContinue w seg row st s).fs := by
  unfold arContinue
  split <;> simp [h]

@[simp] theorem arAcceptRow_keepsBus {w : Work} {seg row : Nat} {r : ReadRow} (h : BusOk s.fs) :
    BusOk (arAcceptRow w seg row r s).fs := by
  unfold arAcceptRow
  dsimp only
  (repeat' split) <;> simp [h]

@[simp] theorem arDamagedRow_keepsBus {w : Work} {seg row : Nat} (h : BusOk s.fs) :
    BusOk (arDamagedRow w seg row s).fs := by
  unfold arDamagedRow
  dsimp only
  (repeat' split) <;> simp [h]

@[simp] theorem arRowRead_keepsBus {w : Work} {seg row : Nat} {r : ReadRow} (h : BusOk s.fs) :
    BusOk (arRowRead w seg row r s).fs := by
  unfold arRowRead
  dsimp only
  split <;> simp [h]

@[simp] theorem arDigestRead_keepsBus {w : Work} {seg : Nat} {next : Bool} {r : ReadRow} (h : BusOk s.fs) :
    BusOk (arDigestRead w seg next r s).fs := by
  unfold arDigestRead
  dsimp only
  (repeat' split) <;> simp [h]

@[simp] theorem scanStopBad_keepsBus {w : Work} {seg b : Nat} {p : ScanPos} (h : BusOk s.fs) :
    BusOk (scanStopBad w seg b p s).fs := arBegin_keepsBus h

@[simp] theorem scanStopAt_keepsBus {w : Work} {seg : Nat} {t : Trailer} {p : ScanPos} (h : BusOk s.fs) :
    BusOk (scanStopAt w seg t p s).fs := by
  unfold scanStopAt
  (repeat' split) <;> simp [h]

@[simp] theorem arTrailerRead_keepsBus {w : Work} {seg : Nat} {p : ScanPos} {r : ReadSpare} (h : BusOk s.fs) :
    BusOk (arTrailerRead w seg p r s).fs := by
  unfold arTrailerRead
  dsimp only
  (repeat' split) <;> simp [h]

@[simp] theorem arPinGranted_keepsBus {w : Work} {seg : Nat} {next : Bool} (h : BusOk s.fs) :
    BusOk (arPinGranted w seg next s).fs := by
  unfold arPinGranted
  dsimp only
  split <;> simp [h]

@[simp] theorem arPinRefused_keepsBus {w : Work} {next : Bool} (h : BusOk s.fs) : BusOk (arPinRefused w next s).fs := by
  unfold arPinRefused
  (repeat' split) <;> simp [h]

@[simp] theorem answerPin_keepsBus {granted : Bool} {seg : Nat} (h : BusOk s.fs) : BusOk (answerPin granted seg s).fs := by
  unfold answerPin
  (repeat' split) <;> simp [h]

@[simp] theorem takePinRequest_keepsBus {seg : Nat} (h : BusOk s.fs) : BusOk (takePinRequest seg s).fs := by
  unfold takePinRequest
  (repeat' split) <;> simp [h]

@[simp] theorem answerHeld_keepsBus {granted : Bool} (h : BusOk s.fs) : BusOk (answerHeld granted s).fs := by
  unfold answerHeld
  dsimp only
  (repeat' split) <;> simp [h]

/-! ### The EC (R59, R112, R159 to R181) -/

@[simp] theorem enterStopping_keepsBus (h : BusOk s.fs) : BusOk (enterStopping s).fs := by
  unfold enterStopping
  dsimp only
  (repeat' split) <;> simp [h]

@[simp] theorem ecEraseNext_keepsBus {d : Fin 4} (h : BusOk s.fs) : BusOk (ecEraseNext d s).fs := by
  unfold ecEraseNext
  dsimp only
  (repeat' split) <;> simp [handOp_ok, h]

@[simp] theorem scanNext_keepsBus {seg : Nat} (h : BusOk s.fs) : BusOk (scanNext seg s).fs := by
  unfold scanNext
  split <;> simp [handOp_ok, h]

@[simp] theorem scanTrailers_keepsBus {seg : Nat} {r : ReadSpare} (h : BusOk s.fs) : BusOk (scanTrailers seg r s).fs := by
  unfold scanTrailers
  dsimp only
  (repeat' split) <;> simp [handOp_ok, h]

@[simp] theorem scanRow0_keepsBus {seg : Nat} {r : ReadRow} (h : BusOk s.fs) : BusOk (scanRow0 seg r s).fs := by
  unfold scanRow0
  dsimp only
  (repeat' split) <;> simp [h]

@[simp] theorem handMember_keepsBus {d : Fin 4} (h : BusOk s.fs) : BusOk (handMember d s).fs := by
  unfold handMember
  (repeat' split) <;> simp [handOp_ok, h]

@[simp] theorem openFormatSegment_keepsBus (h : BusOk s.fs) : BusOk (openFormatSegment s).fs := by
  unfold openFormatSegment
  dsimp only
  split <;> simp [handOp_ok, h]

@[simp] theorem formatDone_keepsBus {seg : Nat} (h : BusOk s.fs) : BusOk (formatDone seg s).fs := by
  unfold formatDone
  dsimp only
  split <;> simp [h]

/-! ### Lists of dies (R159, R160, R164, R167) -/

@[simp] theorem handResets_keepsBus {cs : List (Fin 4)} (h : BusOk s.fs) : BusOk (handResets cs s).fs := by
  induction cs generalizing s with
  | nil => exact h
  | cons c cs ih => exact ih (handOp_ok _ _ h)

@[simp] theorem handScans_keepsBus {cs : List (Fin 4)} (h : BusOk s.fs) : BusOk (handScans cs s).fs := by
  induction cs generalizing s with
  | nil => exact h
  | cons c cs ih =>
    refine ih ?_
    split
    · exact handOp_ok _ _ h
    · exact h

@[simp] theorem handMembers_keepsBus {cs : List (Fin 4)} (h : BusOk s.fs) : BusOk (handMembers cs s).fs := by
  induction cs generalizing s with
  | nil => exact h
  | cons c cs ih => exact ih (handMember_keepsBus h)

@[simp] theorem handErases_keepsBus {cs : List (Fin 4)} (h : BusOk s.fs) : BusOk (handErases cs s).fs := by
  induction cs generalizing s with
  | nil => exact h
  | cons c cs ih => exact ih (ecEraseNext_keepsBus h)

end Sys2Proof.Machine
end

section
/-!
PROOF. Every step keeps the laws of the flash bus, the die queues and the busy timers (O6).
-/
namespace Sys2Proof.Machine

-- One proof at a time, as in the tests: proofs checked side by side need more threads than the limits allow.
set_option Elab.async false

variable {s : State} {f : Fs}

/-! ### Resets and FAULTED (R23, R24, R73, R82, R181) -/

/-- The laws see no mask. -/
theorem BusOk.setMask {m : BitVec 4} (h : BusOk f) : BusOk { f with mask := m } :=
  h.of_eq (fun c => by fin_cases c <;> rfl) rfl

theorem resetAll_busOk (s : State) : BusOk (resetAll s).fs := reset_busOk

/-- A soft reset's commands on the bus, and no phase of a die (R82). -/
theorem resetSoft_busOk (s : State) : BusOk (resetSoft s).fs := by
  have cleared (c : Fin 4) : (resetSoft s).fs.die c = Die.cleared := by fin_cases c <;> rfl
  have off (c : Fin 4) : ((resetSoft s).fs.die c).selected = false := by rw [cleared]; rfl
  refine ⟨fun c => ?_, fun c d on => absurd on (by simp [off]), fun _ => off, fun _ => ?_⟩
  · rw [cleared]; exact ⟨by simp [Die.cleared], by simp [Die.cleared]⟩
  · unfold Fs.pendingSet; simp only [cleared]; decide

theorem enterFaulted_fs (cause : FaultCause) (s : State) : (enterFaulted cause s).fs = s.fs.cleared := by
  simp [enterFaulted]

theorem enterFaulted_busOk (cause : FaultCause) (s : State) : BusOk (enterFaulted cause s).fs := by
  rw [enterFaulted_fs]; exact Fs.cleared_ok s.fs

/-! ### RUN and the registers (R9, R175, R176) -/

theorem runEvent1_keepsBus (h : BusOk s.fs) : BusOk (runEvent1 s).fs := by
  unfold runEvent1
  split
  · exact handResets_keepsBus h.setMask
  · exact h

theorem runEvent0_keepsBus (h : BusOk s.fs) : BusOk (runEvent0 s).fs := by
  unfold runEvent0
  split <;> simp [h]

theorem writeRun_keepsBus {v : Bool} {linger : Option Byte} (h : BusOk s.fs) : BusOk (writeRun v linger s).fs := by
  obtain ⟨x, e⟩ : ∃ x, writeRun v linger s = if v then runEvent1 { s with xp := x } else runEvent0 { s with xp := x } := by
    cases linger <;> exact ⟨_, rfl⟩
  rw [e]
  split
  · exact runEvent1_keepsBus h
  · exact runEvent0_keepsBus h

theorem controlWrite_keepsBus {lane0 lane1 : Option Byte} (h : BusOk s.fs) : BusOk (controlWrite lane0 lane1 s).fs := by
  unfold controlWrite
  split
  · split
    · exact resetSoft_busOk s
    · exact writeRun_keepsBus h
  · split <;> exact h

theorem registerStore_keepsBus {a : Nat} {bytes : List Byte} (h : BusOk s.fs) : BusOk (registerStore a bytes s).fs := by
  unfold registerStore
  dsimp only
  split
  · exact controlWrite_keepsBus h
  · (repeat' split) <;> exact h

theorem portAccess_keepsBus {g : State → State} (h : BusOk s.fs) (used : BusOk (g s).fs) : BusOk (portAccess g s).fs :=
  portAccess_ind (P := fun t => BusOk t.fs) h used

/-! ### Takes and timers (R19, R53, R54, R142 to R149) -/

theorem pathTake_keepsBus {p : CardPath} {free : Bool} {mine : Work → Bool} {always : Bool}
    {serve : CardIx → Work → State → State} (h : BusOk s.fs)
    (serves : ∀ c w t, BusOk t.fs → BusOk (serve c w t).fs) : BusOk (pathTake p free mine always serve s).fs :=
  pathTake_ind (P := fun t => BusOk t.fs) h (fun _ _ _ _ _ => by simp [h]) fun _ _ _ _ _ _ => serves _ _ _ (by simp [h])

theorem serveFlush_keepsBus {c : CardIx} {w : Work} (h : BusOk s.fs) : BusOk (serveFlush c w s).fs := by
  unfold serveFlush
  split <;> simp [h]

theorem serveRelease_keepsBus {c : CardIx} {w : Work} (h : BusOk s.fs) : BusOk (serveRelease c w s).fs := by
  unfold serveRelease
  (repeat' split) <;> simp [h]

theorem serveTrim_keepsBus {c : CardIx} {w : Work} (h : BusOk s.fs) : BusOk (serveTrim c w s).fs := by
  unfold serveTrim
  dsimp only
  (repeat' split) <;> simp [h]

theorem leaseTick_keepsBus (h : BusOk s.fs) : BusOk (leaseTick s).fs := by
  unfold leaseTick
  dsimp only
  split <;> simp [h]

theorem lingerExpire_keepsBus (h : BusOk s.fs) : BusOk (lingerExpire s).fs := by
  unfold lingerExpire
  split <;> simp [h]

theorem recordStage_keepsBus (h : BusOk s.fs) : BusOk (recordStage s).fs := by
  unfold recordStage
  (repeat' split) <;> simp [h]

/-! ### Results of the packer's programs (R49 to R52, R102 to R107) -/

theorem recordRowResult_keepsBus {use : BufName → Dest → State → State} (h : BusOk s.fs)
    (used : ∀ n d t, BusOk t.fs → BusOk (use n d t).fs) : BusOk (recordRowResult use s).fs :=
  recordRowResult_ind (P := fun t => BusOk t.fs) h (fun c => completeOp_ok c h)
    (fun c n d _ _ _ => used n d _ (completeOp_ok c h)) fun c _ => by simpa using completeOp_ok c h

theorem rowPass_keepsBus {n : BufName} {d : Dest} (h : BusOk s.fs) : BusOk (rowPass n d s).fs := by
  unfold rowPass
  dsimp only
  split <;> simp [h]

theorem rowFail_keepsBus {n : BufName} {d : Dest} (h : BusOk s.fs) : BusOk (rowFail n d s).fs := by
  unfold rowFail
  dsimp only
  split <;> simp [h]

theorem replacementFail_keepsBus {r : Relocation} {n : BufName} {d : Dest} (h : BusOk s.fs) :
    BusOk (replacementFail r n d s).fs := by
  unfold replacementFail
  dsimp only
  split <;> simp [h]

theorem digestResult_keepsBus {passed : Bool} (h : BusOk s.fs) : BusOk (digestResult passed s).fs := by
  unfold digestResult
  split
  · exact h
  next c op _ =>
    have ended := completeOp_ok c h
    split
    case h_1 =>
      split
      · dsimp only
        split
        · exact nextDigest_keepsBus (by simpa using ended)
        · exact ended
      · exact h
    all_goals exact h

/-! ### Results of the reader, pins and claims (R91, R123 to R130, R153) -/

theorem readerResult_keepsBus {use : Work → State → State} (h : BusOk s.fs)
    (used : ∀ w t, BusOk t.fs → BusOk (use w t).fs) : BusOk (readerResult use s).fs :=
  readerResult_ind (P := fun t => BusOk t.fs) h (fun v _ _ => used v.work s h) fun _ => by simp [h]

theorem trailersResult_keepsBus {r : ReadSpare} (h : BusOk s.fs) : BusOk (trailersResult r s).fs := by
  unfold trailersResult
  split
  · exact h
  next c op _ =>
    split
    · refine reactPin_keepsBus (readerResult_keepsBus (completeOp_ok c h) fun w t ok => ?_)
      split <;> simp [ok]
    · exact h

theorem readRowResult_keepsBus {r : ReadRow} (h : BusOk s.fs) : BusOk (readRowResult r s).fs := by
  unfold readRowResult
  split
  · exact h
  next c op _ =>
    split
    · refine reactPin_keepsBus (readerResult_keepsBus (countCorrected_ok r (completeOp_ok c h)) fun w t ok => ?_)
      split <;> simp [ok]
    · exact h

theorem pinRequest_keepsBus (h : BusOk s.fs) : BusOk (pinRequest s).fs := by
  unfold pinRequest
  (repeat' split) <;> simp [h]

theorem removalClaim_keepsBus (h : BusOk s.fs) : BusOk (removalClaim s).fs := by
  unfold removalClaim
  split
  · exact h
  next seg _ =>
    split
    · extract_lets ru1 s1 s2
      have claimed : BusOk s1.fs := h
      split
      · have erases : BusOk s2.fs := ruErase_keepsBus (by simp [claimed])
        exact judgeChange_keepsBus (reexamineSpace_keepsBus erases)
      · exact reactPin_keepsBus (ruJudge_keepsBus (answerHeld_keepsBus claimed))
    · exact h

/-! ### Erases and retire marks (R111 to R114) -/

theorem reclaimErase_keepsBus {p0 p1 : PlaneStatus} (h : BusOk s.fs) : BusOk (reclaimErase p0 p1 s).fs := by
  unfold reclaimErase
  split
  · exact h
  next c op _ =>
    split
    next seg _ _ =>
      have ended := completeOp_ok c h
      dsimp only
      (repeat' split)
      · exact react_keepsBus (handOp_ok _ _ ended)
      · exact react_keepsBus (by simpa using ended)
      · exact ended
    · exact h

theorem markResult_keepsBus {p0 : PlaneStatus} (h : BusOk s.fs) : BusOk (markResult p0 s).fs := by
  unfold markResult
  split
  · exact h
  next c op _ =>
    have ended := completeOp_ok c h
    split
    · dsimp only
      split
      · exact ruJudge_keepsBus (by simpa using ended)
      · exact ended
    · exact ecEraseNext_keepsBus (by simpa using ended)
    · exact h

theorem ecErase_keepsBus {p0 p1 : PlaneStatus} (h : BusOk s.fs) : BusOk (ecErase p0 p1 s).fs := by
  unfold ecErase
  split
  · exact h
  next c op _ =>
    have ended := completeOp_ok c h
    split
    · dsimp only
      split
      · split
        · exact ended
        · exact handOp_ok _ _ ended
      · exact ecEraseNext_keepsBus (by simpa using ended)
    · exact h

/-! ### The probe and the busy timers (R65, R66, R73, R159, R181) -/

theorem resetDieReady_keepsBus {c : Fin 4} (h : BusOk s.fs) : BusOk (resetDieReady c s).fs := by
  have ended := completeOp_ok c h
  unfold resetDieReady
  split
  · dsimp only
    split
    · exact handOp_ok _ _ ended
    · exact ended
  · exact h

theorem resetDieExpired_keepsBus {c : Fin 4} (h : BusOk s.fs) : BusOk (resetDieExpired c s).fs := by
  unfold resetDieExpired
  split
  · exact completeOp_ok c h
  · exact h

theorem probeResult_keepsBus {id : List Byte} (h : BusOk s.fs) : BusOk (probeResult id s).fs := by
  unfold probeResult
  split
  · exact h
  next c op _ =>
    split
    case h_1 => exact completeOp_ok c h
    all_goals exact h

theorem dieTimeout_keepsBus {c : Fin 4} (h : BusOk s.fs) : BusOk (dieTimeout c s).fs := by
  unfold dieTimeout
  split
  · exact enterFaulted_busOk _ s
  · exact h

theorem probeEnd_keepsBus (h : BusOk s.fs) : BusOk (probeEnd s).fs := by
  unfold probeEnd
  split
  · dsimp only
    split
    · exact enterFaulted_busOk _ _
    · exact handScans_keepsBus h.setMask
  · exact h

/-! ### The mount (R161 to R168) -/

theorem scanResult_keepsBus {r : FlashRead} (h : BusOk s.fs) : BusOk (scanResult r s).fs := by
  unfold scanResult
  split
  · split
    · exact h
    next c op _ =>
      have ended := completeOp_ok c h
      split
      · exact scanTrailers_keepsBus ended
      · exact scanRow0_keepsBus (countCorrected_ok _ ended)
      · exact h
  · exact h

theorem scanEnd_keepsBus (h : BusOk s.fs) : BusOk (scanEnd s).fs := by
  unfold scanEnd
  dsimp only
  (repeat' split) <;> simp [h]

theorem memberResult_keepsBus {r : FlashRead} (h : BusOk s.fs) : BusOk (memberResult r s).fs := by
  unfold memberResult
  split
  · split
    · exact h
    next c op _ =>
      have ended := completeOp_ok c h
      split
      · exact handMember_keepsBus ended
      · exact handMember_keepsBus (countCorrected_ok _ ended)
      · exact h
  · exact h

theorem readsEnd_keepsBus (h : BusOk s.fs) : BusOk (readsEnd s).fs := by
  unfold readsEnd
  dsimp only
  split <;> simp [h]

theorem catalogLoad_keepsBus (h : BusOk s.fs) : BusOk (catalogLoad s).fs := by
  unfold catalogLoad
  (repeat' split) <;> simp [h]

/-! ### FORMAT (R171, R172) -/

theorem formatQuiet_keepsBus (h : BusOk s.fs) : BusOk (formatQuiet s).fs := by
  unfold formatQuiet
  split <;> simp [h]

theorem formatErasesEnd_keepsBus (h : BusOk s.fs) : BusOk (formatErasesEnd s).fs := by
  unfold formatErasesEnd
  split <;> simp [h]

theorem headerRowResult_keepsBus {passed : Bool} (h : BusOk s.fs) : BusOk (headerRowResult passed s).fs := by
  unfold headerRowResult
  split
  · split
    · exact h
    next c op _ =>
      have ended := completeOp_ok c h
      split
      · dsimp only
        split
        · exact formatDone_keepsBus ended
        · exact openFormatSegment_keepsBus (by simpa using ended)
      · exact h
  · exact h

/-! ### Every command -/

/-- Every command keeps the laws, up to the quiet reports that end it. -/
theorem exec_keepsBus (i : Instr) (h : BusOk s.fs) : ∃ t, exec i s = done t ∧ BusOk t.fs := by
  cases i with
  | powerOnReset => exact ⟨_, rfl, resetAll_busOk s⟩
  | pinReset asserted =>
    refine ⟨_, rfl, ?_⟩
    split
    · exact resetAll_busOk s
    · exact h
  | softReset => exact ⟨_, rfl, portAccess_keepsBus h (resetSoft_busOk s)⟩
  | runWritten1 l => exact ⟨_, rfl, portAccess_keepsBus h (writeRun_keepsBus h)⟩
  | runWritten0 l => exact ⟨_, rfl, portAccess_keepsBus h (writeRun_keepsBus h)⟩
  | registerWrite o w d => exact ⟨_, rfl, portAccess_keepsBus h (registerStore_keepsBus h)⟩
  | lingerWrite | eventsWrite | hostXmWrite | snapshotCapture | stateByteWrite =>
    exact ⟨_, rfl, portAccess_keepsBus h (by simp [h])⟩
  | append | readSeq | readKey | hold | holdRenew | census | format =>
    exact ⟨_, rfl, pathTake_keepsBus h fun _ _ _ ok => by simp [ok]⟩
  | flush => exact ⟨_, rfl, pathTake_keepsBus h fun _ _ _ => serveFlush_keepsBus⟩
  | release => exact ⟨_, rfl, pathTake_keepsBus h fun _ _ _ => serveRelease_keepsBus⟩
  | trim => exact ⟨_, rfl, pathTake_keepsBus h fun _ _ _ => serveTrim_keepsBus⟩
  | recordStage => exact ⟨_, rfl, recordStage_keepsBus h⟩
  | lingerExpiry => exact ⟨_, rfl, lingerExpire_keepsBus h⟩
  | rowProgramPass => exact ⟨_, rfl, recordRowResult_keepsBus h fun _ _ _ => rowPass_keepsBus⟩
  | rowProgramFail planes =>
    cases hr : s.rp.relocation with
    | none =>
      exact ⟨recordRowResult rowFail s, by simp only [exec, execRowProgramFail, hr],
        recordRowResult_keepsBus h fun _ _ _ => rowFail_keepsBus⟩
    | some r => exact ⟨s, by simp only [exec, execRowProgramFail, hr], h⟩
  | replacementRow0Fail planes =>
    cases hr : s.rp.relocation with
    | some r =>
      exact ⟨recordRowResult (replacementFail r) s, by simp only [exec, execReplacementRow0Fail, hr],
        recordRowResult_keepsBus h fun _ _ _ => replacementFail_keepsBus⟩
    | none =>
      by_cases hf : s.ec.engine = .formatting
      · exact ⟨recordRowResult (fun _ _ t => t) s, by simp only [exec, execReplacementRow0Fail, hr, if_pos hf],
          recordRowResult_keepsBus h fun _ _ _ ok => ok⟩
      · exact ⟨s, by simp only [exec, execReplacementRow0Fail, hr, if_neg hf], h⟩
  | digestProgramComplete p0 p1 => exact ⟨_, rfl, digestResult_keepsBus h⟩
  | pinRequest => exact ⟨_, rfl, pinRequest_keepsBus h⟩
  | arTrailersResult r => exact ⟨_, rfl, trailersResult_keepsBus h⟩
  | arReadRowResult r => exact ⟨_, rfl, readRowResult_keepsBus h⟩
  | holdRequest => exact ⟨_, rfl, by simp [h]⟩
  | leaseTick | holdExpiry =>
    refine ⟨_, rfl, ?_⟩
    split
    · exact leaseTick_keepsBus h
    · exact h
  | removalClaim => exact ⟨_, rfl, removalClaim_keepsBus h⟩
  | reclaimEraseComplete p0 p1 => exact ⟨_, rfl, reclaimErase_keepsBus h⟩
  | programMarkComplete p0 => exact ⟨_, rfl, markResult_keepsBus h⟩
  | ecEraseComplete p0 p1 => exact ⟨_, rfl, ecErase_keepsBus h⟩
  | flashPhaseEnd => exact ⟨_, rfl, Fs.phaseEnd_ok h⟩
  | dieReady c => exact ⟨_, rfl, Fs.ready_ok h c⟩
  | dieTimeout c => exact ⟨_, rfl, dieTimeout_keepsBus h⟩
  | resetDieComplete c => exact ⟨_, rfl, resetDieReady_keepsBus h⟩
  | resetDieNoReady c => exact ⟨_, rfl, resetDieExpired_keepsBus h⟩
  | probe b0 b1 b2 b3 => exact ⟨_, rfl, probeResult_keepsBus h⟩
  | probeEnd => exact ⟨_, rfl, probeEnd_keepsBus h⟩
  | mountScanResult r => exact ⟨_, rfl, scanResult_keepsBus h⟩
  | mountScanEnd => exact ⟨_, rfl, scanEnd_keepsBus h⟩
  | memberReadResult r => exact ⟨_, rfl, memberResult_keepsBus h⟩
  | memberReadsEnd => exact ⟨_, rfl, readsEnd_keepsBus h⟩
  | catalogLoad => exact ⟨_, rfl, catalogLoad_keepsBus h⟩
  | formatQuiet => exact ⟨_, rfl, formatQuiet_keepsBus h⟩
  | formatErasesEnd => exact ⟨_, rfl, formatErasesEnd_keepsBus h⟩
  | formatHeaderRowComplete p0 p1 => exact ⟨_, rfl, headerRowResult_keepsBus h⟩
  | haltOnQuiet | stopComplete => exact ⟨_, rfl, by simp [h]⟩

/-- Settles O6: every command changes the FS by operations that leave the bus arbitrated. -/
theorem stepKeepsBus : Obligations.StepKeepsBus := by
  unfold Obligations.StepKeepsBus
  intro s t h next
  unfold step at next
  split at next
  · cases next; exact h
  next c rest _ =>
    obtain ⟨u, hu, kept⟩ := exec_keepsBus (s := { s with pending := rest }) c h
    rw [hu, done_eq] at next
    cases next
    simpa using kept

end Sys2Proof.Machine
end

section
/-!
PROOF. The ends of phases and the ready outputs (O49).
-/
namespace Sys2Proof.Machine

-- One proof at a time, as in the tests: proofs checked side by side need more threads than the limits allow.
set_option Elab.async false

variable {s : State} {f : Fs} {c : Fin 4} {op : FlashOp} {rest : List FlashOp}

/-! ### The end of a phase (R64, R72, R78, R82) -/

theorem Fs.phaseEnd_of_softReset {cs : List (Fin 4)} (h : f.softResets = c :: cs) :
    f.phaseEnd = { f with softResets := cs }.grant := by
  simp only [Fs.phaseEnd, h]

/-- The end of a phase changes no queue, nor the mask or the counter. -/
theorem Fs.phaseEnd_frame (f : Fs) :
    (∀ e, (f.phaseEnd.die e).queue = (f.die e).queue) ∧ f.phaseEnd.mask = f.mask ∧ f.phaseEnd.corrected = f.corrected := by
  unfold Fs.phaseEnd
  split
  next rest _ =>
    obtain ⟨mask, corrected, -⟩ := Fs.grant_frame { f with softResets := rest }
    exact ⟨fun e => (Fs.grant_die _ e).1.trans (by fin_cases e <;> rfl), mask, corrected⟩
  · split
    · exact ⟨fun _ => rfl, rfl, rfl⟩
    next c _ =>
      split
      · exact ⟨fun _ => rfl, rfl, rfl⟩
      · split
        · exact ⟨fun _ => rfl, rfl, rfl⟩
        next limit _ =>
          split
          · refine ⟨fun e => (Fs.grant_die _ e).1.trans ?_, by simp, by simp⟩
            rw [Fs.die_setDie]
            split
            next he => rw [he]; rfl
            · rfl
          · exact ⟨fun _ => rfl, rfl, rfl⟩

section
variable {limit : Nat} (ok : BusOk f) (queue : (f.die c).queue = op :: rest) (reset : f.softResets = [])
  (first : (f.die c).stage = .first) (busy : op.act.busyLimit = some limit)
include ok queue reset first busy

/-- The first phase of an operation ends: its die becomes busy and the bus is arbitrated. -/
theorem Fs.phaseEnd_of_first : f.phaseEnd = (f.setDie c ((f.die c).startBusy limit)).grant := by
  have on : f.onBus = some c := Fs.onBus_of_selected ok reset (by rw [Die.selected, first]; rfl)
  simp only [Fs.phaseEnd, reset, on, queue, busy, if_pos first]

theorem Fs.phaseEnd_die_of_first : f.phaseEnd.die c = { queue := op :: rest, stage := .busy, timer := some limit } := by
  have die := Fs.die_setDie_same f c ((f.die c).startBusy limit)
  rw [Fs.phaseEnd_of_first ok queue reset first busy, Fs.die_grant_of_not_waiting (by rw [die]; rfl), die, ← queue]
  rfl

/-- The bus goes to the first die after the last granted one that has a phase pending. -/
theorem Fs.phaseEnd_grants_of_first :
    (∀ e, f.nextGrant = some e → f.phaseEnd.lastGranted = e ∧ ∀ x, (f.phaseEnd.die x).selected = true ↔ x = e) ∧
    (f.nextGrant = none → f.phaseEnd.lastGranted = f.lastGranted ∧ ∀ x, (f.phaseEnd.die x).selected = false) := by
  rw [Fs.phaseEnd_of_first ok queue reset first busy]
  obtain ⟨last, -, -, soft⟩ := Fs.setDie_frame f c ((f.die c).startBusy limit)
  have free : (f.setDie c ((f.die c).startBusy limit)).busBusy = false :=
    Fs.busBusy_of_free (soft.trans reset) fun e => by
      rw [Fs.die_setDie]
      split
      · rfl
      next other =>
        refine Bool.eq_false_iff.2 fun on => other (ok.single e c on ?_)
        rw [Die.selected, first]
        rfl
  have next := Fs.nextGrant_setDie (d := (f.die c).startBusy limit) rfl (by rw [Die.waiting, first]; rfl)
  have pre := Fs.setDie_pre ok.pre c (Die.startBusy_ok (by rw [queue]; nofun) limit) nofun
  refine ⟨fun e found => ?_, fun none_ => ?_⟩
  · have granted := next.trans found
    exact ⟨by rw [Fs.grant_of_next free granted], Fs.selected_grant_of_next pre free granted⟩
  · rw [Fs.grant_of_none (next.trans none_)]
    exact ⟨last, (Fs.busBusy_false free).2⟩

end

/-! ### A ready output (R64, R72) -/

theorem Fs.busBusy_becomeReady (busy : (f.die c).stage = .busy) :
    (f.setDie c (f.die c).becomeReady).busBusy = f.busBusy :=
  Fs.busBusy_setDie (by rw [Die.selected, Die.selected, busy]; rfl)

section
variable (ok : BusOk f) (queue : (f.die c).queue = op :: rest) (busy : (f.die c).stage = .busy)
  (reset : op.act.isResetDie = false)
include queue busy reset

/-- A ready output ends a busy period: the die's last phase waits for the bus, which is arbitrated. -/
theorem Fs.ready_of_busy : f.ready c = (f.setDie c (f.die c).becomeReady).grant := by
  simp only [Fs.ready, queue, busy, reset, Bool.not_false, and_self, if_true]

theorem Fs.ready_frame : (f.ready c).mask = f.mask ∧ (f.ready c).corrected = f.corrected ∧
    (f.ready c).softResets = f.softResets := by
  rw [Fs.ready_of_busy queue busy reset]
  simp

/-- On a taken bus the last phase waits. -/
theorem Fs.ready_of_busBusy (on : f.busBusy = true) :
    (f.ready c).die c = { queue := op :: rest, stage := .lastPending, timer := none } ∧
    (∀ e, e ≠ c → (f.ready c).die e = f.die e) ∧ (f.ready c).lastGranted = f.lastGranted := by
  rw [Fs.ready_of_busy queue busy reset, Fs.grant_of_busy ((Fs.busBusy_becomeReady busy).trans on),
    Fs.die_setDie_same, ← queue]
  exact ⟨rfl, fun _ => Fs.die_setDie_other, (Fs.setDie_frame f c _).1⟩

include ok in
/-- On a free bus the last phase runs at once: no other die has one pending. -/
theorem Fs.ready_of_busFree (off : f.busBusy = false) :
    (f.ready c).die c = { queue := op :: rest, stage := .last, timer := none } ∧
    (∀ e, e ≠ c → (f.ready c).die e = f.die e) ∧ (f.ready c).lastGranted = c := by
  have free := (Fs.busBusy_becomeReady busy).trans off
  have next : (f.setDie c (f.die c).becomeReady).nextGrant = some c := by
    refine Fs.nextGrant_of_only (by rw [Fs.die_setDie_same]; rfl) fun e other => ?_
    have none_ := ok.working off
    rw [Fs.pendingSet, List.filter_eq_nil_iff] at none_
    rw [Fs.die_setDie_other other]
    exact Bool.eq_false_iff.2 (none_ e (mem_chipEnables e))
  rw [Fs.ready_of_busy queue busy reset]
  refine ⟨?_, fun e other => ?_, by rw [Fs.grant_of_next free next]⟩
  · rw [Fs.die_grant_of_next free next, if_pos rfl, Fs.die_setDie_same, ← queue]
    rfl
  · rw [Fs.die_grant_of_next free next, if_neg other, Fs.die_setDie_other other]

end

/-! ### The obligation -/

theorem done_of_ne (h : s.ec.engine ≠ .stopping) : done s = .next s := (done_eq s).trans (congrArg _ (settle_of_ne h))

/-- A command that changes the FS alone, up to the quiet reports. -/
theorem done_setFs (s : State) (f : Fs) : ∃ t, done { s with fs := f } = .next t ∧ t.fs = f ∧
    { t with fs := s.fs, ec := { t.ec with quiet := s.ec.quiet } } = s := by
  obtain ⟨q, e⟩ := settle_eq { s with fs := f }
  exact ⟨_, done_eq _, by rw [e], by rw [e]⟩

/-- Settles O49: each clause by what the arbiter does with the die that came off the bus or became ready. -/
theorem phaseEndsAndReady : Obligations.PhaseEndsAndReady := by
  unfold Obligations.PhaseEndsAndReady
  refine ⟨fun s d op rest limit ok queue reset first busy => ?phase, fun s c cs reset => ?softReset,
    fun s d op rest ok queue busy reset => ?ready⟩
  case phase =>
    obtain ⟨t, ends, fs, kept⟩ := done_setFs s s.fs.phaseEnd
    obtain ⟨queues, mask, corrected⟩ := Fs.phaseEnd_frame s.fs
    obtain ⟨granted, idle⟩ := Fs.phaseEnd_grants_of_first ok queue reset first busy
    refine ⟨t, ends, ?_⟩
    rw [fs]
    refine ⟨Fs.phaseEnd_die_of_first ok queue reset first busy, queues, ?_, mask, corrected, ?_, kept⟩
    · split
      next e found => exact granted e found
      next none_ => exact idle none_
    · rw [Fs.phaseEnd_of_first ok queue reset first busy]
      simpa using reset
  case softReset =>
    obtain ⟨t, ends, fs, kept⟩ := done_setFs s s.fs.phaseEnd
    obtain ⟨queues, mask, corrected⟩ := Fs.phaseEnd_frame s.fs
    refine ⟨t, ends, ?_⟩
    rw [fs]
    exact ⟨by rw [Fs.phaseEnd_of_softReset reset]; simp, queues, mask, corrected, kept⟩
  case ready =>
    obtain ⟨t, ends, fs, kept⟩ := done_setFs s (s.fs.ready d)
    obtain ⟨mask, corrected, soft⟩ := Fs.ready_frame queue busy reset
    refine ⟨t, ends, ?_⟩
    rw [fs]
    split
    next on =>
      obtain ⟨die, others, last⟩ := Fs.ready_of_busBusy queue busy reset on
      exact ⟨die, others, last, mask, corrected, soft, kept⟩
    next off =>
      obtain ⟨die, others, last⟩ := Fs.ready_of_busFree ok queue busy reset (Bool.eq_false_iff.2 off)
      exact ⟨die, others, last, mask, corrected, soft, kept⟩

end Sys2Proof.Machine
end

section
/-!
PROOF. The probe of the dies (O51).
-/
namespace Sys2Proof.Machine

-- One proof at a time, as in the tests: proofs checked side by side need more threads than the limits allow.
set_option Elab.async false

variable {s : State} {d : Fin 4} {op : FlashOp} {rest : List FlashOp}

/-! ### The probe records (R159) -/

theorem probeRecOf_setProbeRec (c : Fin 4) (r : ProbeRec) (s : State) (e : Fin 4) :
    probeRecOf (setProbeRec c r s).ec.probeRec e = if e = c then r else probeRecOf s.ec.probeRec e := by
  fin_cases c <;> fin_cases e <;> rfl

/-- From `s` to `t` the operation of die `d` completes and the die's probe record becomes `r`. -/
structure Records (d : Fin 4) (r : ProbeRec) (s t : State) : Prop where
  record : ∀ e, probeRecOf t.ec.probeRec e = if e = d then r else probeRecOf s.ec.probeRec e
  queues : QueuesAfter d [] s t
  rest : { t with ec := { t.ec with probeRec := s.ec.probeRec }, fs := s.fs } = s

theorem records_setProbeRec (d : Fin 4) (r : ProbeRec) (s : State) : Records d r s (setProbeRec d r (completeOp d s)) :=
  ⟨probeRecOf_setProbeRec d r (completeOp d s), (queuesAfter_completeOp d s).of_fs rfl, rfl⟩

/-! ### The operations of the probe (R65, R66) -/

theorem Fs.resetting_of_busy (queue : (s.fs.die d).queue = op :: rest) (busy : (s.fs.die d).stage = .busy)
    (act : op.act = .resetDie d) : s.fs.resetting d = true := by
  simp only [Fs.resetting, queue, busy, act]
  rfl

/-- A RESET_DIE that gets ready is followed by PROBE (R66). -/
theorem exec_resetDieComplete (engine : s.ec.engine = .probing) (go : s.ec.stopPending = false)
    (reset : s.fs.resetting d = true) :
    exec (.resetDieComplete d) s = .next (handOp .engine (.probe d) (completeOp d s)) := by
  have ready : resetDieReady d s = handOp .engine (.probe d) (completeOp d s) := by
    unfold resetDieReady
    rw [if_pos reset]
    exact if_pos ⟨engine, by rw [go]; rfl⟩
  refine (congrArg done ready).trans (done_of_ne ?_)
  simp [engine]

/-- A RESET_DIE that reaches its limit on a die not yet present (R159). -/
theorem exec_resetDieNoReady (engine : s.ec.engine = .probing) (mask : s.fs.mask = 0)
    (reset : s.fs.resetting d = true) :
    exec (.resetDieNoReady d) s = .next (setProbeRec d .absent (completeOp d s)) := by
  have expired : resetDieExpired d s = setProbeRec d .absent (completeOp d s) :=
    if_pos ⟨reset, by simp [Fs.present, mask]⟩
  refine (congrArg done expired).trans (done_of_ne ?_)
  simp [engine]

/-- The identification bytes of a PROBE (R65). -/
theorem exec_probe (engine : s.ec.engine = .probing) (ending : s.fs.ending = some (d, op)) (act : op.act = .probe d)
    (b0 b1 b2 b3 : Byte) : exec (.probe b0 b1 b2 b3) s = .next (setProbeRec d
      (if b0 = 0x2A ∧ b1 = 0x91 ∧ b2 = 0x40 ∧ b3 = 0x0C then .present else .absent) (completeOp d s)) := by
  have result : probeResult [b0, b1, b2, b3] s = setProbeRec d
      (if b0 = 0x2A ∧ b1 = 0x91 ∧ b2 = 0x40 ∧ b3 = 0x0C then .present else .absent) (completeOp d s) := by
    simp [probeResult, ending, act, geometryCode]
  refine (congrArg done result).trans (done_of_ne ?_)
  simp [engine]

/-- Settles O51: each operation of the probe completes, and the record or the next operation follows. -/
theorem probeRecordsEachDie : Obligations.ProbeRecordsEachDie := by
  unfold Obligations.ProbeRecordsEachDie
  intro s d op rest engine go mask queue
  refine ⟨fun act busy => ?reset, fun act ending b0 b1 b2 b3 => ?probe⟩
  case reset =>
    have reset := Fs.resetting_of_busy queue busy act
    refine ⟨⟨_, exec_resetDieComplete engine go reset, ?_, ?_⟩, ⟨_, exec_resetDieNoReady engine mask reset, ?_⟩⟩
    · exact (queuesAfter_completeOp d s).gain (queuesGain_handOp (by simp [engine]) _ _)
    · rw [handOp_of_ne (by simp [engine])]
      rfl
    · obtain ⟨record, queues, kept⟩ := records_setProbeRec d .absent s
      exact ⟨record, queues, kept⟩
  case probe =>
    obtain ⟨record, queues, kept⟩ := records_setProbeRec d
      (if b0 = 0x2A ∧ b1 = 0x91 ∧ b2 = 0x40 ∧ b3 = 0x0C then .present else .absent) s
    exact ⟨_, exec_probe engine ending act b0 b1 b2 b3, record, queues, kept⟩

end Sys2Proof.Machine
end

section
/-!
PROOF. A busy timer that expires on a present die (O50).
-/
namespace Sys2Proof.Machine

-- One proof at a time, as in the tests: proofs checked side by side need more threads than the limits allow.
set_option Elab.async false

variable {s : State} {c : CardIx}

/-! ### The cards answered FAULTED (R181) -/

/-- The cards that FAULTED answers, in the order of their answers: those in the three queues, then those the paths hold. -/
def faultAnswers (s : State) : List (CardIx × Answer) :=
  (s.ci.append.map fun c => (c, .plain .faulted)) ++ ((s.ci.query.map fun c => (c, .plain .faulted)) ++
    ((s.ci.control.map fun c => (c, .plain .faulted)) ++ (appendAnswers .faulted s.rp ++
      ((s.ar.served.toList.map fun v => (v.card, .plain .faulted)) ++
        s.cp.served.toList.map fun v => (v.card, .plain .faulted)))))

theorem faultAnswers_cards (s : State) : (faultAnswers s).map Prod.fst = queuedCards s ++ heldCards s := by
  simp [faultAnswers, appendAnswers, queuedCards, heldCards, Function.comp_def, Option.toList_map]

/-- No card is in a queue and with a path, nor twice in either. -/
theorem CardsOk.once (ok : CardsOk s) : (queuedCards s ++ heldCards s).Nodup := by
  refine List.nodup_append.2 ⟨ok.queuedOnce, ok.heldOnce, fun c queued d held e => ?_⟩
  subst e
  have posted := (ok.queued c).1 queued
  rw [(ok.held c).1 held] at posted
  exact absurd posted (by decide)

/-! ### What entering FAULTED does to each block -/

/-- The append path in FAULTED: staged records discarded, its cards answered, the packer closed. -/
def packerStopped (s : State) : State :=
  let t := answerWaitList .faulted (answerServed .faulted (discardStaged s))
  closePacker { t with rp := { t.rp with digests := [] } }

/-- The queues and the paths' cards are answered FAULTED, and the packer closed. -/
def pathsFaulted (s : State) : State :=
  cpAnswer (.plain .faulted) (arAnswer (.plain .faulted) (packerStopped
    (answerQueue .control (.plain .faulted) (answerQueue .query (.plain .faulted) (answerQueue .append (.plain .faulted) s)))))

/-- FAULT is requested, the procedure ended and the FS cleared. -/
def faultBegun (cause : FaultCause) (s : State) : State :=
  setEvent .fault { s with
    ec := { s.ec.noProcedure with engine := .faulted, cause := cause, stopPending := false, loaded := false }
    fs := s.fs.cleared }

theorem enterFaulted_eq (cause : FaultCause) (s : State) :
    enterFaulted cause s = { pathsFaulted (faultBegun cause s) with ru := .reset } := rfl

/-- The RP after FAULTED is entered. -/
def packerFaulted (s : State) : Rp := { packerDropped (durableKey s) s.rp with served := none, waitList := [] }

/-- R37: the discard range and next_seq. -/
theorem packerFaulted_marks (s : State) :
    if s.rp.bufA.records = [] ∧ s.rp.bufB.records = [] then
      (packerFaulted s).discardFirst = s.rp.discardFirst ∧ (packerFaulted s).discardLast = s.rp.discardLast ∧
      (packerFaulted s).nextSeq = s.rp.nextSeq
    else
      (packerFaulted s).discardFirst = s.rp.durable + 1 ∧ (packerFaulted s).discardLast = s.rp.nextSeq - 1 ∧
      (packerFaulted s).nextSeq = s.rp.durable + 1 := by
  unfold packerFaulted packerDropped
  split <;> exact ⟨rfl, rfl, rfl⟩

theorem packerStopped_eq (s : State) : ∃ x, packerStopped s = { s with xp := x, rp := packerFaulted s } := by
  obtain ⟨x, e⟩ := answerAppend_eq .faulted (discardStaged s)
  refine ⟨x, ?_⟩
  unfold packerStopped
  rw [e]
  unfold packerFaulted packerDropped discardStaged closePacker
  simp only [List.isEmpty_iff]
  split <;> rfl

/-- The AR after FAULTED is entered. -/
def readerFaulted (a : Ar) : Ar := if a.served = none then a else a.released

theorem arAnswer_eq (r : Answer) (s : State) : ∃ x, arAnswer r s = { s with xp := x, ar := readerFaulted s.ar } := by
  unfold arAnswer readerFaulted
  split
  next h => exact ⟨s.xp, by rw [if_pos h]⟩
  next v h => exact ⟨_, by rw [h]; rfl⟩

theorem cpAnswer_eq (r : Answer) (s : State) :
    ∃ x, cpAnswer r s = { s with xp := x, cp := { s.cp with served := none } } := by
  unfold cpAnswer
  split
  next h => exact ⟨s.xp, by rw [← h]⟩
  · exact ⟨_, rfl⟩

theorem pathsFaulted_eq (s : State) : ∃ x, pathsFaulted s = { s with
    xp := x, ci := .reset, rp := packerFaulted s, ar := readerFaulted s.ar, cp := { s.cp with served := none } } := by
  obtain ⟨x1, e1⟩ := answerQueue_eq .append (.plain .faulted) s
  obtain ⟨x2, e2⟩ := answerQueue_eq .query (.plain .faulted) (setQueue .append [] { s with xp := x1 })
  obtain ⟨x3, e3⟩ := answerQueue_eq .control (.plain .faulted)
    (setQueue .query [] { setQueue .append [] { s with xp := x1 } with xp := x2 })
  have queues : answerQueue .control (.plain .faulted) (answerQueue .query (.plain .faulted)
      (answerQueue .append (.plain .faulted) s)) = { s with xp := x3, ci := .reset } := by rw [e1, e2, e3]; rfl
  obtain ⟨x4, e4⟩ := packerStopped_eq { s with xp := x3, ci := .reset }
  obtain ⟨x5, e5⟩ := arAnswer_eq (.plain .faulted) { s with xp := x4, ci := .reset, rp := packerFaulted s }
  rw [pathsFaulted, queues, e4]
  obtain ⟨x6, e6⟩ := cpAnswer_eq (.plain .faulted)
    (arAnswer (.plain .faulted) { s with xp := x4, ci := .reset, rp := packerFaulted s })
  exact ⟨x6, e6.trans (by rw [e5])⟩

/-! ### What the cards show -/

theorem answersAll_arAnswer (r : Answer) (wf : Memory.wf s.xp.mem = true) :
    AnswersAll (s.ar.served.toList.map fun v => (v.card, r)) s (arAnswer r s) := by
  unfold arAnswer
  split
  next h => rw [h]; exact .nil wf
  next v h => rw [h]; exact (AnswersAll.answerCard wf v.card r).of_port rfl rfl

theorem answersAll_cpAnswer (r : Answer) (wf : Memory.wf s.xp.mem = true) :
    AnswersAll (s.cp.served.toList.map fun v => (v.card, r)) s (cpAnswer r s) := by
  unfold cpAnswer
  split
  next h => rw [h]; exact .nil wf
  next v h => rw [h]; exact (AnswersAll.answerCard wf v.card r).of_port rfl rfl

theorem discardStaged_append (o : CardOutcome) (s : State) :
    appendAnswers o (discardStaged s).rp = appendAnswers o s.rp ∧ (discardStaged s).rp.durable = s.rp.durable := by
  unfold discardStaged appendAnswers
  split <;> exact ⟨rfl, rfl⟩

theorem answersAll_packerStopped (once : ((appendAnswers .faulted s.rp).map Prod.fst).Nodup)
    (wf : Memory.wf s.xp.mem = true) : AnswersAll (appendAnswers .faulted s.rp) s (packerStopped s) := by
  obtain ⟨cards, durable⟩ := discardStaged_append .faulted s
  have answered := answersAll_append (s := discardStaged s) .faulted (by rwa [cards]) (by simpa using wf)
  rw [cards] at answered
  exact (answered.from_port (by simp) durable.symm).of_port rfl rfl

theorem nodup_cards_right {ps qs : List (CardIx × Answer)} (h : ((ps ++ qs).map Prod.fst).Nodup) :
    (qs.map Prod.fst).Nodup := by
  rw [List.map_append] at h
  exact h.of_append_right

/-- The queue of another path stays. -/
theorem queue_answerQueue {p q : CardPath} (h : q ≠ p) (r : Answer) (s : State) :
    (answerQueue p r s).ci.queue q = s.ci.queue q := by
  obtain ⟨x, e⟩ := answerQueue_eq p r s
  rw [e, setQueue_queue_other h]

/-- The queues, the append path's cards and the cards of the other two paths are answered in turn. -/
theorem answersAll_pathsFaulted (once : ((faultAnswers s).map Prod.fst).Nodup) (wf : Memory.wf s.xp.mem = true) :
    AnswersAll (faultAnswers s) s (pathsFaulted s) := by
  let r := Answer.plain .faulted
  let q1 := answerQueue .append r s
  let q2 := answerQueue .query r q1
  let q3 := answerQueue .control r q2
  have query : q1.ci.queue .query = s.ci.query := queue_answerQueue (by decide) r s
  have control : q2.ci.queue .control = s.ci.control :=
    (queue_answerQueue (by decide) r q1).trans (queue_answerQueue (by decide) r s)
  have rp : q3.rp = s.rp := by simp [q3, q2, q1]
  have ar : (packerStopped q3).ar = s.ar := by
    obtain ⟨x, e⟩ := packerStopped_eq q3
    rw [e]
    simp [q3, q2, q1]
  have cp : (arAnswer r (packerStopped q3)).cp = s.cp := by
    obtain ⟨x, e⟩ := packerStopped_eq q3
    rw [e]
    simp [q3, q2, q1]
  have once2 := nodup_cards_right once
  have once3 := nodup_cards_right once2
  have once4 := nodup_cards_right once3
  have once5 := nodup_cards_right once4
  have queuedOnce {ps : List (CardIx × Answer)} {q : List CardIx}
      (h : (((q.map fun c => (c, r)) ++ ps).map Prod.fst).Nodup) : q.Nodup := by
    rw [List.map_append, List.map_map] at h
    simpa [Function.comp_def] using h.of_append_left
  have appendOnce : ((appendAnswers .faulted s.rp).map Prod.fst).Nodup := by
    rw [List.map_append] at once4
    exact once4.of_append_left
  have a1 := answersAll_answerQueue (p := .append) r (queuedOnce once) wf
  have a2 := answersAll_answerQueue (p := .query) (s := q1) r (query ▸ queuedOnce once2) a1.canonical
  have a3 := answersAll_answerQueue (p := .control) (s := q2) r (control ▸ queuedOnce once3) a2.canonical
  have a4 := answersAll_packerStopped (s := q3) (rp ▸ appendOnce) a3.canonical
  have a5 := answersAll_arAnswer r a4.canonical
  have a6 := answersAll_cpAnswer r a5.canonical
  rw [query] at a2
  rw [control] at a3
  rw [rp] at a4
  rw [ar] at a5
  rw [cp] at a6
  exact a1.trans (a2.trans (a3.trans (a4.trans (a5.trans a6 once5) once4) once3) once2) once

/-! ### The obligation -/

theorem packerFaulted_frame (s : State) :
    (packerFaulted s).served = none ∧ (packerFaulted s).waitList = [] ∧ (packerFaulted s).openSeg = none ∧
    (packerFaulted s).rowMap = [] ∧ (packerFaulted s).digests = [] ∧ (packerFaulted s).lingerTimer = none ∧
    (packerFaulted s).relocation = none ∧ (packerFaulted s).bufA = .cleared ∧ (packerFaulted s).bufB = .cleared ∧
    (packerFaulted s).durable = s.rp.durable ∧ (packerFaulted s).readOnly = s.rp.readOnly := by
  simp [packerFaulted]

theorem readerFaulted_counts (a : Ar) :
    (readerFaulted a).damagedRecords = a.damagedRecords ∧ (readerFaulted a).damagedRows = a.damagedRows := by
  unfold readerFaulted
  split <;> exact ⟨rfl, rfl⟩

theorem readerFaulted_of_served {a : Ar} {v : ArServed} (h : a.served = some v) : readerFaulted a = a.released :=
  if_neg (by rw [h]; nofun)

/-- The state after FAULTED is entered, but for the Exchange Port. -/
def faulted (cause : FaultCause) (x : Xp) (s : State) : State :=
  { s with
    xp := x, ci := .reset, rp := packerFaulted s, ar := readerFaulted s.ar, cp := { s.cp with served := none }
    ru := .reset, fs := s.fs.cleared
    ec := { s.ec.noProcedure with engine := .faulted, cause := cause, stopPending := false, loaded := false } }

/-- The blocks change as `faulted` says, and the cards of `faultAnswers` are answered. -/
theorem enterFaulted_answers (ok : CardsOk s) (cause : FaultCause) : ∃ x, enterFaulted cause s = faulted cause x s ∧
    AnswersAll (faultAnswers s) (faultBegun cause s) (faulted cause x s) := by
  have once : ((faultAnswers s).map Prod.fst).Nodup := by rw [faultAnswers_cards]; exact ok.once
  have answers := answersAll_pathsFaulted (s := faultBegun cause s) once ok.canonical
  obtain ⟨x, e⟩ := pathsFaulted_eq (faultBegun cause s)
  rw [e] at answers
  exact ⟨x, by rw [enterFaulted_eq, e]; rfl, answers.of_port rfl rfl⟩

theorem mem_faultAnswers_of_queued (h : c ∈ queuedCards s) : (c, .plain .faulted) ∈ faultAnswers s := by
  simp only [queuedCards, List.mem_append] at h
  simp only [faultAnswers, List.mem_append]
  rcases h with h | h | h
  · exact .inl (List.mem_map.2 ⟨c, h, rfl⟩)
  · exact .inr (.inl (List.mem_map.2 ⟨c, h, rfl⟩))
  · exact .inr (.inr (.inl (List.mem_map.2 ⟨c, h, rfl⟩)))

theorem mem_faultAnswers_of_append {p : CardIx × Answer} (h : p ∈ appendAnswers .faulted s.rp) : p ∈ faultAnswers s := by
  simp [faultAnswers, h]

/-- What every fault shares (R181): each card is answered, and every block changes as it says. -/
theorem enterFaulted_entersFaulted (ok : CardsOk s) (cause : FaultCause) :
    EntersFaulted cause s (enterFaulted cause s) := by
  obtain ⟨x, e, answers⟩ := enterFaulted_answers ok cause
  obtain ⟨-, shown, others, port, -⟩ := answers
  have cards (c : CardIx) (h : c ∈ (faultAnswers s).map Prod.fst) :
      cardByte s c = CardState.posted.code ∨ cardByte s c = CardState.taken.code := by
    rw [faultAnswers_cards, List.mem_append] at h
    exact h.imp (ok.queued c).1 (ok.held c).1
  obtain ⟨bytes, bits⟩ := others.mono cards
  obtain ⟨served, waitList, openSeg, rowMap, digests, linger, relocation, bufA, bufB, durable, readOnly⟩ :=
    packerFaulted_frame s
  obtain ⟨records, rows⟩ := readerFaulted_counts s.ar
  have marks := packerFaulted_marks s
  rw [e]
  exact
    { engine := ⟨rfl, rfl, rfl, rfl⟩
      event := congrArg Xp.events port
      dies := fun c => by fin_cases c <;> rfl
      queues := rfl
      posted := fun c hc => shown (c, .plain .faulted) (mem_faultAnswers_of_queued hc)
      servedShows := fun v hv => shown (v.card, v.answer .faulted)
        (mem_faultAnswers_of_append (List.mem_append_left _ (by simp [hv])))
      waitingShow := fun w hw => shown (w.card, { w.answer with outcome := .faulted })
        (mem_faultAnswers_of_append (List.mem_append_right _ (List.mem_map.2 ⟨w, hw, rfl⟩)))
      queryShows := fun v hv => ⟨shown (v.card, .plain .faulted) (by simp [faultAnswers, hv]),
        congrArg Ar.served (readerFaulted_of_served hv), congrArg Ar.pin (readerFaulted_of_served hv)⟩
      controlShows := fun v hv => shown (v.card, .plain .faulted) (by simp [faultAnswers, hv])
      others := ⟨bytes, bits⟩
      packer := ⟨served, waitList, openSeg, rowMap, digests, linger, relocation, bufA, bufB⟩
      discard := fun staged => by rwa [if_neg fun k => staged.elim (absurd k.1) (absurd k.2)] at marks
      noDiscard := fun a b => by rwa [if_pos ⟨a, b⟩] at marks
      reclaim := rfl
      control := rfl
      outside := ⟨rfl, rfl, rfl⟩
      kept := ⟨durable, readOnly, rfl, records, rows, rfl⟩
      port := congrArg (fun y : Xp => { y with events := s.xp.events }) port }

/-- Settles O50: the timer is one that R181 takes for a fault, and the entry changes no mask and no catalog. -/
theorem dieTimeoutFaults : Obligations.DieTimeoutFaults := by
  unfold Obligations.DieTimeoutFaults
  intro s d ok timer present engine
  have timed : s.ec.engine.timed = true := by rcases engine with h | h | h | h <;> rw [h] <;> rfl
  have expires : dieTimeout d s = enterFaulted .dieTimeout s := if_pos ⟨timer, present, timed⟩
  have entered := enterFaulted_entersFaulted ok .dieTimeout
  have notStopping : (enterFaulted .dieTimeout s).ec.engine ≠ .stopping := by rw [entered.engine.1]; decide
  refine ⟨_, (congrArg done expires).trans (done_of_ne notStopping), entered, ?_, ?_⟩
  · obtain ⟨x, e, -⟩ := enterFaulted_answers ok .dieTimeout
    rw [e]
    rfl
  · simp

end Sys2Proof.Machine
end

section
/-!
SUPPORT. The operations of the EC and the RU in the die queues: which operations add or remove one (R64, R75, R76, R150).
-/
namespace Sys2Proof.Machine

-- One proof at a time, as in the tests: proofs checked side by side need more threads than the limits allow.
set_option Elab.async false

variable {s t u : State} {f g : Fs} {src : Source} {c d : Fin 4} {op : FlashOp} {act : FlashAct}

/-! ### The operations of the EC and the RU, die by die -/

/-- An operation of the EC or the RU. -/
def FlashOp.ofSpace (op : FlashOp) : Bool := op.source == .engine || op.source == .reclaim

/-- The operations of the EC and the RU in the queue of a die. -/
def Fs.spaceOps (f : Fs) (c : Fin 4) : List FlashOp := (f.die c).queue.filter FlashOp.ofSpace

theorem mem_chipEnables_all (c : Fin 4) : c ∈ chipEnables := by fin_cases c <;> simp [chipEnables]

theorem Fs.mem_ops : op ∈ f.ops ↔ ∃ c, op ∈ (f.die c).queue := by
  simp [Fs.ops, mem_chipEnables_all]

theorem Fs.mem_acts : act ∈ f.acts src ↔ ∃ c, { source := src, act := act } ∈ (f.die c).queue := by
  simp only [Fs.acts, List.mem_map, List.mem_filter, Fs.mem_ops, beq_iff_eq]
  constructor
  · rintro ⟨op, ⟨⟨c, hop⟩, rfl⟩, rfl⟩
    exact ⟨c, hop⟩
  · rintro ⟨c, hop⟩
    exact ⟨_, ⟨⟨c, hop⟩, rfl⟩, rfl⟩

/-- The acts of a source, die by die. -/
theorem Fs.acts_eq (f : Fs) (src : Source) : f.acts src =
    chipEnables.flatMap fun c => ((f.die c).queue.filter fun op => op.source == src).map FlashOp.act := by
  simp [Fs.acts, Fs.ops, List.filter_flatMap, List.map_flatMap]

/-- The operations of the EC, and those of the RU, are among those of both. -/
theorem Fs.filter_spaceOps (h : src = .engine ∨ src = .reclaim) (f : Fs) (c : Fin 4) :
    ((f.spaceOps c).filter fun op => op.source == src) = (f.die c).queue.filter fun op => op.source == src := by
  rw [Fs.spaceOps, List.filter_filter]
  refine List.filter_congr fun op _ => ?_
  by_cases hs : op.source = src
  · rcases h with rfl | rfl <;> simp [FlashOp.ofSpace, hs]
  · simp [hs]

theorem Fs.acts_congr (h : src = .engine ∨ src = .reclaim) (same : g.spaceOps = f.spaceOps) : g.acts src = f.acts src := by
  simp only [Fs.acts_eq, ← Fs.filter_spaceOps h, same]

theorem Fs.spaceOps_congr (h : ∀ c, (g.die c).queue = (f.die c).queue) : g.spaceOps = f.spaceOps :=
  funext fun c => by rw [Fs.spaceOps, h, Fs.spaceOps]

theorem Fs.ops_congr (h : ∀ c, (g.die c).queue = (f.die c).queue) : g.ops = f.ops := by
  simp only [Fs.ops, h]

/-! ### Joining and leaving -/

/-- An operation of another block joins. -/
theorem Fs.spaceOps_push_of_other (h : op.ofSpace = false) (f : Fs) (c : Fin 4) : (f.push c op).spaceOps = f.spaceOps := by
  funext e
  rw [Fs.spaceOps, Fs.spaceOps, Fs.push_queue]
  split
  next he => simp [he, List.filter_append, h]
  · rfl

/-- An operation of another block completes. -/
theorem Fs.spaceOps_complete_of_other (head : (f.die c).queue.head? = some op) (h : op.ofSpace = false) :
    (f.complete c).spaceOps = f.spaceOps := by
  obtain ⟨rest, hq⟩ := List.head?_eq_some_iff.1 head
  funext e
  rw [Fs.spaceOps, Fs.spaceOps, Fs.complete_queue]
  split
  next he => simp [he, hq, h]
  · rfl

/-- An operation joins the tail of its source's acts on its die. -/
theorem Fs.acts_push_of_nil (none_ : f.acts src = []) (c : Fin 4) (act : FlashAct) :
    (f.push c { source := src, act := act }).acts src = [act] := by
  have empty (e : Fin 4) : ((f.die e).queue.filter fun op => op.source == src) = [] := by
    rw [Fs.acts_eq, List.flatMap_eq_nil_iff] at none_
    simpa using none_ e (mem_chipEnables_all e)
  rw [Fs.acts_eq]
  have queue (e : Fin 4) : (((f.push c { source := src, act := act }).die e).queue.filter fun op => op.source == src) =
      if e = c then [{ source := src, act := act }] else [] := by
    rw [Fs.push_queue]
    split
    · rw [List.filter_append, empty]; simp
    · exact empty e
  simp only [queue]
  fin_cases c <;> rfl

/-- An operation of another source leaves a source's acts as they are. -/
theorem Fs.acts_push_of_ne (h : op.source ≠ src) (f : Fs) (c : Fin 4) : (f.push c op).acts src = f.acts src := by
  simp only [Fs.acts_eq]
  congr 1
  funext e
  rw [Fs.push_queue]
  split
  next he => simp [he, List.filter_append, h]
  · rfl

theorem Fs.acts_complete_of_ne (head : (f.die c).queue.head? = some op) (h : op.source ≠ src) :
    (f.complete c).acts src = f.acts src := by
  obtain ⟨rest, hq⟩ := List.head?_eq_some_iff.1 head
  simp only [Fs.acts_eq]
  congr 1
  funext e
  rw [Fs.complete_queue]
  split
  next he => simp [he, hq, h]
  · rfl

/-- The completion of the one act of a source. -/
theorem Fs.acts_complete_of_single (head : (f.die c).queue.head? = some op) (one : f.acts op.source = [act]) :
    op.act = act ∧ (f.complete c).acts op.source = [] := by
  obtain ⟨rest, hq⟩ := List.head?_eq_some_iff.1 head
  have mine : act = op.act := by
    have : op.act ∈ f.acts op.source := Fs.mem_acts.2 ⟨c, by rw [hq]; exact List.mem_cons_self⟩
    rw [one] at this
    exact (List.mem_singleton.1 this).symm
  refine ⟨mine.symm, ?_⟩
  let rests (e : Fin 4) := (((f.complete c).die e).queue.filter fun x => x.source == op.source).map FlashOp.act
  have split (e : Fin 4) : ((f.die e).queue.filter fun x => x.source == op.source).map FlashOp.act =
      if e = c then op.act :: rests e else rests e := by
    simp only [rests, Fs.complete_queue]
    by_cases he : e = c
    · simp [he, hq]
    · simp [he]
  have count : (f.acts op.source).length = ((f.complete c).acts op.source).length + 1 := by
    rw [Fs.acts_eq, Fs.acts_eq]
    simp only [split]
    fin_cases c <;> simp [chipEnables, rests] <;> omega
  rw [one] at count
  exact List.length_eq_zero_iff.1 (by simpa using count.symm)

theorem Fs.ops_complete_of_single (head : (f.die c).queue.head? = some op) (one : f.ops = [op]) : (f.complete c).ops = [] := by
  obtain ⟨rest, hq⟩ := List.head?_eq_some_iff.1 head
  have split (e : Fin 4) : (f.die e).queue = if e = c then op :: ((f.complete c).die e).queue else ((f.complete c).die e).queue := by
    rw [Fs.complete_queue]
    by_cases he : e = c
    · simp [he, hq]
    · simp [he]
  have count : f.ops.length = (f.complete c).ops.length + 1 := by
    rw [Fs.ops, Fs.ops]
    simp only [fun e => split e]
    fin_cases c <;> simp [chipEnables] <;> omega
  rw [one] at count
  exact List.length_eq_zero_iff.1 (by simpa using count.symm)

theorem Fs.ops_push_of_nil (none_ : f.ops = []) (c : Fin 4) (op : FlashOp) : (f.push c op).ops = [op] := by
  have empty (e : Fin 4) : (f.die e).queue = [] := by
    rw [Fs.ops, List.flatMap_eq_nil_iff] at none_
    exact none_ e (mem_chipEnables_all e)
  rw [Fs.ops]
  simp only [Fs.push_queue, empty]
  fin_cases c <;> rfl

theorem Fs.queue_of_quiet (h : f.quiet = true) (c : Fin 4) : (f.die c).queue = [] := by
  simp only [Fs.quiet, Bool.and_eq_true, List.all_eq_true] at h
  exact List.isEmpty_iff.1 (h.2 c (mem_chipEnables_all c))

theorem Fs.ops_of_quiet (h : f.quiet = true) : f.ops = [] := by simp [Fs.ops, Fs.queue_of_quiet h]

theorem Fs.acts_of_ops_nil (h : f.ops = []) (src : Source) : f.acts src = [] := by simp [Fs.acts, h]

theorem Fs.acts_of_quiet (h : f.quiet = true) (src : Source) : f.acts src = [] := acts_of_ops_nil (ops_of_quiet h) src

/-- What ends is in the die queues. -/
theorem Fs.acts_of_ending (h : f.ending = some (c, op)) : op.act ∈ f.acts op.source := by
  obtain ⟨rest, hq⟩ := List.head?_eq_some_iff.1 (Fs.head_of_ending h)
  exact Fs.mem_acts.2 ⟨c, by rw [hq]; exact List.mem_cons_self⟩

theorem Fs.ops_of_ending (h : f.ending = some (c, op)) : op ∈ f.ops := by
  obtain ⟨rest, hq⟩ := List.head?_eq_some_iff.1 (Fs.head_of_ending h)
  exact Fs.mem_ops.2 ⟨c, by rw [hq]; exact List.mem_cons_self⟩

/-! ### What leaves the queues as they are -/

theorem Fs.phaseEnd_queue (f : Fs) (c : Fin 4) : (f.phaseEnd.die c).queue = (f.die c).queue := by
  have grant (g : Fs) : (g.grant.die c).queue = (g.die c).queue := (Fs.grant_die g c).1
  unfold Fs.phaseEnd
  split
  · exact grant _
  · split
    · rfl
    next d _ =>
      split
      · rfl
      · split
        · rfl
        · split
          · rw [grant, Fs.die_setDie]
            split
            next hd => rw [hd]; rfl
            · rfl
          · rfl

theorem Fs.ready_queue (f : Fs) (d c : Fin 4) : ((f.ready d).die c).queue = (f.die c).queue := by
  unfold Fs.ready
  split
  · rfl
  · split
    · rw [(Fs.grant_die _ c).1, Fs.die_setDie]
      split
      next hd => rw [hd]; rfl
      · rfl
    · rfl

/-! ### The operations of the RP and the AR -/

theorem FlashOp.ofSpace_eq_false (h : op.source = .packer ∨ op.source = .reader) : op.ofSpace = false := by
  rcases h with h | h <;> rw [FlashOp.ofSpace, h] <;> rfl

theorem spaceOps_handOp (h : src = .packer ∨ src = .reader) (act : FlashAct) (s : State) :
    (handOp src act s).fs.spaceOps = s.fs.spaceOps := by
  by_cases hf : s.ec.engine = .faulted
  · rw [handOp_of_faulted hf]
  · rw [handOp_of_ne hf]
    exact Fs.spaceOps_push_of_other (op := { source := src, act := act }) (FlashOp.ofSpace_eq_false h) _ _

@[simp] theorem spaceOps_handOp_packer (act : FlashAct) (s : State) :
    (handOp .packer act s).fs.spaceOps = s.fs.spaceOps := spaceOps_handOp (.inl rfl) act s

@[simp] theorem spaceOps_handOp_reader (act : FlashAct) (s : State) :
    (handOp .reader act s).fs.spaceOps = s.fs.spaceOps := spaceOps_handOp (.inr rfl) act s

theorem spaceOps_completeOp (ending : s.fs.ending = some (c, op)) (h : op.source = .packer ∨ op.source = .reader) :
    (completeOp c s).fs.spaceOps = s.fs.spaceOps :=
  Fs.spaceOps_complete_of_other (Fs.head_of_ending ending) (FlashOp.ofSpace_eq_false h)

@[simp] theorem spaceOps_countCorrected (r : ReadRow) (s : State) :
    (countCorrected r s).fs.spaceOps = s.fs.spaceOps := rfl

@[simp] theorem spaceOps_arReadRow (seg row : Nat) (s : State) :
    (arReadRow seg row s).fs.spaceOps = s.fs.spaceOps := by simp [arReadRow]

@[simp] theorem spaceOps_arReadDigest (seg : Nat) (next : Bool) (s : State) :
    (arReadDigest seg next s).fs.spaceOps = s.fs.spaceOps := by simp [arReadDigest]

@[simp] theorem spaceOps_arScan (seg : Nat) (p : ScanPos) (s : State) :
    (arScan seg p s).fs.spaceOps = s.fs.spaceOps := by simp [arScan]

@[simp] theorem spaceOps_arBegin (w : Work) (seg row firstSeq : Nat) (s : State) :
    (arBegin w seg row firstSeq s).fs.spaceOps = s.fs.spaceOps := by
  unfold arBegin
  (repeat' split) <;> simp

@[simp] theorem spaceOps_arBeginKnown (w : Work) (seg : Nat) (rows : List RowMapEntry) (s : State) :
    (arBeginKnown w seg rows s).fs.spaceOps = s.fs.spaceOps := by
  unfold arBeginKnown
  split <;> simp

@[simp] theorem spaceOps_arLocate (w : Work) (seg : Nat) (s : State) :
    (arLocate w seg s).fs.spaceOps = s.fs.spaceOps := by
  unfold arLocate
  (repeat' split) <;> simp

@[simp] theorem spaceOps_arEnter (seg : Nat) (s : State) :
    (arEnter seg s).fs.spaceOps = s.fs.spaceOps := by
  unfold arEnter
  split <;> simp

@[simp] theorem spaceOps_arChoose (w : Work) (seg row : Nat) (s : State) :
    (arChoose w seg row s).fs.spaceOps = s.fs.spaceOps := by
  unfold arChoose
  dsimp only
  (repeat' split) <;> simp

@[simp] theorem spaceOps_arContinue (w : Work) (seg row : Nat) (st : Option ReadStop) (s : State) :
    (arContinue w seg row st s).fs.spaceOps = s.fs.spaceOps := by
  unfold arContinue
  split <;> simp

@[simp] theorem spaceOps_arAcceptRow (w : Work) (seg row : Nat) (r : ReadRow) (s : State) :
    (arAcceptRow w seg row r s).fs.spaceOps = s.fs.spaceOps := by
  unfold arAcceptRow
  dsimp only
  (repeat' split) <;> simp

@[simp] theorem spaceOps_arDamagedRow (w : Work) (seg row : Nat) (s : State) :
    (arDamagedRow w seg row s).fs.spaceOps = s.fs.spaceOps := by
  unfold arDamagedRow
  dsimp only
  (repeat' split) <;> simp

@[simp] theorem spaceOps_arRowRead (w : Work) (seg row : Nat) (r : ReadRow) (s : State) :
    (arRowRead w seg row r s).fs.spaceOps = s.fs.spaceOps := by
  unfold arRowRead
  dsimp only
  split <;> simp

@[simp] theorem spaceOps_arDigestRead (w : Work) (seg : Nat) (next : Bool) (r : ReadRow) (s : State) :
    (arDigestRead w seg next r s).fs.spaceOps = s.fs.spaceOps := by
  unfold arDigestRead
  dsimp only
  (repeat' split) <;> simp

@[simp] theorem spaceOps_scanStopAt (w : Work) (seg : Nat) (x : Trailer) (p : ScanPos) (s : State) :
    (scanStopAt w seg x p s).fs.spaceOps = s.fs.spaceOps := by
  unfold scanStopAt
  (repeat' split) <;> simp

@[simp] theorem spaceOps_arTrailerRead (w : Work) (seg : Nat) (p : ScanPos) (r : ReadSpare) (s : State) :
    (arTrailerRead w seg p r s).fs.spaceOps = s.fs.spaceOps := by
  unfold arTrailerRead scanStopBad
  dsimp only
  (repeat' split) <;> simp

@[simp] theorem spaceOps_arPinGranted (w : Work) (seg : Nat) (next : Bool) (s : State) :
    (arPinGranted w seg next s).fs.spaceOps = s.fs.spaceOps := by
  unfold arPinGranted
  dsimp only
  split <;> simp

@[simp] theorem spaceOps_arPinRefused (w : Work) (next : Bool) (s : State) :
    (arPinRefused w next s).fs.spaceOps = s.fs.spaceOps := by
  unfold arPinRefused
  (repeat' split) <;> simp

@[simp] theorem spaceOps_answerPin (granted : Bool) (seg : Nat) (s : State) :
    (answerPin granted seg s).fs.spaceOps = s.fs.spaceOps := by
  unfold answerPin
  (repeat' split) <;> simp

@[simp] theorem spaceOps_takePinRequest (seg : Nat) (s : State) :
    (takePinRequest seg s).fs.spaceOps = s.fs.spaceOps := by
  unfold takePinRequest
  (repeat' split) <;> simp

@[simp] theorem spaceOps_answerHeld (granted : Bool) (s : State) :
    (answerHeld granted s).fs.spaceOps = s.fs.spaceOps := by
  unfold answerHeld
  dsimp only
  (repeat' split) <;> simp

end Sys2Proof.Machine
end

section
/-!
SUPPORT. The places of the segments (R84, R87, R92, R94) while the catalog is in use, in two parts: the collections with the RU's
segments, and the seats of buffers and open segment at the last member.
-/
namespace Sys2Proof.Machine

-- One proof at a time, as in the tests: proofs checked side by side need more threads than the limits allow.
set_option Elab.async false

variable {s t u : State} {seg x q : Nat} {e : Entry} {n : BufName}

/-! ### What the laws of the places see of a state -/

/-- A state of a member of the order list. -/
def SegState.member (st : SegState) : Prop := st = .opened ∨ st = .short ∨ st = .full

theorem SegState.member.ne {st other : SegState} (h : st.member) (ho : ¬ other.member) : st ≠ other := by
  rintro rfl
  exact ho h

/-- The catalog with its collections. -/
def Cu.collections (u : Cu) : List (Nat × Entry) × List Nat × List Nat × List Nat × Nat :=
  (u.catalog, u.orderList, u.freePool, u.retired, u.oldest)

/-- The segments of the RU. -/
def Ru.segments (r : Ru) : RuOp × Option Nat × List Nat := (r.op, r.claim, r.superseded)

/-- What the RU's operation has in the die queues. -/
def OpActs : RuOp → List FlashAct → Prop
  | .idle, acts => acts = []
  | .erase seg, acts => acts = [.eraseSegment seg]
  | .mark seg, acts => ∃ failed, acts = [.programMark seg failed]

/-- An act of the RU ends: it is that of its operation, the one it has. -/
theorem OpActs.of_mem {op : RuOp} {acts : List FlashAct} {act : FlashAct} (h : OpActs op acts) (hm : act ∈ acts) :
    acts = [act] ∧ ((∃ seg, op = .erase seg ∧ act = .eraseSegment seg) ∨
      ∃ seg failed, op = .mark seg ∧ act = .programMark seg failed) := by
  cases op with
  | idle => rw [show acts = [] from h] at hm; cases hm
  | erase seg =>
    rw [show acts = [.eraseSegment seg] from h] at hm ⊢
    rw [List.mem_singleton.1 hm]
    exact ⟨rfl, .inl ⟨seg, rfl, rfl⟩⟩
  | mark seg =>
    obtain ⟨failed, rfl⟩ := h
    rw [List.mem_singleton.1 hm]
    exact ⟨rfl, .inr ⟨seg, failed, rfl, rfl⟩⟩

/-- The RU's part of the places. -/
structure RuPlaces (s : State) : Prop where
  superseded : ∀ x ∈ s.ru.superseded, (s.cu.entry x).state = .erasing
  supersededOnce : s.ru.superseded.Nodup
  operation : ∀ x, s.ru.op = .erase x ∨ s.ru.op = .mark x → (s.cu.entry x).state = .erasing ∧ x ∉ s.ru.superseded

/-- Everything of the places but the seats, with next_seq begun. -/
structure Stocked (s : State) : Prop where
  running : s.ec.engine.running = true
  begun : 1 ≤ s.rp.nextSeq
  collections : Collections s
  oldest : 1 ≤ s.cu.oldest
  reclaim : RuPlaces s
  noEngine : s.fs.acts .engine = []
  claim : s.ru.claim.isSome = true → s.ru.op = .idle
  acts : OpActs s.ru.op (s.fs.acts .reclaim)

/-- The buffers in use and the open segment are at the last member. -/
structure Seated (s : State) : Prop where
  buffers : ∀ n, (s.rp.buf n).state ≠ .empty → ∃ d, (s.rp.buf n).dest = some d ∧ s.cu.orderList.getLast? = some d.seg
  openSeg : ∀ o, s.rp.openSeg = some o → s.cu.orderList.getLast? = some o.seg

/-- The places while the catalog is in use. -/
structure Placed (s : State) : Prop where
  stocked : Stocked s
  seated : Seated s

theorem placesOk_ruOperation_iff : (match s.ru.op with
    | .idle => s.fs.acts .reclaim = []
    | .erase seg => s.fs.acts .reclaim = [.eraseSegment seg]
    | .mark seg => ∃ failed, s.fs.acts .reclaim = [.programMark seg failed]) ↔ OpActs s.ru.op (s.fs.acts .reclaim) := by
  cases s.ru.op <;> rfl

theorem PlacesOk.opActs (p : PlacesOk s) : OpActs s.ru.op (s.fs.acts .reclaim) := placesOk_ruOperation_iff.1 p.ruOperation

theorem PlacesOk.placed (p : PlacesOk s) (running : s.ec.engine.running = true) (begun : 1 ≤ s.rp.nextSeq) : Placed s := by
  obtain ⟨oldest, superseded, supersededOnce, operation, noEngine, buffers, openSeg⟩ := p.running running
  exact ⟨⟨running, begun, p.collections (.inl running), oldest, ⟨superseded, supersededOnce, operation⟩, noEngine, p.ruClaim, p.opActs⟩,
    ⟨buffers, openSeg⟩⟩

theorem Placed.placesOk (h : Placed s) : PlacesOk s := by
  obtain ⟨⟨running, -, collections, oldest, ⟨superseded, once, operation⟩, noEngine, claim, acts⟩, ⟨buffers, openSeg⟩⟩ := h
  have formatting : s.ec.engine ≠ .formatting := fun e => by rw [e] at running; exact absurd running (by decide)
  have mounting : s.ec.engine ≠ .mounting := fun e => by rw [e] at running; exact absurd running (by decide)
  exact
    { collections := fun _ => collections
      running := fun _ => ⟨oldest, superseded, once, operation, noEngine, buffers, openSeg⟩
      ruIdle := fun e => by rw [running] at e; cases e
      ruClaim := claim
      ruOperation := placesOk_ruOperation_iff.2 acts
      formatEmpty := fun e => absurd e formatting
      formatHeader := fun e => absurd e formatting
      scan := fun e => absurd e mounting
      mounted := fun e => absurd e mounting }

/-! ### The collections under a change of one entry -/

theorem Cu.entry_congr (h : t.cu.catalog = s.cu.catalog) (x : Nat) : t.cu.entry x = s.cu.entry x := by
  rw [Cu.entry, h, Cu.entry]

theorem Collections.congr (h : Collections s) (catalog : t.cu.catalog = s.cu.catalog) (order : t.cu.orderList = s.cu.orderList)
    (pool : t.cu.freePool = s.cu.freePool) (retired : t.cu.retired = s.cu.retired) : Collections t := by
  obtain ⟨orderOnce, poolOnce, members, free, out⟩ := h
  have entry := Cu.entry_congr catalog
  exact ⟨by rwa [order], by rwa [pool], by simpa only [order, entry] using members, by simpa only [pool, entry] using free,
    by simpa only [retired, entry] using out⟩

/-- One entry changes, and its segment alone changes its place; others may leave the order list and the pool. -/
theorem Collections.change (h : Collections s) (entry : ∀ x, t.cu.entry x = if x = seg then e else s.cu.entry x)
    (orderOnce : t.cu.orderList.Nodup) (poolOnce : t.cu.freePool.Nodup)
    (order : ∀ x ∈ t.cu.orderList, x ≠ seg → x ∈ s.cu.orderList) (pool : ∀ x ∈ t.cu.freePool, x ≠ seg → x ∈ s.cu.freePool)
    (retired : ∀ x, x ≠ seg → (x ∈ t.cu.retired ↔ x ∈ s.cu.retired))
    (joins : seg ∈ t.cu.orderList → e.state.member ∧ 1 ≤ e.firstSeq) (frees : seg ∈ t.cu.freePool → e.state = .free)
    (retires : seg ∈ t.cu.retired ↔ e.state = .retired) : Collections t where
  orderOnce := orderOnce
  poolOnce := poolOnce
  members x hx := by
    rw [entry]
    split
    next hs => exact joins (hs ▸ hx)
    next hs => exact h.members x (order x hx hs)
  pool x hx := by
    rw [entry]
    split
    next hs => exact frees (hs ▸ hx)
    next hs => exact h.pool x (pool x hx hs)
  retired x := by
    rw [entry]
    split
    next hs => rw [hs]; exact retires
    next hs => rw [retired x hs]; exact h.retired x

section
variable (h : Collections s)
include h

theorem Collections.member (hx : x ∈ s.cu.orderList) : (s.cu.entry x).state.member := (h.members x hx).1

theorem Collections.not_pool (hx : (s.cu.entry x).state ≠ .free) : x ∉ s.cu.freePool := fun hp => hx (h.pool x hp)

theorem Collections.not_order (hx : ¬ (s.cu.entry x).state.member) : x ∉ s.cu.orderList := fun hp => hx (h.member hp)

theorem Collections.not_retired (hx : (s.cu.entry x).state ≠ .retired) : x ∉ s.cu.retired := fun hp => hx ((h.retired x).1 hp)

end

theorem not_member_free : ¬ SegState.member .free := by simp [SegState.member]
theorem not_member_erasing : ¬ SegState.member .erasing := by simp [SegState.member]
theorem not_member_retired : ¬ SegState.member .retired := by simp [SegState.member]

/-- A member's entry changes, and it stays a member. -/
theorem Collections.setMember (h : Collections s) (ok : CatalogOk s) (hx : seg ∈ s.cu.orderList) (state : e.state.member)
    (first : 1 ≤ e.firstSeq) : Collections (setEntry seg e s) := by
  have was := h.member hx
  have keeps : ∀ x ∈ (setEntry seg e s).cu.orderList, x ≠ seg → x ∈ s.cu.orderList := fun _ hm _ => hm
  refine h.change (entry_setEntry ok seg · e) h.orderOnce h.poolOnce keeps (fun _ hm _ => hm) (fun _ _ => .rfl)
    (fun _ => ⟨state, first⟩) (fun hp => absurd hp (h.not_pool (was.ne not_member_free))) ?_
  exact iff_of_false (h.not_retired (was.ne not_member_retired)) (state.ne not_member_retired)

/-- A member leaves the order list and is ERASING. -/
theorem Collections.erases (h : Collections s) (hx : seg ∈ s.cu.orderList)
    (entry : ∀ x, t.cu.entry x = if x = seg then e else s.cu.entry x) (state : e.state = .erasing)
    (order : t.cu.orderList.Sublist s.cu.orderList) (gone : seg ∉ t.cu.orderList) (pool : t.cu.freePool = s.cu.freePool)
    (retired : t.cu.retired = s.cu.retired) : Collections t := by
  have was := h.member hx
  refine h.change entry (h.orderOnce.sublist order) (by rw [pool]; exact h.poolOnce) (fun _ hm _ => order.subset hm)
    (by rw [pool]; exact fun _ hm _ => hm) (by rw [retired]; exact fun _ _ => .rfl) (fun hm => absurd hm gone) (fun hp => ?_) ?_
  · rw [pool] at hp
    exact absurd hp (h.not_pool (was.ne not_member_free))
  · rw [retired]
    exact iff_of_false (h.not_retired (was.ne not_member_retired)) (by rw [state]; decide)

theorem not_mem_dropLast_of_getLast? {l : List Nat} (once : l.Nodup) (hm : l.getLast? = some x) : x ∉ l.dropLast := by
  obtain ⟨init, rfl⟩ := List.getLast?_eq_some_iff.1 hm
  rw [List.dropLast_concat]
  intro hx
  exact (List.disjoint_of_nodup_append once) hx (List.mem_singleton.2 rfl)

theorem Collections.supersede (h : Collections s) (ok : CatalogOk s) : Collections (supersede s) := by
  cases hm : s.cu.orderList.getLast? with
  | none => rwa [show Machine.supersede s = s by simp only [Machine.supersede, hm]]
  | some m =>
    by_cases empty : (s.cu.entry m).lastSeq + 1 = (s.cu.entry m).firstSeq
    · rw [supersede_of_empty hm empty]
      exact h.erases (List.mem_of_getLast? hm) (entry_setEntry ok m · _) rfl (List.dropLast_sublist _)
        (not_mem_dropLast_of_getLast? h.orderOnce hm) rfl rfl
    · have stays : (s.cu.entry m).empty = false := decide_eq_false empty
      rwa [show Machine.supersede s = s by simp only [Machine.supersede, hm, stays]; rfl]

theorem supersede_pool (s : State) : (supersede s).cu.freePool = s.cu.freePool := by
  obtain ⟨cat, sup, e⟩ := supersede_eq s
  rw [e]

/-- R88: the head of the pool joins the order list. -/
theorem Collections.joinSegment (h : Collections s) (ok : CatalogOk s) {rest : List Nat} (hp : s.cu.freePool = seg :: rest)
    (hq : 1 ≤ q) : Collections (joinSegment seg q s) := by
  have after := h.supersede ok
  have form := (calm_supersede s).catalog ok
  have head : seg ∈ (Machine.supersede s).cu.freePool := by rw [supersede_pool, hp]; exact List.mem_cons_self
  have free := after.pool seg head
  have fresh : seg ∉ (Machine.supersede s).cu.orderList := after.not_order (by rw [free]; exact not_member_free)
  have once := after.poolOnce
  rw [supersede_pool, hp, List.nodup_cons] at once
  have tail : (Machine.joinSegment seg q s).cu.freePool = rest := by
    show (Machine.supersede s).cu.freePool.tail = rest
    rw [supersede_pool, hp]
    rfl
  have order : (Machine.joinSegment seg q s).cu.orderList = (Machine.supersede s).cu.orderList ++ [seg] := rfl
  refine after.change (seg := seg) (e := .joining q s.cu.nextSerial) (entry_setEntry form seg · _) ?_ (by rw [tail]; exact once.2)
    (fun x hx ne => ?_) (fun x hx _ => ?_) (fun _ _ => .rfl) (fun _ => ⟨.inl rfl, hq⟩) (fun hx => ?_) ?_
  · rw [order]
    exact after.orderOnce.append (List.nodup_singleton seg) (by simpa using fresh)
  · rw [order] at hx
    exact (List.mem_append.1 hx).resolve_right (by simpa using ne)
  · rw [supersede_pool, hp]
    rw [tail] at hx
    exact List.mem_cons_of_mem _ hx
  · rw [tail] at hx
    exact absurd hx once.1
  · refine iff_of_false (after.not_retired (x := seg) (by rw [free]; decide)) nofun

theorem getLast?_joinSegment (seg q : Nat) (s : State) : (joinSegment seg q s).cu.orderList.getLast? = some seg := by
  rw [show (joinSegment seg q s).cu.orderList = (supersede s).cu.orderList ++ [seg] from rfl, List.getLast?_append]
  rfl

theorem mem_insertRising {k : Nat} {l : List Nat} : x ∈ insertRising k l ↔ x = k ∨ x ∈ l := by
  induction l with
  | nil => simp [insertRising]
  | cons h t ih =>
    unfold insertRising
    split
    · simp
    · split
      next hk => subst hk; simp
      · simp only [List.mem_cons, ih]
        tauto

/-- R94: a segment out of the order list and the pool is retired. -/
theorem Collections.joinRetired (h : Collections s) (ok : CatalogOk s) (cause : RetireCause) (order : seg ∉ s.cu.orderList)
    (pool : seg ∉ s.cu.freePool) : Collections (joinRetired seg cause s) := by
  have retired (x : Nat) : x ∈ (Machine.joinRetired seg cause s).cu.retired ↔ x = seg ∨ x ∈ s.cu.retired := mem_insertRising
  refine h.change (entry_setEntry ok seg · _) h.orderOnce h.poolOnce (fun _ hx _ => hx) (fun _ hx _ => hx)
    (fun x hx => ?_) (fun hx => absurd hx order) (fun hx => absurd hx pool) ?_
  · rw [retired]
    exact or_iff_right hx
  · rw [retired]
    exact iff_of_true (.inl rfl) rfl

/-- R93: an ERASING segment becomes FREE at the tail of the pool. -/
theorem Collections.claimFreed (h : Collections s) (ok : CatalogOk s) (state : (s.cu.entry seg).state = .erasing) :
    Collections (claimFreed seg s) := by
  have order : seg ∉ s.cu.orderList := h.not_order (by rw [state]; exact not_member_erasing)
  have pool : seg ∉ s.cu.freePool := h.not_pool (by rw [state]; decide)
  refine h.change (e := .freed) (entry_setEntry ok seg · _) h.orderOnce ?_ (fun _ hx _ => hx) (fun x hx ne => ?_) (fun _ _ => .rfl)
    (fun hx => absurd hx order) (fun _ => rfl) ?_
  · exact h.poolOnce.append (List.nodup_singleton seg) (by simpa using pool)
  · exact (List.mem_append.1 hx).resolve_right (by simpa using ne)
  · exact iff_of_false (h.not_retired (x := seg) (by rw [state]; decide)) (by decide)

/-- R105: the last member is retired. -/
theorem Collections.claimRetireLast (h : Collections s) (ok : CatalogOk s) (hx : seg ∈ s.cu.orderList) :
    Collections (claimRetireLast seg s) := by
  have pool : seg ∉ s.cu.freePool := h.not_pool ((h.member hx).ne not_member_free)
  have order (x : Nat) : x ∈ (Machine.claimRetireLast seg s).cu.orderList ↔ x ∈ s.cu.orderList ∧ x ≠ seg := by
    show x ∈ s.cu.orderList.filter (· != seg) ↔ _
    simp
  have retired (x : Nat) : x ∈ (Machine.claimRetireLast seg s).cu.retired ↔ x = seg ∨ x ∈ s.cu.retired := mem_insertRising
  refine h.change (e := .retiredWith .program) (entry_setEntry ok seg · _) (h.orderOnce.filter _) h.poolOnce
    (fun x hx _ => ((order x).1 hx).1) (fun _ hx _ => hx) (fun x hx => ?_) (fun hx => absurd rfl ((order seg).1 hx).2)
    (fun hx => absurd hx pool) ?_
  · rw [retired]
    exact or_iff_right hx
  · rw [retired]
    exact iff_of_true (.inl rfl) rfl

/-! ### The RU's segments under a change of one entry -/

theorem RuPlaces.congr (h : RuPlaces s) (ru : t.ru.segments = s.ru.segments)
    (entry : ∀ x, (s.cu.entry x).state = .erasing → (t.cu.entry x).state = .erasing) : RuPlaces t := by
  simp only [Ru.segments, Prod.mk.injEq] at ru
  obtain ⟨op, -, superseded⟩ := ru
  exact ⟨by rw [superseded]; exact fun x hx => entry x (h.superseded x hx), by rw [superseded]; exact h.supersededOnce,
    by rw [op, superseded]; exact fun x hx => (h.operation x hx).imp_left (entry x)⟩

/-- The entry that changes was not ERASING. -/
theorem erasing_of_change (entry : ∀ x, t.cu.entry x = if x = seg then e else s.cu.entry x)
    (was : (s.cu.entry seg).state ≠ .erasing) (x : Nat) (hx : (s.cu.entry x).state = .erasing) :
    (t.cu.entry x).state = .erasing := by
  rw [entry, if_neg (by rintro rfl; exact was hx)]
  exact hx

/-- A member becomes ERASING and joins the supersession list. -/
theorem RuPlaces.supersede (h : RuPlaces s) (c : Collections s) (ok : CatalogOk s) : RuPlaces (supersede s) := by
  cases hm : s.cu.orderList.getLast? with
  | none => rwa [show Machine.supersede s = s by simp only [Machine.supersede, hm]]
  | some m =>
    by_cases empty : (s.cu.entry m).lastSeq + 1 = (s.cu.entry m).firstSeq
    · have was := (c.member (List.mem_of_getLast? hm)).ne not_member_erasing
      rw [supersede_of_empty hm empty]
      have entry := entry_setEntry ok m (e := { s.cu.entry m with state := .erasing })
      have stays := erasing_of_change entry was
      have new : m ∉ s.ru.superseded := fun hx => was (h.superseded m hx)
      refine ⟨fun x hx => ?_, h.supersededOnce.append (List.nodup_singleton m) (by simpa using new), fun x hx => ?_⟩
      · rcases List.mem_append.1 hx with hx | hx
        · exact stays x (h.superseded x hx)
        · rw [List.mem_singleton.1 hx]
          exact (congrArg Entry.state (entry m)).trans (by rw [if_pos rfl])
      · obtain ⟨state, out⟩ := h.operation x hx
        refine ⟨stays x state, fun hx => ?_⟩
        rcases List.mem_append.1 hx with hx | hx
        · exact out hx
        · rw [List.mem_singleton.1 hx] at state
          exact was state
    · have stays : (s.cu.entry m).empty = false := decide_eq_false empty
      rwa [show Machine.supersede s = s by simp only [Machine.supersede, hm, stays]; rfl]

theorem RuPlaces.joinSegment (h : RuPlaces s) (c : Collections s) (ok : CatalogOk s) {rest : List Nat}
    (hp : s.cu.freePool = seg :: rest) : RuPlaces (joinSegment seg q s) := by
  have head : seg ∈ (Machine.supersede s).cu.freePool := by rw [supersede_pool, hp]; exact List.mem_cons_self
  have free := (c.supersede ok).pool seg head
  exact (h.supersede c ok).congr rfl
    (erasing_of_change (entry_setEntry ((calm_supersede s).catalog ok) seg · _) (by rw [free]; decide))

/-- The supersession list sees the order list and the RU's own operation alone. -/
theorem supersede_ru (s : State) : (supersede s).ru.op = s.ru.op ∧ (supersede s).ru.claim = s.ru.claim := by
  obtain ⟨cat, sup, e⟩ := supersede_eq s
  rw [e]
  exact ⟨rfl, rfl⟩

theorem supersede_oldest (s : State) : (supersede s).cu.oldest = s.cu.oldest := by
  obtain ⟨cat, sup, e⟩ := supersede_eq s
  rw [e]

theorem Stocked.joinSegment (h : Stocked s) (ok : CatalogOk s) {rest : List Nat} (hp : s.cu.freePool = seg :: rest)
    (hq : 1 ≤ q) : Stocked (joinSegment seg q s) := by
  obtain ⟨op, claim⟩ := supersede_ru s
  have ru : (Machine.joinSegment seg q s).ru = (supersede s).ru := rfl
  exact
    { running := by simpa using h.running
      begun := by simpa using h.begun
      collections := h.collections.joinSegment ok hp hq
      oldest := by
        rw [show (Machine.joinSegment seg q s).cu.oldest = (supersede s).cu.oldest from rfl, supersede_oldest]
        exact h.oldest
      reclaim := h.reclaim.joinSegment h.collections ok hp
      noEngine := by simpa using h.noEngine
      claim := by rw [ru, op, claim]; exact h.claim
      acts := by rw [ru, op]; simpa using h.acts }

/-! ### Nothing of the places changes for the worse -/

/-- The seats of the RP. -/
def Rp.seats (p : Rp) : RowBuffer × RowBuffer × Option OpenSeg × Nat := (p.bufA, p.bufB, p.openSeg, p.nextSeq)

/-- From `s` to `t` the EC, the collections, the RU's segments and the operations of EC and RU are as they were; buffers may be
emptied and the open segment closed. -/
structure Beside (s t : State) : Prop where
  ec : t.ec.procedure = s.ec.procedure
  cu : t.cu.collections = s.cu.collections
  ru : t.ru.segments = s.ru.segments
  fs : t.fs.spaceOps = s.fs.spaceOps
  buffers : ∀ n, (t.rp.buf n).state ≠ .empty → (s.rp.buf n).state ≠ .empty ∧ (t.rp.buf n).dest = (s.rp.buf n).dest
  openSeg : ∀ o, t.rp.openSeg = some o → s.rp.openSeg = some o
  begun : 1 ≤ s.rp.nextSeq → 1 ≤ t.rp.nextSeq

theorem Beside.of_seats (rp : t.rp.seats = s.rp.seats) (ec : t.ec.procedure = s.ec.procedure := by simp)
    (cu : t.cu.collections = s.cu.collections := by simp) (ru : t.ru.segments = s.ru.segments := by simp)
    (fs : t.fs.spaceOps = s.fs.spaceOps := by simp) : Beside s t := by
  simp only [Rp.seats, Prod.mk.injEq] at rp
  obtain ⟨bufA, bufB, openSeg, nextSeq⟩ := rp
  refine ⟨ec, cu, ru, fs, fun n h => ?_, fun o => by rw [openSeg]; exact id, by rw [nextSeq]; exact id⟩
  have same : t.rp.buf n = s.rp.buf n := by cases n; exacts [bufA, bufB]
  rw [same] at h ⊢
  exact ⟨h, rfl⟩

/-- Nothing the laws speak of changed. -/
theorem Beside.of_eq (rp : t.rp = s.rp := by simp) (ec : t.ec = s.ec := by simp) (cu : t.cu = s.cu := by simp)
    (ru : t.ru = s.ru := by simp) (fs : t.fs.spaceOps = s.fs.spaceOps := by simp) : Beside s t :=
  .of_seats (by rw [rp]) (by rw [ec]) (by rw [cu]) (by rw [ru]) fs

theorem Beside.refl (s : State) : Beside s s := .of_eq rfl rfl rfl rfl rfl

theorem Beside.trans (h : Beside s t) (k : Beside t u) : Beside s u where
  ec := k.ec.trans h.ec
  cu := k.cu.trans h.cu
  ru := k.ru.trans h.ru
  fs := k.fs.trans h.fs
  buffers n hn := by
    obtain ⟨used, dest⟩ := k.buffers n hn
    obtain ⟨used', dest'⟩ := h.buffers n used
    exact ⟨used', dest.trans dest'⟩
  openSeg o ho := h.openSeg o (k.openSeg o ho)
  begun b := k.begun (h.begun b)

section
variable (h : Beside s t)
include h

theorem Beside.engine : t.ec.engine = s.ec.engine := congrArg Prod.fst h.ec

theorem Beside.catalog : t.cu.catalog = s.cu.catalog := congrArg Prod.fst h.cu

theorem Beside.order : t.cu.orderList = s.cu.orderList := congrArg (fun x => x.2.1) h.cu

theorem Beside.form (ok : CatalogOk s) : CatalogOk t := by rwa [CatalogOk, h.catalog]

theorem Beside.entry (x : Nat) : t.cu.entry x = s.cu.entry x := Cu.entry_congr h.catalog x

theorem Beside.collections (c : Collections s) : Collections t :=
  c.congr h.catalog h.order (congrArg (fun x => x.2.2.1) h.cu) (congrArg (fun x => x.2.2.2.1) h.cu)

theorem Beside.oldest : t.cu.oldest = s.cu.oldest := congrArg (fun x => x.2.2.2.2) h.cu

theorem Beside.op : t.ru.op = s.ru.op := congrArg Prod.fst h.ru

theorem Beside.claim : t.ru.claim = s.ru.claim := congrArg (fun x => x.2.1) h.ru

theorem Beside.superseded : t.ru.superseded = s.ru.superseded := congrArg (fun x => x.2.2) h.ru

theorem Beside.engineActs : t.fs.acts .engine = s.fs.acts .engine := Fs.acts_congr (.inl rfl) h.fs

theorem Beside.reclaimActs : t.fs.acts .reclaim = s.fs.acts .reclaim := Fs.acts_congr (.inr rfl) h.fs

theorem Beside.stocked (k : Stocked s) : Stocked t where
  running := by rw [h.engine]; exact k.running
  begun := h.begun k.begun
  collections := h.collections k.collections
  oldest := by rw [h.oldest]; exact k.oldest
  reclaim := k.reclaim.congr h.ru fun x hx => by rw [h.entry]; exact hx
  noEngine := by rw [h.engineActs]; exact k.noEngine
  claim := by rw [h.claim, h.op]; exact k.claim
  acts := by rw [h.op, h.reclaimActs]; exact k.acts

theorem Beside.seated (k : Seated s) : Seated t where
  buffers n hn := by
    obtain ⟨used, dest⟩ := h.buffers n hn
    rw [dest, h.order]
    exact k.buffers n used
  openSeg o ho := by rw [h.order]; exact k.openSeg o (h.openSeg o ho)

theorem Beside.placed (k : Placed s) : Placed t := ⟨h.stocked k.stocked, h.seated k.seated⟩

end

end Sys2Proof.Machine
end

section
/-!
SUPPORT. The RP and the RU keep the places of the segments while the catalog is in use (R41 to R49, R51, R52, R88 to R93, R102 to
R107, R114, R152 to R155).
-/
namespace Sys2Proof.Machine

-- One proof at a time, as in the tests: proofs checked side by side need more threads than the limits allow.
set_option Elab.async false

variable {s t u : State} {seg x q : Nat} {e : Entry} {n : BufName} {c : Fin 4} {op : FlashOp} {act : FlashAct} {v : RpServed}
  {h : HostRecord} {o : OpenSeg} {d : Dest} {r : Relocation}

/-- From `s` to `t` the EC stays as it is, and the catalog's form and the places are kept. -/
structure Arranges (s t : State) : Prop where
  ec : t.ec = s.ec
  form : CatalogOk s → CatalogOk t
  placed : CatalogOk s → Placed s → Placed t

theorem Arranges.refl (s : State) : Arranges s s := ⟨rfl, id, fun _ => id⟩

theorem Arranges.trans (h : Arranges s t) (k : Arranges t u) : Arranges s u :=
  ⟨k.ec.trans h.ec, fun ok => k.form (h.form ok), fun ok p => k.placed (h.form ok) (h.placed ok p)⟩

theorem Beside.arranges (h : Beside s t) (ec : t.ec = s.ec := by simp) : Arranges s t := ⟨ec, h.form, fun _ => h.placed⟩

/-! ### Buffers handed over and closed (R42, R48, R53) -/

theorem beside_restate {st : BufState} (used : (s.rp.buf n).state ≠ .empty) : Beside s (restate n st s) where
  ec := by simp [restate]
  cu := by simp [restate]
  ru := by simp [restate]
  fs := by simp [restate]
  buffers k hk := by
    rw [restate_buf] at hk ⊢
    split at hk
    next e => rw [if_pos e, e]; exact ⟨used, rfl⟩
    next e => rw [if_neg e]; exact ⟨hk, rfl⟩
  openSeg o := by simp [restate]
  begun := by simp [restate]

/-- An operation of the RP joins. -/
theorem beside_handOp_packer (act : FlashAct) (s : State) : Beside s (handOp .packer act s) := .of_eq

theorem beside_handBuffer (used : (s.rp.buf n).state ≠ .empty) : Beside s (handBuffer n s) := by
  cases hd : (s.rp.buf n).dest with
  | none => rw [handBuffer_of_noDest hd]; exact .refl s
  | some d =>
    rw [handBuffer_of_dest hd]
    exact (beside_restate (st := .inFlight) used).trans (beside_handOp_packer _ _)

theorem beside_handClosed (s : State) : Beside s (handClosed s) := by
  unfold handClosed
  split
  · exact .refl s
  · split
    · exact .refl s
    next n hn => exact beside_handBuffer (by rw [Rp.state_of_nextClosed hn]; decide)

/-- The linger timer stops. -/
theorem beside_stopLinger (s : State) : Beside s { s with rp := { s.rp with lingerTimer := none } } :=
  .of_seats rfl rfl rfl rfl rfl

theorem beside_closeFilling (s : State) : Beside s (closeFilling s) := by
  cases hn : s.rp.find .filling with
  | none => rw [closeFilling_of_none hn]; exact .refl s
  | some n =>
    have used : (s.rp.buf n).state ≠ .empty := by rw [Rp.state_of_find hn]; decide
    rw [closeFilling_of_some hn, closeBuf_eq_restate]
    exact ((beside_stopLinger s).trans (beside_restate (by cases n <;> exact used))).trans (beside_handClosed _)

/-! ### Answers and waits (R40, R46, R54, R55, R57) -/

theorem beside_serveWait (v : RpServed) (w : RpWait) (s : State) : Beside s (serveWait v w s) := by
  obtain ⟨x, sv, e⟩ := serveWait_eq v w s
  rw [e]
  exact .of_seats rfl rfl rfl rfl rfl

theorem beside_endStaging (v : RpServed) (out : CardOutcome) (s : State) : Beside s (endStaging v out s) := by
  have answers (u : State) : Beside u (answerOrWait v out u) := by
    obtain ⟨x, ws, e⟩ := answerOrWait_eq v out u
    rw [e]
    exact .of_seats rfl rfl rfl rfl rfl
  rw [endStaging_eq]
  split
  · exact (beside_closeFilling s).trans (answers _)
  · exact answers s

theorem beside_answerAppend (out : CardOutcome) (s : State) : Beside s (answerWaitList out (answerServed out s)) := by
  obtain ⟨x, e⟩ := answerAppend_eq out s
  rw [e]
  exact .of_seats rfl rfl rfl rfl rfl

theorem beside_answerReached (s : State) : Beside s (answerReached s) :=
  Beside.trans (t := { s with rp := { s.rp with waitList := s.rp.waitList.dropWhile fun w => decide (w.target ≤ s.rp.durable) } })
    (.of_seats rfl rfl rfl rfl rfl) (.of_eq (t := answerReached s) (by simp [answerReached]) (by simp [answerReached])
      (by simp [answerReached]) (by simp [answerReached]) (by simp [answerReached]))

theorem beside_packerEmptied (s : State) : Beside s (packerEmptied s) where
  ec := by simp [packerEmptied]
  cu := by simp [packerEmptied]
  ru := by simp [packerEmptied]
  fs := by simp [packerEmptied]
  buffers n hn := by rw [(packerEmpty_packerEmptied s).buf] at hn; exact absurd rfl hn
  openSeg o := nofun
  begun b := by
    unfold packerEmptied discardStaged
    split
    · exact b
    · exact Nat.le_add_left 1 _

theorem beside_enterReadOnly (s : State) : Beside s (enterReadOnly s) := by
  refine (beside_packerEmptied s).trans (Beside.trans ?_ ((beside_answerAppend .readOnly
    { packerEmptied s with rp := { (packerEmptied s).rp with readOnly := true } }).trans (.of_eq rfl rfl rfl rfl rfl)))
  exact .of_seats rfl rfl rfl rfl rfl

/-! ### Staging (R39 to R47) -/

theorem beside_recordJoins (n : BufName) (h : HostRecord) (s : State) : Beside s (recordJoins n h s) where
  ec := by simp [recordJoins]
  cu := by simp [recordJoins]
  ru := by simp [recordJoins]
  fs := by simp [recordJoins]
  buffers k hk := by
    rcases n.eq_or_other k with rfl | rfl
    · rw [recordJoins_self] at hk ⊢; exact ⟨hk, rfl⟩
    · rw [recordJoins_other] at hk ⊢; exact ⟨hk, rfl⟩
  openSeg o := by simp [recordJoins]
  begun _ := by simp [recordJoins]

theorem beside_stageInto (n : BufName) (v : RpServed) (h : HostRecord) (s : State) : Beside s (stageInto n v h s) := by
  unfold stageInto
  extract_lets q b b1 v1 s1 rp1 s2 s3
  have joins : s2 = setServed (some v1) (recordJoins n h s) := by cases n <;> rfl
  have joined : Beside s s2 := by
    rw [joins]
    exact (beside_recordJoins n h s).trans (.of_seats rfl rfl rfl rfl rfl)
  have closed : Beside s s3 := by
    simp only [s3]
    split
    · exact joined.trans (beside_closeFilling s2)
    · exact joined
  split
  · exact closed.trans (beside_endStaging v1 .done s3)
  · exact closed

/-- An EMPTY buffer becomes FILLING at the last member, which is the open segment. -/
theorem Placed.startsFilling (p : Placed s) (last : s.cu.orderList.getLast? = some o.seg) : Placed (startsFilling n o s) := by
  have cu : (Machine.startsFilling n o s).cu = s.cu := by simp [Machine.startsFilling]
  have aside : Beside s { Machine.startsFilling n o s with rp := s.rp } :=
    .of_seats rfl (by simp [Machine.startsFilling]) (by simp [Machine.startsFilling]) (by simp [Machine.startsFilling])
      (by simp [Machine.startsFilling])
  have stocked := aside.stocked p.stocked
  refine ⟨⟨stocked.running, by simpa [Machine.startsFilling] using stocked.begun, stocked.collections.congr rfl rfl rfl rfl,
    stocked.oldest, stocked.reclaim.congr rfl fun _ => id, stocked.noEngine, stocked.claim, stocked.acts⟩, fun k hk => ?_, fun x hx => ?_⟩
  · rw [cu]
    rcases n.eq_or_other k with rfl | rfl
    · rw [startsFilling_self]; exact ⟨_, rfl, last⟩
    · rw [startsFilling_other] at hk ⊢; exact p.seated.buffers _ hk
  · rw [cu]
    have opened : x = { o with nextRow := o.nextRow + 1 } := by
      have : (Machine.startsFilling n o s).rp.openSeg = some { o with nextRow := o.nextRow + 1 } := by simp [Machine.startsFilling]
      rw [this] at hx
      exact (Option.some.inj hx).symm
    rw [opened]
    exact last

/-- With both buffers EMPTY the head of the pool joins and is the open segment. -/
theorem Placed.openFresh (p : Placed s) (ok : CatalogOk s) {rest : List Nat} (hp : s.cu.freePool = seg :: rest) (hq : 1 ≤ q)
    (empty : ∀ k, (s.rp.buf k).state = .empty) : Placed (openFresh seg 1 (joinSegment seg q s)) := by
  have joined := p.stocked.joinSegment ok hp hq
  have aside : Beside (Machine.joinSegment seg q s) { Machine.openFresh seg 1 (Machine.joinSegment seg q s) with
      rp := (Machine.joinSegment seg q s).rp } := .of_seats rfl
  have stocked := aside.stocked joined
  refine ⟨⟨stocked.running, by simpa [Machine.openFresh] using stocked.begun, stocked.collections.congr rfl rfl rfl rfl,
    stocked.oldest, stocked.reclaim.congr rfl fun _ => id, stocked.noEngine, stocked.claim, stocked.acts⟩, fun k hk => ?_, fun x hx => ?_⟩
  · refine absurd ?_ hk
    have := empty k
    cases k <;> simpa [Rp.buf] using this
  · cases hx
    exact getLast?_joinSegment seg q s

theorem catalogOk_joinSegment (ok : CatalogOk s) (seg q : Nat) : CatalogOk (joinSegment seg q s) :=
  catalogOk_setEntry ((calm_supersede s).catalog ok) seg _

theorem arranges_placeInEmpty (he : (s.rp.buf n).state = .empty) (v : RpServed) (h : HostRecord) :
    Arranges s (placeInEmpty n v h s) := by
  have waits (w : RpWait) : Arranges s (serveWait v w s) := (beside_serveWait v w s).arranges
  have full : Arranges s (endStaging v .archiveFull (setEvent .archiveFull { s with rp := { s.rp with fullSeen := true } })) := by
    refine Beside.arranges (Beside.trans (t := setEvent .archiveFull { s with rp := { s.rp with fullSeen := true } }) ?_
      (beside_endStaging _ _ _))
    exact .of_seats rfl rfl rfl rfl rfl
  have starts (u : State) (o : OpenSeg) : Beside (startsFilling n o u) (stageInto n v h (startsFilling n o u)) :=
    beside_stageInto _ _ _ _
  unfold placeInEmpty
  split
  next o ho =>
    obtain ⟨isOpen, -⟩ := Option.filter_eq_some_iff.1 ho
    rw [startFilling_openSeg]
    exact ⟨by simp [startsFilling], fun ok => (starts s o).form (by simpa [CatalogOk, startsFilling] using ok),
      fun _ p => (starts s o).placed (p.startsFilling (p.seated.openSeg o isOpen))⟩
  · split
    · exact waits .buffer
    next other =>
      rw [not_not] at other
      split
      next seg rest pool =>
        split
        · have empty (k : BufName) : (s.rp.buf k).state = .empty := by
            rcases n.eq_or_other k with rfl | rfl <;> assumption
          rw [startFilling_takeForRecords]
          refine ⟨by simp [startsFilling], fun ok => (starts _ _).form ?_, fun ok p => (starts _ _).placed ?_⟩
          · simpa [CatalogOk, startsFilling, takeForRecords] using catalogOk_joinSegment ok seg s.rp.nextSeq
          · exact (p.openFresh ok pool p.stocked.begun empty).startsFilling (getLast?_joinSegment seg _ s)
        · split
          · exact waits .space
          · exact full
      · split
        · exact waits .space
        · exact full

theorem arranges_placeFresh (v : RpServed) (h : HostRecord) (s : State) : Arranges s (placeFresh v h s) := by
  unfold placeFresh
  split
  · exact (beside_serveWait v .buffer s).arranges
  next n he => exact arranges_placeInEmpty (Rp.state_of_find he) v h

theorem arranges_stageNext (v : RpServed) (s : State) : Arranges s (stageNext v s) := by
  unfold stageNext
  split
  · exact (beside_endStaging _ _ s).arranges
  · unfold placeRecord
    split
    next n hn =>
      split
      · exact (beside_stageInto _ _ _ s).arranges
      · exact (beside_closeFilling s).arranges.trans (arranges_placeFresh _ _ _)
    · exact arranges_placeFresh _ _ s

theorem arranges_reexamineBuffer (s : State) : Arranges s (reexamineBuffer s) := by
  unfold reexamineBuffer
  split
  · split
    · exact arranges_stageNext _ s
    · exact .refl s
  · exact .refl s

theorem arranges_reexamineSpace (s : State) : Arranges s (reexamineSpace s) := by
  unfold reexamineSpace
  split
  · split
    · exact arranges_stageNext _ s
    · exact .refl s
  · exact .refl s

/-! ### The RU (R93, R150 to R155) -/

theorem Ru.idle_iff {k : Ru} : k.idle = true ↔ k.op = .idle ∧ k.claim = none := by simp [Ru.idle]

/-- The idle RU hands an operation on an ERASING segment that waits nowhere. -/
theorem Placed.hands (p : Placed s) (idle : s.ru.op = .idle) (claim : s.ru.claim = none) {o : RuOp} (acts : OpActs o [act])
    (operation : ∀ x, o = .erase x ∨ o = .mark x → (s.cu.entry x).state = .erasing ∧ x ∉ s.ru.superseded) :
    Placed (handOp .reclaim act { s with ru := { s.ru with op := o } }) := by
  obtain ⟨⟨running, begun, collections, oldest, ⟨superseded, once, -⟩, noEngine, -, none_⟩, seated⟩ := p
  rw [idle] at none_
  rw [handOp_of_ne (s := { s with ru := { s.ru with op := o } }) (notFaulted_of_running running)]
  refine ⟨⟨running, begun, collections.congr rfl rfl rfl rfl, oldest, ⟨superseded, once, operation⟩, ?_, ?_, ?_⟩,
    ⟨seated.buffers, seated.openSeg⟩⟩
  · have ne : ({ source := .reclaim, act := act } : FlashOp).source ≠ .engine := nofun
    exact (Fs.acts_push_of_ne ne _ _).trans noEngine
  · intro some_
    rw [show ({ s.ru with op := o } : Ru).claim = s.ru.claim from rfl, claim] at some_
    cases some_
  · show OpActs o ((s.fs.push act.die { source := .reclaim, act := act }).acts .reclaim)
    rw [Fs.acts_push_of_nil none_]
    exact acts

theorem Placed.ruErase (p : Placed s) (idle : s.ru.op = .idle) (claim : s.ru.claim = none)
    (state : (s.cu.entry seg).state = .erasing) (out : seg ∉ s.ru.superseded) : Placed (ruErase seg s) := by
  refine p.hands idle claim rfl fun x hx => ?_
  have same : x = seg := by
    rcases hx with hx | hx <;> cases hx
    rfl
  rw [same]
  exact ⟨state, out⟩

theorem arranges_ruJudge (s : State) : Arranges s (ruJudge s) := by
  refine ⟨by simp, by simp [CatalogOk], fun ok p => ?_⟩
  unfold ruJudge
  split
  next judges =>
    obtain ⟨-, rests⟩ := judges
    obtain ⟨idle, claim⟩ := Ru.idle_iff.1 rests
    split
    next seg rest waiting =>
      split
      · exact p
      · obtain ⟨⟨running, begun, collections, oldest, ⟨superseded, once, operation⟩, noEngine, claims, acts⟩, seated⟩ := p
        rw [waiting] at superseded once
        obtain ⟨out, once⟩ := List.nodup_cons.1 once
        refine Placed.ruErase (s := { s with ru := { s.ru with superseded := rest } }) ⟨⟨running, begun, collections.congr rfl rfl rfl rfl,
          oldest, ⟨fun x hx => superseded x (List.mem_cons_of_mem _ hx), once, fun x hx => ?_⟩, noEngine, claims, acts⟩,
          ⟨seated.buffers, seated.openSeg⟩⟩ idle claim (superseded seg List.mem_cons_self) out
        rw [show ({ s.ru with superseded := rest } : Ru).op = s.ru.op from rfl, idle] at hx
        rcases hx with hx | hx <;> cases hx
    · split
      · obtain ⟨⟨running, begun, collections, oldest, ⟨superseded, once, operation⟩, noEngine, -, acts⟩, seated⟩ := p
        exact ⟨⟨running, begun, collections.congr rfl rfl rfl rfl, oldest, ⟨superseded, once, operation⟩, noEngine, fun _ => idle, acts⟩,
          ⟨seated.buffers, seated.openSeg⟩⟩
      · exact p
  · exact p

theorem arranges_react (s : State) : Arranges s (react s) :=
  ((arranges_ruJudge s).trans (arranges_reexamineSpace _)).trans (arranges_ruJudge _)

theorem arranges_judgeChange (old s : State) : Arranges s (judgeChange old s) := by
  unfold judgeChange
  split
  · exact .refl s
  · exact arranges_ruJudge s

theorem arranges_reactPin (old s : State) : Arranges s (reactPin old s) := by
  unfold reactPin
  split
  · exact .refl s
  · exact arranges_react s

/-! ### The claims of the RP (R49 to R52, R102 to R105) -/

/-- A member's entry changes, and it stays a member with its first sequence. -/
theorem Placed.setMember (p : Placed s) (ok : CatalogOk s) (hx : seg ∈ s.cu.orderList) (state : e.state.member)
    (first : e.firstSeq = (s.cu.entry seg).firstSeq) : Placed (setEntry seg e s) := by
  obtain ⟨⟨running, begun, collections, oldest, reclaim, noEngine, claim, acts⟩, seated⟩ := p
  have was := collections.member hx
  refine ⟨⟨running, begun, collections.setMember ok hx state (by rw [first]; exact (collections.members seg hx).2), oldest,
    reclaim.congr rfl (erasing_of_change (entry_setEntry ok seg · e) (was.ne not_member_erasing)), noEngine, claim, acts⟩,
    ⟨seated.buffers, seated.openSeg⟩⟩

/-- The segment that a buffer in use is aimed at is a member. -/
theorem Placed.dest_mem (p : Placed s) (used : (s.rp.buf n).state ≠ .empty) (hd : (s.rp.buf n).dest = some d) :
    s.cu.orderList.getLast? = some d.seg := by
  obtain ⟨dest, same, last⟩ := p.seated.buffers n used
  rw [hd] at same
  cases same
  exact last

theorem arranges_claimDigest (seg : Nat) (passed : Bool) (s : State) : Arranges s (claimDigest seg passed s) := by
  refine ⟨by simp, (calm_claimDigest seg passed s).catalog, fun ok p => ?_⟩
  unfold claimDigest
  dsimp only
  split
  next member =>
    obtain ⟨mem, state, -⟩ := member
    have mem : seg ∈ s.cu.orderList := by simpa using mem
    split
    · exact p.setMember ok mem (.inr (.inr rfl)) rfl
    · exact p.setMember ok mem (p.stocked.collections.member mem) rfl
  · exact p

theorem beside_handDigest (j : DigestJob) (s : State) : Beside s (handDigest j s) := beside_handOp_packer _ s

theorem beside_nextDigest (s : State) : Beside s (nextDigest s) := by
  unfold nextDigest
  split
  · exact .refl s
  next j js _ =>
    exact Beside.trans (t := { s with rp := { s.rp with digests := js } }) (.of_seats rfl rfl rfl rfl rfl) (beside_handDigest j _)

/-- R51: the segment of a passed row is closed. -/
theorem Placed.closeSegment (p : Placed s) (ok : CatalogOk s) (hx : seg ∈ s.cu.orderList) : Placed (closeSegment seg s) := by
  have closed : Placed (claimClose seg s) := p.setMember ok hx (.inr (.inl rfl)) rfl
  unfold Machine.closeSegment
  extract_lets job s1 rp1 s2
  have emptied : Beside s1 s2 :=
    ⟨rfl, rfl, rfl, rfl, fun k hk => by cases k <;> exact ⟨hk, rfl⟩, nofun, id⟩
  split
  · refine (emptied.trans ?_).placed closed
    exact .of_seats rfl rfl rfl rfl rfl
  · exact (emptied.trans (beside_handDigest job s2)).placed closed

theorem catalogOk_closeSegment (ok : CatalogOk s) (seg : Nat) : CatalogOk (closeSegment seg s) :=
  (calm_closeSegment seg s).catalog ok

section
variable (used : (s.rp.buf n).state ≠ .empty) (hd : (s.rp.buf n).dest = some d)
include used hd

/-- R49: the entry grows by the row and the buffer is emptied. -/
theorem Placed.applyRowPass (p : Placed s) (ok : CatalogOk s) : Placed (applyRowPass n d s) := by
  have mem := List.mem_of_getLast? (p.dest_mem used hd)
  have grown : Placed (claimRowPass d.seg (s.rp.buf n).firstKey (s.rp.buf n).lastSeq (s.rp.buf n).lastKey s) :=
    p.setMember ok mem (p.stocked.collections.member mem) rfl
  refine Beside.placed ⟨by simp [Machine.applyRowPass], by cases n <;> rfl, by simp [Machine.applyRowPass], by simp [Machine.applyRowPass],
    fun k hk => ?_, fun o => by cases n <;> exact id, fun b => by cases n <;> exact b⟩ grown
  rcases n.eq_or_other k with rfl | rfl
  · rw [applyRowPass_self] at hk; exact absurd rfl hk
  · have same : (Machine.applyRowPass n d s).rp.buf n.other = s.rp.buf n.other := by cases n <;> rfl
    rw [same] at hk ⊢
    exact ⟨by cases n <;> exact hk, by cases n <;> rfl⟩

theorem arranges_rowPassed : Arranges s (rowPassed n d s) := by
  have handed : CatalogOk s → CatalogOk (handClosed (applyRowPass n d s)) := fun ok =>
    (beside_handClosed _).form (catalogOk_applyRowPass ok n d)
  have order : (handClosed (applyRowPass n d s)).cu.orderList = s.cu.orderList := by
    rw [(beside_handClosed _).order]
    cases n <;> rfl
  refine ⟨by simp, ?_, fun ok p => ?_⟩
  · unfold rowPassed
    dsimp only
    intro ok
    refine (arranges_reexamineBuffer _).form ((beside_answerReached _).form ?_)
    split
    · exact catalogOk_closeSegment (handed ok) _
    · exact handed ok
  · have mem := List.mem_of_getLast? (p.dest_mem used hd)
    have passed := (beside_handClosed _).placed (p.applyRowPass used hd ok)
    have closed : Placed (if d.row = 62 then Machine.closeSegment d.seg (handClosed (Machine.applyRowPass n d s))
        else handClosed (Machine.applyRowPass n d s)) ∧ CatalogOk (if d.row = 62 then
          Machine.closeSegment d.seg (handClosed (Machine.applyRowPass n d s)) else handClosed (Machine.applyRowPass n d s)) := by
      split
      · exact ⟨passed.closeSegment (handed ok) (by rw [order]; exact mem), catalogOk_closeSegment (handed ok) _⟩
      · exact ⟨passed, handed ok⟩
    exact (arranges_reexamineBuffer _).placed ((beside_answerReached _).form closed.2) ((beside_answerReached _).placed closed.1)

theorem arranges_rowPass : Arranges s (rowPass n d s) := by
  unfold rowPass
  dsimp only
  split
  · exact (arranges_rowPassed used hd).trans (arranges_ruJudge _)
  · exact (arranges_rowPassed used hd).trans (arranges_judgeChange _ _)

end

end Sys2Proof.Machine
end

section
/-!
SUPPORT. Relocations, removals and the results of the RU's operations keep the places of the segments (R91, R93, R102 to R107,
R114, R153, R154).
-/
namespace Sys2Proof.Machine

-- One proof at a time, as in the tests: proofs checked side by side need more threads than the limits allow.
set_option Elab.async false

variable {s t u : State} {seg x q : Nat} {n : BufName} {c : Fin 4} {op : FlashOp} {act : FlashAct} {d : Dest} {r : Relocation}

/-! ### Relocation (R102 to R107) -/

/-- The cut of the last member, of which a row failed. -/
theorem Placed.claimCut (p : Placed s) (ok : CatalogOk s) (hx : seg ∈ s.cu.orderList) (k : Nat) : Placed (claimCut seg k s) :=
  p.setMember ok hx (.inr (.inl rfl)) rfl

/-- Everything of the places but the seats stays as it is. -/
theorem Stocked.congr (h : Stocked s) (engine : t.ec.engine = s.ec.engine := by simp) (nextSeq : t.rp.nextSeq = s.rp.nextSeq := by simp)
    (cu : t.cu = s.cu := by simp) (ru : t.ru = s.ru := by simp) (fs : t.fs.spaceOps = s.fs.spaceOps := by simp) : Stocked t where
  running := by rw [engine]; exact h.running
  begun := by rw [nextSeq]; exact h.begun
  collections := h.collections.congr (by rw [cu]) (by rw [cu]) (by rw [cu]) (by rw [cu])
  oldest := by rw [cu]; exact h.oldest
  reclaim := h.reclaim.congr (by rw [ru]) (by rw [cu]; exact fun _ => id)
  noEngine := by rw [Fs.acts_congr (.inl rfl) fs]; exact h.noEngine
  claim := by rw [ru]; exact h.claim
  acts := by rw [ru, Fs.acts_congr (.inr rfl) fs]; exact h.acts

/-- R103, R104: the head of the pool joins, and both buffers in use are aimed at it. -/
theorem placed_takeReplacement (p : Stocked s) (ok : CatalogOk s) {rest : List Nat} (hp : s.cu.freePool = seg :: rest) (hq : 1 ≤ q)
    (sent : (s.rp.buf n).state = .inFlight) (other : (s.rp.buf n.other).state ≠ .inFlight) :
    Placed (takeReplacement n seg q s) := by
  have joined := p.joinSegment ok hp hq
  have last := getLast?_joinSegment seg q s
  have buf (k : BufName) : (openFresh seg 1 (joinSegment seg q s)).rp.buf k = s.rp.buf k := by cases k <;> simp [Rp.buf]
  unfold takeReplacement
  extract_lets s1 b1 s2
  have self : (reaimOther n seg s2).rp.buf n = { s.rp.buf n with dest := some { seg := seg, row := 0 } } := by
    rw [reaimOther_self, setBuf_buf, show b1 = s.rp.buf n from buf n]
  have used : ((reaimOther n seg s2).rp.buf n).state ≠ .empty := by rw [self]; show (s.rp.buf n).state ≠ _; rw [sent]; decide
  refine (beside_handBuffer used).placed ⟨joined.congr (by simp [s2, s1]) ?_ (by simp [s2, s1]) (by simp [s2, s1]) (by simp [s2, s1]), ?_⟩
  · unfold reaimOther
    dsimp only
    split <;> simp [s2, s1, openFresh]
  · have cu : (reaimOther n seg s2).cu = (joinSegment seg q s).cu := by simp [s2, s1]
    have second : s2.rp.buf n.other = s.rp.buf n.other := by rw [show s2.rp.buf n.other = s1.rp.buf n.other from setBuf_other _ _ _, buf]
    refine ⟨fun k hk => ?_, fun o ho => ?_⟩
    · rw [cu]
      rcases n.eq_or_other k with rfl | rfl
      · exact ⟨_, by rw [self], last⟩
      · unfold reaimOther at hk ⊢
        dsimp only at hk ⊢
        split at hk
        next aimed =>
          rw [if_pos aimed]
          refine ⟨{ seg := seg, row := 1 }, ?_, last⟩
          cases n <;> rfl
        next still =>
          rw [second] at hk still
          exact absurd hk (by
            rw [not_not]
            cases h : (s.rp.buf n.other).state with
            | empty => rfl
            | filling => exact absurd (.inl h) still
            | closed => exact absurd (.inr h) still
            | inFlight => exact absurd h other)
    · rw [cu]
      unfold reaimOther at ho
      dsimp only at ho
      split at ho
      · cases ho; exact last
      · have opened : s2.rp.openSeg = some { seg := seg, nextRow := 1 } := by simp [s2, s1, openFresh]
        rw [opened] at ho
        cases ho
        exact last

theorem catalogOk_takeReplacement (ok : CatalogOk s) (n : BufName) (seg q : Nat) : CatalogOk (takeReplacement n seg q s) := by
  have joined := catalogOk_joinSegment ok seg q
  simpa [takeReplacement, CatalogOk] using joined

section
variable (sent : (s.rp.buf n).state = .inFlight) (other : (s.rp.buf n.other).state ≠ .inFlight)
  (hd : (s.rp.buf n).dest = some d)
include sent other hd

theorem arranges_relocate (hq : 1 ≤ (s.rp.buf n).firstSeq) : Arranges s (relocate n d s) := by
  have form : CatalogOk s → CatalogOk (relocate n d s) := by
    intro ok
    have cut := (calm_claimCut d.seg d.row s).catalog ok
    unfold relocate
    extract_lets first s1 rp1 s2
    split
    · split
      · exact catalogOk_takeReplacement (s := s2) cut n _ first
      · exact (beside_enterReadOnly s2).form cut
    · exact (beside_enterReadOnly s2).form cut
  refine ⟨by simp, form, fun ok p => ?_⟩
  have used : (s.rp.buf n).state ≠ .empty := by rw [sent]; decide
  have cut := p.claimCut ok (List.mem_of_getLast? (p.dest_mem used hd)) d.row
  have formed := (calm_claimCut d.seg d.row s).catalog ok
  unfold relocate
  extract_lets first s1 rp1 s2
  have recorded : Placed s2 := by
    refine Beside.placed (s := s1) ?_ cut
    exact .of_seats rfl rfl rfl rfl rfl
  have readOnly := (beside_enterReadOnly s2).placed recorded
  split
  next seg rest pool =>
    split
    · exact placed_takeReplacement recorded.stocked formed pool hq (by cases n <;> exact sent) (by cases n <;> exact other)
    · exact readOnly
  · exact readOnly

theorem arranges_relocateAgain (hq : 1 ≤ r.firstSeq) : Arranges s (relocateAgain n r d s) := by
  have form : CatalogOk s → CatalogOk (relocateAgain n r d s) := by
    intro ok
    have cut := (beside_enterReadOnly _).form ((calm_claimCut d.seg 0 s).catalog ok)
    unfold relocateAgain
    split
    · split
      · exact catalogOk_takeReplacement ((calm_claimRetireLast d.seg s).catalog ok) n _ _
      · exact cut
    · exact cut
  refine ⟨by simp, form, fun ok p => ?_⟩
  have used : (s.rp.buf n).state ≠ .empty := by rw [sent]; decide
  have mem := List.mem_of_getLast? (p.dest_mem used hd)
  have readOnly := (beside_enterReadOnly _).placed (p.claimCut ok mem 0)
  unfold relocateAgain
  split
  next seg rest pool =>
    split
    · obtain ⟨running, begun, collections, oldest, reclaim, noEngine, claim, acts⟩ := p.stocked
      have was := (collections.member mem).ne not_member_erasing
      have retired : Stocked (claimRetireLast d.seg s) :=
        ⟨by simpa using running, by simpa using begun, collections.claimRetireLast ok mem, oldest,
          reclaim.congr rfl (erasing_of_change (entry_setEntry ok d.seg · _) was), by simpa using noEngine, claim, by simpa using acts⟩
      exact placed_takeReplacement retired ((calm_claimRetireLast d.seg s).catalog ok) pool hq
        (by cases n <;> simpa [Rp.buf] using sent) (by cases n <;> simpa [Rp.buf, BufName.other] using other)
    · exact readOnly
  · exact readOnly

theorem arranges_rowFail (hq : 1 ≤ (s.rp.buf n).firstSeq) : Arranges s (rowFail n d s) := by
  have moved := arranges_relocate sent other hd hq
  unfold rowFail
  dsimp only
  split
  · exact moved.trans (arranges_ruJudge _)
  · exact moved.trans (arranges_react _)

theorem arranges_replacementFail (hq : 1 ≤ r.firstSeq) : Arranges s (replacementFail r n d s) := by
  have moved := arranges_relocateAgain sent other hd hq
  unfold replacementFail
  dsimp only
  split
  · exact moved.trans (arranges_ruJudge _)
  · exact moved.trans (arranges_react _)

end

/-! ### Removal (R91, R153) -/

/-- The claim of the RU has been taken. -/
theorem beside_answerHeld (granted : Bool) (s : State) : Beside s (answerHeld granted s) := by
  refine .of_seats (by simp) (by simp) (by simp) ?_
  unfold answerHeld Ru.segments
  extract_lets ru1 s1
  have kept : s1.ru.op = s.ru.op ∧ s1.ru.claim = s.ru.claim ∧ s1.ru.superseded = s.ru.superseded := by
    simp only [s1]
    split <;> simp [ru1]
  split
  · rw [kept.1, kept.2.1, kept.2.2]
  · rw [decideHold_frame _ |>.2.2.2.2.2.1]
    exact congrArg₂ Prod.mk kept.1 (congrArg₂ Prod.mk kept.2.1 kept.2.2)

theorem removalGranted_head (h : removalGranted seg s = true) : orderHead s.cu = some seg := by
  simp only [removalGranted, Bool.and_eq_true, beq_iff_eq] at h
  exact h.1.2

/-- R91: the head, which is not the last member, becomes ERASING and the next gives oldest_seq. -/
theorem Placed.claimRemoval (p : Placed s) (ok : CatalogOk s) (head : orderHead s.cu = some seg) :
    Placed (claimRemoval seg s) ∧ ((claimRemoval seg s).cu.entry seg).state = .erasing ∧
      seg ∉ (claimRemoval seg s).ru.superseded := by
  obtain ⟨next, rest, order⟩ := orderHead_eq_some.1 head
  obtain ⟨⟨running, begun, collections, oldest, reclaim, noEngine, claim, acts⟩, seated⟩ := p
  have mem : seg ∈ s.cu.orderList := by rw [order]; exact List.mem_cons_self
  have was := (collections.member mem).ne not_member_erasing
  have tail : (Machine.claimRemoval seg s).cu.orderList = next :: rest := by
    show s.cu.orderList.tail = _
    rw [order]; rfl
  have entry : ∀ x, (Machine.claimRemoval seg s).cu.entry x = if x = seg then { s.cu.entry seg with state := .erasing }
      else s.cu.entry x := (entry_setEntry ok seg · _)
  have once := collections.orderOnce
  rw [order, List.nodup_cons] at once
  have erased : Collections (Machine.claimRemoval seg s) :=
    collections.erases mem entry rfl (List.tail_sublist _) (by rw [tail]; exact once.1) rfl rfl
  have last : (Machine.claimRemoval seg s).cu.orderList.getLast? = s.cu.orderList.getLast? := by
    rw [tail, order, List.getLast?_cons_cons]
  have first : (Machine.claimRemoval seg s).cu.oldest = ((Machine.claimRemoval seg s).cu.entry next).firstSeq := by
    show (match s.cu.orderList.tail with
      | h :: _ => ((Machine.claimRemoval seg s).cu.entry h).firstSeq
      | [] => s.cu.oldest) = _
    rw [order]
    rfl
  refine ⟨⟨⟨running, begun, erased, ?_, reclaim.congr rfl (erasing_of_change entry was), noEngine, claim, acts⟩,
    fun k hk => by rw [last]; exact seated.buffers k hk, fun o ho => by rw [last]; exact seated.openSeg o ho⟩, ?_,
    fun hx => was (reclaim.superseded seg hx)⟩
  · rw [first]
    exact (erased.members next (by rw [tail]; exact List.mem_cons_self)).2
  · rw [entry, if_pos rfl]

theorem arranges_removalClaim (s : State) : Arranges s (removalClaim s) := by
  unfold removalClaim
  split
  · exact .refl s
  next seg claim =>
    split
    · extract_lets ru1 s1 s2
      have taken : Arranges s s1 := by
        refine ⟨rfl, id, fun _ p => ?_⟩
        obtain ⟨⟨running, begun, collections, oldest, ⟨superseded, once, operation⟩, noEngine, -, acts⟩, seated⟩ := p
        exact ⟨⟨running, begun, collections.congr rfl rfl rfl rfl, oldest, ⟨superseded, once, operation⟩, noEngine, nofun, acts⟩,
          ⟨seated.buffers, seated.openSeg⟩⟩
      split
      next granted =>
        refine Arranges.trans (t := s2) ⟨by simp [s2, s1], fun ok => ?_, fun ok p => ?_⟩
          ((arranges_reexamineSpace s2).trans (arranges_judgeChange s2 _))
        · have removed : CatalogOk (claimRemoval seg s1) := catalogOk_setEntry (s := s1) ok seg _
          simpa [s2, CatalogOk] using removed
        · have idle : s1.ru.op = .idle := p.stocked.claim (by rw [claim]; rfl)
          obtain ⟨removed, state, out⟩ := (taken.placed ok p).claimRemoval (taken.form ok) (removalGranted_head granted)
          have answered := beside_answerHeld true (claimRemoval seg s1)
          refine (answered.placed removed).ruErase ?_ ?_ (by rw [answered.entry]; exact state) (by rw [answered.superseded]; exact out)
          · rw [answered.op]; simpa using idle
          · rw [answered.claim]; simp [s1, ru1]
      · exact taken.trans (((beside_answerHeld false s1).arranges.trans (arranges_ruJudge _)).trans (arranges_reactPin s _))
    · exact .refl s

/-! ### The end of the RU's operation (R93, R113, R114, R154) -/

/-- The RU's operation, with its segment ERASING and in no other place, leaves its queue. -/
theorem Placed.ended (p : Placed s) (ending : s.fs.ending = some (c, op)) (source : op.source = .reclaim) :
    Placed (ruEnd (completeOp c s)) ∧ s.ru.claim = none ∧ ∀ seg, (op.act = .eraseSegment seg ∨ ∃ failed, op.act = .programMark seg failed) →
      (s.cu.entry seg).state = .erasing ∧ seg ∉ s.ru.superseded := by
  obtain ⟨⟨running, begun, collections, oldest, ⟨superseded, once, operation⟩, noEngine, claim, acts⟩, seated⟩ := p
  have mem := Fs.acts_of_ending ending
  rw [source] at mem
  obtain ⟨one, mine⟩ := acts.of_mem mem
  have head := Fs.head_of_ending ending
  have busy : s.ru.op ≠ .idle := by
    rcases mine with ⟨seg, h, -⟩ | ⟨seg, failed, h, -⟩ <;> rw [h] <;> nofun
  have free : s.ru.claim = none := by
    rw [← Option.not_isSome_iff_eq_none]
    exact fun h => busy (claim h)
  have left : (completeOp c s).fs.acts .reclaim = [] := by
    rw [← source] at one ⊢
    exact (Fs.acts_complete_of_single head one).2
  have others : (completeOp c s).fs.acts .engine = [] :=
    (Fs.acts_complete_of_ne head (by rw [source]; decide)).trans noEngine
  refine ⟨⟨⟨by simpa using running, by simpa using begun, collections.congr (by simp) (by simp) (by simp) (by simp), by simpa using oldest,
    ⟨by simpa using superseded, by simpa using once, nofun⟩, others, fun _ => rfl, left⟩, ?_⟩, free, fun seg act => ?_⟩
  · exact ⟨by simpa using seated.buffers, by simpa using seated.openSeg⟩
  · rcases mine with ⟨own, is, done⟩ | ⟨own, failed, is, done⟩
    · rcases act with act | ⟨failed, act⟩
      · rw [act] at done
        cases done
        exact operation seg (.inl is)
      · rw [act] at done; cases done
    · rcases act with act | ⟨failed, act⟩
      · rw [act] at done; cases done
      · rw [act] at done
        cases done
        exact operation seg (.inr is)

theorem Placed.claimFreed (p : Placed s) (ok : CatalogOk s) (idle : s.ru.op = .idle) (state : (s.cu.entry seg).state = .erasing)
    (out : seg ∉ s.ru.superseded) : Placed (claimFreed seg s) := by
  obtain ⟨⟨running, begun, collections, oldest, ⟨superseded, once, -⟩, noEngine, claim, acts⟩, seated⟩ := p
  refine ⟨⟨running, begun, collections.claimFreed ok state, oldest, ⟨fun x hx => ?_, once, fun x hx => ?_⟩, noEngine, claim, acts⟩,
    ⟨seated.buffers, seated.openSeg⟩⟩
  · have ne : x ≠ seg := by rintro rfl; exact out hx
    rw [show (Machine.claimFreed seg s).cu.entry x = _ from entry_setEntry ok seg x .freed, if_neg ne]
    exact superseded x hx
  · have hx : s.ru.op = .erase x ∨ s.ru.op = .mark x := hx
    rw [idle] at hx
    rcases hx with hx | hx <;> cases hx

theorem Placed.joinRetired (p : Placed s) (ok : CatalogOk s) (idle : s.ru.op = .idle) (state : (s.cu.entry seg).state = .erasing)
    (out : seg ∉ s.ru.superseded) (cause : RetireCause) : Placed (joinRetired seg cause s) := by
  obtain ⟨⟨running, begun, collections, oldest, ⟨superseded, once, -⟩, noEngine, claim, acts⟩, seated⟩ := p
  have order : seg ∉ s.cu.orderList := collections.not_order (by rw [state]; exact not_member_erasing)
  have pool : seg ∉ s.cu.freePool := collections.not_pool (by rw [state]; decide)
  refine ⟨⟨running, begun, collections.joinRetired ok cause order pool, oldest, ⟨fun x hx => ?_, once, fun x hx => ?_⟩, noEngine, claim,
    acts⟩, ⟨seated.buffers, seated.openSeg⟩⟩
  · have ne : x ≠ seg := by rintro rfl; exact out hx
    rw [show (Machine.joinRetired seg cause s).cu.entry x = _ from entry_setEntry ok seg x _, if_neg ne]
    exact superseded x hx
  · have hx : s.ru.op = .erase x ∨ s.ru.op = .mark x := hx
    rw [idle] at hx
    rcases hx with hx | hx <;> cases hx

end Sys2Proof.Machine
end

section
/-!
SUPPORT. What a command keeps of the laws of the engine, the catalog's form and the places (R84, R85, R174), and the ways commands
keep it.
-/
namespace Sys2Proof.Machine

-- One proof at a time, as in the tests: proofs checked side by side need more threads than the limits allow.
set_option Elab.async false

variable {s t u : State} {seg : Nat} {n : BufName} {c : Fin 4} {op : FlashOp} {act : FlashAct} {d : Dest}

/-! ### Operations of the EC and the RU's -/

@[simp] theorem reclaimActs_handOp_engine (act : FlashAct) (s : State) :
    (handOp .engine act s).fs.acts .reclaim = s.fs.acts .reclaim := by
  by_cases hf : s.ec.engine = .faulted
  · rw [handOp_of_faulted hf]
  · rw [handOp_of_ne hf]
    have ne : ({ source := .engine, act := act } : FlashOp).source ≠ .reclaim := nofun
    exact Fs.acts_push_of_ne ne _ _

theorem reclaimActs_completeOp (ending : s.fs.ending = some (c, op)) (h : op.source ≠ .reclaim) :
    (completeOp c s).fs.acts .reclaim = s.fs.acts .reclaim := Fs.acts_complete_of_ne (Fs.head_of_ending ending) h

@[simp] theorem reclaimActs_countCorrected (r : ReadRow) (s : State) :
    (countCorrected r s).fs.acts .reclaim = s.fs.acts .reclaim := rfl

@[simp] theorem reclaimActs_ecEraseNext (d : Fin 4) (s : State) :
    (ecEraseNext d s).fs.acts .reclaim = s.fs.acts .reclaim := by
  unfold ecEraseNext
  dsimp only
  (repeat' split) <;> simp

@[simp] theorem reclaimActs_handErases (cs : List (Fin 4)) (s : State) :
    (handErases cs s).fs.acts .reclaim = s.fs.acts .reclaim := by
  induction cs generalizing s with
  | nil => rfl
  | cons c cs ih => simp [handErases, ih]

@[simp] theorem reclaimActs_handResets (cs : List (Fin 4)) (s : State) :
    (handResets cs s).fs.acts .reclaim = s.fs.acts .reclaim := by
  induction cs generalizing s with
  | nil => rfl
  | cons c cs ih => simp [handResets, ih]

@[simp] theorem reclaimActs_handScans (cs : List (Fin 4)) (s : State) :
    (handScans cs s).fs.acts .reclaim = s.fs.acts .reclaim := by
  induction cs generalizing s with
  | nil => rfl
  | cons c cs ih =>
    rw [handScans, ih]
    split <;> simp

@[simp] theorem reclaimActs_handMember (d : Fin 4) (s : State) :
    (handMember d s).fs.acts .reclaim = s.fs.acts .reclaim := by
  unfold handMember
  (repeat' split) <;> simp

@[simp] theorem reclaimActs_handMembers (cs : List (Fin 4)) (s : State) :
    (handMembers cs s).fs.acts .reclaim = s.fs.acts .reclaim := by
  induction cs generalizing s with
  | nil => rfl
  | cons c cs ih => simp [handMembers, ih]

@[simp] theorem reclaimActs_scanNext (seg : Nat) (s : State) :
    (scanNext seg s).fs.acts .reclaim = s.fs.acts .reclaim := by
  unfold scanNext
  split <;> simp

/-! ### The places outside READY and STOPPING -/

/-- The RU outside READY and STOPPING: no segment waits, and an operation or a claim of before may stand. -/
structure RuAside (s : State) : Prop where
  none_ : s.ru.superseded = []
  claim : s.ru.claim.isSome = true → s.ru.op = .idle
  acts : OpActs s.ru.op (s.fs.acts .reclaim)

theorem PlacesOk.ruAside (p : PlacesOk s) (hr : s.ec.engine.running = false) : RuAside s := ⟨p.ruIdle hr, p.ruClaim, p.opActs⟩

theorem RuAside.congr (h : RuAside s) (ru : t.ru.segments = s.ru.segments := by simp)
    (fs : t.fs.acts .reclaim = s.fs.acts .reclaim := by simp) : RuAside t := by
  simp only [Ru.segments, Prod.mk.injEq] at ru
  obtain ⟨op, claim, superseded⟩ := ru
  exact ⟨by rw [superseded]; exact h.none_, by rw [claim, op]; exact h.claim, by rw [op, fs]; exact h.acts⟩

/-- With no operation of the RU in the queues the RU is idle. -/
theorem OpActs.idle {o : RuOp} {acts : List FlashAct} (h : OpActs o acts) (none_ : acts = []) : o = .idle := by
  subst none_
  cases o with
  | idle => rfl
  | erase x => cases h
  | mark x => obtain ⟨_, h⟩ := h; cases h

theorem ruAside_reset (h : t.ru = .reset) (acts : t.fs.acts .reclaim = []) : RuAside t :=
  ⟨by rw [h]; rfl, by rw [h]; nofun, by rw [h]; exact acts⟩

theorem PlacesOk.of_down (hr : t.ec.engine.running = false) (formatting : t.ec.engine ≠ .formatting)
    (mounting : t.ec.engine ≠ .mounting) (ru : RuAside t) : PlacesOk t where
  collections h := by
    rcases h with h | ⟨h, -⟩
    · rw [hr] at h; cases h
    · exact absurd h formatting
  running h := by rw [hr] at h; cases h
  ruIdle _ := ru.none_
  ruClaim := ru.claim
  ruOperation := placesOk_ruOperation_iff.2 ru.acts
  formatEmpty h := absurd h formatting
  formatHeader h := absurd h formatting
  scan h := absurd h mounting
  mounted h := absurd h mounting

theorem PlacesOk.of_formatting (engine : t.ec.engine = .formatting) (ru : RuAside t)
    (empty : t.ec.step ≠ .formatHeader → t.cu.orderList = [])
    (header : t.ec.step = .formatHeader → Collections t ∧
      ∃ seg data sp0 sp1, t.fs.ops = [{ source := .engine, act := .programRow seg 0 data sp0 sp1 }] ∧ t.cu.orderList = [seg]) :
    PlacesOk t where
  collections h := by
    rcases h with h | ⟨-, h⟩
    · rw [engine] at h; cases h
    · exact (header h).1
  running h := by rw [engine] at h; cases h
  ruIdle _ := ru.none_
  ruClaim := ru.claim
  ruOperation := placesOk_ruOperation_iff.2 ru.acts
  formatEmpty _ := empty
  formatHeader _ h := (header h).2
  scan h := by rw [engine] at h; cases h
  mounted h := by rw [engine] at h; cases h

theorem PlacesOk.of_mounting (engine : t.ec.engine = .mounting) (ru : RuAside t) (scan : t.ec.step = .scan → ScanPlaces t)
    (mounted : t.ec.step = .memberRead ∨ t.ec.step = .erase ∨ t.ec.step = .build → (t.ec.members.map Member.seg).Nodup) :
    PlacesOk t where
  collections h := by
    rcases h with h | ⟨h, -⟩ <;> rw [engine] at h <;> cases h
  running h := by rw [engine] at h; cases h
  ruIdle _ := ru.none_
  ruClaim := ru.claim
  ruOperation := placesOk_ruOperation_iff.2 ru.acts
  formatEmpty h := by rw [engine] at h; cases h
  formatHeader h := by rw [engine] at h; cases h
  scan _ := scan
  mounted _ := mounted

/-! ### The scan's law by the operations of the EC -/

/-- The operations of the EC in the queue of a die. -/
def Fs.engineOps (f : Fs) (c : Fin 4) : List FlashOp := (f.die c).queue.filter fun op => op.source == .engine

theorem Fs.engineOps_congr {f g : Fs} (same : g.spaceOps = f.spaceOps) : g.engineOps = f.engineOps := by
  funext c
  rw [Fs.engineOps, Fs.engineOps, ← Fs.filter_spaceOps (.inl rfl), ← Fs.filter_spaceOps (.inl rfl), same]

theorem Fs.mem_engineOps {f : Fs} : op ∈ f.engineOps c ↔ op ∈ (f.die c).queue ∧ op.source = .engine := by
  simp [Fs.engineOps]

/-- The reads of a scan on one die. -/
structure ScanDie (s : State) (d : Fin 4) : Prop where
  single : (s.fs.engineOps d).length ≤ 1
  reads : ∀ op ∈ s.fs.engineOps d, ∃ seg row, op.act = .readTrailers seg row ∨ op.act = .readRow seg row
  trailers : ∀ seg row, { source := .engine, act := .readTrailers seg row } ∈ s.fs.engineOps d →
    segDie seg = d ∧ ∀ c ∈ s.ec.candidates ++ s.ec.scanHeld, segDie c.seg = d → c.seg < seg
  rows : ∀ seg row, { source := .engine, act := .readRow seg row } ∈ s.fs.engineOps d →
    segDie seg = d ∧ (∀ c ∈ s.ec.candidates, segDie c.seg = d → c.seg < seg) ∧
      ∀ c ∈ s.ec.scanHeld, segDie c.seg = d → c.seg ≤ seg

theorem scanPlaces_iff : ScanPlaces s ↔
    ((s.ec.candidates ++ s.ec.scanHeld).map Candidate.seg).Nodup ∧ ∀ d, ScanDie s d := by
  constructor
  · rintro ⟨once, single, reads, trailers, rows⟩
    refine ⟨once, fun d => ⟨single d, fun op hop => ?_, fun seg row hop => ?_, fun seg row hop => ?_⟩⟩
    · exact reads d op (Fs.mem_engineOps.1 hop).1 (Fs.mem_engineOps.1 hop).2
    · exact trailers d seg row (Fs.mem_engineOps.1 hop).1
    · exact rows d seg row (Fs.mem_engineOps.1 hop).1
  · rintro ⟨once, dies⟩
    exact ⟨once, fun d => (dies d).single, fun d op hop hs => (dies d).reads op (Fs.mem_engineOps.2 ⟨hop, hs⟩),
      fun d seg row hop => (dies d).trailers seg row (Fs.mem_engineOps.2 ⟨hop, rfl⟩),
      fun d seg row hop => (dies d).rows seg row (Fs.mem_engineOps.2 ⟨hop, rfl⟩)⟩

theorem ScanPlaces.congr (h : ScanPlaces s) (ec : t.ec.procedure = s.ec.procedure) (fs : t.fs.engineOps = s.fs.engineOps) :
    ScanPlaces t := by
  simp only [Ec.procedure, Prod.mk.injEq] at ec
  obtain ⟨-, -, candidates, scanHeld, -⟩ := ec
  rw [scanPlaces_iff] at h ⊢
  obtain ⟨once, dies⟩ := h
  refine ⟨by rwa [candidates, scanHeld], fun d => ?_⟩
  obtain ⟨single, reads, trailers, rows⟩ := dies d
  exact ⟨by rwa [fs], by rwa [fs], by rwa [fs, candidates, scanHeld], by rwa [fs, candidates, scanHeld]⟩

/-! ### A procedure goes on -/

/-- Outside READY and STOPPING, with the procedure where it was. -/
theorem PlacesOk.of_procedure (p : PlacesOk s) (hr : s.ec.engine.running = false) (ec : t.ec.procedure = s.ec.procedure)
    (ru : RuAside t) (order : s.ec.engine = .formatting → t.cu.orderList = s.cu.orderList)
    (header : s.ec.engine = .formatting → s.ec.step = .formatHeader → t.cu.collections = s.cu.collections ∧ t.fs.ops = s.fs.ops)
    (scan : s.ec.engine = .mounting → s.ec.step = .scan → t.fs.engineOps = s.fs.engineOps) : PlacesOk t := by
  have same := ec
  simp only [Ec.procedure, Prod.mk.injEq] at same
  obtain ⟨engine, step, -, -, members⟩ := same
  by_cases formatting : s.ec.engine = .formatting
  · refine .of_formatting (engine.trans formatting) ru (fun h => ?_) fun h => ?_
    · rw [order formatting]
      exact p.formatEmpty formatting (by rwa [← step])
    · rw [step] at h
      obtain ⟨cu, ops⟩ := header formatting h
      simp only [Cu.collections, Prod.mk.injEq] at cu
      obtain ⟨catalog, list, pool, retired, -⟩ := cu
      rw [ops, list]
      exact ⟨(p.collections (.inr ⟨formatting, h⟩)).congr catalog list pool retired, p.formatHeader formatting h⟩
  · by_cases mounting : s.ec.engine = .mounting
    · refine .of_mounting (engine.trans mounting) ru (fun h => ?_) (by rw [step, members]; exact p.mounted mounting)
      rw [step] at h
      exact (p.scan mounting h).congr ec (scan mounting h)
    · exact .of_down (by rwa [engine]) (by rwa [engine]) (by rwa [engine]) ru

/-! ### What a command keeps -/

/-- The laws a step may lean on. -/
structure Lawful (s : State) : Prop where
  paths : PathsOk s
  buffers : BuffersOk s
  flight : InFlightOk s
  catalog : CatalogOk s
  marks : MarksOk s
  places : PlacesOk s

theorem Lawful.begun (l : Lawful s) (hr : s.ec.engine.running = true) : 1 ≤ s.rp.nextSeq := by
  have := (l.marks.running hr).durable
  omega

theorem Lawful.placed (l : Lawful s) (hr : s.ec.engine.running = true) : Placed s := l.places.placed hr (l.begun hr)

/-- From `s` to `t` the laws of the engine, of the catalog's form and of the places are kept. -/
structure FormKept (s t : State) : Prop where
  engine : EngineOk s → EngineOk t
  form : CatalogOk s → CatalogOk t
  places : Lawful s → PlacesOk t

theorem EngineOk.congr (h : EngineOk s) (engine : t.ec.engine = s.ec.engine) (loaded : t.ec.loaded = s.ec.loaded)
    (stop : t.ec.stopPending = s.ec.stopPending) : EngineOk t :=
  ⟨by rw [loaded, engine]; exact h.loaded, by rw [stop, engine]; exact h.stopPending⟩

theorem FormKept.refl (s : State) : FormKept s s := ⟨id, id, Lawful.places⟩

/-- In READY and STOPPING, where the EC stays as it is. -/
theorem FormKept.of_running (hs : s.ec.engine.running = true) (ec : t.ec = s.ec) (form : CatalogOk s → CatalogOk t)
    (placed : Lawful s → Placed s → Placed t) : FormKept s t :=
  ⟨fun h => h.congr (by rw [ec]) (by rw [ec]) (by rw [ec]), form, fun l => (placed l (l.placed hs)).placesOk⟩

theorem Arranges.kept (h : Arranges s t) (hs : s.ec.engine.running = true) : FormKept s t :=
  .of_running hs h.ec h.form fun l => h.placed l.catalog

/-- Where the laws speak of nothing that changes; the header row's program is the one operation of a FORMAT that opens. -/
theorem Beside.kept (h : Beside s t) (ec : t.ec.loaded = s.ec.loaded ∧ t.ec.stopPending = s.ec.stopPending := by simp)
    (ops : Lawful s → s.ec.engine = .formatting → s.ec.step = .formatHeader → t.fs.ops = s.fs.ops := by simp) : FormKept s t := by
  refine ⟨fun k => k.congr h.engine ec.1 ec.2, h.form, fun l => ?_⟩
  cases hr : s.ec.engine.running with
  | true => exact (h.placed (l.placed hr)).placesOk
  | false =>
    exact l.places.of_procedure hr h.ec ((l.places.ruAside hr).congr h.ru h.reclaimActs) (fun _ => h.order)
      (fun formatting header => ⟨h.cu, ops l formatting header⟩) fun _ _ => Fs.engineOps_congr h.fs

/-- The engine ends in a state without catalog and without a procedure on it. -/
theorem FormKept.of_down (engine : EngineOk s → EngineOk t) (form : CatalogOk s → CatalogOk t) (hr : t.ec.engine.running = false)
    (formatting : t.ec.engine ≠ .formatting) (mounting : t.ec.engine ≠ .mounting) (ru : Lawful s → RuAside t) : FormKept s t :=
  ⟨engine, form, fun l => .of_down hr formatting mounting (ru l)⟩

/-- Outside READY and STOPPING a procedure goes on. -/
theorem FormKept.of_procedure (hr : s.ec.engine.running = false) (ec : t.ec.procedure = s.ec.procedure)
    (flags : t.ec.loaded = s.ec.loaded ∧ t.ec.stopPending = s.ec.stopPending) (form : CatalogOk s → CatalogOk t)
    (ru : Lawful s → RuAside t) (order : s.ec.engine = .formatting → t.cu.orderList = s.cu.orderList)
    (header : Lawful s → s.ec.engine = .formatting → s.ec.step = .formatHeader →
      t.cu.collections = s.cu.collections ∧ t.fs.ops = s.fs.ops)
    (scan : Lawful s → s.ec.engine = .mounting → s.ec.step = .scan → t.fs.engineOps = s.fs.engineOps) : FormKept s t :=
  ⟨fun k => k.congr (congrArg Prod.fst ec) flags.1 flags.2, form,
    fun l => l.places.of_procedure hr ec (ru l) order (header l) (scan l)⟩

/-- Of the state before, the laws see neither the queue of commands nor the port. -/
theorem FormKept.of_alike (rp : u.rp = s.rp) (cu : u.cu = s.cu) (ru : u.ru = s.ru) (fs : u.fs = s.fs) (ec : u.ec = s.ec)
    (quiet : quietNow u = quietNow s) (h : FormKept u t) : FormKept s t := by
  have beside : Beside s u := .of_eq rp ec cu ru (by rw [fs])
  have kept : FormKept s u := beside.kept (by rw [ec]; exact ⟨rfl, rfl⟩) fun _ _ _ => by rw [fs]
  refine ⟨fun k => h.engine (kept.engine k), fun k => h.form (kept.form k), fun l => h.places ?_⟩
  obtain ⟨⟨appendIdle, formatting, flags⟩, buffers, flight, catalog, marks, places⟩ := l
  refine ⟨⟨by rwa [AppendIdle, rp, ec], by rwa [AppendIdle, rp, ec, recordRowInFlight_of_fs fs], by rwa [ec, quiet]⟩,
    buffers.of_rp rp, flight.of_rp rp fs (by rw [ec]), by rwa [CatalogOk, cu], ?_, kept.places ?_⟩
  · exact marks.of_procedure (by rw [ec]) (fun r => (marks.running r).of_rp rp cu) (by rw [cu]; exact fun _ => id)
      (by rw [cu]; exact fun _ => Nat.le_refl _)
  · exact ⟨⟨appendIdle, formatting, flags⟩, buffers, flight, catalog, marks, places⟩

/-- The laws do not see the quiet flags that end a step. -/
theorem FormKept.settle (h : FormKept s t) : FormKept s (settle t) := by
  have beside : Beside t (Machine.settle t) := .of_seats (by simp) (by simp [Ec.procedure]) (by simp) (by simp) (by simp)
  refine ⟨fun k => (h.engine k).congr (by simp) (by simp) (by simp), fun k => beside.form (h.form k), fun l => ?_⟩
  have p := h.places l
  obtain ⟨q, e⟩ := settle_eq t
  rw [e]
  obtain ⟨collections, running, ruIdle, ruClaim, ruOperation, formatEmpty, formatHeader, scan, mounted⟩ := p
  refine ⟨fun h => ?_, fun h => ?_, ruIdle, ruClaim, ruOperation, formatEmpty, formatHeader, fun h k => ?_, mounted⟩
  · exact (collections h).congr rfl rfl rfl rfl
  · obtain ⟨oldest, superseded, once, operation, noEngine, buffers, openSeg⟩ := running h
    exact ⟨oldest, superseded, once, operation, noEngine, buffers, openSeg⟩
  · exact (scan h k).congr rfl rfl

/-- A reaction of RU and RP follows in READY and STOPPING. -/
theorem FormKept.of_beside_then (h : Beside s u) (k : Arranges u t) (ec : u.ec.loaded = s.ec.loaded ∧ u.ec.stopPending = s.ec.stopPending)
    (ops : Lawful s → s.ec.engine = .formatting → s.ec.step = .formatHeader → u.fs.ops = s.fs.ops)
    (still : u.ec.engine.running = false → t = u) : FormKept s t := by
  cases hr : s.ec.engine.running with
  | true =>
    exact ⟨fun e => e.congr (by rw [k.ec, h.engine]) (by rw [k.ec, ec.1]) (by rw [k.ec, ec.2]), fun ok => k.form (h.form ok),
      fun l => (k.placed (h.form l.catalog) (h.placed (l.placed hr))).placesOk⟩
  | false =>
    rw [still (by rw [h.engine, hr])]
    exact h.kept ec ops

theorem FormKept.react (h : Beside s u) (ec : u.ec.loaded = s.ec.loaded ∧ u.ec.stopPending = s.ec.stopPending := by simp)
    (ops : Lawful s → s.ec.engine = .formatting → s.ec.step = .formatHeader → u.fs.ops = s.fs.ops := by simp) :
    FormKept s (react u) := .of_beside_then h (arranges_react u) ec ops react_of_idle

theorem FormKept.reactPin (old : State) (h : Beside s u)
    (ec : u.ec.loaded = s.ec.loaded ∧ u.ec.stopPending = s.ec.stopPending := by simp)
    (ops : Lawful s → s.ec.engine = .formatting → s.ec.step = .formatHeader → u.fs.ops = s.fs.ops := by simp) :
    FormKept s (reactPin old u) := by
  refine .of_beside_then h (arranges_reactPin old u) ec ops fun hr => ?_
  rw [Machine.reactPin, react_of_idle hr, ite_self]

/-! ### Operations that end -/

/-- The one operation of a FORMAT that opens is the EC's. -/
theorem Lawful.header_of_mem (l : Lawful s) (formatting : s.ec.engine = .formatting) (header : s.ec.step = .formatHeader)
    (h : op ∈ s.fs.ops) : op.source = .engine ∧ ∃ seg data sp0 sp1, op.act = .programRow seg 0 data sp0 sp1 := by
  obtain ⟨seg, data, sp0, sp1, ops, -⟩ := l.places.formatHeader formatting header
  rw [ops] at h
  rw [List.mem_singleton.1 h]
  exact ⟨rfl, seg, data, sp0, sp1, rfl⟩

/-- The completion of an operation of the RP or the AR. -/
theorem beside_completeOp (ending : s.fs.ending = some (c, op)) (h : op.source = .packer ∨ op.source = .reader) :
    Beside s (completeOp c s) := .of_eq (fs := spaceOps_completeOp ending h)

theorem Lawful.ops_of_ending (l : Lawful s) (ending : s.fs.ending = some (c, op)) (h : op.source ≠ .engine)
    (formatting : s.ec.engine = .formatting) (header : s.ec.step = .formatHeader) : False :=
  h (l.header_of_mem formatting header (Fs.ops_of_ending ending)).1

theorem engineOps_completeOp (head : (s.fs.die c).queue.head? = some op) (h : op.source ≠ .engine) :
    (completeOp c s).fs.engineOps = s.fs.engineOps := by
  obtain ⟨rest, hq⟩ := List.head?_eq_some_iff.1 head
  funext e
  rw [Fs.engineOps, Fs.engineOps]
  show (((s.fs.complete c).die e).queue.filter _) = _
  rw [Fs.complete_queue]
  split
  next he => simp [he, hq, h]
  · rfl

end Sys2Proof.Machine
end

section
/-!
SUPPORT. The commands of append path, reader, space, flash bus, resets and stops keep the laws of engine, catalog form and places.
-/
namespace Sys2Proof.Machine

-- One proof at a time, as in the tests: proofs checked side by side need more threads than the limits allow.
set_option Elab.async false

variable {s t u : State} {seg : Nat} {n : BufName} {c : Fin 4} {op : FlashOp} {act : FlashAct} {d : Dest}

/-! ### Takes (R19, R38, R54, R142, R147) -/

theorem beside_takeHead (path : CardPath) (c : CardIx) (s : State) : Beside s (takeHead path c s) := .of_eq

/-- Everything a take does short of serving a card. -/
theorem FormKept.pathTake {path : CardPath} {free : Bool} {mine : Work → Bool} {always : Bool}
    {serve : CardIx → Work → State → State}
    (serves : ∀ c w, s.ec.engine = .ready ∨ always = true → FormKept s (serve c w (takeHead path c s))) :
    FormKept s (pathTake path free mine always serve s) :=
  pathTake_ind (.refl s) (fun _ _ _ _ _ => Beside.kept .of_eq) fun c _ _ _ _ h => serves c _ h

/-- A kind that READY alone serves. -/
theorem FormKept.take {path : CardPath} {free : Bool} {mine : Work → Bool} {serve : CardIx → Work → State → State}
    (serves : ∀ c w u, Arranges u (serve c w u)) :
    FormKept s (Machine.pathTake path free mine false serve s) := by
  refine .pathTake fun c w h => ?_
  have ready : s.ec.engine = .ready := h.resolve_right nofun
  exact ((beside_takeHead path c s).arranges.trans (serves c w _)).kept (by rw [ready]; rfl)

theorem beside_answerCard (c : CardIx) (r : Answer) (s : State) : Beside s (answerCard c r s) := .of_eq

theorem arranges_serveAppend (c : CardIx) (w : Work) (s : State) : Arranges s (serveAppend c w s) := by
  unfold serveAppend
  split
  · exact (beside_answerCard _ _ s).arranges
  · split
    · exact (beside_answerCard _ _ s).arranges
    · exact Beside.arranges (.of_seats rfl rfl rfl rfl rfl) rfl

theorem beside_awaitDurable (c : CardIx) (w : Work) (target : Nat) (r : Answer) (s : State) :
    Beside s (awaitDurable c w target r s) := by
  unfold awaitDurable
  split
  · exact beside_answerCard _ _ s
  · exact .of_seats rfl rfl rfl rfl rfl

theorem arranges_serveFlush (c : CardIx) (w : Work) (s : State) : Arranges s (serveFlush c w s) := by
  unfold serveFlush
  split
  · exact (beside_answerCard _ _ s).arranges
  · exact ((beside_closeFilling s).trans (beside_awaitDurable _ _ _ _ _)).arranges

theorem arranges_serveRelease (c : CardIx) (w : Work) (s : State) : Arranges s (serveRelease c w s) := by
  unfold serveRelease
  split
  · exact (beside_answerCard _ _ s).arranges
  · split
    · exact (beside_answerCard _ _ s).arranges
    · exact Arranges.trans (Beside.arranges .of_eq) (arranges_react _)

theorem arranges_serveTrim (c : CardIx) (w : Work) (s : State) : Arranges s (serveTrim c w s) := by
  unfold serveTrim
  split
  · exact (beside_answerCard _ _ s).arranges
  · extract_lets q cp1 s1
    have trimmed : Arranges s s1 := by
      refine Beside.arranges (.of_eq ?_ ?_ ?_ ?_ ?_) ?_ <;> simp [s1]
    split
    · exact trimmed
    · exact trimmed.trans (arranges_react _)

/-! ### Staging and the linger timer (R39, R53) -/

theorem recordStage_formKept (s : State) : FormKept s (recordStage s) := by
  unfold recordStage
  split
  · split
    next h => exact ((arranges_stageNext _ s).trans (arranges_judgeChange s _)).kept h.2
    · exact .refl s
  · exact .refl s

/-- Outside READY and STOPPING no buffer is FILLING. -/
theorem Lawful.closeFilling_eq (l : Lawful s) (hr : s.ec.engine.running = false) : closeFilling s = s := by
  obtain ⟨a, b⟩ := l.flight.idle hr
  exact closeFilling_of_none (by rw [Rp.find, a, b]; rfl)

theorem lingerExpire_formKept (s : State) : FormKept s (lingerExpire s) := by
  unfold lingerExpire
  split
  · exact .refl s
  · refine Beside.kept ((beside_closeFilling s).trans (beside_stopLinger _)) (by simp) fun l formatting _ => ?_
    exact congrArg (fun u => u.fs.ops) (l.closeFilling_eq (by rw [formatting]; rfl))

/-! ### The result of a record row or digest program (R49 to R52, R102 to R109) -/

theorem FlashOp.source_of_isRecordRow (h : op.isRecordRow = true) : op.source = .packer := by
  by_contra ne
  rw [FlashOp.isRecordRow_eq_false ne] at h
  cases h

theorem FlashOp.source_of_isDigestRow (h : op.isDigestRow = true) : op.source = .packer := by
  unfold FlashOp.isDigestRow at h
  split at h <;> simp_all

/-- An operation of the RP or the AR completes in any engine state. -/
theorem completeOp_formKept (ending : s.fs.ending = some (c, op)) (h : op.source = .packer ∨ op.source = .reader)
    (k : Beside (completeOp c s) t) (ec : t.ec = s.ec) : FormKept s t := by
  refine Beside.kept ((beside_completeOp ending h).trans k) (by rw [ec]; exact ⟨rfl, rfl⟩) fun l formatting header => ?_
  exact (l.ops_of_ending ending (by rcases h with h | h <;> rw [h] <;> decide) formatting header).elim

/-- What holds of the buffer IN_FLIGHT when its program ends. -/
theorem FormKept.recordRowResult {use : BufName → Dest → State → State}
    (form : ∀ n d u, CatalogOk u → CatalogOk (use n d u)) (ec : ∀ n d u, (use n d u).ec = u.ec)
    (lands : ∀ n d u, (u.rp.buf n).state = .inFlight → (u.rp.buf n).dest = some d → (u.rp.buf n.other).state ≠ .inFlight →
      RunningMarks u → u.rp.relocation = s.rp.relocation → CatalogOk u → Placed u → Placed (use n d u)) :
    FormKept s (recordRowResult use s) := by
  unfold Machine.recordRowResult
  split
  · exact .refl s
  next c op ending =>
    split
    next row =>
      have source := FlashOp.source_of_isRecordRow row
      have done := beside_completeOp ending (.inl source)
      have kept : FormKept s (completeOp c s) := completeOp_formKept ending (.inl source) (.refl _) (by simp)
      dsimp only
      split
      next hr =>
        have running : s.ec.engine.running = true := by simpa using hr
        split
        · exact kept
        next n hn =>
          split
          · exact kept
          next d hd =>
            refine .of_running running (by rw [ec]; simp) (fun ok => form n d _ (done.form ok)) fun l p => ?_
            obtain ⟨⟨⟨single, -⟩, -⟩, -⟩ := (inFlightOk_iff s).1 l.flight
            have sent := Rp.state_of_find hn
            refine lands n d _ sent hd ?_ ((l.marks.running running).of_rp (by simp) (by simp)) (by simp) (done.form l.catalog)
              (done.placed p)
            have other := single n (by simpa using sent)
            simpa using other
      · split
        · exact completeOp_formKept ending (.inl source) (beside_answerAppend .abortedFormat _) (by simp [abortAppend])
        · exact kept
    · exact .refl s

theorem catalogOk_rowPassed (ok : CatalogOk s) (n : BufName) (d : Dest) : CatalogOk (rowPassed n d s) := by
  have handed : CatalogOk (handClosed (applyRowPass n d s)) := (beside_handClosed _).form (catalogOk_applyRowPass ok n d)
  unfold rowPassed
  refine (arranges_reexamineBuffer _).form ((beside_answerReached _).form ?_)
  split
  · exact catalogOk_closeSegment handed _
  · exact handed

theorem catalogOk_rowPass (ok : CatalogOk s) (n : BufName) (d : Dest) : CatalogOk (rowPass n d s) := by
  have passed := catalogOk_rowPassed ok n d
  unfold rowPass
  dsimp only
  split
  · exact (arranges_ruJudge _).form passed
  · exact (arranges_judgeChange s _).form passed

theorem catalogOk_relocate (ok : CatalogOk s) (n : BufName) (d : Dest) : CatalogOk (relocate n d s) := by
  have cut := (calm_claimCut d.seg d.row s).catalog ok
  unfold relocate
  extract_lets first s1 rp1 s2
  split
  · split
    · exact catalogOk_takeReplacement (s := s2) cut n _ first
    · exact (beside_enterReadOnly s2).form cut
  · exact (beside_enterReadOnly s2).form cut

theorem catalogOk_relocateAgain (ok : CatalogOk s) (n : BufName) (r : Relocation) (d : Dest) :
    CatalogOk (relocateAgain n r d s) := by
  have cut := (beside_enterReadOnly _).form ((calm_claimCut d.seg 0 s).catalog ok)
  unfold relocateAgain
  split
  · split
    · exact catalogOk_takeReplacement ((calm_claimRetireLast d.seg s).catalog ok) n _ _
    · exact cut
  · exact cut

theorem rowProgramPass_formKept (s : State) : FormKept s (recordRowResult rowPass s) := by
  refine .recordRowResult (fun n d u ok => catalogOk_rowPass ok n d) (by simp) fun n d u sent hd _ _ _ ok p => ?_
  exact (arranges_rowPass (by rw [sent]; decide) hd).placed ok p

theorem rowProgramFail_formKept (s : State) : FormKept s (recordRowResult rowFail s) := by
  refine .recordRowResult (fun n d u ok => ?_) (by simp) fun n d u sent hd other m _ ok p => ?_
  · have moved := catalogOk_relocate ok n d
    unfold rowFail
    dsimp only
    split
    · exact (arranges_ruJudge _).form moved
    · exact (arranges_react _).form moved
  · exact (arranges_rowFail sent other hd (m.firstSeq_of_sent sent).1).placed ok p

theorem replacementFail_formKept {r : Relocation} (h : s.rp.relocation = some r) :
    FormKept s (recordRowResult (replacementFail r) s) := by
  refine .recordRowResult (fun n d u ok => ?_) (by simp) fun n d u sent hd other m same ok p => ?_
  · have moved := catalogOk_relocateAgain ok n r d
    unfold replacementFail
    dsimp only
    split
    · exact (arranges_ruJudge _).form moved
    · exact (arranges_react _).form moved
  · exact (arranges_replacementFail sent other hd (m.replacing r (same.trans h)).1).placed ok p

theorem digestResult_formKept (passed : Bool) (s : State) : FormKept s (digestResult passed s) := by
  unfold digestResult
  split
  · exact .refl s
  next d op ending =>
    split
    case h_1 seg _ _ _ _ _ =>
      split
      next digest =>
        have source := FlashOp.source_of_isDigestRow digest
        dsimp only
        split
        next hr =>
          exact (((beside_completeOp ending (.inl source)).arranges.trans (arranges_claimDigest seg passed _)).trans
            (beside_nextDigest _).arranges).kept hr
        · exact completeOp_formKept ending (.inl source) (.refl _) (by simp)
      · exact .refl s
    all_goals exact .refl s

/-! ### The reader (R123 to R137) -/

theorem readerResult_formKept {use : Work → State → State} (ending : s.fs.ending = some (c, op)) (source : op.source = .reader)
    (k : Beside (completeOp c s) u) (ec : u.ec = s.ec) (uses : ∀ w t, Beside t (use w t) ∧ (use w t).ec = t.ec) :
    FormKept s (reactPin s (readerResult use u)) := by
  have done := (beside_completeOp ending (.inr source)).trans k
  have read : Beside u (readerResult use u) ∧ (readerResult use u).ec = u.ec :=
    readerResult_ind (P := fun t => Beside u t ∧ t.ec = u.ec) ⟨.refl u, rfl⟩ (fun v _ _ => uses v.work u)
      fun _ => ⟨.of_eq, by simp⟩
  refine .reactPin s (done.trans read.1) (by rw [read.2, ec]; exact ⟨rfl, rfl⟩) fun l formatting header => ?_
  exact (l.ops_of_ending ending (by rw [source]; decide) formatting header).elim

theorem trailersResult_formKept (r : ReadSpare) (s : State) : FormKept s (trailersResult r s) := by
  unfold trailersResult
  split
  · exact .refl s
  next d op ending =>
    split
    next seg _ source _ =>
      refine readerResult_formKept ending source (.refl _) (by simp) fun w t => ?_
      split
      · exact ⟨.of_eq, by simp⟩
      all_goals exact ⟨.refl t, rfl⟩
    · exact .refl s

theorem readRowResult_formKept (r : ReadRow) (s : State) : FormKept s (readRowResult r s) := by
  unfold readRowResult
  split
  · exact .refl s
  next d op ending =>
    split
    next seg row source _ =>
      refine readerResult_formKept ending source (.of_eq (t := countCorrected r (completeOp d s))) (by simp) fun w t => ?_
      split
      · exact ⟨.of_eq, by simp⟩
      · exact ⟨.of_eq, by simp⟩
      all_goals exact ⟨.refl t, rfl⟩
    · exact .refl s

theorem beside_takePinRequest (seg : Nat) (s : State) : Beside s (takePinRequest seg s) := by
  unfold takePinRequest
  split
  · exact .of_seats rfl rfl rfl rfl rfl
  · split
    · exact .of_eq
    · exact .of_eq

theorem pinRequest_formKept (s : State) : FormKept s (pinRequest s) := by
  unfold pinRequest
  split
  · split
    next h =>
      exact ((beside_takePinRequest _ s).arranges.trans (arranges_reactPin s _)).kept h.1
    · exact .refl s
  all_goals exact .refl s

/-! ### Holds and leases (R145, R148) -/

theorem beside_holdRequest (s : State) : Beside s (holdRequest s) := by
  unfold holdRequest
  split
  · exact .refl s
  · split
    · split
      · exact .of_seats rfl rfl rfl rfl rfl
      · exact .of_eq
    · exact .refl s

theorem leaseTick_formKept (s : State) : FormKept s (leaseTick s) := by
  unfold leaseTick
  extract_lets cp1 s1
  split
  · exact .react (.of_eq rfl rfl rfl rfl rfl) ⟨rfl, rfl⟩ fun _ _ _ => rfl
  · exact Beside.kept (.of_eq rfl rfl rfl rfl rfl) ⟨rfl, rfl⟩ fun _ _ _ => rfl

/-! ### Space (R91, R93, R112, R114, R153, R154) -/

theorem removalClaim_formKept (s : State) : FormKept s (removalClaim s) := by
  cases hr : s.ec.engine.running with
  | true => exact (arranges_removalClaim s).kept hr
  | false =>
    have still : removalClaim s = s := by
      unfold removalClaim
      split
      · rfl
      · exact if_neg (by rw [hr]; decide)
    rw [still]
    exact .refl s

/-- The RU's operation ends outside READY and STOPPING: its result is not applied (R156). -/
theorem ruEnd_formKept (hr : s.ec.engine.running = false) (ending : s.fs.ending = some (c, op)) (source : op.source = .reclaim) :
    FormKept s (ruEnd (completeOp c s)) := by
  refine .of_procedure hr (by simp) (by simp) (by simp [CatalogOk]) (fun l => ?_) (by simp)
    (fun l formatting header => (l.ops_of_ending ending (by rw [source]; decide) formatting header).elim)
    fun _ _ _ => engineOps_completeOp (Fs.head_of_ending ending) (by rw [source]; decide)
  obtain ⟨none_, claim, acts⟩ := l.places.ruAside hr
  have mem := Fs.acts_of_ending ending
  rw [source] at mem
  obtain ⟨one, -⟩ := acts.of_mem mem
  rw [← source] at one
  refine ⟨by simpa using none_, fun _ => rfl, ?_⟩
  have left := (Fs.acts_complete_of_single (Fs.head_of_ending ending) one).2
  rwa [source] at left

theorem reclaimErase_formKept (p0 p1 : PlaneStatus) (s : State) : FormKept s (reclaimErase p0 p1 s) := by
  unfold reclaimErase
  split
  · exact .refl s
  next d op ending =>
    split
    next seg source act =>
      extract_lets s1
      cases hr : s.ec.engine.running with
      | true =>
        have form (ok : CatalogOk s) : CatalogOk (ruEnd s1) := by simpa [CatalogOk, s1] using ok
        rw [if_pos rfl]
        split
        next mark =>
          refine .of_running hr (by simp [s1]) (fun ok => (arranges_react _).form (by simpa [CatalogOk, s1] using ok)) fun l p => ?_
          obtain ⟨ended, claim, places⟩ := p.ended ending source
          have erasing := places seg (.inl act)
          refine (arranges_react _).placed (by simpa [CatalogOk, s1] using l.catalog) ?_
          refine ended.hands rfl (by simpa using claim) ⟨_, rfl⟩ fun x hx => ?_
          have same : x = seg := by
            rcases hx with hx | hx <;> cases hx
            rfl
          rw [same]
          simpa using erasing
        next freed =>
          have formed (ok : CatalogOk s) : CatalogOk (ruEnd (claimFreed seg s1)) := (calm_claimFreed seg (ruEnd s1)).catalog (form ok)
          refine .of_running hr (by simp [s1]) (fun ok => (arranges_react _).form (formed ok)) fun l p => ?_
          obtain ⟨ended, claim, places⟩ := p.ended ending source
          obtain ⟨state, out⟩ := places seg (.inl act)
          exact (arranges_react _).placed (formed l.catalog)
            (ended.claimFreed (form l.catalog) rfl (by simpa using state) (by simpa using out))
      | false =>
        rw [if_neg (by decide)]
        exact ruEnd_formKept hr ending source
    · exact .refl s

/-- The EC's erases and marks end in a mount's erase step, in a FORMAT before its opening, or where no procedure stands. -/
theorem Lawful.erases_of_ending (l : Lawful s) (ending : s.fs.ending = some (c, op)) (source : op.source = .engine)
    (act : (∃ seg, op.act = .eraseSegment seg) ∨ ∃ seg failed, op.act = .programMark seg failed) :
    s.ec.engine.running = false ∧ ¬ (s.ec.engine = .formatting ∧ s.ec.step = .formatHeader) ∧
      ¬ (s.ec.engine = .mounting ∧ s.ec.step = .scan) := by
  refine ⟨?_, fun ⟨formatting, header⟩ => ?_, fun ⟨mounting, scan⟩ => ?_⟩
  · rw [Bool.eq_false_iff]
    intro hr
    have mem := Fs.acts_of_ending ending
    rw [source, (l.places.running hr).noEngine] at mem
    cases mem
  · obtain ⟨-, seg, data, sp0, sp1, is⟩ := l.header_of_mem formatting header (Fs.ops_of_ending ending)
    rcases act with ⟨x, act⟩ | ⟨x, failed, act⟩ <;> rw [act] at is <;> cases is
  · obtain ⟨rest, hq⟩ := List.head?_eq_some_iff.1 (Fs.head_of_ending ending)
    obtain ⟨seg, row, is⟩ := (l.places.scan mounting scan).reads c op (by rw [hq]; exact List.mem_cons_self) source
    rcases act with ⟨x, act⟩ | ⟨x, failed, act⟩ <;> rw [act] at is <;> rcases is with is | is <;> cases is

/-- An erase or mark of the EC ends, and the EC goes on erasing. -/
theorem erased_formKept (ending : s.fs.ending = some (c, op)) (source : op.source = .engine)
    (act : (∃ seg, op.act = .eraseSegment seg) ∨ ∃ seg failed, op.act = .programMark seg failed)
    (ec : t.ec.procedure = s.ec.procedure) (flags : t.ec.loaded = s.ec.loaded ∧ t.ec.stopPending = s.ec.stopPending)
    (form : CatalogOk s → CatalogOk t) (order : t.cu.orderList = s.cu.orderList) (ru : t.ru = s.ru)
    (acts : t.fs.acts .reclaim = (completeOp c s).fs.acts .reclaim) : FormKept s t := by
  refine ⟨fun k => k.congr (congrArg Prod.fst ec) flags.1 flags.2, form, fun l => ?_⟩
  obtain ⟨hr, header, scan⟩ := l.erases_of_ending ending source act
  refine l.places.of_procedure hr ec ((l.places.ruAside hr).congr (by rw [ru]) ?_) (fun _ => order)
    (fun f h => absurd ⟨f, h⟩ header) fun m h => absurd ⟨m, h⟩ scan
  rw [acts, reclaimActs_completeOp ending (by rw [source]; decide)]

theorem ecEraseNext_orderList (d : Fin 4) (s : State) : (ecEraseNext d s).cu.orderList = s.cu.orderList := by
  unfold ecEraseNext
  dsimp only
  (repeat' split) <;> simp

theorem markResult_formKept (p0 : PlaneStatus) (s : State) : FormKept s (markResult p0 s) := by
  unfold markResult
  split
  · exact .refl s
  next d op ending =>
    split
    next seg failed source act =>
      dsimp only
      cases hr : s.ec.engine.running with
      | true =>
        rw [if_pos rfl]
        have form (ok : CatalogOk s) : CatalogOk (ruEnd (completeOp d s)) := by simpa [CatalogOk] using ok
        have retired (ok : CatalogOk s) := (calm_joinRetired seg (markCause failed p0) _).catalog (form ok)
        refine .of_running hr (by simp) (fun ok => (arranges_ruJudge _).form (retired ok)) fun l p => ?_
        obtain ⟨ended, -, places⟩ := p.ended ending source
        obtain ⟨state, out⟩ := places seg (.inr ⟨failed, act⟩)
        exact (arranges_ruJudge _).placed (retired l.catalog)
          (ended.joinRetired (form l.catalog) rfl (by simpa using state) (by simpa using out) _)
      | false =>
        rw [if_neg (by decide)]
        exact ruEnd_formKept hr ending source
    next seg failed source act =>
      refine erased_formKept ending source (.inr ⟨seg, failed, act⟩) (by simp) (by simp) (fun ok => ?_) ?_ (by simp) (by simp)
      · refine (calm_ecEraseNext d _).catalog ((calm_joinRetired _ _ _).catalog ?_)
        simpa [CatalogOk] using ok
      · rw [ecEraseNext_orderList]
        simp [joinRetired]
    · exact .refl s

theorem ecErase_formKept (p0 p1 : PlaneStatus) (s : State) : FormKept s (ecErase p0 p1 s) := by
  unfold ecErase
  split
  · exact .refl s
  next d op ending =>
    split
    next seg source act =>
      have form (ok : CatalogOk s) : CatalogOk (completeOp d s) := by simpa [CatalogOk] using ok
      have ended {u : State} := erased_formKept (t := u) ending source (.inl ⟨seg, act⟩)
      dsimp only
      split
      · split
        · exact ended (by simp) (by simp) form (by simp) (by simp) rfl
        · exact ended (by simp) (by simp) (fun ok => by simpa [CatalogOk] using ok) (by simp) (by simp) (by simp)
      · exact ended (by simp) (by simp) (fun ok => (calm_ecEraseNext d _).catalog (catalogOk_setEntry (form ok) seg _))
          (by simp [ecEraseNext_orderList]) (by simp) (by simp)
    · exact .refl s

/-! ### The flash bus (R64, R66, R72, R73, R159) -/

theorem fsQueues_formKept {f : Fs} (h : ∀ c, (f.die c).queue = (s.fs.die c).queue) : FormKept s { s with fs := f } :=
  Beside.kept (.of_eq rfl rfl rfl rfl (Fs.spaceOps_congr h)) ⟨rfl, rfl⟩ fun _ _ _ => Fs.ops_congr h

/-- A reset or probe of a die ends. -/
theorem probed_formKept (head : (s.fs.die c).queue.head? = some op) (act : ∀ x, op.act ≠ .eraseSegment x)
    (mark : ∀ x f, op.act ≠ .programMark x f) (read : ∀ x r, op.act ≠ .readTrailers x r ∧ op.act ≠ .readRow x r)
    (row : ∀ x r a b c, op.act ≠ .programRow x r a b c) (k : Beside (completeOp c s) t)
    (ec : t.ec.loaded = s.ec.loaded ∧ t.ec.stopPending = s.ec.stopPending) (fs : t.fs = (completeOp c s).fs) : FormKept s t := by
  obtain ⟨rest, hq⟩ := List.head?_eq_some_iff.1 head
  have here : op ∈ (s.fs.die c).queue := by rw [hq]; exact List.mem_cons_self
  have procedure : t.ec.procedure = s.ec.procedure := by rw [k.ec]; simp
  refine ⟨fun e => e.congr (congrArg Prod.fst procedure) ec.1 ec.2, fun ok => k.form (by simpa [CatalogOk] using ok), fun l => ?_⟩
  have notReclaim : op.source ≠ .reclaim := fun source => by
    have mem : op.act ∈ s.fs.acts .reclaim := Fs.mem_acts.2 ⟨c, by rw [← source]; exact here⟩
    rcases (l.places.opActs.of_mem mem).2 with ⟨x, -, is⟩ | ⟨x, f, -, is⟩
    · exact act x is
    · exact mark x f is
  cases hr : s.ec.engine.running with
  | true =>
    have notEngine : op.source ≠ .engine := fun source => by
      have mem : op.act ∈ s.fs.acts .engine := Fs.mem_acts.2 ⟨c, by rw [← source]; exact here⟩
      rw [(l.places.running hr).noEngine] at mem
      cases mem
    have other : op.ofSpace = false := by simp [FlashOp.ofSpace, notEngine, notReclaim]
    have done : Beside s (completeOp c s) := .of_eq (fs := Fs.spaceOps_complete_of_other head other)
    exact ((done.trans k).placed (l.placed hr)).placesOk
  | false =>
    refine l.places.of_procedure hr procedure ((l.places.ruAside hr).congr (by rw [k.ru]; simp) ?_) (fun _ => ?_)
      (fun formatting header => ?_) fun mounting scan => ?_
    · rw [fs]; exact Fs.acts_complete_of_ne head notReclaim
    · rw [k.order]; simp
    · obtain ⟨-, seg, data, sp0, sp1, is⟩ := l.header_of_mem formatting header (Fs.mem_ops.2 ⟨c, here⟩)
      exact absurd is (row _ _ _ _ _)
    · rw [fs]
      refine engineOps_completeOp head fun source => ?_
      obtain ⟨seg, r, is⟩ := (l.places.scan mounting scan).reads c op here source
      rcases is with is | is
      · exact (read seg r).1 is
      · exact (read seg r).2 is

theorem Fs.resetDie_of_resetting {f : Fs} (h : f.resetting c = true) :
    ∃ op d, (f.die c).queue.head? = some op ∧ op.act = .resetDie d := by
  unfold Fs.resetting at h
  split at h
  · cases h
  next op rest hq =>
    simp only [Bool.and_eq_true, FlashAct.isResetDie] at h
    refine ⟨op, ?_⟩
    rw [hq]
    obtain ⟨-, is⟩ := h
    split at is
    next d act => exact ⟨d, rfl, act⟩
    all_goals cases is

theorem resetting_formKept (h : s.fs.resetting c = true) (k : Beside (completeOp c s) t)
    (ec : t.ec.loaded = s.ec.loaded ∧ t.ec.stopPending = s.ec.stopPending) (fs : t.fs = (completeOp c s).fs) : FormKept s t := by
  obtain ⟨op, d, head, act⟩ := Fs.resetDie_of_resetting h
  exact probed_formKept head (by simp [act]) (by simp [act]) (by simp [act]) (by simp [act]) k ec fs

theorem beside_setProbeRec (c : Fin 4) (r : ProbeRec) (s : State) : Beside s (setProbeRec c r s) :=
  .of_seats rfl rfl rfl rfl rfl

theorem resetDieReady_formKept (c : Fin 4) (s : State) : FormKept s (resetDieReady c s) := by
  unfold resetDieReady
  split
  next h =>
    have done : FormKept s (completeOp c s) := resetting_formKept h (.refl _) (by simp) rfl
    dsimp only
    split
    next probing =>
      have engine : s.ec.engine = .probing := by simpa using probing.1
      refine .of_down (fun k => k.congr (by simp) (by simp) (by simp)) (by simp [CatalogOk]) (by simp [engine, EngineState.running])
        (by simp [engine]) (by simp [engine]) fun l => ?_
      exact ((done.places l).ruAside (by simp [engine, EngineState.running])).congr
    · exact done
  · exact .refl s

theorem resetDieExpired_formKept (c : Fin 4) (s : State) : FormKept s (resetDieExpired c s) := by
  unfold resetDieExpired
  split
  next h => exact resetting_formKept h.1 (beside_setProbeRec c _ _) (by simp [setProbeRec]) rfl
  · exact .refl s

theorem probeResult_formKept (id : List Byte) (s : State) : FormKept s (probeResult id s) := by
  unfold probeResult
  split
  · exact .refl s
  next d op ending =>
    split
    next act =>
      exact probed_formKept (Fs.head_of_ending ending) (by simp [act]) (by simp [act]) (by simp [act]) (by simp [act])
        (beside_setProbeRec d _ _) (by simp [setProbeRec]) rfl
    all_goals exact .refl s

/-- FAULTED: the RU is at its reset values and the die queues are empty. -/
theorem enterFaulted_formKept (cause : FaultCause) (form : CatalogOk s → CatalogOk u) : FormKept s (enterFaulted cause u) := by
  have engine : (enterFaulted cause u).ec.engine = .faulted := by simp [enterFaulted]
  refine .of_down (fun _ => ⟨?_, ?_⟩) (by simpa [CatalogOk] using form) (by rw [engine]; rfl) (by rw [engine]; decide)
    (by rw [engine]; decide) fun _ => ruAside_reset rfl (by rw [enterFaulted_fs]; rfl)
  · rw [engine]; simp [enterFaulted, EngineState.running]
  · simp [enterFaulted]

theorem dieTimeout_formKept (c : Fin 4) (s : State) : FormKept s (dieTimeout c s) := by
  unfold dieTimeout
  split
  · exact enterFaulted_formKept _ id
  · exact .refl s

/-! ### Resets, RUN and the stops (R23, R24, R175, R176, R180) -/

theorem reset_formKept (ec : t.ec = .reset) (ru : t.ru = .reset) (catalog : t.cu.catalog = []) (acts : t.fs.acts .reclaim = []) :
    FormKept s t :=
  .of_down (fun _ => ⟨by rw [ec]; rfl, by rw [ec]; nofun⟩) (fun _ => by rw [CatalogOk, catalog]; rfl) (by rw [ec]; rfl)
    (by rw [ec]; decide) (by rw [ec]; decide) fun _ => ruAside_reset ru acts

/-- A stop in a state without a catalog. -/
theorem enterHalted_formKept (hr : s.ec.engine.running = false) : FormKept s (enterHalted s) :=
  .of_down (fun _ => ⟨rfl, nofun⟩) id rfl nofun nofun fun l => (l.places.ruAside hr).congr rfl rfl

theorem stopProcedure_formKept (h : s.ec.engine = .probing ∨ s.ec.engine = .mounting) : FormKept s (stopProcedure s) := by
  have hr : s.ec.engine.running = false := by rcases h with h | h <;> rw [h] <;> rfl
  unfold stopProcedure
  split
  · exact enterHalted_formKept hr
  · refine ⟨fun k => ⟨k.loaded, fun _ => h.imp_right .inl⟩, id, fun l => ?_⟩
    exact l.places.of_procedure hr rfl ((l.places.ruAside hr).congr rfl rfl) (fun _ => rfl) (fun _ _ => ⟨rfl, rfl⟩) fun _ _ => rfl

/-- STOPPING is entered from READY (R59). -/
theorem Placed.enterStopping (p : Placed s) : Placed (enterStopping s) := by
  unfold Machine.enterStopping
  extract_lets ec1 s1 s2
  have stopped : Placed s1 := by
    obtain ⟨⟨-, begun, collections, oldest, reclaim, noEngine, claim, acts⟩, seated⟩ := p
    exact ⟨⟨rfl, begun, collections.congr rfl rfl rfl rfl, oldest, reclaim.congr rfl fun _ => id, noEngine, claim, acts⟩,
      ⟨seated.buffers, seated.openSeg⟩⟩
  have answered : Beside s1 s2 := by
    simp only [s2]
    split
    · split
      · exact .refl s1
      · unfold answerServed
        split
        · exact .refl s1
        · exact (beside_answerCard _ _ s1).trans (.of_seats rfl rfl rfl rfl rfl)
    · exact .refl s1
  exact (beside_closeFilling s2).placed (answered.placed stopped)

theorem enterStopping_flags (s : State) : (enterStopping s).ec.loaded = s.ec.loaded ∧ (enterStopping s).ec.stopPending = false := by
  unfold enterStopping
  extract_lets ec1 s1 s2
  have same : s2.ec = s1.ec := by
    simp only [s2]
    split
    · split <;> simp
    · rfl
  simp [same, s1, ec1]

theorem enterStopping_formKept (h : s.ec.engine = .ready) : FormKept s (enterStopping s) := by
  have engine : (enterStopping s).ec.engine = .stopping := (enterStopping_moves s).2
  obtain ⟨loaded, stop⟩ := enterStopping_flags s
  refine ⟨fun k => ⟨?_, by rw [stop]; nofun⟩, by simp [CatalogOk],
    fun l => ((l.placed (by rw [h]; rfl)).enterStopping).placesOk⟩
  rw [loaded, k.loaded, engine, h]
  rfl

theorem runEvent0_formKept (s : State) : FormKept s (runEvent0 s) := by
  unfold runEvent0
  split
  next => exact .refl s
  next h => exact stopProcedure_formKept (.inl h)
  next h => exact stopProcedure_formKept (.inr h)
  next h => exact enterHalted_formKept (by rw [h]; rfl)
  next h => exact enterStopping_formKept h
  next h =>
    have hr : s.ec.engine.running = false := by rw [h]; rfl
    refine ⟨fun k => ⟨k.loaded, fun _ => .inr (.inr h)⟩, id, fun l => ?_⟩
    exact l.places.of_procedure hr rfl ((l.places.ruAside hr).congr rfl rfl) (fun _ => rfl) (fun _ _ => ⟨rfl, rfl⟩) fun _ _ => rfl
  next => exact .refl s
  next h => exact enterHalted_formKept (by rw [h]; rfl)

theorem runEvent1_formKept (s : State) : FormKept s (runEvent1 s) := by
  unfold runEvent1
  split
  next h =>
    have hr : s.ec.engine.running = false := by rw [h]; rfl
    have engine := startProbe_engine s
    refine .of_down (fun k => ⟨?_, fun _ => .inl engine⟩) (fun _ => by simp [CatalogOk, startProbe]; rfl) (by rw [engine]; rfl)
      (by rw [engine]; decide) (by rw [engine]; decide) fun l => ?_
    · rw [engine]
      have loaded : (startProbe s).ec.loaded = s.ec.loaded := by simp [startProbe]
      rw [loaded, k.loaded, h]
      rfl
    · have acts : (startProbe s).fs.acts .reclaim = s.fs.acts .reclaim := by
        simp only [startProbe, reclaimActs_handResets]
        rfl
      exact (l.places.ruAside hr).congr (by simp [startProbe]) acts
  · exact .refl s

theorem writeRun_formKept (v : Bool) (linger : Option Byte) (s : State) : FormKept s (writeRun v linger s) := by
  obtain ⟨x, e⟩ : ∃ x, writeRun v linger s = if v then runEvent1 { s with xp := x } else runEvent0 { s with xp := x } := by
    cases linger <;> exact ⟨_, rfl⟩
  rw [e]
  refine .of_alike (u := { s with xp := x }) rfl rfl rfl rfl rfl rfl ?_
  split
  · exact runEvent1_formKept _
  · exact runEvent0_formKept _

theorem resetSoft_formKept (s : State) : FormKept s (resetSoft s) := reset_formKept rfl rfl rfl rfl

/-- What changes the port alone. -/
theorem FormKept.port (rp : t.rp = s.rp := by simp) (ec : t.ec = s.ec := by simp) (cu : t.cu = s.cu := by simp)
    (ru : t.ru = s.ru := by simp) (fs : t.fs = s.fs := by simp) : FormKept s t :=
  Beside.kept (.of_eq rp ec cu ru (by rw [fs])) (by rw [ec]; exact ⟨rfl, rfl⟩) fun _ _ _ => by rw [fs]

theorem controlWrite_formKept (lane0 lane1 : Option Byte) (s : State) : FormKept s (controlWrite lane0 lane1 s) := by
  unfold controlWrite
  split
  · split
    · exact resetSoft_formKept s
    · exact writeRun_formKept _ _ s
  · split
    · exact .port
    · exact .refl s

theorem registerStore_formKept (a : Nat) (bytes : List Byte) (s : State) : FormKept s (registerStore a bytes s) := by
  unfold registerStore
  dsimp only
  split
  · exact controlWrite_formKept _ _ s
  · split
    · split
      · exact .port
      · exact .refl s
    · split
      · exact .port rfl rfl rfl rfl rfl
      · split
        · exact .port rfl rfl rfl rfl rfl
        · exact .refl s

theorem portAccess_formKept {f : State → State} (h : FormKept s (f s)) : FormKept s (portAccess f s) :=
  portAccess_ind (.refl s) h

theorem haltOnQuiet_formKept (s : State) : FormKept s (haltOnQuiet s) := by
  unfold haltOnQuiet
  split
  next h =>
    obtain ⟨-, engine, -⟩ := h
    exact enterHalted_formKept (by rcases engine with h | h <;> rw [h] <;> rfl)
  · exact .refl s

theorem stopComplete_formKept (s : State) : FormKept s (stopComplete s) := by
  unfold stopComplete
  split
  next h =>
    obtain ⟨engine, quiet⟩ := h
    refine .of_down (fun _ => ⟨rfl, nofun⟩) id rfl nofun nofun fun l => ruAside_reset rfl ?_
    have flags := l.paths.quiet engine
    rw [flags] at quiet
    simp only [QuietFlags.all, Bool.and_eq_true] at quiet
    exact Fs.acts_of_quiet (f := s.fs) quiet.2 _
  · exact .refl s

end Sys2Proof.Machine
end

section
/-!
SUPPORT. The mount keeps the laws of engine, catalog form and places (R159 to R168).
-/
namespace Sys2Proof.Machine

-- One proof at a time, as in the tests: proofs checked side by side need more threads than the limits allow.
set_option Elab.async false

variable {s t u : State} {seg row : Nat} {c d : Fin 4} {op : FlashOp} {act : FlashAct} {x : Candidate}

/-! ### The canonical catalog (R83, log 27) -/

theorem Sparse.mem_iff_from {α : Type} [DecidableEq α] {z : α} {lo : Option Nat} {m : List (Nat × α)}
    (h : Sparse.wfFrom z lo m = true) (k : Nat) (v : α) : (k, v) ∈ m ↔ v ≠ z ∧ Sparse.get z m k = v := by
  induction m generalizing lo with
  | nil => simp only [List.not_mem_nil, Sparse.get, false_iff]; exact fun ⟨ne, e⟩ => ne e.symm
  | cons e t ih =>
    obtain ⟨j, w⟩ := e
    simp only [Sparse.wfFrom, Bool.and_eq_true, decide_eq_true_eq] at h
    obtain ⟨⟨-, hw⟩, ht⟩ := h
    have below {i : Nat} (hi : i ≤ j) : Sparse.get z t i = z := Sparse.get_below ht hi
    rw [List.mem_cons, ih ht, Sparse.get]
    split
    next hk =>
      subst hk
      rw [below (Nat.le_refl _)]
      constructor
      · rintro (e | ⟨ne, e⟩)
        · cases e; exact ⟨hw, rfl⟩
        · exact absurd e.symm ne
      · rintro ⟨-, rfl⟩
        exact .inl rfl
    next hk =>
      rw [or_iff_right (by rintro e; cases e; exact hk rfl)]

theorem mem_catalog (ok : CatalogOk s) (x : Nat) (e : Entry) : (x, e) ∈ s.cu.catalog ↔ e ≠ .freed ∧ s.cu.entry x = e :=
  Sparse.mem_iff_from ok x e

/-- The segments with a property that no FREE entry has, as the catalog lists them. -/
theorem mem_catalog_filter (ok : CatalogOk s) {p : Entry → Bool} (hp : p .freed = false) (x : Nat) :
    x ∈ (s.cu.catalog.filter fun e => p e.2).map (·.1) ↔ p (s.cu.entry x) = true := by
  simp only [List.mem_map, List.mem_filter]
  constructor
  · rintro ⟨⟨y, e⟩, ⟨mem, hp⟩, rfl⟩
    rw [((mem_catalog ok y e).1 mem).2]
    exact hp
  · intro h
    refine ⟨(x, s.cu.entry x), ⟨(mem_catalog ok x _).2 ⟨fun e => ?_, rfl⟩, h⟩, rfl⟩
    rw [e, hp] at h
    cases h

/-! ### The pool a mount and a FORMAT build (R92) -/

theorem mem_interleaved {mask : BitVec 4} {p : Nat → Bool} {x : Nat} : x ∈ interleaved mask p ↔
    x < 8192 ∧ mask.getLsbD (x / 2048) = true ∧ p x = true := by
  simp only [interleaved, List.mem_flatMap, List.mem_range, List.mem_map, List.mem_filter, Bool.and_eq_true]
  constructor
  · rintro ⟨n, hn, d, ⟨hd, present, holds⟩, rfl⟩
    have hd : d < 4 := by simp at hd; omega
    have die : (2048 * d + n) / 2048 = d := by omega
    exact ⟨by omega, by rwa [die], holds⟩
  · rintro ⟨hx, present, holds⟩
    have split : 2048 * (x / 2048) + x % 2048 = x := by omega
    exact ⟨x % 2048, by omega, x / 2048, ⟨by simp; omega, present, by rwa [split]⟩, split⟩

/-- A rank by which the interleaved order rises: block index first, die second. -/
def interleavedRank (x : Nat) : Nat := 4 * (x % 2048) + x / 2048

/-- R92: block index first, die second. -/
theorem interleaved_sorted (mask : BitVec 4) (p : Nat → Bool) :
    (interleaved mask p).Pairwise fun a b => interleavedRank a < interleavedRank b := by
  have rank {n d : Nat} (hn : n < 2048) : interleavedRank (2048 * d + n) = 4 * n + d := by
    rw [interleavedRank, show (2048 * d + n) % 2048 = n by omega, show (2048 * d + n) / 2048 = d by omega]
  rw [interleaved, List.pairwise_flatMap]
  refine ⟨fun n hn => ?_, List.pairwise_lt_range.imp_of_mem fun {a b} ha hb lt => ?_⟩
  · rw [List.mem_range] at hn
    rw [List.pairwise_map]
    refine List.Pairwise.filter _ (List.Pairwise.imp (R := (· < ·)) (fun {a b} lt => ?_) (by decide))
    rw [rank hn, rank hn]
    omega
  · rw [List.mem_range] at ha hb
    intro y hy z hz
    simp only [List.mem_map, List.mem_filter] at hy hz
    obtain ⟨i, ⟨hi, -⟩, rfl⟩ := hy
    obtain ⟨j, -, rfl⟩ := hz
    have hi : i < 4 := by simp at hi; omega
    rw [rank ha, rank hb]
    omega

theorem interleaved_nodup (mask : BitVec 4) (p : Nat → Bool) : (interleaved mask p).Nodup :=
  (interleaved_sorted mask p).imp fun {a b} lt e => by rw [e] at lt; exact Nat.lt_irrefl _ lt

/-- The collections a mount or FORMAT builds from the entries. -/
theorem collections_rebuilt (ok : CatalogOk t) (once : t.cu.orderList.Nodup) (mask : BitVec 4)
    (members : ∀ x ∈ t.cu.orderList, (t.cu.entry x).state.member ∧ 1 ≤ (t.cu.entry x).firstSeq)
    (pool : t.cu.freePool = interleaved mask fun seg => (t.cu.entry seg).state == .free)
    (retired : t.cu.retired = (t.cu.catalog.filter fun e => e.2.state == .retired).map (·.1)) : Collections t where
  orderOnce := once
  poolOnce := by rw [pool]; exact interleaved_nodup _ _
  members := members
  pool x hx := by
    rw [pool, mem_interleaved] at hx
    simpa using hx.2.2
  retired x := by
    rw [retired, mem_catalog_filter ok (p := fun e => e.state == .retired) rfl]
    simp

/-! ### The beginning of the scan (R159, R160) -/

theorem segDie_of_die (c : Fin 4) : segDie (2048 * c.val) = c := by
  fin_cases c <;> rfl

theorem engineOps_handOp_engine (hf : s.ec.engine ≠ .faulted) (act : FlashAct) (d : Fin 4) :
    (handOp .engine act s).fs.engineOps d =
      if d = act.die then s.fs.engineOps d ++ [{ source := .engine, act := act }] else s.fs.engineOps d := by
  rw [handOp_of_ne hf, Fs.engineOps, Fs.engineOps]
  show (((s.fs.push act.die _).die d).queue.filter _) = _
  rw [Fs.push_queue]
  split
  next hd => simp [hd, List.filter_append]
  · rfl

/-- The first read of each die of the list, where it is present. -/
theorem engineOps_handScans (cs : List (Fin 4)) (s : State) (hf : s.ec.engine ≠ .faulted) (once : cs.Nodup)
    (empty : ∀ d ∈ cs, s.fs.engineOps d = []) (d : Fin 4) : (handScans cs s).fs.engineOps d =
      if d ∈ cs ∧ s.fs.present d = true then [{ source := .engine, act := .readTrailers (2048 * d.val) 0 }]
      else s.fs.engineOps d := by
  induction cs generalizing s with
  | nil => rw [if_neg (by simp)]; rfl
  | cons c cs ih =>
    obtain ⟨new, once⟩ := List.nodup_cons.1 once
    have none_ := empty c List.mem_cons_self
    unfold handScans
    split
    next present =>
      have die : (FlashAct.readTrailers (2048 * c.val) 0).die = c := segDie_of_die c
      have ops := engineOps_handOp_engine hf (.readTrailers (2048 * c.val) 0)
      have mask (e : Fin 4) : (handOp .engine (.readTrailers (2048 * c.val) 0) s).fs.present e = s.fs.present e := by
        rw [handOp_of_ne hf]
        simp [Fs.present]
      rw [die] at ops
      rw [ih _ (by simpa using hf) once, mask]
      · by_cases hd : d = c
        · subst hd
          rw [if_neg (by simp [new]), ops, if_pos rfl, if_pos ⟨List.mem_cons_self, present⟩, none_]
          rfl
        · simp only [List.mem_cons, hd, false_or, ops, if_false]
      · intro e he
        rw [ops, if_neg (by rintro rfl; exact new he)]
        exact empty e (List.mem_cons_of_mem _ he)
    next absent =>
      rw [ih s hf once fun e he => empty e (List.mem_cons_of_mem _ he)]
      by_cases hd : d = c
      · subst hd
        simp [absent]
      · simp [hd]

theorem startMount_loaded (s : State) : (startMount s).ec.loaded = s.ec.loaded ∧
    (startMount s).ec.stopPending = s.ec.stopPending ∧ (startMount s).cu.catalog = s.cu.catalog ∧ (startMount s).ru = s.ru := by
  simp [startMount]

/-- The scan begins with no candidate and one read at most on each die. -/
theorem scanPlaces_startMount (quiet : s.fs.quiet = true) : ScanPlaces (startMount s) := by
  obtain ⟨-, -, candidates, scanHeld⟩ := startMount_ec s
  have ops (d : Fin 4) : (startMount s).fs.engineOps d =
      if s.fs.present d = true then [{ source := .engine, act := .readTrailers (2048 * d.val) 0 }] else [] := by
    have empty (e : Fin 4) : s.fs.engineOps e = [] := by rw [Fs.engineOps, Fs.queue_of_quiet quiet]; rfl
    refine (engineOps_handScans chipEnables { s with
      cu := { s.cu with orderList := [], freePool := [], retired := [], oldest := 0 }
      ec := { s.ec.noProcedure with engine := .mounting, step := .scan } } (by simp) (by decide) (fun e _ => empty e) d).trans ?_
    simp only [mem_chipEnables_all, true_and]
    split
    · rfl
    · exact empty d
  refine scanPlaces_iff.2 ⟨by simp [candidates, scanHeld], fun d => ⟨?_, fun op hop => ?_, fun seg row hop => ?_, fun seg row hop => ?_⟩⟩
  · rw [ops]; split <;> simp
  · rw [ops] at hop
    split at hop
    · exact ⟨_, _, .inl (by rw [List.mem_singleton.1 hop])⟩
    · cases hop
  · rw [ops] at hop
    split at hop
    · have is := List.mem_singleton.1 hop
      cases is
      exact ⟨segDie_of_die d, by simp [candidates, scanHeld]⟩
    · cases hop
  · rw [ops] at hop
    split at hop
    · cases List.mem_singleton.1 hop
    · cases hop

theorem probeEnd_formKept (s : State) : FormKept s (probeEnd s) := by
  unfold probeEnd
  split
  next h =>
    obtain ⟨engine, -, quiet, -⟩ := h
    extract_lets fs1 cu1 s1
    have quiet1 : s1.fs.quiet = true := quiet
    have form : CatalogOk s → CatalogOk s1 := fun _ => rfl
    split
    · exact enterFaulted_formKept _ form
    · obtain ⟨mounting, scan, -, -⟩ := startMount_ec s1
      obtain ⟨loaded, -, catalog, ru⟩ := startMount_loaded s1
      have hr : s.ec.engine.running = false := by rw [engine]; rfl
      refine ⟨fun k => ⟨?_, fun _ => .inr (.inl mounting)⟩, fun ok => by rw [CatalogOk, catalog]; exact form ok, fun l => ?_⟩
      · rw [loaded, mounting]
        exact k.loaded.trans hr
      · refine .of_mounting mounting ((l.places.ruAside hr).congr (by rw [ru]) ?_) (fun _ => scanPlaces_startMount quiet1)
          fun h => by rw [scan] at h; rcases h with h | h | h <;> cases h
        simp only [startMount, reclaimActs_handScans]
        rfl
  · exact .refl s

/-! ### The scan goes on (R160, R161) -/

/-- What is next on the die whose read has ended: nothing, the next segment's trailers, or row 0 of a possible candidate. -/
inductive ScanNext (t : State) (c : Fin 4) : Prop
  | none_ (ops : t.fs.engineOps c = [])
  | trailers (seg row : Nat) (ops : t.fs.engineOps c = [{ source := .engine, act := .readTrailers seg row }]) (die : segDie seg = c)
      (beyond : ∀ x ∈ t.ec.candidates ++ t.ec.scanHeld, segDie x.seg = c → x.seg < seg)
  | row (seg row : Nat) (ops : t.fs.engineOps c = [{ source := .engine, act := .readRow seg row }]) (die : segDie seg = c)
      (beyond : ∀ x ∈ t.ec.candidates, segDie x.seg = c → x.seg < seg) (held : ∀ x ∈ t.ec.scanHeld, segDie x.seg = c → x.seg ≤ seg)

/-- A read of one die has ended, and the scan of the others stays. -/
theorem ScanPlaces.next (p : ScanPlaces s) (c : Fin 4) (others : ∀ d, d ≠ c → t.fs.engineOps d = s.fs.engineOps d)
    (next : ScanNext t c) (once : ((t.ec.candidates ++ t.ec.scanHeld).map Candidate.seg).Nodup)
    (candidates : ∀ x ∈ t.ec.candidates, segDie x.seg ≠ c → x ∈ s.ec.candidates)
    (scanHeld : ∀ x ∈ t.ec.scanHeld, segDie x.seg ≠ c → x ∈ s.ec.scanHeld) : ScanPlaces t := by
  obtain ⟨-, dies⟩ := scanPlaces_iff.1 p
  refine scanPlaces_iff.2 ⟨once, fun d => ?_⟩
  by_cases hd : d = c
  · subst hd
    cases next with
    | none_ ops => exact ⟨by simp [ops], by simp [ops], by simp [ops], by simp [ops]⟩
    | trailers seg row ops die beyond =>
      refine ⟨by simp [ops], fun op hop => ?_, fun seg' row' hop => ?_, fun seg' row' hop => ?_⟩
      · rw [ops] at hop
        exact ⟨seg, row, .inl (by rw [List.mem_singleton.1 hop])⟩
      · rw [ops] at hop
        have is := List.mem_singleton.1 hop
        cases is
        exact ⟨die, beyond⟩
      · rw [ops] at hop
        cases List.mem_singleton.1 hop
    | row seg row ops die beyond held =>
      refine ⟨by simp [ops], fun op hop => ?_, fun seg' row' hop => ?_, fun seg' row' hop => ?_⟩
      · rw [ops] at hop
        exact ⟨seg, row, .inr (by rw [List.mem_singleton.1 hop])⟩
      · rw [ops] at hop
        cases List.mem_singleton.1 hop
      · rw [ops] at hop
        have is := List.mem_singleton.1 hop
        cases is
        exact ⟨die, beyond, held⟩
  · obtain ⟨single, reads, trailers, rows⟩ := dies d
    have elsewhere {x : Candidate} (h : segDie x.seg = d) : segDie x.seg ≠ c := by rw [h]; exact hd
    refine ⟨by rwa [others d hd], by rwa [others d hd], fun seg row hop => ?_, fun seg row hop => ?_⟩
    · rw [others d hd] at hop
      obtain ⟨die, beyond⟩ := trailers seg row hop
      refine ⟨die, fun x hx h => beyond x ?_ h⟩
      rcases List.mem_append.1 hx with hx | hx
      · exact List.mem_append_left _ (candidates x hx (elsewhere h))
      · exact List.mem_append_right _ (scanHeld x hx (elsewhere h))
    · rw [others d hd] at hop
      obtain ⟨die, beyond, held⟩ := rows seg row hop
      exact ⟨die, fun x hx h => beyond x (candidates x hx (elsewhere h)) h, fun x hx h => held x (scanHeld x hx (elsewhere h)) h⟩

/-- The next segment of a die, if it is not the first of another, is on the die. -/
theorem segDie_succ (h : (seg + 1) % 2048 ≠ 0) : segDie (seg + 1) = segDie seg := by
  rw [segDie, segDie, show (seg + 1) / 2048 = seg / 2048 by omega]

theorem scanNext_ec (seg : Nat) (s : State) : (scanNext seg s).ec = s.ec := by simp

/-- The scan of a die moves on, with every candidate of the die at the segment just read or before it. -/
theorem scanNext_next (hf : s.ec.engine ≠ .faulted) (die : segDie seg = c) (empty : s.fs.engineOps c = [])
    (reached : ∀ x ∈ s.ec.candidates ++ s.ec.scanHeld, segDie x.seg = c → x.seg ≤ seg) :
    ScanNext (scanNext seg s) c ∧ ∀ d, d ≠ c → (scanNext seg s).fs.engineOps d = s.fs.engineOps d := by
  unfold scanNext
  split
  · exact ⟨.none_ empty, fun _ _ => rfl⟩
  next goes =>
    have on : segDie (seg + 1) = c := by
      rw [not_or] at goes
      exact (segDie_succ goes.2).trans die
    have ops := engineOps_handOp_engine hf (.readTrailers (seg + 1) 0)
    rw [show (FlashAct.readTrailers (seg + 1) 0).die = c from on] at ops
    refine ⟨.trailers (seg + 1) 0 (by rw [ops, if_pos rfl, empty]; rfl) on fun x hx h => ?_, fun d hd => by rw [ops, if_neg hd]⟩
    have := reached x (by simpa using hx) h
    omega

/-- The end of the one read of the EC on a die. -/
theorem ScanPlaces.ended (p : ScanPlaces s) (ending : s.fs.ending = some (c, op)) (source : op.source = .engine) :
    s.fs.engineOps c = [op] ∧ (completeOp c s).fs.engineOps c = [] ∧
      ∀ d, d ≠ c → (completeOp c s).fs.engineOps d = s.fs.engineOps d := by
  obtain ⟨rest, hq⟩ := List.head?_eq_some_iff.1 (Fs.head_of_ending ending)
  have first : s.fs.engineOps c = op :: rest.filter fun o => o.source == .engine := by
    rw [Fs.engineOps, hq, List.filter_cons_of_pos (by simp [source])]
  have single := ((scanPlaces_iff.1 p).2 c).single
  have none_ : (rest.filter fun o => o.source == .engine) = [] := by
    rw [first, List.length_cons] at single
    exact List.length_eq_zero_iff.1 (by omega)
  refine ⟨by rw [first, none_], ?_, fun d hd => ?_⟩
  · show (((s.fs.complete c).die c).queue.filter _) = []
    rw [Fs.complete_queue, if_pos rfl, hq]
    exact none_
  · show (((s.fs.complete c).die d).queue.filter _) = _
    rw [Fs.complete_queue, if_neg hd, Fs.engineOps]

/-- The read whose result is applied, and the candidates of its die. -/
structure ScanRead (s : State) (c : Fin 4) (seg : Nat) : Prop where
  faulted : s.ec.engine ≠ .faulted
  die : segDie seg = c
  empty : s.fs.engineOps c = []
  once : ((s.ec.candidates ++ s.ec.scanHeld).map Candidate.seg).Nodup

/-- After the row-0 trailers of a segment beyond every candidate of the die. -/
theorem scanTrailers_next (r : ScanRead s c seg) (beyond : ∀ x ∈ s.ec.candidates ++ s.ec.scanHeld, segDie x.seg = c → x.seg < seg)
    (x : ReadSpare) : ScanNext (scanTrailers seg x s) c ∧
      (∀ d, d ≠ c → (scanTrailers seg x s).fs.engineOps d = s.fs.engineOps d) ∧
      (((scanTrailers seg x s).ec.candidates ++ (scanTrailers seg x s).ec.scanHeld).map Candidate.seg).Nodup ∧
      (scanTrailers seg x s).ec.candidates = s.ec.candidates ∧
      ∀ y ∈ (scanTrailers seg x s).ec.scanHeld, segDie y.seg ≠ c → y ∈ s.ec.scanHeld := by
  obtain ⟨faulted, die, empty, once⟩ := r
  have moves (u : State) (ec : u.ec = s.ec) (fs : u.fs = s.fs) : ScanNext (scanNext seg u) c ∧
      (∀ d, d ≠ c → (scanNext seg u).fs.engineOps d = s.fs.engineOps d) ∧
      (((scanNext seg u).ec.candidates ++ (scanNext seg u).ec.scanHeld).map Candidate.seg).Nodup ∧
      (scanNext seg u).ec.candidates = s.ec.candidates ∧ ∀ y ∈ (scanNext seg u).ec.scanHeld, segDie y.seg ≠ c → y ∈ s.ec.scanHeld := by
    have next := scanNext_next (s := u) (by rwa [ec]) die (by rwa [fs]) fun y hy h => by
      rw [ec] at hy
      exact Nat.le_of_lt (beyond y hy h)
    rw [fs] at next
    exact ⟨next.1, next.2, by rwa [scanNext_ec, ec], by rw [scanNext_ec, ec], by rw [scanNext_ec, ec]; exact fun _ h _ => h⟩
  unfold scanTrailers
  split
  · exact moves _ (by simp) (by simp)
  · split
    · exact moves _ (by simp) (by simp)
    · split
      · exact moves _ rfl rfl
      · split
        · extract_lets y ec1 s1
          have fresh : ∀ z ∈ s.ec.candidates ++ s.ec.scanHeld, z.seg ≠ seg := fun z hz e =>
            Nat.lt_irrefl seg (by have := beyond z hz (by rw [e, die]); omega)
          have once1 : ((s1.ec.candidates ++ s1.ec.scanHeld).map Candidate.seg).Nodup := by
            rw [show s1.ec.candidates ++ s1.ec.scanHeld = (s.ec.candidates ++ s.ec.scanHeld) ++ [y] by simp [s1, ec1],
              List.map_append]
            refine once.append (by simp) ?_
            rw [List.disjoint_left]
            intro a ha
            obtain ⟨z, hz, rfl⟩ := List.mem_map.1 ha
            simpa [y] using fresh z hz
          have held : ∀ z ∈ s1.ec.scanHeld, segDie z.seg ≠ c → z ∈ s.ec.scanHeld := fun z hz h => by
            rcases List.mem_append.1 hz with hz | hz
            · exact hz
            · rw [List.mem_singleton.1 hz] at h
              exact absurd die h
          split
          · exact ⟨.none_ empty, fun _ _ => rfl, once1, rfl, held⟩
          · have ops := engineOps_handOp_engine (s := s1) faulted (.readRow seg 0)
            rw [show (FlashAct.readRow seg 0).die = c from die] at ops
            refine ⟨.row seg 0 (by rw [ops, if_pos rfl, show s1.fs.engineOps c = [] from empty]; rfl) die (fun z hz h => ?_) fun z hz h => ?_,
              fun d hd => by rw [ops, if_neg hd], by simpa using once1, by simp [s1, ec1], fun z hz => held z (by simpa using hz)⟩
            · exact beyond z (List.mem_append_left _ (by simpa [s1] using hz)) h
            · have hz : z ∈ s1.ec.scanHeld := by simpa using hz
              rcases List.mem_append.1 hz with hz | hz
              · exact Nat.le_of_lt (beyond z (List.mem_append_right _ hz) h)
              · rw [List.mem_singleton.1 hz]
        · exact moves _ (by simp [classify]) (by simp [classify])

/-- After row 0 of a possible candidate. -/
theorem scanRow0_next (r : ScanRead s c seg) (beyond : ∀ x ∈ s.ec.candidates, segDie x.seg = c → x.seg < seg)
    (held : ∀ x ∈ s.ec.scanHeld, segDie x.seg = c → x.seg ≤ seg) (x : ReadRow) : ScanNext (scanRow0 seg x s) c ∧
      (∀ d, d ≠ c → (scanRow0 seg x s).fs.engineOps d = s.fs.engineOps d) ∧
      (((scanRow0 seg x s).ec.candidates ++ (scanRow0 seg x s).ec.scanHeld).map Candidate.seg).Nodup ∧
      (∀ y ∈ (scanRow0 seg x s).ec.candidates, segDie y.seg ≠ c → y ∈ s.ec.candidates) ∧
      ∀ y ∈ (scanRow0 seg x s).ec.scanHeld, segDie y.seg ≠ c → y ∈ s.ec.scanHeld := by
  obtain ⟨faulted, die, empty, once⟩ := r
  have moves (u : State) (engine : u.ec.engine = s.ec.engine) (fs : u.fs = s.fs)
      (once : ((u.ec.candidates ++ u.ec.scanHeld).map Candidate.seg).Nodup)
      (candidates : ∀ y ∈ u.ec.candidates, y.seg = seg ∨ y ∈ s.ec.candidates) (kept : ∀ y ∈ u.ec.scanHeld, y ∈ s.ec.scanHeld) :
      ScanNext (scanNext seg u) c ∧ (∀ d, d ≠ c → (scanNext seg u).fs.engineOps d = s.fs.engineOps d) ∧
      (((scanNext seg u).ec.candidates ++ (scanNext seg u).ec.scanHeld).map Candidate.seg).Nodup ∧
      (∀ y ∈ (scanNext seg u).ec.candidates, segDie y.seg ≠ c → y ∈ s.ec.candidates) ∧
      ∀ y ∈ (scanNext seg u).ec.scanHeld, segDie y.seg ≠ c → y ∈ s.ec.scanHeld := by
    have next := scanNext_next (s := u) (by rwa [engine]) die (by rwa [fs]) fun y hy h => by
      rcases List.mem_append.1 hy with hy | hy
      · rcases candidates y hy with e | hy
        · exact Nat.le_of_eq e
        · exact Nat.le_of_lt (beyond y hy h)
      · exact held y (kept y hy) h
    rw [fs] at next
    refine ⟨next.1, next.2, by rwa [scanNext_ec], ?_, ?_⟩
    · rw [scanNext_ec]
      intro y hy h
      exact (candidates y hy).resolve_left fun e => h (by rw [e, die])
    · rw [scanNext_ec]
      exact fun y hy _ => kept y hy
  unfold scanRow0
  split
  · exact moves s rfl rfl once (fun _ => .inr) fun _ => id
  next y found =>
    obtain ⟨mem, same⟩ : y ∈ s.ec.scanHeld ∧ y.seg = seg :=
      ⟨List.mem_of_find?_eq_some found, by simpa using List.find?_some found⟩
    extract_lets ec1 s1
    have heldOnce : (s.ec.scanHeld.map Candidate.seg).Nodup := by
      rw [List.map_append] at once
      exact once.of_append_right
    have out : seg ∉ s.ec.candidates.map Candidate.seg := fun h => by
      rw [List.map_append] at once
      exact (List.disjoint_of_nodup_append once) h (List.mem_map.2 ⟨y, mem, same⟩)
    have filtered : s1.ec.scanHeld.Sublist s.ec.scanHeld := List.filter_sublist
    have gone : seg ∉ s1.ec.scanHeld.map Candidate.seg := fun h => by
      obtain ⟨z, hz, e⟩ := List.mem_map.1 h
      have := (List.mem_filter.1 hz).2
      simp [e] at this
    have once1 : ((s1.ec.candidates ++ s1.ec.scanHeld).map Candidate.seg).Nodup :=
      once.sublist (((List.Sublist.refl _).append filtered).map _)
    have kept : ∀ z ∈ s1.ec.scanHeld, z ∈ s.ec.scanHeld := filtered.subset
    split
    · refine moves _ rfl rfl ?_ (fun z hz => ?_) kept
      · rw [List.map_append, List.map_append]
        rw [List.map_append] at once1
        rw [List.append_assoc]
        refine once1.of_append_left.append ((List.nodup_singleton _).append once1.of_append_right ?_) ?_
        · rw [List.disjoint_left]
          intro a ha
          rw [List.mem_singleton.1 ha]
          exact gone
        · rw [List.disjoint_left]
          intro a ha hb
          rcases List.mem_append.1 hb with hb | hb
          · rw [List.mem_singleton.1 hb] at ha
            exact out ha
          · exact (List.disjoint_of_nodup_append once1) ha hb
      · rcases List.mem_append.1 hz with hz | hz
        · exact .inr hz
        · exact .inl (by rw [List.mem_singleton.1 hz])
    · exact moves _ (by simp [classify]; rfl) (by simp [classify]; rfl) (by simpa [classify] using once1)
        (fun _ h => .inr (by simpa [classify, s1] using h)) fun _ h => kept _ (by simpa [classify] using h)

end Sys2Proof.Machine
end

section
/-!
SUPPORT. The mount's results and its end keep the laws of engine, catalog form and places (R161 to R168).
-/
namespace Sys2Proof.Machine

-- One proof at a time, as in the tests: proofs checked side by side need more threads than the limits allow.
set_option Elab.async false

variable {s t u : State} {seg row : Nat} {c d : Fin 4} {op : FlashOp} {act : FlashAct}

/-! ### The scan's results (R160, R161) -/

/-- What a scan keeps of EC and RU besides its candidates. -/
structure ScanStays (s t : State) : Prop where
  engine : t.ec.engine = s.ec.engine
  step : t.ec.step = s.ec.step
  flags : t.ec.loaded = s.ec.loaded ∧ t.ec.stopPending = s.ec.stopPending
  ru : t.ru = s.ru

theorem scanTrailers_stays (seg : Nat) (x : ReadSpare) (s : State) : ScanStays s (scanTrailers seg x s) := by
  unfold scanTrailers
  dsimp only
  (repeat' split) <;> constructor <;> simp [classify]

theorem scanRow0_stays (seg : Nat) (x : ReadRow) (s : State) : ScanStays s (scanRow0 seg x s) := by
  unfold scanRow0
  dsimp only
  (repeat' split) <;> constructor <;> simp [classify]

theorem FormKept.of_scan (engine : s.ec.engine = .mounting) (step : s.ec.step = .scan) (stays : ScanStays s t)
    (form : CatalogOk s → CatalogOk t) (acts : t.fs.acts .reclaim = s.fs.acts .reclaim) (scan : ScanPlaces s → ScanPlaces t) :
    FormKept s t := by
  obtain ⟨engine', step', flags, ru⟩ := stays
  refine ⟨fun k => k.congr engine' flags.1 flags.2, form, fun l => ?_⟩
  refine .of_mounting (engine'.trans engine) ((l.places.ruAside (by rw [engine]; rfl)).congr (by rw [ru]) acts)
    (fun _ => scan (l.places.scan engine step)) fun h => ?_
  rw [step', step] at h
  rcases h with h | h | h <;> cases h

theorem catalogOk_scanNext (ok : CatalogOk s) (seg : Nat) : CatalogOk (scanNext seg s) := by
  unfold scanNext
  split
  · exact ok
  · simpa [CatalogOk] using ok

theorem catalogOk_scanTrailers (ok : CatalogOk s) (seg : Nat) (x : ReadSpare) : CatalogOk (scanTrailers seg x s) := by
  unfold scanTrailers
  split
  · exact catalogOk_scanNext ((calm_joinRetired _ _ s).catalog ok) seg
  · split
    · exact catalogOk_scanNext ((calm_joinRetired _ _ s).catalog ok) seg
    · split
      · exact catalogOk_scanNext ok seg
      · split
        · dsimp only
          split
          · exact ok
          · simpa [CatalogOk] using ok
        · exact catalogOk_scanNext (catalogOk_setEntry ok seg _) seg

theorem catalogOk_scanRow0 (ok : CatalogOk s) (seg : Nat) (x : ReadRow) : CatalogOk (scanRow0 seg x s) := by
  unfold scanRow0
  split
  · exact catalogOk_scanNext ok seg
  next y _ =>
    extract_lets ec1 s1
    split
    · exact catalogOk_scanNext (s := { s1 with ec := { s1.ec with
        candidates := s1.ec.candidates ++ [{ seg := seg, header := y.header, trailer := rowTrailer x }] } }) ok seg
    · exact catalogOk_scanNext (catalogOk_setEntry (s := s1) ok seg _) seg

@[simp] theorem reclaimActs_scanTrailers (seg : Nat) (x : ReadSpare) (s : State) :
    (scanTrailers seg x s).fs.acts .reclaim = s.fs.acts .reclaim := by
  unfold scanTrailers
  dsimp only
  (repeat' split) <;> simp [classify]

@[simp] theorem reclaimActs_scanRow0 (seg : Nat) (x : ReadRow) (s : State) :
    (scanRow0 seg x s).fs.acts .reclaim = s.fs.acts .reclaim := by
  unfold scanRow0
  dsimp only
  (repeat' split) <;> simp [classify]

/-- The read that ends is the one of its die, and its die has no other. -/
theorem ScanPlaces.scanRead (p : ScanPlaces s) (engine : s.ec.engine = .mounting) (ending : s.fs.ending = some (c, op))
    (source : op.source = .engine) (ec : u.ec = s.ec) (fs : u.fs.engineOps = (completeOp c s).fs.engineOps)
    (die : segDie seg = c) : ScanRead u c seg := by
  obtain ⟨-, none_, -⟩ := p.ended ending source
  exact ⟨by rw [ec, engine]; decide, die, by rw [fs, none_], by rw [ec]; exact (scanPlaces_iff.1 p).1⟩

theorem scanResult_formKept (r : FlashRead) (s : State) : FormKept s (scanResult r s) := by
  unfold scanResult
  split
  next h =>
    obtain ⟨engine, step⟩ := h
    split
    · exact .refl s
    next c op ending =>
      obtain ⟨source, act⟩ := op
      have acts : (completeOp c s).fs.acts .reclaim = s.fs.acts .reclaim ∨ source = .reclaim := by
        by_cases h : source = .reclaim
        · exact .inr h
        · exact .inl (reclaimActs_completeOp ending h)
      split
      next seg row x isSource isAct =>
        cases isSource
        cases isAct
        obtain ⟨engine', step', flags, ru⟩ := scanTrailers_stays seg x (completeOp c s)
        refine .of_scan engine step ⟨engine'.trans (by simp), step'.trans (by simp), by simp, ru.trans (by simp)⟩
          (fun ok => catalogOk_scanTrailers (by simpa [CatalogOk] using ok) seg x)
          ((reclaimActs_scanTrailers seg x _).trans (acts.resolve_right nofun)) fun p => ?_
        obtain ⟨one, -, others⟩ := p.ended ending rfl
        obtain ⟨die, beyond⟩ := ((scanPlaces_iff.1 p).2 c).trailers seg row (by rw [one]; exact List.mem_singleton_self _)
        have read := p.scanRead (u := completeOp c s) engine ending rfl (by simp) rfl die
        obtain ⟨next, same, once, candidates, held⟩ := scanTrailers_next read (by simpa using beyond) x
        exact p.next c (fun d hd => (same d hd).trans (others d hd)) next once (fun y hy _ => by rw [candidates] at hy; simpa using hy)
          fun y hy h => by simpa using held y hy h
      next seg row x isSource isAct =>
        cases isSource
        cases isAct
        obtain ⟨engine', step', flags, ru⟩ := scanRow0_stays seg x (countCorrected x (completeOp c s))
        refine .of_scan engine step ⟨engine'.trans (by simp), step'.trans (by simp), by simp, ru.trans (by simp)⟩
          (fun ok => catalogOk_scanRow0 (by simpa [CatalogOk] using ok) seg x)
          ((reclaimActs_scanRow0 seg x _).trans (acts.resolve_right nofun)) fun p => ?_
        obtain ⟨one, -, others⟩ := p.ended ending rfl
        obtain ⟨die, beyond, reached⟩ := ((scanPlaces_iff.1 p).2 c).rows seg row (by rw [one]; exact List.mem_singleton_self _)
        have read := p.scanRead (u := countCorrected x (completeOp c s)) engine ending rfl (by simp) rfl die
        obtain ⟨next, same, once, candidates, held⟩ := scanRow0_next read (by simpa using beyond) (by simpa using reached) x
        exact p.next c (fun d hd => (same d hd).trans (others d hd)) next once (fun y hy h => by simpa using candidates y hy h)
          fun y hy h => by simpa using held y hy h
      · exact .refl s
  · exact .refl s

/-! ### The members (R163 to R166) -/

theorem insertSerial_perm (c : Candidate) (l : List Candidate) : (insertSerial c l).Perm (c :: l) := by
  induction l with
  | nil => exact .refl _
  | cons h t ih =>
    unfold insertSerial
    split
    · exact .refl _
    · exact (ih.cons h).trans (.swap c h t)

theorem sortSerial_perm (cs : List Candidate) : (sortSerial cs).Perm cs := by
  have from_ (xs l : List Candidate) : (xs.foldl (fun l c => insertSerial c l) l).Perm (xs ++ l) := by
    induction xs generalizing l with
    | nil => exact .refl _
    | cons x xs ih =>
      refine (ih (insertSerial x l)).trans (((insertSerial_perm x l).append_left xs).trans ?_)
      exact List.perm_middle
  have all := from_ cs []
  rwa [List.append_nil] at all

/-- Outside the scan a mount keeps its members apart. -/
theorem FormKept.of_members (engine : s.ec.engine = .mounting) (stays : t.ec.engine = s.ec.engine)
    (flags : t.ec.loaded = s.ec.loaded ∧ t.ec.stopPending = s.ec.stopPending) (step : t.ec.step ≠ .scan)
    (form : CatalogOk s → CatalogOk t) (ru : t.ru = s.ru)
    (acts : Lawful s → t.fs.acts .reclaim = s.fs.acts .reclaim) (members : Lawful s → (t.ec.members.map Member.seg).Nodup) :
    FormKept s t :=
  ⟨fun k => k.congr stays flags.1 flags.2, form, fun l => .of_mounting (stays.trans engine)
    ((l.places.ruAside (by rw [engine]; rfl)).congr (by rw [ru]) (acts l)) (fun h => absurd h step) fun _ => members l⟩

theorem catalogOk_classifyAll (ok : CatalogOk s) (st : SegState) (l : List Nat) : CatalogOk (classifyAll st l s) := by
  induction l generalizing s with
  | nil => exact ok
  | cons x l ih => exact ih (catalogOk_setEntry ok x _)

theorem catalogOk_eraseMembers (ok : CatalogOk s) (l : List Member) : CatalogOk (eraseMembers l s) := by
  induction l generalizing s with
  | nil => exact ok
  | cons m l ih => exact ih (catalogOk_setEntry ok m.seg _)

theorem scanEnd_formKept (s : State) : FormKept s (scanEnd s) := by
  unfold scanEnd
  split
  next h =>
    obtain ⟨engine, step, quiet, going⟩ := h
    have hr : s.ec.engine.running = false := by rw [engine]; rfl
    split
    · refine .of_down (fun k => ⟨rfl, fun stop => ?_⟩) (by simp [CatalogOk, endUnformatted]) rfl nofun nofun
        fun l => (l.places.ruAside hr).congr (by simp [endUnformatted]) (by simp [endUnformatted])
      rw [show (endUnformatted s).ec.stopPending = s.ec.stopPending by simp [endUnformatted]] at stop
      rw [stop] at going
      cases going
    · extract_lets epoch sorted single kept stale dropped s1 ec1
      refine .of_members engine (by simp [s1, ec1]) (by simp [s1, ec1]) (by simp) (fun ok => ?_) (by simp [s1]) (fun _ => ?_) fun l => ?_
      · have classified : CatalogOk s1 := catalogOk_classifyAll (catalogOk_classifyAll ok _ _) _ _
        simpa [CatalogOk] using classified
      · simp only [reclaimActs_handMembers]
        simp [s1]
      · obtain ⟨once, -⟩ := scanPlaces_iff.1 (l.places.scan engine step)
        rw [List.map_append] at once
        have kept' : (kept.map Candidate.seg).Sublist (sorted.map Candidate.seg) :=
          (List.filter_sublist.trans List.filter_sublist).map _
        have sorted' : (sorted.map Candidate.seg).Nodup :=
          ((sortSerial_perm _).map _).nodup_iff.2 (once.of_append_left.sublist (List.filter_sublist.map _))
        have same : (kept.map (memberOf kept)).map Member.seg = kept.map Candidate.seg := by
          rw [List.map_map]
          rfl
        simpa [same] using sorted'.sublist kept'
  · exact .refl s

theorem Member.afterRow_seg (m : Member) (row : Nat) (x : ReadRow) : (m.afterRow row x).seg = m.seg := by
  unfold Member.afterRow
  (repeat' split) <;> rfl

theorem Member.afterTrailer_seg (m : Member) (x : ReadSpare) : (m.afterTrailer x).seg = m.seg := by
  unfold Member.afterTrailer
  dsimp only
  (repeat' split) <;> rfl

/-- A read of a member keeps the members' segments. -/
theorem updateMember_segs {f : Member → Member} (hf : ∀ m, (f m).seg = m.seg) (seg : Nat) (s : State) :
    (updateMember seg f s).ec.members.map Member.seg = s.ec.members.map Member.seg := by
  simp only [updateMember, List.map_map]
  refine List.map_congr_left fun m _ => ?_
  simp only [Function.comp]
  split
  · exact hf m
  · rfl

theorem memberResult_formKept (r : FlashRead) (s : State) : FormKept s (memberResult r s) := by
  unfold memberResult
  split
  next h =>
    obtain ⟨engine, step⟩ := h
    split
    · exact .refl s
    next c op ending =>
      have read (f : Member → Member) (hf : ∀ m, (f m).seg = m.seg) (seg : Nat) (u : State) (source : op.source = .engine)
          (ec : u.ec = s.ec) (cu : u.cu = s.cu) (ru : u.ru = s.ru) (fs : u.fs.acts .reclaim = (completeOp c s).fs.acts .reclaim) :
          FormKept s (handMember c (updateMember seg f u)) := by
        refine .of_members engine (by simp [updateMember, ec]) (by simp [updateMember, ec]) (by simp [updateMember, ec, step])
          (by simp [CatalogOk, updateMember, cu]) (by simp [updateMember, ru]) (fun _ => ?_) fun l => ?_
        · rw [reclaimActs_handMember]
          exact fs.trans (reclaimActs_completeOp ending (by rw [source]; decide))
        · have once := l.places.mounted engine (.inl step)
          rw [← ec, ← updateMember_segs hf seg u] at once
          simpa using once
      split
      next seg row x source _ => exact read _ (fun m => m.afterTrailer_seg x) seg _ source (by simp) (by simp) (by simp) rfl
      next seg row x source _ => exact read _ (fun m => m.afterRow_seg row x) seg _ source (by simp) (by simp) (by simp) rfl
      · exact .refl s
  · exact .refl s

theorem linkedRun_sublist (l : List Member) : (linkedRun l).Sublist l := by
  induction l with
  | nil => exact .refl _
  | cons n ms ih =>
    cases ms with
    | nil => exact .refl _
    | cons m t =>
      unfold linkedRun
      split
      · exact ih.cons_cons n
      · exact (List.nil_sublist _).cons_cons n

theorem readsEnd_formKept (s : State) : FormKept s (readsEnd s) := by
  unfold readsEnd
  split
  next h =>
    obtain ⟨engine, step, quiet, going⟩ := h
    extract_lets left kept removed dirty s1 list ec1
    have built : CatalogOk s → CatalogOk s1 := fun ok => catalogOk_eraseMembers (catalogOk_classifyAll ok _ _) _
    have ec := handErases_procedure chipEnables { s1 with ec := { s1.ec with
      members := kept
      orphans := s1.ec.orphans + BitVec.ofNat 32 (left.length - kept.length)
      eraseList := list
      step := if list.isEmpty then .build else .erase } }
    simp only [Ec.procedure, Prod.mk.injEq] at ec
    obtain ⟨engine', step', -, -, members⟩ := ec
    refine .of_members engine (engine'.trans (by simp [s1])) (by simp [s1, ec1]) ?_ (fun ok => (calm_handErases _ _).catalog (built ok))
      (by simp [s1]) (fun _ => ?_) fun l => ?_
    · rw [step']
      split <;> decide
    · rw [reclaimActs_handErases]
      simp [s1]
    · have sub : kept.Sublist s.ec.members := by
        have back := linkedRun_sublist left.reverse
        rw [← List.reverse_sublist, List.reverse_reverse] at back
        exact back.trans List.filter_sublist
      rw [members]
      exact (l.places.mounted engine (.inl step)).sublist (sub.map _)
  · exact .refl s

/-! ### Loading (R168) -/

theorem Member.entry_member (m : Member) : m.entry.state.member := by
  unfold Member.entry SegState.member
  dsimp only
  split
  · exact .inr (.inr rfl)
  · exact .inr (.inl rfl)

/-- A packer without records or open segment is seated. -/
theorem seated_of_empty (empty : PackerEmpty s) (openSeg : s.rp.openSeg = none) : Seated s :=
  ⟨fun n hn => by rw [empty.buf] at hn; exact absurd rfl hn, fun o ho => by rw [openSeg] at ho; cases ho⟩

/-- With the FS quiet the RU is idle. -/
theorem RuAside.idle (h : RuAside s) (quiet : s.fs.ops = []) : s.ru.op = .idle := h.acts.idle (Fs.acts_of_ops_nil quiet _)

/-- The catalog comes into use with the RU idle and the die queues empty. -/
theorem stocked_of_loaded (running : t.ec.engine.running = true) (begun : 1 ≤ t.rp.nextSeq) (collections : Collections t)
    (oldest : 1 ≤ t.cu.oldest) (ru : RuAside t) (ops : t.fs.ops = []) : Stocked t where
  running := running
  begun := begun
  collections := collections
  oldest := oldest
  reclaim := by
    have idle := ru.idle ops
    refine ⟨by rw [ru.none_]; exact nofun, by rw [ru.none_]; exact List.nodup_nil, fun x hx => ?_⟩
    rw [idle] at hx
    rcases hx with hx | hx <;> cases hx
  noEngine := Fs.acts_of_ops_nil ops _
  claim := ru.claim
  acts := ru.acts

theorem loadCatalog_pool (head newest : Member) (s : State) : (loadCatalog head newest s).cu.freePool =
    interleaved s.fs.mask fun seg => ((loadEntries s.ec.members s).cu.entry seg).state == .free := by
  have fs : (loadEntries s.ec.members s).fs = s.fs := by simp
  simp only [loadCatalog, rebuildPools, enterReady, fs]

theorem catalogLoad_formKept (s : State) : FormKept s (catalogLoad s) := by
  unfold catalogLoad
  split
  next h =>
    obtain ⟨engine, step, -, quiet, going⟩ := h
    split
    next head newest first last =>
      have form (ok : CatalogOk s) : CatalogOk (loadCatalog head newest s) := by
        rw [CatalogOk, loadCatalog_catalog]
        exact (loadEntries_entry ok s.ec.members).1
      have ready : (loadCatalog head newest s).ec.engine = .ready := rfl
      have mounted : Beside (loadCatalog head newest s) (setEvent .mounted (loadCatalog head newest s)) := .of_eq
      have judged := mounted.arranges.trans (arranges_ruJudge _)
      refine ⟨fun _ => ⟨?_, fun stop => ?_⟩, fun ok => judged.form (form ok), fun l => (judged.placed (form l.catalog) ?_).placesOk⟩
      · rw [judged.ec]
        rfl
      · rw [judged.ec, show (loadCatalog head newest s).ec.stopPending = s.ec.stopPending by simp [loadCatalog, enterReady]] at stop
        rw [stop] at going
        cases going
      · obtain ⟨-, kept⟩ := l.marks.kept engine step newest last
        have once := l.places.mounted engine (.inr step)
        have fs : (loadCatalog head newest s).fs = s.fs := by simp [loadCatalog, enterReady]
        have ru : RuAside (loadCatalog head newest s) :=
          (l.places.ruAside (by rw [engine]; rfl)).congr (by simp [loadCatalog, enterReady]) (by rw [fs])
        have order : (loadCatalog head newest s).cu.orderList = s.ec.members.map Member.seg := rfl
        refine ⟨stocked_of_loaded rfl (Nat.le_add_left 1 _) ?_ (kept head (List.mem_of_mem_head? first)).1 ru
          (by rw [fs]; exact Fs.ops_of_quiet quiet), seated_of_empty (packerEmpty_loadCatalog head newest s) rfl⟩
        refine collections_rebuilt (form l.catalog) once s.fs.mask (fun x hx => ?_) ?_ ?_
        · rw [order] at hx
          rw [Cu.entry, loadCatalog_catalog, ← Cu.entry]
          rcases (loadEntries_entry l.catalog s.ec.members).2 x with ⟨m, hm, e⟩ | ⟨out, -⟩
          · rw [e]
            exact ⟨m.entry_member, (kept m hm).1⟩
          · exact absurd hx out
        · rw [loadCatalog_pool]
          simp only [Cu.entry, loadCatalog_catalog]
        · rw [loadCatalog_catalog]
          simp only [loadCatalog, rebuildPools, enterReady]
    · exact .refl s
  · exact .refl s

end Sys2Proof.Machine
end

section
/-!
SUPPORT. FORMAT keeps the laws of engine, catalog form and places (R99, R170 to R172).
-/
namespace Sys2Proof.Machine

-- One proof at a time, as in the tests: proofs checked side by side need more threads than the limits allow.
set_option Elab.async false

variable {s t u : State} {seg row : Nat} {c d : Fin 4} {op : FlashOp} {act : FlashAct}

/-! ### The taking of FORMAT and its erases (R170, R171) -/

theorem serveFormat_formKept (taken : Beside s u) (ec : u.ec = s.ec) (fs : u.fs = s.fs) (cu : u.cu = s.cu) (ru : u.ru = s.ru)
    (c : CardIx) (w : Work) : FormKept s (serveFormat c w u) := by
  have kept : FormKept s u := taken.kept (by rw [ec]; exact ⟨rfl, rfl⟩) fun _ _ _ => by rw [fs]
  unfold serveFormat
  split
  · exact (taken.trans (beside_answerCard c _ u)).kept (by simp [ec]) fun _ _ _ => by simp [fs]
  · extract_lets r s1 s2 cp2
    refine ⟨fun _ => ⟨rfl, fun _ => .inr (.inr rfl)⟩, fun ok => ?_, fun l => ?_⟩
    · have same : s2.cu.catalog = s.cu.catalog := by simp [s2, s1, cu]
      rw [CatalogOk, show ({ s2 with cp := { cp2 with served := some { card := c, work := w, job := .format } } } : State).cu.catalog =
        s.cu.catalog from same]
      exact ok
    · refine .of_formatting rfl ⟨rfl, nofun, ?_⟩ (fun _ => rfl) nofun
      have same : s2.fs = s.fs := by simp [s2, s1, fs]
      have op : s2.ru.op = s.ru.op := by simp [s2, s1, formatUnload, ru]
      show OpActs s2.ru.op (s2.fs.acts .reclaim)
      rw [op, same]
      exact l.places.opActs

/-- A FORMAT before its opening goes on. -/
theorem FormKept.of_formatEmpty (hs : s.ec.engine = .formatting) (step : s.ec.step ≠ .formatHeader)
    (ec : t.ec.engine = s.ec.engine) (flags : t.ec.loaded = s.ec.loaded ∧ t.ec.stopPending = s.ec.stopPending)
    (step' : t.ec.step ≠ .formatHeader) (form : CatalogOk s → CatalogOk t) (order : t.cu.orderList = s.cu.orderList)
    (ru : t.ru = s.ru) (acts : t.fs.acts .reclaim = s.fs.acts .reclaim) : FormKept s t :=
  ⟨fun k => k.congr ec flags.1 flags.2, form, fun l => .of_formatting (ec.trans hs)
    ((l.places.ruAside (by rw [hs]; rfl)).congr (by rw [ru]) acts) (fun _ => order.trans (l.places.formatEmpty hs step))
    fun h => absurd h step'⟩

theorem handErases_orderList (cs : List (Fin 4)) (s : State) : (handErases cs s).cu.orderList = s.cu.orderList := by
  induction cs generalizing s with
  | nil => rfl
  | cons c cs ih => rw [handErases, ih, ecEraseNext_orderList]

theorem formatQuiet_formKept (s : State) : FormKept s (formatQuiet s) := by
  unfold formatQuiet
  split
  next h =>
    obtain ⟨engine, step, quiet⟩ := h
    extract_lets ec1
    have ec := handErases_procedure chipEnables { s with ec := { ec1 with
      step := .formatErase
      eraseList := (s.cu.catalog.filter fun e => e.2.formatErases).map (·.1) } }
    simp only [Ec.procedure, Prod.mk.injEq] at ec
    obtain ⟨engine', step', -⟩ := ec
    refine .of_formatEmpty engine (by rw [step]; decide) engine' (by simp [ec1]) (by rw [step']; decide)
      (fun ok => (calm_handErases _ _).catalog ok) (handErases_orderList _ _) (by simp) ?_
    rw [reclaimActs_handErases]
  · exact .refl s

/-! ### The opening (R99, R172) -/

theorem supersede_of_nil (h : s.cu.orderList = []) : supersede s = s := by simp only [supersede, h, List.getLast?_nil]

theorem joinSegment_of_nil (h : s.cu.orderList = []) (seg q : Nat) :
    (joinSegment seg q s).cu.orderList = [seg] ∧ (joinSegment seg q s).ru = s.ru := by
  rw [joinSegment, supersede_of_nil h]
  exact ⟨by simp [h], rfl⟩

theorem formatFailed_flags (s : State) : (formatFailed s).ec.loaded = false ∨ (formatFailed s).ec.loaded = s.ec.loaded := by
  unfold formatFailed
  dsimp only
  split
  · exact .inl rfl
  · exact .inr (by simp)

theorem formatFailed_stop (s : State) : (formatFailed s).ec.stopPending = false := by
  unfold formatFailed
  dsimp only
  split
  · rfl
  next h => simpa using h

/-- R99, R172: with the die queues empty and no member left the head of the pool is opened, or FORMAT ends. -/
theorem FormKept.openFormatSegment (hs : s.ec.engine = .formatting) (ec : u.ec = s.ec) (form : CatalogOk s → CatalogOk u)
    (ru : u.ru = s.ru) (ops : Lawful s → u.fs.ops = []) (order : Lawful s → u.cu.orderList = [])
    (collections : Lawful s → Collections u) (acts : Lawful s → u.fs.acts .reclaim = s.fs.acts .reclaim) :
    FormKept s (openFormatSegment u) := by
  have hr : s.ec.engine.running = false := by rw [hs]; rfl
  have engineU : u.ec.engine = .formatting := by rw [ec, hs]
  unfold Machine.openFormatSegment
  split
  next seg rest pool =>
    have faulted : ({ Machine.joinSegment seg 1 u with ec := { (Machine.joinSegment seg 1 u).ec with step := .formatHeader } } : State).ec.engine ≠
        .faulted := by simp [engineU]
    have joins (ok : CatalogOk s) : CatalogOk (Machine.joinSegment seg 1 u) := catalogOk_joinSegment (form ok) seg 1
    refine ⟨fun k => k.congr (by simp [ec]) (by simp [ec]) (by simp [ec]), fun ok => ?_, fun l => ?_⟩
    · simpa [CatalogOk] using joins ok
    · obtain ⟨list, ru'⟩ := joinSegment_of_nil (order l) seg 1
      refine .of_formatting (by simp [engineU]) ((l.places.ruAside hr).congr (by simp [ru', ru]) ?_) (fun h => absurd (by simp) h) fun _ => ?_
      · rw [reclaimActs_handOp_engine]
        exact (congrArg (fun f : Fs => f.acts .reclaim) (by simp)).trans (acts l)
      · refine ⟨((collections l).joinSegment (form l.catalog) pool (Nat.le_refl 1)).congr (by simp) (by simp) (by simp) (by simp), ?_⟩
        rw [handOp_of_ne faulted]
        refine ⟨seg, _, _, _, Fs.ops_push_of_nil ?_ _ _, list⟩
        exact (congrArg Fs.ops (by simp)).trans (ops l)
  · have catalog : (formatFailed u).cu.catalog = u.cu.catalog := by simp
    have sameRu : (formatFailed u).ru = u.ru := by simp
    have fs : (formatFailed u).fs = u.fs := by simp
    have down : (formatFailed u).ec.engine.running = false ∧ (formatFailed u).ec.engine ≠ .formatting ∧
        (formatFailed u).ec.engine ≠ .mounting := by
      rcases formatFailed_engine u with e | e <;> rw [e] <;> decide
    refine .of_down (fun k => ⟨?_, by rw [formatFailed_stop]; nofun⟩) (fun ok => by rw [CatalogOk, catalog]; exact form ok) down.1
      down.2.1 down.2.2 fun l => (l.places.ruAside hr).congr (by rw [sameRu, ru]) (by rw [fs]; exact acts l)
    rw [down.1]
    rcases formatFailed_flags u with e | e
    · exact e
    · rw [e, ec, k.loaded, hr]

theorem raiseEpoch_pools (s : State) : (raiseEpoch s).cu.freePool = s.cu.freePool ∧ (raiseEpoch s).cu.retired = s.cu.retired := by
  unfold raiseEpoch
  split <;> exact ⟨rfl, rfl⟩

theorem formatErasesEnd_formKept (s : State) : FormKept s (formatErasesEnd s) := by
  unfold formatErasesEnd
  split
  next h =>
    obtain ⟨engine, step, -, quiet⟩ := h
    extract_lets s1 cu1
    obtain ⟨pool, retired⟩ : s1.cu.freePool = (rebuildPools s).cu.freePool ∧ s1.cu.retired = (rebuildPools s).cu.retired :=
      raiseEpoch_pools (rebuildPools s)
    have list : s1.cu.orderList = s.cu.orderList := (raiseEpoch_orderList (rebuildPools s)).trans (by simp only [rebuildPools])
    have fs : s1.fs = s.fs := by simp [s1]
    have ru : s1.ru = s.ru := by simp [s1]
    have ec : s1.ec = s.ec := by simp [s1]
    have form : s1.cu.catalog = s.cu.catalog := by simp [s1]
    have empty (l : Lawful s) : s1.cu.orderList = [] := list.trans (l.places.formatEmpty engine (by rw [step]; decide))
    clear_value s1
    refine .openFormatSegment engine ec (fun ok => ?_) ru (fun _ => ?_) empty (fun l => ?_) fun _ => congrArg (fun f : Fs => f.acts .reclaim) fs
    · rw [CatalogOk, show ({ s1 with cu := { cu1 with mode := formatMode s, nextSerial := 1 } } : State).cu.catalog = s.cu.catalog from form]
      exact ok
    · exact (congrArg Fs.ops fs).trans (Fs.ops_of_quiet quiet)
    · have formed : CatalogOk s1 := by rw [CatalogOk, form]; exact l.catalog
      refine (collections_rebuilt (t := s1) formed (by rw [empty l]; exact List.nodup_nil) s.fs.mask (by rw [empty l]; exact nofun) ?_ ?_).congr
        rfl rfl rfl rfl
      · simp only [Cu.entry_congr form]
        exact pool.trans (by simp only [rebuildPools])
      · rw [form]
        exact retired.trans (by simp only [rebuildPools])
  · exact .refl s

/-- R172: READY, or STOPPING, with the header row's segment as the one member. -/
theorem FormKept.formatDone (hs : s.ec.engine = .formatting) (ec : u.ec = s.ec) (form : CatalogOk s → CatalogOk u) (ru : u.ru = s.ru)
    (ops : Lawful s → u.fs.ops = []) (order : Lawful s → u.cu.orderList = [seg]) (collections : Lawful s → Collections u)
    (acts : Lawful s → u.fs.acts .reclaim = s.fs.acts .reclaim) : FormKept s (formatDone seg u) := by
  unfold Machine.formatDone
  extract_lets e1 s1 rp2 cp2 cu2 s2 s3
  have formed (ok : CatalogOk s) : CatalogOk (enterReady s3) := by
    have entry : CatalogOk s1 := catalogOk_setEntry (form ok) seg _
    have same : (enterReady s3).cu.catalog = s1.cu.catalog := by simp [s3, s2, enterReady, cu2]
    rw [CatalogOk, same]
    exact entry
  have placed (l : Lawful s) : Placed (enterReady s3) := by
    have mem : seg ∈ u.cu.orderList := by rw [order l]; exact List.mem_singleton_self _
    have built : Collections s1 := (collections l).setMember (form l.catalog) mem ((collections l).member mem) ((collections l).members seg mem).2
    have fs : (enterReady s3).fs = u.fs := by simp [s3, s2, s1, enterReady]
    have aside : RuAside (enterReady s3) :=
      (l.places.ruAside (by rw [hs]; rfl)).congr (by simp [s3, s2, s1, enterReady, ru]) (by rw [fs]; exact acts l)
    have rp : (enterReady s3).rp = s2.rp := by simp [s3, enterReady]
    have cu : (enterReady s3).cu = s2.cu := by simp [s3, enterReady]
    have list : (enterReady s3).cu.orderList = [seg] := by rw [cu]; exact order l
    refine ⟨stocked_of_loaded rfl (by rw [rp]) (built.congr (by rw [cu]) (by rw [cu]) (by rw [cu]) (by rw [cu])) (by rw [cu]) aside
      (by rw [fs]; exact ops l), fun n hn => ?_, fun o ho => ?_⟩
    · rw [rp] at hn
      cases n <;> exact absurd rfl hn
    · rw [rp] at ho
      cases ho
      rw [list]
      rfl
  have ready : (enterReady s3).ec.engine = .ready := rfl
  have stop : (enterReady s3).ec.stopPending = s.ec.stopPending := by simp [s3, s2, s1, enterReady, ec]
  split
  · have judged := arranges_ruJudge (enterStopping (enterReady s3))
    have engine : (enterStopping (enterReady s3)).ec.engine = .stopping := (enterStopping_moves _).2
    obtain ⟨loaded, stopped⟩ := enterStopping_flags (enterReady s3)
    have stopForm (ok : CatalogOk s) : CatalogOk (enterStopping (enterReady s3)) := by
      simpa [CatalogOk] using formed ok
    refine ⟨fun _ => ⟨?_, by rw [judged.ec, stopped]; nofun⟩, fun ok => judged.form (stopForm ok),
      fun l => (judged.placed (stopForm l.catalog) (placed l).enterStopping).placesOk⟩
    rw [judged.ec, engine, loaded]
    rfl
  next going =>
    have judged := arranges_ruJudge (enterReady s3)
    refine ⟨fun _ => ⟨by rw [judged.ec]; rfl, fun h => ?_⟩, fun ok => judged.form (formed ok),
      fun l => (judged.placed (formed l.catalog) (placed l)).placesOk⟩
    rw [judged.ec, stop, ← ec] at h
    exact absurd h going

theorem headerRowResult_formKept (passed : Bool) (s : State) : FormKept s (headerRowResult passed s) := by
  unfold headerRowResult
  split
  next h =>
    obtain ⟨engine, step⟩ := h
    split
    · exact .refl s
    next d op ending =>
      split
      next seg row _ _ _ source act =>
        have ended (l : Lawful s) : (completeOp d s).fs.ops = [] ∧ s.cu.orderList = [seg] := by
          obtain ⟨x, data, sp0, sp1, ops, order⟩ := l.places.formatHeader engine step
          have is : op = { source := .engine, act := .programRow x 0 data sp0 sp1 } := by
            have mem := Fs.ops_of_ending ending
            rw [ops] at mem
            exact List.mem_singleton.1 mem
          have same : x = seg := by
            rw [is] at act
            cases act
            rfl
          exact ⟨Fs.ops_complete_of_single (Fs.head_of_ending ending) (by rw [ops, is]), by rw [order, same]⟩
        have form (ok : CatalogOk s) : CatalogOk (completeOp d s) := by simpa [CatalogOk] using ok
        have collections (l : Lawful s) : Collections (completeOp d s) :=
          (l.places.collections (.inr ⟨engine, step⟩)).congr (by simp) (by simp) (by simp) (by simp)
        have acts : (completeOp d s).fs.acts .reclaim = s.fs.acts .reclaim := reclaimActs_completeOp ending (by rw [source]; decide)
        dsimp only
        split
        · exact .formatDone engine (by simp) form (by simp) (fun l => (ended l).1) (fun l => by simpa using (ended l).2) collections
            fun _ => acts
        · refine .openFormatSegment engine (by simp) (fun ok => (calm_claimRetireLast seg _).catalog (form ok)) (by simp)
            (fun l => by simpa using (ended l).1) (fun l => ?_) (fun l => ?_) fun _ => by simpa using acts
          · show (completeOp d s).cu.orderList.filter (· != seg) = []
            simp [(ended l).2]
          · exact (collections l).claimRetireLast (form l.catalog) (by simp [(ended l).2])
      · exact .refl s
  · exact .refl s

end Sys2Proof.Machine
end

section
/-!
PROOF. Every step keeps the laws of the engine, of the catalog's form and of the places of the segments (O9).
-/
namespace Sys2Proof.Machine

-- One proof at a time, as in the tests: proofs checked side by side need more threads than the limits allow.
set_option Elab.async false

variable {s t : State}

/-- Every command keeps the laws, up to the quiet reports that end it. -/
theorem exec_keepsForm (i : Instr) (s : State) : ∃ t, exec i s = done t ∧ FormKept s t := by
  cases i with
  | powerOnReset => exact ⟨_, rfl, reset_formKept rfl rfl rfl rfl⟩
  | pinReset asserted =>
    refine ⟨_, rfl, ?_⟩
    split
    · exact reset_formKept rfl rfl rfl rfl
    · exact .port rfl rfl rfl rfl rfl
  | softReset => exact ⟨_, rfl, portAccess_formKept (resetSoft_formKept s)⟩
  | runWritten1 l => exact ⟨_, rfl, portAccess_formKept (writeRun_formKept _ _ s)⟩
  | runWritten0 l => exact ⟨_, rfl, portAccess_formKept (writeRun_formKept _ _ s)⟩
  | lingerWrite v => exact ⟨_, rfl, portAccess_formKept .port⟩
  | eventsWrite v => exact ⟨_, rfl, portAccess_formKept .port⟩
  | registerWrite o w d => exact ⟨_, rfl, portAccess_formKept (registerStore_formKept _ _ s)⟩
  | hostXmWrite o w d => exact ⟨_, rfl, portAccess_formKept .port⟩
  | snapshotCapture o w => exact ⟨_, rfl, portAccess_formKept .port⟩
  | stateByteWrite c w d => exact ⟨_, rfl, portAccess_formKept .port⟩
  | append => exact ⟨_, rfl, .take arranges_serveAppend⟩
  | recordStage => exact ⟨_, rfl, recordStage_formKept s⟩
  | flush => exact ⟨_, rfl, .take arranges_serveFlush⟩
  | lingerExpiry => exact ⟨_, rfl, lingerExpire_formKept s⟩
  | rowProgramPass => exact ⟨_, rfl, rowProgramPass_formKept s⟩
  | rowProgramFail planes =>
    cases h : s.rp.relocation with
    | none => exact ⟨recordRowResult rowFail s, by simp only [exec, execRowProgramFail, h], rowProgramFail_formKept s⟩
    | some r => exact ⟨s, by simp only [exec, execRowProgramFail, h], .refl s⟩
  | replacementRow0Fail planes =>
    cases h : s.rp.relocation with
    | some r =>
      exact ⟨recordRowResult (replacementFail r) s, by simp only [exec, execReplacementRow0Fail, h], replacementFail_formKept h⟩
    | none =>
      by_cases hf : s.ec.engine = .formatting
      · exact ⟨recordRowResult (fun _ _ t => t) s, by simp only [exec, execReplacementRow0Fail, h, if_pos hf],
          .recordRowResult (fun _ _ _ => id) (fun _ _ _ => rfl) fun _ _ _ _ _ _ _ _ _ => id⟩
      · exact ⟨s, by simp only [exec, execReplacementRow0Fail, h, if_neg hf], .refl s⟩
  | digestProgramComplete p0 p1 => exact ⟨_, rfl, digestResult_formKept _ s⟩
  | readSeq => exact ⟨_, rfl, .take fun c w u => Beside.arranges .of_eq⟩
  | readKey => exact ⟨_, rfl, .take fun c w u => Beside.arranges .of_eq⟩
  | pinRequest => exact ⟨_, rfl, pinRequest_formKept s⟩
  | arTrailersResult r => exact ⟨_, rfl, trailersResult_formKept r s⟩
  | arReadRowResult r => exact ⟨_, rfl, readRowResult_formKept r s⟩
  | hold => exact ⟨_, rfl, .take fun c w u => Beside.arranges .of_eq⟩
  | holdRequest => exact ⟨_, rfl, (beside_holdRequest s).kept⟩
  | holdRenew => exact ⟨_, rfl, .take fun c w u => Beside.arranges .of_eq⟩
  | release => exact ⟨_, rfl, .take arranges_serveRelease⟩
  | trim => exact ⟨_, rfl, .take arranges_serveTrim⟩
  | census => exact ⟨_, rfl, .pathTake fun c w _ => Beside.kept .of_eq⟩
  | format => exact ⟨_, rfl, .pathTake fun c w _ => serveFormat_formKept (beside_takeHead _ c s) (by simp) (by simp) (by simp) (by simp) c w⟩
  | leaseTick =>
    refine ⟨_, rfl, ?_⟩
    split
    · exact leaseTick_formKept s
    · exact .refl s
  | holdExpiry =>
    refine ⟨_, rfl, ?_⟩
    split
    · exact leaseTick_formKept s
    · exact .refl s
  | removalClaim => exact ⟨_, rfl, removalClaim_formKept s⟩
  | reclaimEraseComplete p0 p1 => exact ⟨_, rfl, reclaimErase_formKept p0 p1 s⟩
  | programMarkComplete p0 => exact ⟨_, rfl, markResult_formKept p0 s⟩
  | ecEraseComplete p0 p1 => exact ⟨_, rfl, ecErase_formKept p0 p1 s⟩
  | flashPhaseEnd => exact ⟨_, rfl, fsQueues_formKept (Fs.phaseEnd_queue s.fs)⟩
  | dieReady c => exact ⟨_, rfl, fsQueues_formKept (Fs.ready_queue s.fs c)⟩
  | dieTimeout c => exact ⟨_, rfl, dieTimeout_formKept c s⟩
  | resetDieComplete c => exact ⟨_, rfl, resetDieReady_formKept c s⟩
  | resetDieNoReady c => exact ⟨_, rfl, resetDieExpired_formKept c s⟩
  | probe b0 b1 b2 b3 => exact ⟨_, rfl, probeResult_formKept _ s⟩
  | probeEnd => exact ⟨_, rfl, probeEnd_formKept s⟩
  | mountScanResult r => exact ⟨_, rfl, scanResult_formKept r s⟩
  | mountScanEnd => exact ⟨_, rfl, scanEnd_formKept s⟩
  | memberReadResult r => exact ⟨_, rfl, memberResult_formKept r s⟩
  | memberReadsEnd => exact ⟨_, rfl, readsEnd_formKept s⟩
  | catalogLoad => exact ⟨_, rfl, catalogLoad_formKept s⟩
  | formatQuiet => exact ⟨_, rfl, formatQuiet_formKept s⟩
  | formatErasesEnd => exact ⟨_, rfl, formatErasesEnd_formKept s⟩
  | formatHeaderRowComplete p0 p1 => exact ⟨_, rfl, headerRowResult_formKept _ s⟩
  | haltOnQuiet => exact ⟨_, rfl, haltOnQuiet_formKept s⟩
  | stopComplete => exact ⟨_, rfl, stopComplete_formKept s⟩

/-- A step is the effect of the command at the front, or none. -/
theorem step_keepsForm (h : step s = .next t) : FormKept s t := by
  unfold step at h
  split at h
  · cases h; exact .refl s
  next c rest _ =>
    obtain ⟨u, hu, kept⟩ := exec_keepsForm c { s with pending := rest }
    rw [hu, done_eq] at h
    cases h
    exact .of_alike (u := { s with pending := rest }) rfl rfl rfl rfl rfl rfl kept.settle

/-- Settles O9: each command keeps the three laws together, by what it is made of: changes the laws do not see, the claims that move
one segment from its place to another while the catalog is in use, and the procedures that build the collections anew. -/
theorem stepKeepsEngineAndCatalogForm : Obligations.StepKeepsEngineAndCatalogForm := by
  unfold Obligations.StepKeepsEngineAndCatalogForm
  exact ⟨fun _ _ k h => (step_keepsForm h).engine k, fun _ _ k h => (step_keepsForm h).form k,
    fun _ _ paths buffers flight catalog marks places h =>
      (step_keepsForm h).places ⟨paths, buffers, flight, catalog, marks, places⟩⟩

end Sys2Proof.Machine
end

section
/-!
SUPPORT. The RU's judgement: the candidate, the erase it hands, and the events that make it judge (R150 to R153).
-/
namespace Sys2Proof.Machine

-- One proof at a time, as in the tests: proofs checked side by side need more threads than the limits allow.
set_option Elab.async false

variable {s t : State} {seg x : Nat} {rest : List Nat} {v : RpServed}

/-! ### The candidate (R151) -/

theorem candidateButPin_eq_some : candidateButPin s = some x ↔ orderHead s.cu = some x ∧ Reclaimable s x := by
  constructor
  · intro h
    obtain ⟨y, head, reclaimable⟩ := candidateButPin_isSome_iff.1 (Option.isSome_of_eq_some h)
    have same : y = x := by
      unfold candidateButPin at h
      simp only [head] at h
      split at h
      · exact Option.some.inj h
      · cases h
    exact same ▸ ⟨head, reclaimable⟩
  · rintro ⟨head, reclaimable⟩
    obtain ⟨y, hy⟩ := Option.isSome_iff_exists.1 (candidateButPin_isSome_iff.2 ⟨x, head, reclaimable⟩)
    have same : y = x := by
      unfold candidateButPin at hy
      simp only [head] at hy
      split at hy
      · exact (Option.some.inj hy).symm
      · cases hy
    exact same ▸ hy

theorem removable_iff : Removable s x ↔ orderHead s.cu = some x ∧ Reclaimable s x ∧ s.ar.pin ≠ some x := by
  constructor
  · rintro ⟨first, complete, unheld, unpinned, due⟩
    exact ⟨orderHead_eq_some.2 first, ⟨complete, unheld, due⟩, unpinned⟩
  · rintro ⟨head, ⟨complete, unheld, due⟩, unpinned⟩
    exact ⟨orderHead_eq_some.1 head, complete, unheld, unpinned, due⟩

theorem candidate_eq_some : candidate s = some x ↔ Removable s x := by
  rw [candidate, Option.filter_eq_some_iff, candidateButPin_eq_some, removable_iff, bne_iff_ne, and_assoc]

theorem candidate_eq_none : candidate s = none ↔ ∀ x, ¬ Removable s x := by
  simp only [Option.eq_none_iff_forall_ne_some, ne_eq, candidate_eq_some]

/-! ### The judgement (R152, R153) -/

/-- The RU judges: it has no operation and no claim outstanding, and the engine is READY or STOPPING. -/
def RuJudges (s : State) : Prop := Running s ∧ s.ru.op = .idle ∧ s.ru.claim = none

theorem ruJudges_iff : RuJudges s ↔ s.ec.engine.running = true ∧ s.ru.idle = true := by
  rw [RuJudges, running_iff, Ru.idle_iff]

theorem ruJudge_of_not (h : ¬ RuJudges s) : ruJudge s = s := if_neg (mt ruJudges_iff.2 h)

theorem ruJudge_of_pinned (h : RuJudges s) (hs : s.ru.superseded = x :: rest) (hp : s.ar.pin = some x) : ruJudge s = s := by
  rw [ruJudge, if_pos (ruJudges_iff.1 h)]
  simp only [hs, if_pos hp]

theorem ruJudge_claims (h : RuJudges s) (hs : s.ru.superseded = []) (hx : Removable s x) :
    ruJudge s = { s with ru := { s.ru with claim := some x } } := by
  rw [ruJudge, if_pos (ruJudges_iff.1 h)]
  simp only [hs, candidate_eq_some.2 hx]

theorem ruJudge_rests (h : RuJudges s) (hs : s.ru.superseded = []) (hx : ∀ x, ¬ Removable s x) : ruJudge s = s := by
  rw [ruJudge, if_pos (ruJudges_iff.1 h)]
  simp only [hs, candidate_eq_none.2 hx]

theorem ruErase_eq (hf : s.ec.engine ≠ .faulted) (seg : Nat) : ruErase seg s = { s with
    ru := { s.ru with op := .erase seg }
    fs := s.fs.push (segDie seg) { source := .reclaim, act := .eraseSegment seg } } :=
  handOp_of_ne (s := { s with ru := { s.ru with op := .erase seg } }) hf .reclaim (.eraseSegment seg)

theorem queuesGain_ruErase (hf : s.ec.engine ≠ .faulted) (seg : Nat) :
    QueuesGain [{ source := .reclaim, act := .eraseSegment seg }] s (ruErase seg s) :=
  (queuesGain_handOp (s := { s with ru := { s.ru with op := .erase seg } }) hf .reclaim (.eraseSegment seg)).of_fs rfl rfl

theorem reexamineSpace_of_none (h : ∀ v, s.rp.served = some v → v.wait ≠ .space) : reexamineSpace s = s := by
  unfold reexamineSpace
  split
  next v hv => exact if_neg fun k => h v hv k.1
  · rfl

/-- With no card waiting for space an event for both makes the RU judge twice. -/
theorem react_of_none (h : ∀ v, s.rp.served = some v → v.wait ≠ .space) : react s = ruJudge (ruJudge s) := by
  rw [react, reexamineSpace_of_none (s := ruJudge s)]
  simpa using h

theorem needsMark_eq_false {e : Entry} {p0 p1 : PlaneStatus} : needsMark e p0 p1 = false ↔ (p0 = .pass ∧ p1 = .pass) ∧ e.retire = false := by
  simp [needsMark, bothPass]

end Sys2Proof.Machine
end

section
/-!
PROOF. The result of the RU's erase, and the RU's judgement (O46).
-/
namespace Sys2Proof.Machine

-- One proof at a time, as in the tests: proofs checked side by side need more threads than the limits allow.
set_option Elab.async false

variable {s : State} {d : Fin 4} {seg : Nat} {p0 p1 : PlaneStatus}

theorem reclaimErase_frees (ends : Ends d .reclaim (.eraseSegment seg) s) (passed : p0 = .pass ∧ p1 = .pass)
    (kept : (s.cu.entry seg).retire = false) : reclaimErase p0 p1 s = react (ruEnd (claimFreed seg (completeOp d s))) := by
  have good : needsMark ((completeOp d s).cu.entry seg) p0 p1 = false := needsMark_eq_false.2 ⟨passed, by simpa using kept⟩
  unfold reclaimErase
  simp only [ends.ending, if_pos ((running_iff s).1 ends.running), good, Bool.false_eq_true, if_false]

theorem reclaimErase_marks (ends : Ends d .reclaim (.eraseSegment seg) s)
    (bad : ¬ (p0 = .pass ∧ p1 = .pass) ∨ (s.cu.entry seg).retire = true) :
    reclaimErase p0 p1 s = react (handOp .reclaim (.programMark seg (decide (¬ (p0 = .pass ∧ p1 = .pass))))
      { completeOp d s with ru := { s.ru with op := .mark seg } }) := by
  have mark : needsMark ((completeOp d s).cu.entry seg) p0 p1 = true := by
    rw [← Bool.not_eq_false, needsMark_eq_false]
    rintro ⟨passed, kept⟩
    rcases bad with h | h
    · exact h passed
    · simp [h] at kept
  have failed : (!bothPass p0 p1) = decide (¬ (p0 = .pass ∧ p1 = .pass)) := by
    cases p0 <;> cases p1 <;> rfl
  unfold reclaimErase
  simp only [ends.ending, if_pos ((running_iff s).1 ends.running), mark, if_true, failed]
  simp

/-- Settles O46: the judgement by its cases, and the result of the erase by whether a mark is needed. -/
theorem reclaimEraseFreesOrMarks : Obligations.ReclaimEraseFreesOrMarks := by
  unfold Obligations.ReclaimEraseFreesOrMarks
  refine ⟨fun s => ⟨ruJudge_of_not, fun x rest judges hs hp => ruJudge_of_pinned judges hs hp, fun x rest judges hs hp => ?_,
    fun judges hs => ⟨fun x => ruJudge_claims judges hs, ruJudge_rests judges hs⟩, react_of_none⟩, fun s p0 p1 d seg ends ok => ?_⟩
  · obtain ⟨running, idle, unclaimed⟩ := judges
    rw [ruJudge_erases running idle unclaimed hs hp]
    refine ⟨ruErase_ru x _, ?_, ?_⟩
    · exact (queuesGain_ruErase (s := { s with ru := { s.ru with superseded := rest } }) running.notFaulted x).of_fs rfl rfl
    · rw [ruErase_eq (s := { s with ru := { s.ru with superseded := rest } }) running.notFaulted x]
  · have after := queuesAfter_completeOp d s
    refine ⟨fun passed kept => ⟨_, congrArg done (reclaimErase_frees ends passed kept), ?_, by simp [ruEnd, claimFreed], rfl,
      after.of_fs (by simp [ruEnd]), by simp [ruEnd, claimFreed, setEntry, completeOp]⟩, fun bad =>
      ⟨_, congrArg done (reclaimErase_marks ends bad), by simp, ?_, ?_⟩⟩
    · exact (onlyEntry_setEntry (s := completeOp d s) (by simpa [CatalogOk] using ok) seg .freed).of_catalog (by simp) rfl
    · exact after.gain ((queuesGain_handOp (s := { completeOp d s with ru := { s.ru with op := .mark seg } })
        (by simpa using ends.running.notFaulted) _ _).of_fs rfl rfl)
    · rw [handOp_of_ne (by simpa using ends.running.notFaulted)]
      simp [completeOp]

end Sys2Proof.Machine
end

section
/-!
SUPPORT. What a read of the scan does to the classified segment and to the die's queue (R94, R160, R161).
-/
namespace Sys2Proof.Machine

-- One proof at a time, as in the tests: proofs checked side by side need more threads than the limits allow.
set_option Elab.async false

variable {s : State} {d : Fin 4} {seg row : Nat} {c : Candidate} {pre post : List Candidate}

/-- The scan's next read of the die after that of a segment. -/
def scanReads (seg : Nat) : List FlashOp :=
  if (seg + 1) % 2048 = 0 then [] else [{ source := .engine, act := .readTrailers (seg + 1) 0 }]

theorem queuesGain_nil (s : State) : QueuesGain [] s s := ⟨fun e => by simp, rfl, rfl, rfl⟩

theorem queuesGain_scanNext (hf : s.ec.engine ≠ .faulted) (stop : s.ec.stopPending = false) (seg : Nat) :
    QueuesGain (scanReads seg) s (scanNext seg s) := by
  unfold scanNext scanReads
  by_cases last : (seg + 1) % 2048 = 0
  · rw [if_pos last, if_pos (.inr last)]
    exact queuesGain_nil s
  · rw [if_neg last, if_neg (by simp [stop, last])]
    exact queuesGain_handOp hf _ _

theorem scanNext_eq (seg : Nat) (s : State) : ∃ f, scanNext seg s = { s with fs := f } := by
  unfold scanNext
  split
  · exact ⟨_, rfl⟩
  · by_cases faulted : s.ec.engine = .faulted
    · exact ⟨_, handOp_of_faulted faulted _ _⟩
    · exact ⟨_, handOp_of_ne faulted _ _⟩

theorem onlyEntry_joinRetired (ok : CatalogOk s) (seg : Nat) (cause : RetireCause) :
    OnlyEntry seg { Entry.freed with state := .retired, cause := cause } s (joinRetired seg cause s) :=
  (onlyEntry_setEntry ok seg (.retiredWith cause)).of_catalog rfl rfl

theorem erased_iff {l : List Byte} : (l.all (· == 0xFF)) = true ↔ ∀ b ∈ l, b = 0xFF := by simp

/-! ### The candidates held for their row 0 (R161) -/

theorem find?_held (mine : c.seg = seg) (before : ∀ x ∈ pre, x.seg ≠ seg) :
    (pre ++ c :: post).find? (fun x => x.seg == seg) = some c := by
  have none_ : pre.find? (fun x => x.seg == seg) = none := List.find?_eq_none.2 fun x hx => by simpa using before x hx
  rw [List.find?_append, none_, Option.none_or, List.find?_cons_of_pos (by simpa using mine)]

theorem filter_held (mine : c.seg = seg) (before : ∀ x ∈ pre, x.seg ≠ seg) (after : ∀ x ∈ post, x.seg ≠ seg) :
    (pre ++ c :: post).filter (fun x => x.seg != seg) = pre ++ post := by
  have kept {l : List Candidate} (h : ∀ x ∈ l, x.seg ≠ seg) : l.filter (fun x => x.seg != seg) = l :=
    List.filter_eq_self.2 fun x hx => by simpa using h x hx
  rw [List.filter_append, List.filter_cons_of_neg (by simpa using mine), kept before, kept after]

/-! ### A read of the scan completes (R161) -/

section
variable (engine : s.ec.engine = .mounting) (step : s.ec.step = .scan)
include engine step

theorem scanResult_trailers (r : ReadSpare) (ending : s.fs.ending = some (d, { source := .engine, act := .readTrailers seg row })) :
    scanResult (.trailers r) s = scanTrailers seg r (completeOp d s) := by
  unfold scanResult
  rw [if_pos ⟨engine, step⟩, ending]

theorem scanResult_row (r : ReadRow) (ending : s.fs.ending = some (d, { source := .engine, act := .readRow seg row })) :
    scanResult (.row r) s = scanRow0 seg r (countCorrected r (completeOp d s)) := by
  unfold scanResult
  rw [if_pos ⟨engine, step⟩, ending]

end

/-- The verified row 0 makes a candidate of the one held for it. -/
def scanAccepted (c : Candidate) (r : ReadRow) (left : List Candidate) (s : State) : State :=
  { s with ec := { s.ec with
    scanHeld := left
    candidates := s.ec.candidates ++ [{ seg := c.seg, header := c.header, trailer := rowTrailer r }] } }

/-- Any other row 0 leaves its segment UNCLEAN. -/
def scanDropped (c : Candidate) (left : List Candidate) (s : State) : State :=
  classify c.seg .unclean { s with ec := { s.ec with scanHeld := left } }

/-- Row 0 of a held segment has been read. -/
theorem scanRow0_of_held (held : s.ec.scanHeld = pre ++ c :: post) (mine : c.seg = seg) (before : ∀ x ∈ pre, x.seg ≠ seg)
    (after : ∀ x ∈ post, x.seg ≠ seg) (r : ReadRow) : scanRow0 seg r s =
      scanNext seg (if rowVerified r 0 then scanAccepted c r (pre ++ post) s else scanDropped c (pre ++ post) s) := by
  unfold scanRow0
  simp only [held, find?_held mine before, filter_held mine before after]
  split
  · rw [scanAccepted, mine]
  · rw [scanDropped, mine]

end Sys2Proof.Machine
end

section
/-!
PROOF. The scan classifies a segment (O53).
-/
namespace Sys2Proof.Machine

-- One proof at a time, as in the tests: proofs checked side by side need more threads than the limits allow.
set_option Elab.async false

variable {s t : State} {d : Fin 4} {seg : Nat}

section
variable (ok : CatalogOk s) (engine : s.ec.engine = .mounting) (stop : s.ec.stopPending = false)
include ok engine stop

/-- The first two tests: the segment is retired and the scan goes on. -/
theorem scan_retires (d : Fin 4) (seg : Nat) (cause : RetireCause) (ht : t = scanNext seg (joinRetired seg cause (completeOp d s))) :
    OnlyEntry seg { Entry.freed with state := .retired, cause := cause } s t ∧
    (∀ x, x ∈ t.cu.retired ↔ x = seg ∨ x ∈ s.cu.retired) ∧ QueuesAfter d (scanReads seg) s t ∧
    { t with cu := { t.cu with catalog := s.cu.catalog, retired := s.cu.retired }, fs := s.fs } = s := by
  have gain := queuesGain_scanNext (s := joinRetired seg cause (completeOp d s)) (by simp [engine]) (by simpa using stop) seg
  obtain ⟨f, e⟩ := scanNext_eq seg (joinRetired seg cause (completeOp d s))
  subst ht
  refine ⟨?_, fun x => ?_, (queuesAfter_completeOp d s).gain (gain.of_fs (by simp) rfl), by rw [e]; rfl⟩
  · exact (onlyEntry_joinRetired (s := completeOp d s) (by simpa [CatalogOk] using ok) seg cause).of_catalog (by simp) (by simp)
  · rw [e]
    exact mem_insertRising

/-- No test is met: the segment is UNCLEAN and the scan goes on. -/
theorem scan_unclean (d : Fin 4) (seg : Nat) (ht : t = scanNext seg (classify seg .unclean (completeOp d s))) :
    OnlyEntry seg { Entry.freed with state := .unclean } s t ∧ QueuesAfter d (scanReads seg) s t ∧
    { t with cu := { t.cu with catalog := s.cu.catalog }, fs := s.fs } = s := by
  have gain := queuesGain_scanNext (s := classify seg .unclean (completeOp d s)) (by simp [engine]) (by simpa using stop) seg
  obtain ⟨f, e⟩ := scanNext_eq seg (classify seg .unclean (completeOp d s))
  subst ht
  refine ⟨?_, (queuesAfter_completeOp d s).gain (gain.of_fs (by simp) rfl), by rw [e]; rfl⟩
  exact (onlyEntry_setEntry (s := completeOp d s) (by simpa [CatalogOk] using ok) seg _).of_catalog (by simp) (by simp [classify])

end

/-- Settles O53: the tests on the row-0 spare bytes in their order, and the row 0 of a possible candidate by its check. -/
theorem scanClassifiesSegment : Obligations.ScanClassifiesSegment := by
  unfold Obligations.ScanClassifiesSegment
  intro s d seg engine step stop ok
  refine ⟨fun r row ending => ?_, fun r row c pre post ending held mine before after => ?_⟩
  · have ended : (completeOp d s).ec.engine ≠ .faulted := by simp [engine]
    have result := scanResult_trailers engine step r ending
    refine ⟨_, (congrArg done result).trans (done_of_ne (by simp [engine])), ?_⟩
    by_cases factory : r.spare0.getD 0 0 ≠ 0xFF ∨ r.spare1.getD 0 0 ≠ 0xFF
    · rw [if_pos factory]
      exact scan_retires ok engine stop d seg .factory (if_pos factory)
    rw [if_neg factory]
    by_cases found : r.spare0.getD 1 0xFF = 0 ∧ r.spare0.getD 2 0xFF = 0
    · rw [if_pos found]
      exact scan_retires ok engine stop d seg .found ((if_neg factory).trans (if_pos found))
    rw [if_neg found]
    have erased : (r.spare0.all (· == 0xFF) ∧ r.spare1.all (· == 0xFF)) ↔ (∀ b ∈ r.spare0, b = 0xFF) ∧ ∀ b ∈ r.spare1, b = 0xFF :=
      and_congr erased_iff erased_iff
    by_cases blank : r.spare0.all (· == 0xFF) ∧ r.spare1.all (· == 0xFF)
    · rw [if_pos (erased.1 blank)]
      have is : scanTrailers seg r (completeOp d s) = scanNext seg (completeOp d s) :=
        (if_neg factory).trans ((if_neg found).trans (if_pos blank))
      obtain ⟨f, e⟩ := scanNext_eq seg (completeOp d s)
      rw [is]
      exact ⟨(queuesAfter_completeOp d s).gain (queuesGain_scanNext ended (by simpa using stop) seg), by rw [e]; rfl⟩
    rw [if_neg (mt erased.2 blank)]
    by_cases possible : possibleCandidate seg r = true
    · rw [if_pos ((possibleCandidate_iff seg r).1 possible)]
      have is : scanTrailers seg r (completeOp d s) = handOp .engine (.readRow seg 0) { completeOp d s with ec := { s.ec with
          scanHeld := s.ec.scanHeld ++ [{ seg := seg, header := Header.parse r.spare1, trailer := Trailer.parse r.spare0 }] } } :=
        (if_neg factory).trans ((if_neg found).trans ((if_neg blank).trans ((if_pos possible).trans (if_neg (by simp [stop])))))
      have hands := handOp_of_ne (s := { completeOp d s with ec := { s.ec with
          scanHeld := s.ec.scanHeld ++ [{ seg := seg, header := Header.parse r.spare1, trailer := Trailer.parse r.spare0 }] } })
        (by simp [engine]) .engine (.readRow seg 0)
      rw [is]
      refine ⟨by rw [hands], (queuesAfter_completeOp d s).gain ((queuesGain_handOp (s := { completeOp d s with ec := { s.ec with
          scanHeld := s.ec.scanHeld ++ [{ seg := seg, header := Header.parse r.spare1, trailer := Trailer.parse r.spare0 }] } })
        (by simp [engine]) _ _).of_fs rfl rfl), by rw [hands]; rfl⟩
    · rw [if_neg (mt (possibleCandidate_iff seg r).2 possible)]
      exact scan_unclean ok engine stop d seg ((if_neg factory).trans ((if_neg found).trans ((if_neg blank).trans (if_neg possible))))
  · have result := scanResult_row engine step r ending
    rw [scanRow0_of_held (s := countCorrected r (completeOp d s)) (by simpa using held) mine before after] at result
    have queue (u : State) (hf : u.ec.engine = .mounting) (hs : u.ec.stopPending = false)
        (fs : u.fs = (countCorrected r (completeOp d s)).fs) (x : Fin 4) : ((scanNext seg u).fs.die x).queue =
          (if x = d then (s.fs.die x).queue.tail else (s.fs.die x).queue) ++ (scanReads seg).filter fun op => op.act.die == x := by
      rw [(queuesGain_scanNext (by simp [hf]) hs seg).queue x, fs]
      have ended := (queuesAfter_completeOp d s).queue x
      rw [List.filter_nil, List.append_nil] at ended
      exact congrArg (· ++ _) ended
    by_cases verified : rowVerified r 0 = true
    · rw [if_pos verified] at result
      obtain ⟨f, e⟩ := scanNext_eq seg (scanAccepted c r (pre ++ post) (countCorrected r (completeOp d s)))
      refine ⟨_, (congrArg done result).trans (done_of_ne (by simp [scanAccepted, engine])), by simp [scanAccepted],
        queue _ (by simp [scanAccepted, engine]) (by simp [scanAccepted, stop]) rfl, fun _ => ⟨?_, by simp [scanAccepted, mine]⟩,
        fun bad => absurd ((rowVerified_iff r 0).1 verified) bad, by rw [e]; rfl⟩
      exact (OnlyEntry.refl seg s).of_catalog rfl (by simp [scanAccepted])
    · rw [if_neg verified] at result
      obtain ⟨f, e⟩ := scanNext_eq seg (scanDropped c (pre ++ post) (countCorrected r (completeOp d s)))
      refine ⟨_, (congrArg done result).trans (done_of_ne (by simp [scanDropped, engine])), by simp [scanDropped],
        queue _ (by simp [scanDropped, engine]) (by simp [scanDropped, stop]) (by simp [scanDropped]),
        fun good => absurd ((rowVerified_iff r 0).2 good) verified, fun _ => ⟨?_, by simp [scanDropped]⟩, by rw [e]; rfl⟩
      exact (onlyEntry_setEntry (s := countCorrected r (completeOp d s)) (by simpa [CatalogOk] using ok) seg
        { Entry.freed with state := .unclean }).of_catalog (by simp) (by simp [scanDropped, classify, setEntry, mine])

end Sys2Proof.Machine
end

section
/-!
SUPPORT. The replacement of a failed row's segment, and the read-only archive (R37, R57, R89, R102 to R107).
-/
namespace Sys2Proof.Machine

-- One proof at a time, as in the tests: proofs checked side by side need more threads than the limits allow.
set_option Elab.async false

variable {s t : State} {seg q k m x : Nat} {n : BufName} {rest : List Nat} {c : CardIx} {r : Answer}

/-! ### The join of a replacement (R88, R89) -/

theorem supersede_of_filled (hm : s.cu.orderList.getLast? = some m) (filled : (s.cu.entry m).lastSeq + 1 ≠ (s.cu.entry m).firstSeq) :
    supersede s = s := by
  simp only [supersede, hm, Entry.empty, decide_eq_true_eq, if_neg filled]

theorem supersede_of_none (hm : s.cu.orderList.getLast? = none) : supersede s = s := by simp only [supersede, hm]

theorem supersede_entry (ok : CatalogOk s) (other : ∀ m, s.cu.orderList.getLast? = some m →
    (s.cu.entry m).lastSeq + 1 = (s.cu.entry m).firstSeq → m ≠ x) : (supersede s).cu.entry x = s.cu.entry x := by
  cases hm : s.cu.orderList.getLast? with
  | none => rw [supersede_of_none hm]
  | some m =>
    by_cases empty : (s.cu.entry m).lastSeq + 1 = (s.cu.entry m).firstSeq
    · rw [supersede_of_empty hm empty]
      exact (entry_setEntry ok m x _).trans (if_neg (other m hm empty).symm)
    · rw [supersede_of_filled hm empty]

/-- A join moves the head of the pool to the tail of the members that stay. -/
theorem joinSegment_eq (seg q : Nat) (s : State) : ∃ cat sup, joinSegment seg q s = { s with
    cu := { s.cu with
      catalog := cat, freePool := s.cu.freePool.tail, orderList := s.cu.remaining ++ [seg], nextSerial := s.cu.nextSerial + 1 }
    ru := { s.ru with superseded := sup } } := by
  obtain ⟨cat, sup, e⟩ := supersede_eq s
  rw [joinSegment, e]
  exact ⟨_, sup, rfl⟩

theorem joinSegment_none (hm : s.cu.orderList.getLast? = none) :
    (joinSegment seg q s).cu.orderList = [seg] ∧ (joinSegment seg q s).ru.superseded = s.ru.superseded := by
  rw [List.getLast?_eq_none_iff] at hm
  obtain ⟨order, ru⟩ := joinSegment_of_nil hm seg q
  exact ⟨order, by rw [ru]⟩

theorem joinSegment_filled (hm : s.cu.orderList.getLast? = some m) (filled : (s.cu.entry m).lastSeq + 1 ≠ (s.cu.entry m).firstSeq) :
    (joinSegment seg q s).cu.orderList = s.cu.orderList ++ [seg] ∧ (joinSegment seg q s).ru.superseded = s.ru.superseded := by
  rw [joinSegment, supersede_of_filled hm filled]
  exact ⟨rfl, rfl⟩

theorem joinSegment_empty (ok : CatalogOk s) (hm : s.cu.orderList.getLast? = some m)
    (empty : (s.cu.entry m).lastSeq + 1 = (s.cu.entry m).firstSeq) :
    (joinSegment seg q s).cu.orderList = s.cu.orderList.dropLast ++ [seg] ∧
    (joinSegment seg q s).ru.superseded = s.ru.superseded ++ [m] ∧
    (m ≠ seg → ((joinSegment seg q s).cu.entry m).state = .erasing) := by
  have gone := supersede_of_empty hm empty
  refine ⟨by rw [joinSegment, gone]; rfl, by rw [joinSegment, gone]; rfl, fun ne => ?_⟩
  rw [entry_joinSegment ok, if_neg ne, gone]
  exact (congrArg Entry.state (entry_setEntry ok m m _)).trans (by rw [if_pos rfl])

/-! ### The packer as a replacement is taken (R103, R104) -/

/-- The other buffer as row 1 of the replacement, if it waits. -/
def RowBuffer.reaimed (seg : Nat) (b : RowBuffer) : RowBuffer :=
  if b.state = .filling ∨ b.state = .closed then { b with dest := some { seg := seg, row := 1 } } else b

/-- The RP with segment `seg` as the replacement for the row in buffer `n`. -/
def Rp.replaced (n : BufName) (seg : Nat) (p : Rp) : Rp :=
  let mine := { p.buf n with dest := some { seg := seg, row := 0 } }
  let second := (p.buf n.other).reaimed seg
  { p with
    bufA := if n = .a then mine else second
    bufB := if n = .a then second else mine
    openSeg := some { seg := seg
                      nextRow := if (p.buf n.other).state = .filling ∨ (p.buf n.other).state = .closed then 2 else 1 }
    rowMap := []
    fullSeen := false }

theorem Rp.replaced_self (n : BufName) (seg : Nat) (p : Rp) :
    (p.replaced n seg).buf n = { p.buf n with dest := some { seg := seg, row := 0 } } := by cases n <;> rfl

theorem Rp.replaced_other (n : BufName) (seg : Nat) (p : Rp) : (p.replaced n seg).buf n.other = (p.buf n.other).reaimed seg := by
  cases n <;> rfl

/-- The replacement's program. -/
def replacementProgram (n : BufName) (seg q : Nat) (s : State) : FlashAct :=
  bufferProgram { joinSegment seg q s with rp := s.rp.replaced n seg } (s.rp.buf n) { seg := seg, row := 0 }

theorem reaimOther_replaced (n : BufName) (seg : Nat) (h : t = setBuf n { s.rp.buf n with dest := some { seg := seg, row := 0 } }
    (openFresh seg 1 s)) : reaimOther n seg t = { s with rp := s.rp.replaced n seg } := by
  have other : t.rp.buf n.other = s.rp.buf n.other := by subst h; cases n <;> rfl
  unfold reaimOther
  simp only [other]
  split
  next waits =>
    subst h
    cases n <;> simp only [Rp.replaced, RowBuffer.reaimed, if_pos waits] <;> rfl
  next stays =>
    subst h
    cases n <;> simp only [Rp.replaced, RowBuffer.reaimed, if_neg stays] <;> rfl

theorem setBuf_sent (sent : (s.rp.buf n).state = .inFlight) : setBuf n { s.rp.buf n with state := .inFlight } s = s := by
  rw [← sent]
  cases n <;> rfl

theorem takeReplacement_eq (sent : (s.rp.buf n).state = .inFlight) (seg q : Nat) :
    takeReplacement n seg q s = handOp .packer (replacementProgram n seg q s) { joinSegment seg q s with rp := s.rp.replaced n seg } := by
  have packer : (joinSegment seg q s).rp = s.rp := by simp
  have opened : (openFresh seg 1 (joinSegment seg q s)).rp.buf n = s.rp.buf n := by
    cases n <;> simp [Rp.buf, openFresh]
  unfold takeReplacement
  dsimp only
  rw [reaimOther_replaced (s := joinSegment seg q s) n seg (by rw [opened, packer]), packer]
  have self := Rp.replaced_self n seg s.rp
  rw [handBuffer_of_dest (d := { seg := seg, row := 0 }) (by rw [self])]
  rw [setBuf_sent (by rw [self]; exact sent), self]
  rfl

/-- From `s` to `t` a segment of the pool replaces the one of the row in buffer `n`, and the row's program is handed anew. -/
structure Replaces (n : BufName) (seg q : Nat) (s t : State) : Prop where
  mine : t.rp.buf n = { s.rp.buf n with dest := some { seg := seg, row := 0 } }
  other : if (s.rp.buf n.other).state = .filling ∨ (s.rp.buf n.other).state = .closed then
      t.rp.buf n.other = { s.rp.buf n.other with dest := some { seg := seg, row := 1 } } ∧
      t.rp.openSeg = some { seg := seg, nextRow := 2 }
    else t.rp.buf n.other = s.rp.buf n.other ∧ t.rp.openSeg = some { seg := seg, nextRow := 1 }
  opened : t.rp.rowMap = [] ∧ t.rp.fullSeen = false
  cu : t.cu = (joinSegment seg q s).cu
  ru : t.ru = (joinSegment seg q s).ru
  queues : QueuesGain [{ source := .packer, act := bufferProgram t (s.rp.buf n) { seg := seg, row := 0 } }] s t
  packer : { t.rp with
    bufA := s.rp.bufA, bufB := s.rp.bufB, openSeg := s.rp.openSeg, rowMap := s.rp.rowMap, fullSeen := s.rp.fullSeen } = s.rp
  frame : { t with rp := s.rp, cu := s.cu, ru := { t.ru with superseded := s.ru.superseded }, fs := s.fs } = s

theorem replaces_takeReplacement (hf : s.ec.engine ≠ .faulted) (sent : (s.rp.buf n).state = .inFlight) (seg q : Nat) :
    Replaces n seg q s (takeReplacement n seg q s) := by
  have engine : ({ joinSegment seg q s with rp := s.rp.replaced n seg } : State).ec.engine ≠ .faulted := by simpa using hf
  have hands := handOp_of_ne engine .packer (replacementProgram n seg q s)
  have gain := queuesGain_handOp engine .packer (replacementProgram n seg q s)
  rw [takeReplacement_eq sent]
  refine ⟨by rw [hands]; exact Rp.replaced_self n seg s.rp, ?_, by rw [hands]; exact ⟨rfl, rfl⟩, by rw [hands], by rw [hands], ?_,
    by rw [hands]; rfl, ?_⟩
  · rw [hands]
    have other := Rp.replaced_other n seg s.rp
    split
    next waits => exact ⟨other.trans (if_pos waits), by simp only [Rp.replaced, if_pos waits]⟩
    next stays => exact ⟨other.trans (if_neg stays), by simp only [Rp.replaced, if_neg stays]⟩
  · rw [bufferProgram_congr (s := { joinSegment seg q s with rp := s.rp.replaced n seg }) (by simp) (by simp)]
    exact gain.of_fs (by simp) rfl
  · obtain ⟨cat, sup, e⟩ := joinSegment_eq seg q s
    rw [hands, e]

/-! ### The read-only archive (R37, R57, R107) -/

theorem CardShows.setEvent (h : CardShows s c r) (e : Event) : CardShows (setEvent e s) c r := ⟨h.state, h.bit, h.result⟩

/-- The cards of the append path are each held once. -/
theorem CardsOk.appendOnce (ok : CardsOk s) (o : CardOutcome) : ((appendAnswers o s.rp).map Prod.fst).Nodup := by
  have held := ok.heldOnce
  rw [heldCards, ← List.append_assoc] at held
  have cards : (appendAnswers o s.rp).map Prod.fst = (s.rp.served.map RpServed.card).toList ++ s.rp.waitList.map WaitEntry.card := by
    simp [appendAnswers, Function.comp_def, Option.toList_map]
  rw [cards]
  exact held.of_append_left

/-- The RP of the read-only archive, where records were staged. -/
def Rp.readOnlyPacker (key : Nat) (p : Rp) : Rp :=
  { p with
    bufA := .cleared, bufB := .cleared, discardFirst := p.durable + 1, discardLast := p.nextSeq - 1, nextSeq := p.durable + 1
    keyHigh := key, openSeg := none, rowMap := [], lingerTimer := none, relocation := none, readOnly := true }

theorem enterReadOnly_of_staged (staged : ¬ (s.rp.bufA.records = [] ∧ s.rp.bufB.records = [])) :
    enterReadOnly s = setEvent .readOnly (answerWaitList .readOnly (answerServed .readOnly
      { s with rp := s.rp.readOnlyPacker (durableKey s) })) := by
  unfold enterReadOnly discardStaged
  simp only [List.isEmpty_iff, if_neg staged]
  rfl

theorem enterReadOnly_eq (s : State) : ∃ x p, enterReadOnly s = { s with xp := x, rp := p } := by
  have closed : ∃ p, { closePacker (discardStaged s) with rp := { (closePacker (discardStaged s)).rp with readOnly := true } } =
      { s with rp := p } := by
    unfold discardStaged
    split <;> exact ⟨_, rfl⟩
  obtain ⟨p, closed⟩ := closed
  obtain ⟨x, answered⟩ := answerAppend_eq .readOnly { s with rp := p }
  have is : enterReadOnly s = setEvent .readOnly (answerWaitList .readOnly (answerServed .readOnly { s with rp := p })) :=
    congrArg (fun t => setEvent .readOnly (answerWaitList .readOnly (answerServed .readOnly t))) closed
  rw [is, answered]
  exact ⟨_, _, rfl⟩

/-- A segment's failure that leaves the entries' marks ends in the read-only archive. -/
theorem becomesReadOnly_enterReadOnly (ok : CardsOk s) (staged : ¬ (s.rp.bufA.records = [] ∧ s.rp.bufB.records = []))
    (xp : t.xp = s.xp) (rp : { t.rp with relocation := s.rp.relocation } = s.rp) (key : durableKey t = durableKey s) :
    BecomesReadOnly s (enterReadOnly t) := by
  have packer : t.rp = { s.rp with relocation := t.rp.relocation } := by rw [← rp]
  have stagedT : ¬ (t.rp.bufA.records = [] ∧ t.rp.bufB.records = []) := by rw [packer]; exact staged
  let v := { t with rp := t.rp.readOnlyPacker (durableKey t) }
  have cards : appendAnswers .readOnly v.rp = appendAnswers .readOnly s.rp := by
    show appendAnswers .readOnly t.rp = _
    rw [packer]
    rfl
  obtain ⟨x, e⟩ := answerAppend_eq .readOnly v
  have answers := answersAll_append (s := v) .readOnly (by rw [cards]; exact ok.appendOnce _) (by
    show Memory.wf t.xp.mem = true
    rw [xp]; exact ok.canonical)
  rw [cards] at answers
  replace answers := answers.from_port (u := s) xp.symm (by show s.rp.durable = t.rp.durable; rw [packer])
  have rpV : v.rp = { (s.rp.readOnlyPacker (durableKey s)) with relocation := none } := by
    show t.rp.readOnlyPacker (durableKey t) = _
    rw [key, packer]
    rfl
  rw [rpV] at e
  rw [e] at answers
  obtain ⟨-, shown, others, port, -⟩ := answers
  rw [enterReadOnly_of_staged stagedT, show answerWaitList .readOnly (answerServed .readOnly v) = _ from e]
  refine ⟨rfl, ⟨rfl, rfl⟩, ⟨rfl, rfl, rfl, rfl⟩, ⟨rfl, rfl⟩, ⟨rfl, rfl⟩, ⟨rfl, rfl⟩, ⟨rfl, rfl, rfl⟩, ?event, fun v hv => ?served,
    fun w hw => ?waiting, ?others, ?port⟩
  case event =>
    show x.events ||| _ = _
    rw [show x.events = s.xp.events from (congrArg Xp.events port :)]
    rfl
  case served =>
    refine (shown (v.card, v.answer .readOnly) ?_).setEvent .readOnly
    simp [appendAnswers, hv]
  case waiting =>
    refine (shown (w.card, { w.answer with outcome := .readOnly }) ?_).setEvent .readOnly
    exact List.mem_append_right _ (List.mem_map_of_mem hw)
  case others =>
    obtain ⟨bytes, bits⟩ := others.mono (Q := fun c => servedByAppend s c ∨ onWaitList s c) fun c hc => by
      simp only [appendAnswers, List.map_append, List.map_map, List.mem_append, List.mem_map, Option.mem_toList, Function.comp] at hc
      rcases hc with ⟨v, hv, rfl⟩ | ⟨w, hw, rfl⟩
      · exact .inl ⟨v, hv, rfl⟩
      · exact .inr ⟨w, hw, rfl⟩
    exact ⟨bytes, bits⟩
  case port =>
    rw [← port]
    rfl

/-! ### The cut (R102) -/

theorem claimCut_kept (ok : CatalogOk s) (seg k x : Nat) :
    ((claimCut seg k s).cu.entry x).firstSeq = (s.cu.entry x).firstSeq ∧
    ((claimCut seg k s).cu.entry x).lastSeq = (s.cu.entry x).lastSeq ∧
    ((claimCut seg k s).cu.entry x).lastKey = (s.cu.entry x).lastKey := by
  rw [claimCut, entry_setEntry ok]
  split
  next h => exact h ▸ ⟨rfl, rfl, rfl⟩
  · exact ⟨rfl, rfl, rfl⟩

/-- The cut changes no mark, and so not the key of the record durable_mark. -/
theorem durableKey_claimCut (ok : CatalogOk s) (seg k : Nat) (cu : t.cu = (claimCut seg k s).cu) (durable : t.rp.durable = s.rp.durable) :
    durableKey t = durableKey s := by
  have empty (x : Nat) : (t.cu.entry x).empty = (s.cu.entry x).empty := by
    obtain ⟨first, last, -⟩ := claimCut_kept ok seg k x
    rw [cu, Entry.empty, Entry.empty, first, last]
  have lastKey (x : Nat) : (t.cu.entry x).lastKey = (s.cu.entry x).lastKey := by rw [cu, (claimCut_kept ok seg k x).2.2]
  have list : t.cu.orderList = s.cu.orderList := by rw [cu]; rfl
  have oldest : t.cu.oldest = s.cu.oldest := by rw [cu]; rfl
  simp only [durableKey, empty, lastKey, list, oldest, durable]

theorem replacementClaimGranted_iff : replacementClaimGranted s = true ↔ s.cu.freePool ≠ [] ∧ s.cu.nextSerial ≤ max32 := by
  simp [replacementClaimGranted, serialLeft, Nat.one_le_iff_ne_zero]

end Sys2Proof.Machine
end

section
/-!
PROOF. A failed record row program and a failed replacement row 0 (O29, O30).
-/
namespace Sys2Proof.Machine

-- One proof at a time, as in the tests: proofs checked side by side need more threads than the limits allow.
set_option Elab.async false

variable {s t u : State} {seg q m : Nat} {n : BufName} {d : Dest} {r : Relocation} {rest : List Nat}

/-! ### What the two fails have in common -/

/-- The members that stay are members. -/
theorem Cu.mem_of_remaining {u : Cu} {x : Nat} (h : x ∈ u.remaining) : x ∈ u.orderList := by
  unfold Cu.remaining at h
  split at h
  · split at h
    · exact List.mem_of_mem_dropLast h
    · exact h
  · exact h

/-- There is no segment to take, or no serial for it (R88, R103). -/
def Refuses (s : State) : Prop := s.cu.freePool = [] ∨ max32 < s.cu.nextSerial

theorem replacementClaim_refused (h : Refuses s) : replacementClaimGranted s = false := by
  rw [← Bool.not_eq_true, replacementClaimGranted_iff]
  rintro ⟨pool, serial⟩
  exact h.elim pool (Nat.not_lt.2 serial)

theorem BuffersOk.staged (ok : BuffersOk s) (sent : (s.rp.buf n).state = .inFlight) :
    ¬ (s.rp.bufA.records = [] ∧ s.rp.bufB.records = []) := by
  rintro ⟨a, b⟩
  have empty : (s.rp.buf n).state = .empty := by
    cases n
    · exact ok.bufA.records.2 a
    · exact ok.bufB.records.2 b
  rw [sent] at empty
  cases empty

/-- What a replacement taken for a segment left behind in `t` changes of the catalog. -/
structure TakesNext (seg q : Nat) (rest : List Nat) (t u : State) : Prop where
  joined : u.cu.entry seg = { Entry.freed with
    state := .opened, firstSeq := q, lastSeq := q - 1, openSerial := t.cu.nextSerial }
  pool : u.cu.freePool = rest
  serial : u.cu.nextSerial = t.cu.nextSerial + 1
  oldest : u.cu.oldest = t.cu.oldest
  retired : u.cu.retired = t.cu.retired
  kept : ∀ x, x ≠ seg → (∀ m, t.cu.orderList.getLast? = some m →
    (t.cu.entry m).lastSeq + 1 = (t.cu.entry m).firstSeq → m ≠ x) → u.cu.entry x = t.cu.entry x

theorem Replaces.takesNext (h : Replaces n seg q t u) (ok : CatalogOk t) (pool : t.cu.freePool = seg :: rest) :
    TakesNext seg q rest t u := by
  obtain ⟨cat, sup, e⟩ := joinSegment_eq seg q t
  refine ⟨?_, by rw [h.cu, e]; exact congrArg List.tail pool, by rw [h.cu, e], by rw [h.cu, e], by rw [h.cu, e],
    fun x ne other => ?_⟩
  · rw [h.cu, entry_joinSegment ok, if_pos rfl]
    rfl
  · rw [h.cu, entry_joinSegment ok, if_neg ne, supersede_entry ok other]

/-- The segment taken leaves the pool. -/
theorem TakesNext.shrinks (h : TakesNext seg q rest t u) (pool : s.cu.freePool = seg :: rest) :
    u.cu.freePool.length ≠ s.cu.freePool.length := by
  rw [h.pool, pool, List.length_cons]
  omega

theorem freePool_enterReadOnly (h : t.cu.freePool = s.cu.freePool) : (enterReadOnly t).cu.freePool.length = s.cu.freePool.length := by
  simp [h]

/-! ### The row program of the RP fails (R102 to R104, R107) -/

/-- The cut, and the relocation record of a failed row. -/
def cutRecorded (n : BufName) (d : Dest) (s : State) : State :=
  { claimCut d.seg d.row s with rp := { s.rp with
    relocation := some { predecessor := d.seg, cutRow := d.row, firstSeq := (s.rp.buf n).firstSeq } } }

theorem relocate_takes (pool : s.cu.freePool = seg :: rest) (serial : s.cu.nextSerial ≤ max32) :
    relocate n d s = takeReplacement n seg (s.rp.buf n).firstSeq (cutRecorded n d s) := by
  have granted : replacementClaimGranted (cutRecorded n d s) = true :=
    replacementClaimGranted_iff.2 ⟨by rw [show (cutRecorded n d s).cu.freePool = _ from pool]; nofun, serial⟩
  unfold relocate
  simp only [show (claimCut d.seg d.row s).cu.freePool = _ from pool]
  exact if_pos granted

theorem relocate_refused (h : Refuses s) : relocate n d s = enterReadOnly (cutRecorded n d s) := by
  have refused : replacementClaimGranted (cutRecorded n d s) = false := replacementClaim_refused h
  unfold relocate
  dsimp only
  split
  · exact if_neg (by rw [Bool.not_eq_true]; exact refused)
  · rfl

theorem rowFail_takes (shrinks : (relocate n d s).cu.freePool.length ≠ s.cu.freePool.length) :
    rowFail n d s = react (relocate n d s) := if_neg shrinks

theorem rowFail_refused (h : Refuses s) : rowFail n d s = ruJudge (enterReadOnly (cutRecorded n d s)) := by
  rw [rowFail, relocate_refused h]
  exact if_pos (freePool_enterReadOnly rfl)

theorem cutRecorded_buf (n k : BufName) (d : Dest) (s : State) : (cutRecorded n d s).rp.buf k = s.rp.buf k := by
  cases k <;> rfl

theorem catalogOk_cutRecorded (ok : CatalogOk s) (n : BufName) (d : Dest) : CatalogOk (cutRecorded n d s) :=
  (calm_claimCut d.seg d.row s).catalog ok

/-- A record row program fails with a replacement to take. -/
theorem rowFail_replaces {c : Fin 4} {dst : Dest} (ok : CatalogOk s) (hf : s.ec.engine ≠ .faulted)
    (sent : (s.rp.buf n).state = .inFlight) (pool : s.cu.freePool = seg :: rest) (serial : s.cu.nextSerial ≤ max32) :
    ∃ u, rowFail n dst (completeOp c s) = react u ∧
    Replaces n seg (s.rp.buf n).firstSeq (cutRecorded n dst (completeOp c s)) u ∧
    TakesNext seg (s.rp.buf n).firstSeq rest (cutRecorded n dst (completeOp c s)) u := by
  have takes := relocate_takes (s := completeOp c s) (n := n) (d := dst) pool serial
  have replaces : Replaces n seg (s.rp.buf n).firstSeq (cutRecorded n dst (completeOp c s)) (relocate n dst (completeOp c s)) := by
    rw [takes]
    exact replaces_takeReplacement (s := cutRecorded n dst (completeOp c s)) hf (by rw [cutRecorded_buf]; exact sent) seg _
  have next := replaces.takesNext (catalogOk_cutRecorded (s := completeOp c s) ok n dst) pool
  exact ⟨_, rowFail_takes (next.shrinks (s := completeOp c s) pool), replaces, next⟩

/-- Settles O29: the replacement taken joins the order list for the cut segment, or the archive becomes read-only. -/
theorem rowFailRelocates : Obligations.RowFailRelocates := by
  unfold Obligations.RowFailRelocates
  intro s p d sg row data sp0 sp1 n dst ends record ok cards buffers free found dest
  have sent := Rp.state_of_find found
  have result (t : State) (h : rowFail n dst (completeOp d s) = t) : exec (.rowProgramFail p) s = .next (settle t) := by
    show execRowProgramFail p s = _
    rw [execRowProgramFail, free, ← h, ← recordRowResult_of_ends rowFail ends record found dest]
    rfl
  have formed : CatalogOk (completeOp d s) := ok
  have cut (x : Nat) : (cutRecorded n dst (completeOp d s)).cu.entry x = if x = dst.seg then
      { s.cu.entry dst.seg with state := .short, rowsValid := dst.row, hasDigest := false, retire := true }
      else s.cu.entry x := entry_setEntry formed dst.seg x _
  have marks (x : Nat) := claimCut_kept formed dst.seg dst.row x
  refine ⟨fun seg rest pool ne serial => ?takes, fun refuses => ?refused⟩
  case takes =>
    obtain ⟨u, judged, replaces, next⟩ := rowFail_replaces (c := d) ok ends.running.notFaulted sent pool serial
    have buf := cutRecorded_buf n n dst (completeOp d s)
    refine ⟨u, result _ judged, congrArg Rp.relocation replaces.packer, replaces.mine.trans (by rw [buf]; rfl), ?other,
      replaces.opened.1, replaces.opened.2, fun filled => ?cut, next.joined, next.pool, next.serial, next.oldest, ?list, ?queues,
      congrArg (fun p : Rp => { p with relocation := s.rp.relocation }) replaces.packer,
      congrArg (fun x : State => { x with rp := s.rp, cu := s.cu, fs := s.fs }) replaces.frame⟩
    case other =>
      have other := replaces.other
      rw [cutRecorded_buf] at other
      exact other
    case cut =>
      rw [next.kept dst.seg ne.symm ?_, cut, if_pos rfl]
      rintro m - empty rfl
      obtain ⟨first, last, -⟩ := marks dst.seg
      exact filled ((congrArg (· + 1) last).symm.trans (empty.trans first))
    case list =>
      rw [replaces.cu, replaces.ru]
      cases last : s.cu.orderList.getLast? with
      | none => exact joinSegment_none last
      | some m =>
        dsimp only
        obtain ⟨first, lastSeq, -⟩ := marks m
        by_cases empty : (s.cu.entry m).lastSeq + 1 = (s.cu.entry m).firstSeq
        · rw [if_pos empty]
          exact joinSegment_empty (catalogOk_cutRecorded formed n dst) last ((congrArg (· + 1) lastSeq).trans (empty.trans first.symm))
        · rw [if_neg empty]
          exact joinSegment_filled last fun h => empty ((congrArg (· + 1) lastSeq).symm.trans (h.trans first))
    case queues =>
      have gain := replaces.queues
      rw [buf] at gain
      exact (queuesAfter_completeOp d s).gain (gain.of_fs rfl rfl)
  case refused =>
    refine ⟨_, result _ (rowFail_refused (s := completeOp d s) refuses), ?_, ?_, (queuesAfter_completeOp d s).of_fs (by simp [cutRecorded]), ?_⟩
    · exact (onlyEntry_setEntry formed dst.seg _).of_catalog rfl (by simp [cutRecorded, claimCut])
    · exact becomesReadOnly_enterReadOnly cards (buffers.staged sent) rfl rfl
        (durableKey_claimCut (s := completeOp d s) formed dst.seg dst.row rfl rfl)
    · obtain ⟨x, p, e⟩ := enterReadOnly_eq (cutRecorded n dst (completeOp d s))
      rw [e]
      rfl

/-! ### The row 0 of a replacement fails (R105 to R107) -/

theorem relocateAgain_takes (pool : s.cu.freePool = seg :: rest) (serial : s.cu.nextSerial ≤ max32) :
    relocateAgain n r d s = takeReplacement n seg r.firstSeq (claimRetireLast d.seg s) := by
  have granted : replacementClaimGranted s = true := replacementClaimGranted_iff.2 ⟨by rw [pool]; nofun, serial⟩
  unfold relocateAgain
  simp only [pool]
  exact if_pos granted

theorem relocateAgain_refused (h : Refuses s) : relocateAgain n r d s = enterReadOnly (claimCut d.seg 0 s) := by
  unfold relocateAgain
  split
  · exact if_neg (by rw [Bool.not_eq_true]; exact replacementClaim_refused h)
  · rfl

theorem replacementFail_takes (shrinks : (relocateAgain n r d s).cu.freePool.length ≠ s.cu.freePool.length) :
    replacementFail r n d s = react (relocateAgain n r d s) := if_neg shrinks

theorem replacementFail_refused (h : Refuses s) : replacementFail r n d s = ruJudge (enterReadOnly (claimCut d.seg 0 s)) := by
  rw [replacementFail, relocateAgain_refused h]
  exact if_pos (freePool_enterReadOnly rfl)

theorem entry_claimRetireLast (ok : CatalogOk s) (seg x : Nat) : (claimRetireLast seg s).cu.entry x =
    if x = seg then { Entry.freed with state := .retired, cause := .program } else s.cu.entry x :=
  entry_setEntry ok seg x (.retiredWith .program)

/-- The failed replacement is no member any more. -/
theorem order_claimRetireLast (seg : Nat) (s : State) :
    (claimRetireLast seg s).cu.orderList = s.cu.orderList.filter (· != seg) := rfl

theorem ne_of_left {l : List Nat} (last : (l.filter (· != seg)).getLast? = some m) : m ≠ seg := by
  have mem := List.mem_of_getLast? last
  simpa using (List.mem_filter.1 mem).2

/-- A replacement's row 0 fails with a further segment to take. -/
theorem replacementFail_replaces {c : Fin 4} {dst : Dest} (ok : CatalogOk s) (hf : s.ec.engine ≠ .faulted)
    (sent : (s.rp.buf n).state = .inFlight) (pool : s.cu.freePool = seg :: rest) (serial : s.cu.nextSerial ≤ max32) :
    ∃ u, replacementFail r n dst (completeOp c s) = react u ∧
    Replaces n seg r.firstSeq (claimRetireLast dst.seg (completeOp c s)) u ∧
    TakesNext seg r.firstSeq rest (claimRetireLast dst.seg (completeOp c s)) u := by
  have takes := relocateAgain_takes (s := completeOp c s) (n := n) (r := r) (d := dst) pool serial
  have replaces : Replaces n seg r.firstSeq (claimRetireLast dst.seg (completeOp c s)) (relocateAgain n r dst (completeOp c s)) := by
    rw [takes]
    exact replaces_takeReplacement (s := claimRetireLast dst.seg (completeOp c s)) hf sent seg _
  have next := replaces.takesNext ((calm_claimRetireLast dst.seg (completeOp c s)).catalog ok) pool
  exact ⟨_, replacementFail_takes (next.shrinks (s := completeOp c s) pool), replaces, next⟩

/-- Settles O30: the further segment taken joins in place of the failed one, or the archive becomes read-only. -/
theorem replacementFailTakesAnother : Obligations.ReplacementFailTakesAnother := by
  unfold Obligations.ReplacementFailTakesAnother
  intro s p r d sg row data sp0 sp1 n dst ends record ok cards buffers awaits found dest
  have sent := Rp.state_of_find found
  have result (t : State) (h : replacementFail r n dst (completeOp d s) = t) :
      exec (.replacementRow0Fail p) s = .next (settle t) := by
    show execReplacementRow0Fail p s = _
    rw [execReplacementRow0Fail, awaits, ← h, ← recordRowResult_of_ends (replacementFail r) ends record found dest]
    rfl
  have formed : CatalogOk (completeOp d s) := ok
  refine ⟨fun seg rest pool ne serial => ?takes, fun refuses => ?refused⟩
  case takes =>
    obtain ⟨u, judged, replaces, next⟩ := replacementFail_replaces (c := d) (r := r) (dst := dst) ok ends.running.notFaulted sent pool serial
    have retiredOk : CatalogOk (claimRetireLast dst.seg (completeOp d s)) := (calm_claimRetireLast dst.seg (completeOp d s)).catalog ok
    have entry := entry_claimRetireLast formed dst.seg
    have left := order_claimRetireLast dst.seg (completeOp d s)
    have packer := replaces.packer
    refine ⟨u, result _ judged, (congrArg Rp.relocation packer).trans awaits, replaces.mine, replaces.other, replaces.opened.1,
      replaces.opened.2, ?list, ?retired, ?joined, fun member => ?out, next.joined, next.pool, next.serial, next.oldest,
      (queuesAfter_completeOp d s).gain (replaces.queues.of_fs rfl rfl), (congrArg Rp.durable packer :), (congrArg Rp.nextSeq packer :),
      (congrArg Rp.waitList packer :), packer, congrArg (fun x : State => { x with rp := s.rp, cu := s.cu, fs := s.fs }) replaces.frame⟩
    case list =>
      rw [replaces.cu, replaces.ru]
      dsimp only
      cases last : (s.cu.orderList.filter (· != dst.seg)).getLast? with
      | none => exact joinSegment_none last
      | some m =>
        dsimp only
        have same : (claimRetireLast dst.seg (completeOp d s)).cu.entry m = s.cu.entry m := (entry m).trans (if_neg (ne_of_left last))
        by_cases empty : (s.cu.entry m).lastSeq + 1 = (s.cu.entry m).firstSeq
        · rw [if_pos empty]
          obtain ⟨order, superseded, -⟩ := joinSegment_empty (seg := seg) (q := r.firstSeq) retiredOk last (by rw [same]; exact empty)
          exact ⟨order, superseded⟩
        · rw [if_neg empty]
          exact joinSegment_filled last (by rw [same]; exact empty)
    case retired =>
      rw [next.kept dst.seg ne.symm fun m last _ => ne_of_left last, entry, if_pos rfl]
    case joined =>
      rw [next.retired]
      exact mem_insertRising.2 (.inl rfl)
    case out =>
      have remains : dst.seg ∈ (claimRetireLast dst.seg (completeOp d s)).cu.remaining ++ [seg] := by
        obtain ⟨cat, sup, e⟩ := joinSegment_eq seg r.firstSeq (claimRetireLast dst.seg (completeOp d s))
        rw [replaces.cu, e] at member
        exact member
      rcases List.mem_append.1 remains with mem | mem
      · have mem : dst.seg ∈ s.cu.orderList.filter (· != dst.seg) := left ▸ Cu.mem_of_remaining mem
        simpa using (List.mem_filter.1 mem).2
      · exact ne (List.mem_singleton.1 mem).symm
  case refused =>
    refine ⟨_, result _ (replacementFail_refused (s := completeOp d s) refuses), ?_, ?_, (queuesAfter_completeOp d s).of_fs (by simp), ?_⟩
    · exact (onlyEntry_setEntry formed dst.seg _).of_catalog rfl (by simp [claimCut])
    · exact becomesReadOnly_enterReadOnly cards (buffers.staged sent) rfl rfl
        (durableKey_claimCut (s := completeOp d s) formed dst.seg 0 rfl rfl)
    · obtain ⟨x, p, e⟩ := enterReadOnly_eq (claimCut dst.seg 0 (completeOp d s))
      rw [e]
      rfl

end Sys2Proof.Machine
end

section
/-!
SUPPORT. The requests the RU held during a claim, and a start repeated beside it (R122, R123, R145, R153).
-/
namespace Sys2Proof.Machine

-- One proof at a time, as in the tests: proofs checked side by side need more threads than the limits allow.
set_option Elab.async false

variable {s t u : State} {seg x : Nat} {v : CpServed} {c : CardIx} {r : Answer} {ps : List (CardIx × Answer)}

/-! ### A hold request decided (R145) -/

theorem placeHold_of_full {hs : List Hold} (x : Hold) (full : ∀ h ∈ hs, h.active = true) : placeHold x hs = none := by
  induction hs with
  | nil => rfl
  | cons h hs ih =>
    obtain ⟨here, there⟩ := List.forall_mem_cons.1 full
    rw [placeHold, if_pos here, ih there]
    rfl

theorem placeHold_at {pre post : List Hold} {h : Hold} (x : Hold) (before : ∀ k ∈ pre, k.active = true) (free : h.active = false) :
    placeHold x (pre ++ h :: post) = some (pre ++ x :: post) := by
  induction pre with
  | nil => exact if_neg (by rw [free]; decide)
  | cons k pre ih =>
    obtain ⟨here, there⟩ := List.forall_mem_cons.1 before
    rw [List.cons_append, placeHold, if_pos here, ih there]
    rfl

theorem cpAnswer_of_served (hv : s.cp.served = some v) (r : Answer) :
    (cpAnswer r s).xp = (answerCard v.card r s).xp ∧ (cpAnswer r s).cp = { s.cp with served := none } := by
  unfold cpAnswer
  rw [hv]
  exact ⟨rfl, rfl⟩

theorem answersCard_cpAnswer (wf : Memory.wf s.xp.mem = true) (hv : s.cp.served = some v) (r : Answer) :
    AnswersCard v.card r s (cpAnswer r s) := by
  obtain ⟨⟨state, bit, result⟩, bytes, bits, port⟩ := answersCard_answerCard wf v.card r
  obtain ⟨xp, -⟩ := cpAnswer_of_served hv r
  have durable : (cpAnswer r s).rp = s.rp := by simp
  exact ⟨⟨by rwa [cardByte, xp], by rwa [xp], by rw [xp, durable]; exact result⟩, by rwa [xp], by rwa [xp], by rwa [xp]⟩

/-- The comparison with oldest_seq, and the answer or placement (R145). -/
theorem holdDecided_decideHold (wf : Memory.wf s.xp.mem = true) (hv : s.cp.served = some v) (job : v.job = .hold) :
    HoldDecided s.cu.oldest v s (decideHold s) := by
  unfold HoldDecided decideHold
  simp only [hv, if_pos job]
  by_cases gone : v.work.argA < s.cu.oldest
  · rw [if_pos gone, if_pos gone]
    exact ⟨answersCard_cpAnswer wf hv _, (cpAnswer_of_served hv _).2⟩
  rw [if_neg gone, if_neg gone]
  by_cases full : ∀ h ∈ s.cp.holds, h.active = true
  · rw [if_pos full, placeHold_of_full _ full]
    exact ⟨answersCard_cpAnswer wf hv _, (cpAnswer_of_served hv _).2⟩
  rw [if_neg full]
  intro pre h post holds before free
  rw [holds, placeHold_at _ before free]
  dsimp only
  let placed := setHolds (pre ++ { active := true, tag := v.work.argC, lowSeq := v.work.argA, remaining := v.work.argD } :: post) s
  exact ⟨(answersCard_cpAnswer (s := placed) wf hv _).of_xp rfl, (cpAnswer_of_served (s := placed) hv _).2⟩

theorem HoldDecided.congr {oldest : Nat} {w : State} (h : HoldDecided oldest v s t)
    (card : ∀ r, AnswersCard v.card r s t → AnswersCard v.card r u w) (before : u.cp = s.cp) (after : w.cp = t.cp) :
    HoldDecided oldest v u w := by
  unfold HoldDecided at h ⊢
  rw [before, after]
  by_cases gone : v.work.argA < oldest
  · rw [if_pos gone] at h ⊢
    exact ⟨card _ h.1, h.2⟩
  rw [if_neg gone] at h ⊢
  by_cases full : ∀ x ∈ s.cp.holds, x.active = true
  · rw [if_pos full] at h ⊢
    exact ⟨card _ h.1, h.2⟩
  rw [if_neg full] at h ⊢
  intro pre k post holds active free
  obtain ⟨answers, table⟩ := h pre k post holds active free
  exact ⟨card _ answers, table⟩

theorem HoldDecided.of_before {oldest : Nat} (h : HoldDecided oldest v s t) (xp : s.xp = u.xp) (cp : u.cp = s.cp) :
    HoldDecided oldest v u t := h.congr (fun _ k => k.of_xp xp) cp rfl

theorem HoldDecided.of_after {oldest : Nat} (h : HoldDecided oldest v s t) (xp : u.xp = t.xp) (cp : u.cp = t.cp) (rp : u.rp = t.rp) :
    HoldDecided oldest v s u := by
  refine h.congr (fun r k => ?_) rfl cp
  obtain ⟨⟨state, bit, result⟩, bytes, bits, port⟩ := k
  exact ⟨⟨by rwa [cardByte, xp], by rwa [xp], by rwa [xp, rp]⟩, by rwa [xp], by rwa [xp], by rwa [xp]⟩

/-! ### The start of a read (R122, R128) -/

theorem arStop_eq (st : ReadStop) (s : State) : ∃ x a, arStop st s = { s with xp := x, ar := a } := by
  obtain ⟨x, e⟩ := arAnswer_eq (Ar.answer { s.ar with flags := s.ar.flags ||| st.flag } .done) s
  exact ⟨x, _, e⟩

theorem answersAll_arStop (wf : Memory.wf s.xp.mem = true) (st : ReadStop) : ∃ ps, AnswersAll ps s (arStop st s) :=
  ⟨_, answersAll_arAnswer _ wf⟩

/-- A start asks for a pin, or stops and answers its card. -/
theorem arStart_cases (w : Work) (s : State) : (∃ a, arStart w s = { s with ar := a }) ∨
    ∃ st a, arStart w s = arStop st { s with ar := a } := by
  unfold arStart
  split
  · unfold arStartKey
    split
    · exact .inr ⟨_, _, rfl⟩
    · exact .inl ⟨_, rfl⟩
  · unfold arStartSeq
    extract_lets cur a1 s1
    split
    · exact .inr ⟨_, _, rfl⟩
    · split
      · exact .inr ⟨_, _, rfl⟩
      · split
        · exact .inl ⟨_, rfl⟩
        · exact .inr ⟨_, _, rfl⟩

theorem arStart_eq (w : Work) (s : State) : ∃ x a, arStart w s = { s with xp := x, ar := a } := by
  rcases arStart_cases w s with ⟨a, e⟩ | ⟨st, a, e⟩
  · exact ⟨_, a, e⟩
  · obtain ⟨x, b, k⟩ := arStop_eq st { s with ar := a }
    exact ⟨x, b, e.trans k⟩

theorem answersAll_arStart (wf : Memory.wf s.xp.mem = true) (w : Work) : ∃ ps, AnswersAll ps s (arStart w s) := by
  rcases arStart_cases w s with ⟨a, e⟩ | ⟨st, a, e⟩
  · exact ⟨[], e ▸ (AnswersAll.nil wf).of_port rfl rfl⟩
  · obtain ⟨ps, h⟩ := answersAll_arStop (s := { s with ar := a }) wf st
    exact ⟨ps, e ▸ h.from_port rfl rfl⟩

/-- The AR does not see the RU. -/
theorem arStop_setRu {st : ReadStop} {r : Ru} (h : t = { s with ru := r }) : arStop st t = { arStop st s with ru := r } := by
  subst h
  unfold arStop arAnswer
  dsimp only
  split <;> rfl

theorem arStart_setRu (w : Work) (r : Ru) (s : State) : arStart w { s with ru := r } = { arStart w s with ru := r } := by
  unfold arStart
  split
  · unfold arStartKey
    dsimp only
    split
    · exact arStop_setRu rfl
    · rfl
  · unfold arStartSeq
    dsimp only
    split
    · exact arStop_setRu rfl
    · split
      · exact arStop_setRu rfl
      · split
        · rfl
        · exact arStop_setRu rfl

/-! ### The next record of a waiting card (R25, R26) -/

/-- Answers leave the parcels. -/
theorem AnswersAll.xmReadList_parcels (h : AnswersAll ps s t) {a : Nat} (ha : 0x2400 ≤ a) (k : Nat) :
    xmReadList t.xp.mem a k = xmReadList s.xp.mem a k := by
  refine xmReadList_eq_of fun j low high => h.others.bytes j fun c _ => ?_
  have card := c.isLt
  unfold answerByte cardBase
  omega

theorem AnswersAll.readRecord (h : AnswersAll ps s t) (keyHigh : t.rp.keyHigh = s.rp.keyHigh) (nextSeq : t.rp.nextSeq = s.rp.nextSeq)
    (v : RpServed) : readRecord t v = readRecord s v := by
  have base (k n : Nat) : xmReadList t.xp.mem (v.work.runBase + k) n = xmReadList s.xp.mem (v.work.runBase + k) n :=
    h.xmReadList_parcels (by unfold Work.runBase; omega) n
  have payload (n : Nat) : xmReadList t.xp.mem (v.work.runBase + v.offset + 8) n = xmReadList s.xp.mem (v.work.runBase + v.offset + 8) n :=
    h.xmReadList_parcels (by unfold Work.runBase; omega) n
  simp only [Machine.readRecord, base, payload, keyHigh, nextSeq]

/-- A card that waits for space goes on waiting while its record needs a segment that the pool does not give. -/
theorem reexamineSpace_waits {v : RpServed} {h : HostRecord} (hv : s.rp.served = some v) (hw : v.wait = .space)
    (ready : s.ec.engine = .ready) (hx : Machine.readRecord s v = .ok h) (ea : s.rp.bufA.state = .empty) (eb : s.rp.bufB.state = .empty)
    (needs : NeedsSegment s) (low : s.cu.freePool.length ≤ 2) (may : spaceMayReturn s = true) : reexamineSpace s = s := by
  have none_ : s.rp.find .filling = none := filling_none_of_empty ea eb
  have found : s.rp.find .empty = some .a := Rp.find_eq_some.2 ⟨ea, nofun⟩
  have waits : stageNext v s = s := by
    rw [stageNext_of_fresh hx none_ found, placeInEmpty_of_reserve needs eb (.inl low), if_pos may, serveWait_of_ready v .space ready]
    unfold setServed
    rw [← hw, ← hv]
  unfold reexamineSpace
  rw [hv]
  dsimp only
  split
  · exact waits
  · rfl

/-! ### The requests held during a claim (R153) -/

/-- The held hold request is decided. -/
def heldHoldAnswered (s : State) : State :=
  match s.ru.heldHold with
  | none => s
  | some _ => decideHold { s with ru := { s.ru with heldHold := none } }

/-- The held pin request is answered. -/
def heldPinAnswered (granted : Bool) (s : State) : State :=
  match s.ru.heldPin with
  | none => s
  | some seg => answerPin (!granted) seg { s with ru := { s.ru with heldPin := none } }

theorem answerHeld_eq (granted : Bool) (s : State) : answerHeld granted s = heldHoldAnswered (heldPinAnswered granted s) := rfl

theorem setHolds_same (s : State) : setHolds s.cp.holds s = s := rfl

/-- A decision answers the card, with the hold table changed or as it was. -/
theorem decideHold_cases (s : State) : decideHold s = s ∨ ∃ r hs, decideHold s = cpAnswer r (setHolds hs s) := by
  unfold decideHold
  split
  · exact .inl rfl
  · dsimp only
    split
    · right
      split
      · exact ⟨_, s.cp.holds, by rw [setHolds_same]⟩
      · split
        · exact ⟨_, s.cp.holds, by rw [setHolds_same]⟩
        · exact ⟨_, _, rfl⟩
    · exact .inl rfl

theorem decideHold_eq (s : State) : ∃ x k, decideHold s = { s with xp := x, cp := k } := by
  rcases decideHold_cases s with e | ⟨r, hs, e⟩
  · exact ⟨s.xp, s.cp, e⟩
  · obtain ⟨x, k⟩ := cpAnswer_eq r (setHolds hs s)
    exact ⟨x, _, e.trans k⟩

theorem answersAll_decideHold (wf : Memory.wf s.xp.mem = true) : ∃ ps, AnswersAll ps s (decideHold s) := by
  rcases decideHold_cases s with e | ⟨r, hs, e⟩
  · exact ⟨[], (AnswersAll.nil wf).of_port (by rw [e]) (by rw [e])⟩
  · rw [e]
    exact ⟨_, (answersAll_cpAnswer (s := setHolds hs s) r wf).from_port rfl rfl⟩

/-- From `u` to `t` the held hold request, if there is one, is decided. -/
structure AnswersHold (u t : State) : Prop where
  noHold : u.ru.heldHold = none → t.xp = u.xp ∧ t.cp = u.cp
  decided : ∀ x v, u.ru.heldHold = some x → u.cp.served = some v → HoldDecided u.cu.oldest v u t
  frame : ∃ x k, t = { u with xp := x, cp := k, ru := { u.ru with heldHold := none } }
  cards : ∃ ps, AnswersAll ps u t

theorem answersHold (wf : Memory.wf u.xp.mem = true) (jobs : ∀ x, u.ru.heldHold = some x → ∃ v, u.cp.served = some v ∧ v.job = .hold) :
    AnswersHold u (heldHoldAnswered u) := by
  cases held : u.ru.heldHold with
  | none =>
    have same : heldHoldAnswered u = u := by simp only [heldHoldAnswered, held]
    rw [same]
    refine ⟨fun _ => ⟨rfl, rfl⟩, fun x v h => ?_, ⟨u.xp, u.cp, ?_⟩, ⟨[], .nil wf⟩⟩
    · rw [held] at h; cases h
    · rw [← held]
  | some x =>
    obtain ⟨v, served, job⟩ := jobs x held
    have same : heldHoldAnswered u = decideHold { u with ru := { u.ru with heldHold := none } } := by simp only [heldHoldAnswered, held]
    rw [same]
    refine ⟨fun h => ?_, fun y v' _ hv' => ?_, ?_, ?_⟩
    · rw [held] at h; cases h
    · obtain rfl : v = v' := Option.some.inj (served.symm.trans hv')
      exact (holdDecided_decideHold (s := { u with ru := { u.ru with heldHold := none } }) wf served job).of_before rfl rfl
    · exact decideHold_eq { u with ru := { u.ru with heldHold := none } }
    · obtain ⟨ps, h⟩ := answersAll_decideHold (s := { u with ru := { u.ru with heldHold := none } }) wf
      exact ⟨ps, h.from_port rfl rfl⟩

end Sys2Proof.Machine
end

section
/-!
PROOF. The removal claim of the RU, granted or refused (O45).
-/
namespace Sys2Proof.Machine

-- One proof at a time, as in the tests: proofs checked side by side need more threads than the limits allow.
set_option Elab.async false

variable {s t u w p q : State} {seg x y next : Nat} {rest : List Nat} {a : ArServed} {v : RpServed}

/-- The RU once its claim has been taken and the requests held meanwhile are answered. -/
def Ru.answered (r : Ru) : Ru := { r with claim := none, heldPin := none, heldHold := none }

/-! ### A held pin request (R123, R153) -/

theorem answerPin_of_served (served : s.ar.served = some a) (act : s.ar.act = .awaitPin y false) (granted : Bool) (x : Nat) :
    answerPin granted x s = if granted then arLocate a.work x { s with ar := { s.ar with pin := some x } } else arStart a.work s := by
  have answers : answerPin granted x s = if granted then arPinGranted a.work x false s else arPinRefused a.work false s := by
    unfold answerPin
    simp only [served, act]
  rw [answers]
  cases granted <;> rfl

theorem heldPinAnswered_of_none (granted : Bool) (h : s.ru.heldPin = none) : heldPinAnswered granted s = s := by
  simp only [heldPinAnswered, h]

/-- After a granted claim a held pin request is refused: its start is repeated. -/
theorem heldPinAnswered_refuses (h : s.ru.heldPin = some x) (served : s.ar.served = some a) (act : s.ar.act = .awaitPin y false) :
    heldPinAnswered true s = { arStart a.work s with ru := { s.ru with heldPin := none } } := by
  simp only [heldPinAnswered, h]
  exact (answerPin_of_served (s := { s with ru := { s.ru with heldPin := none } }) served act false x).trans (arStart_setRu a.work _ s)

/-- After a refused claim it is consented: the pin names the segment and the row is located. -/
theorem heldPinAnswered_consents (h : s.ru.heldPin = some x) (served : s.ar.served = some a) (act : s.ar.act = .awaitPin y false) :
    heldPinAnswered false s = arLocate a.work x { s with ar := { s.ar with pin := some x }, ru := { s.ru with heldPin := none } } := by
  simp only [heldPinAnswered, h]
  exact answerPin_of_served (s := { s with ru := { s.ru with heldPin := none } }) served act true x

/-! ### A granted claim (R91, R153) -/

theorem removalGranted_iff : removalGranted seg s = true ↔ s.ec.loaded = true ∧ (∃ next rest, s.cu.orderList = seg :: next :: rest) ∧
    ((s.cu.entry seg).state = .full ∨ (s.cu.entry seg).state = .short) := by
  simp [removalGranted, orderHead_eq_some, and_assoc]

theorem claimRemoval_oldest (ok : CatalogOk s) (order : s.cu.orderList = seg :: next :: rest) :
    (claimRemoval seg s).cu.orderList = next :: rest ∧ (claimRemoval seg s).cu.oldest = (s.cu.entry next).firstSeq := by
  have tail : (claimRemoval seg s).cu.orderList = next :: rest := congrArg List.tail order
  refine ⟨tail, ?_⟩
  have first : (claimRemoval seg s).cu.oldest = ((claimRemoval seg s).cu.entry next).firstSeq := by
    unfold claimRemoval
    simp only [setEntry, order, List.tail_cons]
    rfl
  rw [first, show (claimRemoval seg s).cu.entry next = _ from entry_setEntry ok seg next _]
  split
  next same => rw [same]
  · rfl

/-- From `s` to `u` a read was started anew, or nothing was done: the AR changed, and its card may have been answered. -/
structure Restarts (s u : State) : Prop where
  frame : ∃ x a, u = { s with xp := x, ar := a }
  cards : ∃ ps, AnswersAll ps s u

theorem restarts_refl (wf : Memory.wf s.xp.mem = true) : Restarts s s := ⟨⟨_, _, rfl⟩, [], .nil wf⟩

theorem restarts_arStart (wf : Memory.wf s.xp.mem = true) (k : Work) : Restarts s (arStart k s) :=
  ⟨arStart_eq k s, answersAll_arStart wf k⟩

theorem Restarts.wf (h : Restarts s u) : Memory.wf u.xp.mem = true := by
  obtain ⟨ps, cards⟩ := h.cards
  exact cards.canonical

/-- The state in which the erase of a granted claim is handed over. -/
structure Granted (s w u q : State) : Prop where
  restarts : Restarts w u
  holds : AnswersHold { u with ru := { s.ru with claim := none, heldPin := none } } q

theorem Granted.eq (g : Granted s (claimRemoval seg s) u q) : ∃ x a k, q = { s with
    xp := x, ar := a, cp := k, cu := (claimRemoval seg s).cu, ru := s.ru.answered } ∧ u = { claimRemoval seg s with xp := u.xp, ar := a } := by
  obtain ⟨x, a, restarts⟩ := g.restarts.frame
  obtain ⟨y, k, holds⟩ := g.holds.frame
  subst restarts
  exact ⟨y, a, k, holds, rfl⟩

/-- The answers leave what the RP reads of its card's run. -/
theorem Granted.readRecord (g : Granted s (claimRemoval seg s) u q) (v : RpServed) : readRecord q v = Machine.readRecord s v := by
  obtain ⟨x, a, k, hq, hu⟩ := g.eq
  obtain ⟨ps, restart⟩ := g.restarts.cards
  obtain ⟨qs, hold⟩ := g.holds.cards
  have held := hold.readRecord (by rw [hq, hu]; rfl) (by rw [hq, hu]; rfl) v
  have started := restart.readRecord (by rw [hu]) (by rw [hu]) v
  exact held.trans ((readRecord_congr rfl rfl rfl v).trans (started.trans (readRecord_congr rfl rfl rfl v)))

/-- What a waiting card needs and the pool does not give. -/
def StillWaits (s : State) : Prop := ∀ v, s.rp.served = some v → v.wait = .space → s.ec.engine = .ready ∧
  (∃ h, readRecord s v = .ok h) ∧ s.rp.bufA.state = .empty ∧ s.rp.bufB.state = .empty ∧
  (∀ o, s.rp.openSeg = some o → 62 < o.nextRow) ∧ s.cu.freePool.length ≤ 2

theorem StillWaits.reexamineSpace (h : StillWaits s) (rp : t.rp = s.rp) (ec : t.ec = s.ec) (pool : t.cu.freePool = s.cu.freePool)
    (read : ∀ v, readRecord t v = readRecord s v) (op : t.ru.op = .erase seg) : reexamineSpace t = t := by
  by_cases waits : ∃ v, s.rp.served = some v ∧ v.wait = .space
  · obtain ⟨v, served, wait⟩ := waits
    obtain ⟨ready, ⟨r, record⟩, bufA, bufB, needs, low⟩ := h v served wait
    exact reexamineSpace_waits (by rw [rp, served]) wait (by rw [ec, ready]) ((read v).trans record) (by rw [rp, bufA]) (by rw [rp, bufB])
      (by rw [NeedsSegment, rp]; exact needs) (by rw [pool]; exact low) (spaceMayReturn_iff.2 (.inl ⟨seg, op⟩))
  · exact reexamineSpace_of_none fun v hv wait => waits ⟨v, by rw [← rp, hv], wait⟩

/-- A granted claim ends with the RU's erase, and a card that waits for space goes on waiting. -/
theorem removalClaim_granted (hr : Running s) (claim : s.ru.claim = some seg) (granted : removalGranted seg s = true) (waits : StillWaits s)
    (hq : q = heldHoldAnswered (heldPinAnswered true { claimRemoval seg s with ru := { s.ru with claim := none } }))
    (g : Granted s (claimRemoval seg s) u q) : removalClaim s = ruErase seg q := by
  obtain ⟨x, a, k, eq, -⟩ := g.eq
  have is : removalClaim s = judgeChange (ruErase seg q) (reexamineSpace (ruErase seg q)) := by
    unfold removalClaim
    simp only [claim, if_pos ((running_iff s).1 hr)]
    rw [hq, ← answerHeld_eq]
    exact if_pos granted
  have rp : (ruErase seg q).rp = s.rp := by simp [ruErase, eq]
  have stays : reexamineSpace (ruErase seg q) = ruErase seg q := by
    refine waits.reexamineSpace rp (by simp [ruErase, eq]) (by simp [ruErase, eq]; rfl) (fun v => ?_) (by rw [ruErase_ru])
    exact (readRecord_congr (t := ruErase seg q) (s := q) (by simp [ruErase]) (by simp [ruErase]) (by simp [ruErase]) v).trans (g.readRecord v)
  rw [is, stays]
  exact if_pos ⟨rfl, rfl⟩

/-- The held pin request of a granted claim, and with it what the held hold request is decided in. -/
theorem exists_granted (wf : Memory.wf s.xp.mem = true) (pins : ∀ x, s.ru.heldPin = some x → ∃ a y, s.ar.served = some a ∧ s.ar.act = .awaitPin y false)
    (jobs : ∀ x, s.ru.heldHold = some x → ∃ v, s.cp.served = some v ∧ v.job = .hold) : ∃ u,
    Granted s (claimRemoval seg s) u (heldHoldAnswered (heldPinAnswered true { claimRemoval seg s with ru := { s.ru with claim := none } })) ∧
    (s.ru.heldPin = none → u = claimRemoval seg s) ∧
    (∀ x a, s.ru.heldPin = some x → s.ar.served = some a → u = arStart a.work (claimRemoval seg s)) := by
  have memory : Memory.wf (claimRemoval seg s).xp.mem = true := by simpa using wf
  cases held : s.ru.heldPin with
  | none =>
    have pin := heldPinAnswered_of_none (s := { claimRemoval seg s with ru := { s.ru with claim := none } }) true held
    refine ⟨claimRemoval seg s, ⟨restarts_refl memory, ?_⟩, fun _ => rfl, nofun⟩
    have same : ({ claimRemoval seg s with ru := { s.ru with claim := none, heldPin := none } } : State) =
        { claimRemoval seg s with ru := { s.ru with claim := none } } := by rw [← held]
    rw [pin, same]
    exact answersHold memory jobs
  | some x =>
    obtain ⟨a, y, served, act⟩ := pins x held
    have pin := heldPinAnswered_refuses (s := { claimRemoval seg s with ru := { s.ru with claim := none } }) held served act
    have restarts := restarts_arStart memory a.work
    refine ⟨arStart a.work (claimRemoval seg s), ⟨restarts, ?_⟩, nofun, fun x' a' _ served' => ?_⟩
    · rw [pin, arStart_setRu a.work { s.ru with claim := none } (claimRemoval seg s)]
      exact answersHold restarts.wf (by simpa using jobs)
    · rw [Option.some.inj (served.symm.trans served')]

/-! ### A refused claim (R153) -/

theorem removalClaim_refused (hr : Running s) (claim : s.ru.claim = some seg) (refused : removalGranted seg s = false) :
    removalClaim s = reactPin s (ruJudge (heldHoldAnswered (heldPinAnswered false { s with ru := { s.ru with claim := none } }))) := by
  rw [← answerHeld_eq]
  unfold removalClaim
  simp only [claim, if_pos ((running_iff s).1 hr)]
  exact if_neg (by rw [Bool.not_eq_true]; exact refused)

theorem reactPin_ruJudge (old u : State) : reactPin old (ruJudge u) = if u.ar.pin = old.ar.pin then ruJudge u else react (ruJudge u) := by
  rw [reactPin]
  simp

/-- A segment still named is located by its state: the digest of a FULL one, the trailers of a SHORT one. -/
theorem arLocate_full (k : Work) (named : stillNamed x s = true) (full : (s.cu.entry x).state = .full) :
    arLocate k x s = arReadDigest x false s := by
  unfold arLocate
  rw [if_pos named, full]

theorem arLocate_short (k : Work) (named : stillNamed x s = true) (short : (s.cu.entry x).state = .short) :
    arLocate k x s = arScan x { row := 0, bad := none, prev := none } s := by
  unfold arLocate
  rw [if_pos named, short]

/-- The state in which the RU judges after a refused claim, with a pin request held. -/
theorem exists_refused (hr : Running s) (claim : s.ru.claim = some seg) (refused : removalGranted seg s = false) (held : s.ru.heldPin = some x)
    (served : s.ar.served = some a) (act : s.ar.act = .awaitPin y false)
    (jobs : ∀ x, s.ru.heldHold = some x → ∃ v, s.cp.served = some v ∧ v.job = .hold)
    (hp : p = arLocate a.work x { s with ar := { s.ar with pin := some x }, ru := { s.ru with claim := none, heldPin := none } })
    (wf : Memory.wf p.xp.mem = true) (ru : p.ru = { s.ru with claim := none, heldPin := none }) (cp : p.cp = s.cp) :
    ∃ u, exec .removalClaim s = .next (settle (if u.ar.pin = s.ar.pin then ruJudge u else react (ruJudge u))) ∧ AnswersHold p u := by
  have pin := heldPinAnswered_consents (s := { s with ru := { s.ru with claim := none } }) held served act
  refine ⟨heldHoldAnswered p, ?_, answersHold wf (by simpa [ru, cp] using jobs)⟩
  show done (removalClaim s) = _
  rw [removalClaim_refused hr claim refused, pin, reactPin_ruJudge, ← hp, done_eq]

/-- A consent moves the pin, so that both the RU and a card waiting for space follow. -/
theorem exec_consents {act : FlashAct} {ar : Ar} (hr : Running s) (claim : s.ru.claim = some seg) (refused : removalGranted seg s = false)
    (held : s.ru.heldPin = some x) (served : s.ar.served = some a) (awaits : s.ar.act = .awaitPin y false)
    (jobs : ∀ x, s.ru.heldHold = some x → ∃ v, s.cp.served = some v ∧ v.job = .hold) (wf : Memory.wf s.xp.mem = true)
    (unpinned : s.ar.pin ≠ some x) (pinned : ar.pin = some x)
    (hp : arLocate a.work x { s with ar := { s.ar with pin := some x }, ru := { s.ru with claim := none, heldPin := none } } = p)
    (hands : p = handOp .reader act { s with ar := ar, ru := { s.ru with claim := none, heldPin := none } }) :
    ∃ u, exec .removalClaim s = .next (settle (react (ruJudge u))) ∧ u.ru = s.ru.answered ∧ u.ar = ar ∧
      QueuesGain [{ source := .reader, act := act }] s u ∧
      ((s.ru.heldHold = none → u.xp = s.xp ∧ u.cp = s.cp) ∧
        ∀ x v, s.ru.heldHold = some x → s.cp.served = some v → HoldDecided s.cu.oldest v s u) ∧
      { u with xp := s.xp, ar := s.ar, cp := s.cp, ru := s.ru, fs := s.fs } = s := by
  have base : ({ s with ar := ar, ru := { s.ru with claim := none, heldPin := none } } : State).ec.engine ≠ .faulted := hr.notFaulted
  have eq := hands.trans (handOp_of_ne base _ _)
  have gain := queuesGain_handOp base .reader act
  rw [← hands] at gain
  obtain ⟨u, run, hold⟩ := exists_refused hr claim refused held served awaits jobs hp.symm (by rw [eq]; exact wf) (by rw [eq]) (by rw [eq])
  obtain ⟨noHold, decided, ⟨m, k, frame⟩, -⟩ := hold
  have reader : u.ar = ar := by rw [frame, eq]
  rw [if_neg (by rw [reader, pinned]; exact unpinned.symm)] at run
  subst eq
  exact ⟨u, run, by rw [frame]; rfl, reader, gain.of_fs rfl (by rw [frame]), ⟨noHold, fun x v h hv => (decided x v h hv).of_before rfl rfl⟩,
    by rw [frame]⟩

/-- Settles O45: a granted claim ends with the erase of the head, a refused one with the RU's judgement. -/
theorem removalClaimTakesHead : Obligations.RemovalClaimTakesHead := by
  unfold Obligations.RemovalClaimTakesHead
  intro s seg hr loaded ok wf claim pins jobs
  refine ⟨fun next rest order complete waits => ?granted, fun refuses => ?refused⟩
  case granted =>
    have granted : removalGranted seg s = true := removalGranted_iff.2 ⟨loaded, ⟨next, rest, order⟩, complete⟩
    obtain ⟨u, g, noPin, pin⟩ := exists_granted (seg := seg) wf pins jobs
    obtain ⟨x, a, k, hq, hu⟩ := g.eq
    have run := removalClaim_granted hr claim granted waits rfl g
    obtain ⟨list, oldest⟩ := claimRemoval_oldest ok order
    obtain ⟨noHold, decided, -, -⟩ := g.holds
    generalize heldHoldAnswered (heldPinAnswered true { claimRemoval seg s with ru := { s.ru with claim := none } }) = q at *
    have faultless : q.ec.engine ≠ .faulted := by rw [hq]; exact hr.notFaulted
    have erased := ruErase_eq faultless seg
    refine ⟨_, u, claimRemoval seg s, congrArg done run, onlyEntry_setEntry ok seg _, list, oldest, rfl, noPin, pin,
      ⟨fun h => ?_, fun x v h hv => ?_⟩, ?_, ?_, ?_, ?_, ?_⟩
    · obtain ⟨xp, cp⟩ := noHold h
      rw [erased]
      exact ⟨xp, cp.trans (by rw [hu]; simp)⟩
    · have kept := (decided x v h (by rw [hu]; simpa using hv)).of_before (u := u) rfl rfl
      rw [show u.cu = (claimRemoval seg s).cu by rw [hu]] at kept
      exact kept.of_after (by rw [erased]) (by rw [erased]) (by rw [erased])
    · rw [erased, hq, hu]
    · rw [erased, hq]
    · rw [erased, hq]; rfl
    · exact (queuesGain_ruErase faultless seg).of_fs (by rw [hq]) rfl
    · rw [erased, hq]
  case refused =>
    have refused : removalGranted seg s = false := by
      rw [← Bool.not_eq_true, removalGranted_iff]
      rintro ⟨-, ⟨next, rest, order⟩, complete⟩
      rcases refuses with h | ⟨full, short⟩
      · exact h next rest order
      · exact complete.elim full short
    refine ⟨fun noPin => ?_, fun x held unpinned => ?_⟩
    · have pin := heldPinAnswered_of_none (s := { s with ru := { s.ru with claim := none } }) false noPin
      have run := removalClaim_refused hr claim refused
      obtain ⟨noHold, decided, ⟨m, k, frame⟩, -⟩ := answersHold (u := { s with ru := { s.ru with claim := none } }) wf jobs
      rw [pin, reactPin_ruJudge, if_pos (by rw [frame])] at run
      refine ⟨_, congrArg done run, ?_, ⟨noHold, fun x v h hv => (decided x v h hv).of_before rfl rfl⟩, by rw [frame]⟩
      rw [frame]
      show { s.ru with claim := none, heldHold := none } = s.ru.answered
      rw [Ru.answered, ← noPin]
    · obtain ⟨a, y, served, awaits⟩ := pins x held
      have named_iff := stillNamed_iff x { s with ar := { s.ar with pin := some x }, ru := { s.ru with claim := none, heldPin := none } }
      refine ⟨fun named full => ?_, fun named short => ?_, fun a' unnamed served' => ?_⟩
      · exact exec_consents hr claim refused held served awaits jobs wf unpinned rfl (arLocate_full a.work (named_iff.2 named) full) rfl
      · exact exec_consents hr claim refused held served awaits jobs wf unpinned rfl (arLocate_short a.work (named_iff.2 named) short) rfl
      · obtain rfl : a = a' := Option.some.inj (served.symm.trans served')
        have located := arLocate_notNamed a.work x _ (Bool.not_eq_true _ ▸ mt named_iff.1 unnamed)
        intro w
        have restarts := restarts_arStart (s := { s with ar := { s.ar with pin := some x }, ru := { s.ru with claim := none, heldPin := none } })
          wf a.work
        obtain ⟨m, b, eq⟩ := restarts.frame
        obtain ⟨u, run, hold⟩ := exists_refused hr claim refused held served awaits jobs located.symm restarts.wf (by simp) (by simp)
        obtain ⟨noHold, decided, ⟨z, k, frame⟩, -⟩ := hold
        refine ⟨u, run, ?_, by rw [frame], ⟨fun h => ?_, fun x v h hv => ?_⟩, ?_⟩
        · rw [frame, eq]
        · obtain ⟨xp, cp⟩ := noHold (by simpa using h)
          exact ⟨xp, cp.trans (by simp)⟩
        · have kept := decided x v (by simpa using h) (by simpa using hv)
          simpa using kept
        · rw [frame, eq]

end Sys2Proof.Machine
end

section
/-!
SUPPORT. The erases that FORMAT and a mount hand to each die, and the opening of FORMAT's segment (R92, R99, R167, R171, R172).
-/
namespace Sys2Proof.Machine

-- One proof at a time, as in the tests: proofs checked side by side need more threads than the limits allow.
set_option Elab.async false

variable {s t u : State} {seg x y : Nat} {d e : Fin 4} {cs : List (Fin 4)} {l rest : List Nat} {v : CpServed}

/-! ### The catalog in rising order (log 27) -/

theorem Sparse.keys_rise {α : Type} [DecidableEq α] {z : α} {lo : Option Nat} {m : List (Nat × α)}
    (h : Sparse.wfFrom z lo m = true) : (m.map (·.1)).Pairwise (· < ·) ∧ ∀ b, lo = some b → ∀ k ∈ m.map (·.1), b < k := by
  induction m generalizing lo with
  | nil => exact ⟨.nil, nofun⟩
  | cons e t ih =>
    obtain ⟨j, w⟩ := e
    simp only [Sparse.wfFrom, Bool.and_eq_true, decide_eq_true_eq] at h
    obtain ⟨⟨low, -⟩, rest⟩ := h
    obtain ⟨rises, above⟩ := ih rest
    refine ⟨List.pairwise_cons.2 ⟨above j rfl, rises⟩, fun b hb k hk => ?_⟩
    subst hb
    have first : b < j := by simpa using low
    rcases List.mem_cons.1 hk with rfl | hk
    · exact first
    · exact first.trans (above j rfl k hk)

/-- The segments with a property, as the catalog lists them, ascend. -/
theorem catalog_filter_rises (ok : CatalogOk s) (p : Nat × Entry → Bool) :
    ((s.cu.catalog.filter p).map (·.1)).Pairwise (· < ·) :=
  (Sparse.keys_rise (lo := none) ok).1.sublist (List.filter_sublist.map _)

/-! ### The first erase of each die (R167, R171) -/

/-- The next erase of a die on an erase list. -/
def nextErase (l : List Nat) (d : Fin 4) : Option Nat := l.find? fun seg => segDie seg == d

theorem mem_of_nextErase (h : nextErase l d = some x) : x ∈ l ∧ segDie x = d :=
  ⟨List.mem_of_find?_eq_some h, by simpa using List.find?_some h⟩

/-- A die's segment on a rising list is its next erase, or stands above it. -/
theorem nextErase_of_mem (rises : l.Pairwise (· < ·)) (h : x ∈ l) : ∃ y, nextErase l (segDie x) = some y ∧ y ≤ x := by
  obtain ⟨y, hy⟩ := Option.isSome_iff_exists.1 ((List.find?_isSome (p := fun seg => segDie seg == segDie x)).2 ⟨x, h, beq_self_eq_true (segDie x)⟩)
  refine ⟨y, hy, ?_⟩
  obtain ⟨-, pre, post, split, before⟩ := List.find?_eq_some_iff_append.1 hy
  rw [split] at h rises
  rcases List.mem_append.1 h with h | h
  · simpa using before x h
  · rcases List.mem_cons.1 h with rfl | h
    · exact Nat.le_refl _
    · exact Nat.le_of_lt (List.rel_of_pairwise_cons (List.pairwise_append.1 rises).2.1 h)

/-- Another die's segment left the list. -/
theorem nextErase_filter (other : segDie y ≠ d) : nextErase (l.filter (· != y)) d = nextErase l d := by
  unfold nextErase
  rw [List.find?_filter]
  refine congrArg (fun q => l.find? q) (funext fun z => ?_)
  by_cases same : z = y
  · simp [same, other]
  · cases h : segDie z == d <;> simp [same]

/-- The segment is the next erase of its die, and its die is among those served. -/
def FirstErase (cs : List (Fin 4)) (l : List Nat) (x : Nat) : Prop := segDie x ∈ cs ∧ nextErase l (segDie x) = some x

/-- The operation that erases a segment for the EC. -/
def eraseOp (x : Nat) : FlashOp := { source := .engine, act := .eraseSegment x }

/-- An entry as its erase is handed over (log 15). -/
def Entry.erased (e : Entry) : Entry := { e with state := .erasing, cause := .noCause }

/-- From `s` to `t` the next erase of each die of a list has been handed over. -/
structure HandsErases (cs : List (Fin 4)) (s t : State) : Prop where
  queue : ∀ e, (t.fs.die e).queue = (s.fs.die e).queue ++ if e ∈ cs then (nextErase s.ec.eraseList e).toList.map eraseOp else []
  left : ∀ x, x ∈ t.ec.eraseList ↔ x ∈ s.ec.eraseList ∧ ¬ FirstErase cs s.ec.eraseList x
  list : t.ec.eraseList.Sublist s.ec.eraseList
  others : ∀ e, e ∉ cs → nextErase t.ec.eraseList e = nextErase s.ec.eraseList e
  handed : ∀ x, FirstErase cs s.ec.eraseList x → t.cu.entry x = (s.cu.entry x).erased
  kept : ∀ x, ¬ FirstErase cs s.ec.eraseList x → t.cu.entry x = s.cu.entry x
  flash : t.fs.mask = s.fs.mask ∧ t.fs.corrected = s.fs.corrected ∧ t.fs.softResets = s.fs.softResets
  frame : { t with
    cu := { t.cu with catalog := s.cu.catalog }, ec := { t.ec with eraseList := s.ec.eraseList }, fs := s.fs } = s

theorem handsErases_nil (s : State) : HandsErases [] s s :=
  ⟨fun e => by simp, fun x => by simp [FirstErase], List.Sublist.refl _, fun _ _ => rfl,
    fun x h => absurd h.1 List.not_mem_nil, fun _ _ => rfl, ⟨rfl, rfl, rfl⟩, rfl⟩

theorem ecEraseNext_of_none (none_ : nextErase s.ec.eraseList d = none) : ecEraseNext d s = s := by
  unfold ecEraseNext
  split
  · rfl
  · rw [show s.ec.eraseList.find? (fun seg => segDie seg == d) = none from none_]

theorem ecEraseNext_of_some (go : ¬ (s.ec.engine = .mounting ∧ s.ec.stopPending = true)) (next : nextErase s.ec.eraseList d = some x) :
    ecEraseNext d s = handOp .engine (.eraseSegment x) { setEntry x (s.cu.entry x).erased s with
      ec := { s.ec with eraseList := s.ec.eraseList.filter (· != x) } } := by
  unfold ecEraseNext
  rw [if_neg go, show s.ec.eraseList.find? (fun seg => segDie seg == d) = some x from next]
  rfl

theorem firstErase_singleton (h : nextErase l d = some y) : FirstErase [d] l x ↔ x = y := by
  constructor
  · rintro ⟨die, first⟩
    rw [List.mem_singleton.1 die, h] at first
    exact (Option.some.inj first).symm
  · rintro rfl
    have die := (mem_of_nextErase h).2
    exact ⟨List.mem_singleton.2 die, by rw [die, h]⟩

theorem handsErases_ecEraseNext (ok : CatalogOk s) (hf : s.ec.engine ≠ .faulted)
    (go : ¬ (s.ec.engine = .mounting ∧ s.ec.stopPending = true)) (d : Fin 4) : HandsErases [d] s (ecEraseNext d s) := by
  cases next : nextErase s.ec.eraseList d with
  | none =>
    have none_ (x : Nat) : ¬ FirstErase [d] s.ec.eraseList x := fun ⟨die, first⟩ => by
      rw [List.mem_singleton.1 die, next] at first
      cases first
    rw [ecEraseNext_of_none next]
    refine ⟨fun e => ?_, fun x => by simp [none_], List.Sublist.refl _, fun _ _ => rfl, fun x h => absurd h (none_ x),
      fun _ _ => rfl, ⟨rfl, rfl, rfl⟩, rfl⟩
    split
    next he => rw [List.mem_singleton.1 he, next]; simp
    · simp
  | some y =>
    obtain ⟨-, die⟩ := mem_of_nextErase next
    have base : ({ setEntry y (s.cu.entry y).erased s with
      ec := { s.ec with eraseList := s.ec.eraseList.filter (· != y) } } : State).ec.engine ≠ .faulted := hf
    have gain := queuesGain_handOp base .engine (.eraseSegment y)
    have first (x : Nat) := firstErase_singleton (x := x) next
    rw [ecEraseNext_of_some go next]
    rw [handOp_of_ne base] at gain ⊢
    refine ⟨fun e => ?_, fun x => ?_, List.filter_sublist, fun e he => ?_, fun x h => ?_, fun x h => ?_, ⟨gain.mask, gain.corrected, gain.softResets⟩, rfl⟩
    · refine (gain.queue e).trans (congrArg (_ ++ ·) ?_)
      by_cases he : e = d
      · subst he
        rw [if_pos (List.mem_singleton_self _), next]
        simp [FlashAct.die, die, eraseOp]
      · rw [if_neg (mt List.mem_singleton.1 he)]
        simp [FlashAct.die, die, Ne.symm he]
    · rw [first]
      simp
    · exact nextErase_filter fun k => he (List.mem_singleton.2 (k.symm.trans die))
    · rw [(first x).1 h]
      exact (entry_setEntry ok y y _).trans (if_pos rfl)
    · exact (entry_setEntry ok y x _).trans (if_neg (mt (first x).2 h))

theorem HandsErases.trans (h : HandsErases [d] s t) (k : HandsErases cs t u) (other : d ∉ cs) : HandsErases (d :: cs) s u := by
  have next {e : Fin 4} (he : e ∈ cs) := h.others e fun same => other (List.mem_singleton.1 same ▸ he)
  have first (x : Nat) : FirstErase (d :: cs) s.ec.eraseList x ↔ FirstErase [d] s.ec.eraseList x ∨ FirstErase cs t.ec.eraseList x := by
    unfold FirstErase
    rw [List.mem_cons, List.mem_singleton, or_and_right]
    refine or_congr Iff.rfl (and_congr_right fun he => by rw [next he])
  have apart (x : Nat) (h1 : FirstErase [d] s.ec.eraseList x) (h2 : FirstErase cs t.ec.eraseList x) : False :=
    other (List.mem_singleton.1 h1.1 ▸ h2.1)
  refine ⟨fun e => ?_, fun x => ?_, k.list.trans h.list, fun e he => ?_, fun x hx => ?_, fun x hx => ?_, ?_, ?_⟩
  · rw [k.queue, h.queue, List.append_assoc]
    congr 1
    by_cases hd : e = d
    · subst hd
      simp [other]
    · by_cases he : e ∈ cs
      · simp [hd, he, next he]
      · simp [hd, he]
  · rw [k.left, h.left, first, not_or, and_assoc]
  · rw [List.mem_cons, not_or] at he
    exact (k.others e he.2).trans (h.others e (mt List.mem_singleton.1 he.1))
  · rcases (first x).1 hx with h1 | h2
    · rw [k.kept x fun h2 => apart x h1 h2, h.handed x h1]
    · rw [k.handed x h2, h.kept x fun h1 => apart x h1 h2]
  · rw [first, not_or] at hx
    rw [k.kept x hx.2, h.kept x hx.1]
  · obtain ⟨a, b, c⟩ := h.flash
    obtain ⟨a', b', c'⟩ := k.flash
    exact ⟨a'.trans a, b'.trans b, c'.trans c⟩
  · have first := h.frame
    have second := k.frame
    exact (congrArg (fun w : State => { w with
      cu := { w.cu with catalog := s.cu.catalog }, ec := { w.ec with eraseList := s.ec.eraseList }, fs := s.fs }) second).trans first

theorem handsErases_handErases (ok : CatalogOk s) (hf : s.ec.engine ≠ .faulted)
    (go : ¬ (s.ec.engine = .mounting ∧ s.ec.stopPending = true)) (once : cs.Nodup) : HandsErases cs s (handErases cs s) := by
  induction cs generalizing s with
  | nil => exact handsErases_nil s
  | cons d cs ih =>
    obtain ⟨other, once⟩ := List.nodup_cons.1 once
    have ok' : CatalogOk (ecEraseNext d s) := (calm_ecEraseNext d s).catalog ok
    exact (handsErases_ecEraseNext ok hf go d).trans (ih ok' (by simpa using hf) (by simpa using go) once) other

end Sys2Proof.Machine
end

section
/-!
PROOF. FORMAT's erases and the opening of its segment (O58).
-/
namespace Sys2Proof.Machine

-- One proof at a time, as in the tests: proofs checked side by side need more threads than the limits allow.
set_option Elab.async false

variable {s t u : State} {seg x : Nat} {rest : List Nat} {v : CpServed}

/-! ### The erases begin (R171) -/

theorem formatErases_iff (e : Entry) : e.formatErases = true ↔
    e.state ∈ [SegState.opened, .full, .short, .erasing, .unclean, .stale] ∨ (e.state = .retired ∧ e.cause = .mark) := by
  unfold Entry.formatErases
  cases h : e.state <;> simp

/-- The list FORMAT erases. -/
def formatList (s : State) : List Nat := (s.cu.catalog.filter fun e => e.2.formatErases).map (·.1)

theorem mem_formatList (ok : CatalogOk s) (x : Nat) : x ∈ formatList s ↔ (s.cu.entry x).formatErases = true :=
  mem_catalog_filter ok rfl x

theorem nodup_chipEnables : chipEnables.Nodup := by decide

/-- The die of a segment has its erase alone. -/
def HandedErase (x : Nat) (t : State) : Prop := (t.fs.die (segDie x)).queue = [eraseOp x]

section
variable (h : HandsErases chipEnables s t) (quiet : ∀ e, (s.fs.die e).queue = [])
include h quiet

theorem HandsErases.queue_of_quiet (e : Fin 4) : (t.fs.die e).queue = (nextErase s.ec.eraseList e).toList.map eraseOp := by
  rw [h.queue, quiet, List.nil_append, if_pos (mem_chipEnables e)]

theorem HandsErases.handedErase_iff (x : Nat) : HandedErase x t ↔ nextErase s.ec.eraseList (segDie x) = some x := by
  rw [HandedErase, h.queue_of_quiet quiet]
  cases nextErase s.ec.eraseList (segDie x) <;> simp [eraseOp]

theorem HandsErases.firstErase_iff (x : Nat) : FirstErase chipEnables s.ec.eraseList x ↔ HandedErase x t := by
  rw [h.handedErase_iff quiet]
  exact and_iff_right (mem_chipEnables _)

theorem HandsErases.mem_iff (x : Nat) : x ∈ s.ec.eraseList ↔ x ∈ t.ec.eraseList ∨ HandedErase x t := by
  have handed := h.handedErase_iff quiet x
  rw [h.left, h.firstErase_iff quiet]
  constructor
  · intro mem
    by_cases k : HandedErase x t
    · exact .inr k
    · exact .inl ⟨mem, k⟩
  · rintro (⟨mem, -⟩ | k)
    · exact mem
    · exact (mem_of_nextErase (handed.1 k)).1

/-- What is left on the list waits for an erase of its die below it. -/
theorem HandsErases.below (rises : s.ec.eraseList.Pairwise (· < ·)) (hx : x ∈ t.ec.eraseList) :
    ∃ y < x, segDie y = segDie x ∧ HandedErase y t := by
  obtain ⟨mem, waits⟩ := (h.left x).1 hx
  obtain ⟨y, next, le⟩ := nextErase_of_mem rises mem
  have die := (mem_of_nextErase next).2
  have handed : HandedErase y t := (h.handedErase_iff quiet y).2 (by rw [die, next])
  refine ⟨y, Nat.lt_of_le_of_ne le fun same => ?_, die, handed⟩
  subst same
  exact waits ((h.firstErase_iff quiet y).2 handed)

theorem HandsErases.die_cases (e : Fin 4) : (t.fs.die e).queue = [] ∨ ∃ x, segDie x = e ∧ HandedErase x t := by
  cases next : nextErase s.ec.eraseList e with
  | none =>
    refine .inl ?_
    rw [h.queue_of_quiet quiet, next]
    rfl
  | some x =>
    have die := (mem_of_nextErase next).2
    exact .inr ⟨x, die, (h.handedErase_iff quiet x).2 (by rw [die, next])⟩

end

/-- FORMAT_QUIET divides the list between itself and the dies. -/
theorem formatQuiet_hands (engine : s.ec.engine = .formatting) (step : s.ec.step = .formatWait) (quiet : s.fs.quiet = true) (ok : CatalogOk s) :
    HandsErases chipEnables { s with ec := { s.ec with step := .formatErase, eraseList := formatList s } } (formatQuiet s) := by
  have is : formatQuiet s = handErases chipEnables { s with ec := { s.ec with step := .formatErase, eraseList := formatList s } } :=
    if_pos ⟨engine, step, quiet⟩
  rw [is]
  refine handsErases_handErases ok ?_ ?_ nodup_chipEnables
  · show s.ec.engine ≠ .faulted
    rw [engine]; decide
  · rintro ⟨mounting, -⟩
    cases engine.symm.trans mounting

/-! ### The new archive (R92, R99, R171, R172) -/

/-- The epoch raised, the pools rebuilt, the card's mode and serial 1: FORMAT as it opens a segment. -/
def newArchive (s : State) : State :=
  let s1 := raiseEpoch (rebuildPools s)
  { s1 with cu := { s1.cu with mode := formatMode s, nextSerial := 1 } }

/-- The epoch rises by one, or past 2^32 − 1 becomes a free value (log 16). -/
theorem raiseEpoch_eq (s : State) : ∃ n d, raiseEpoch s = { s with cu := { s.cu with epoch := n }, draws := d } ∧ n ≤ max32 ∧
    (s.cu.epoch < max32 → n = s.cu.epoch + 1 ∧ d = s.draws) := by
  by_cases low : s.cu.epoch < max32
  · exact ⟨s.cu.epoch + 1, s.draws, if_pos low, low, fun _ => ⟨rfl, rfl⟩⟩
  · have small := (Config.epochPastMax s.draws).isLt
    exact ⟨(Config.epochPastMax s.draws).toNat, s.draws + 1, if_neg low, by unfold max32; omega, fun h => absurd h low⟩

theorem rebuildPools_eq (s : State) : ∃ p r, rebuildPools s = { s with cu := { s.cu with freePool := p, retired := r } } ∧
    p = interleaved s.fs.mask (fun x => (s.cu.entry x).state == .free) ∧
    r = (s.cu.catalog.filter fun e => e.2.state == .retired).map (·.1) := by
  unfold rebuildPools
  exact ⟨_, _, rfl, rfl, rfl⟩

/-- What the new archive has of the state before. -/
theorem newArchive_eq (s : State) : ∃ n p r d, newArchive s = { s with
      cu := { s.cu with epoch := n, freePool := p, retired := r, mode := formatMode s, nextSerial := 1 }, draws := d } ∧
    (n ≤ max32 ∧ (s.cu.epoch < max32 → n = s.cu.epoch + 1 ∧ d = s.draws)) ∧
    p = interleaved s.fs.mask (fun x => (s.cu.entry x).state == .free) ∧
    r = (s.cu.catalog.filter fun e => e.2.state == .retired).map (·.1) := by
  obtain ⟨p, r, rebuilt, pool, retired⟩ := rebuildPools_eq s
  obtain ⟨n, d, raised, epoch⟩ := raiseEpoch_eq (rebuildPools s)
  rw [rebuilt] at raised epoch
  refine ⟨n, p, r, d, ?_, epoch, pool, retired⟩
  unfold newArchive
  rw [rebuilt, raised]

theorem formatErasesEnd_opens (engine : s.ec.engine = .formatting) (step : s.ec.step = .formatErase) (none_ : s.ec.eraseList = [])
    (quiet : s.fs.quiet = true) : formatErasesEnd s = openFormatSegment (newArchive s) := if_pos ⟨engine, step, none_, quiet⟩

theorem formatMode_eq (served : s.cp.served = some v) : formatMode s = if v.work.argC = 1 then .keep else .wrap := by
  unfold formatMode
  rw [served]
  rfl

/-- The rank of the interleaved order, place by place. -/
theorem place_of_rank {x y : Nat} (hx : x < 8192) (hy : y < 8192) (h : interleavedRank x < interleavedRank y) :
    x % 2048 < y % 2048 ∨ (x % 2048 = y % 2048 ∧ x / 2048 < y / 2048) := by
  unfold interleavedRank at h
  omega

/-! ### The opening of a segment (R99, R172) -/

theorem openFormatSegment_of_pool (pool : s.cu.freePool = seg :: rest) : openFormatSegment s =
    handOp .engine (headerRow seg (joinSegment seg 1 s))
      { joinSegment seg 1 s with ec := { s.ec with step := .formatHeader } } := by
  unfold openFormatSegment
  rw [pool]
  dsimp only
  rw [show (joinSegment seg 1 s).ec = s.ec by simp]

theorem openFormatSegment_of_empty (pool : s.cu.freePool = []) : openFormatSegment s = formatFailed s := by
  unfold openFormatSegment
  rw [pool]

/-- The first segment of an archive without members. -/
theorem joinSegment_first (order : s.cu.orderList = []) (seg q : Nat) : ∃ cat, joinSegment seg q s = { s with
    cu := { s.cu with catalog := cat, freePool := s.cu.freePool.tail, orderList := [seg], nextSerial := s.cu.nextSerial + 1 } } := by
  rw [joinSegment, supersede_of_nil order]
  refine ⟨(setEntry seg (.joining q s.cu.nextSerial) s).cu.catalog, ?_⟩
  simp only [setEntry, order, List.nil_append]

theorem headerRow_joined (ok : CatalogOk s) (order : s.cu.orderList = []) (seg : Nat) : headerRow seg (joinSegment seg 1 s) =
    .programRow seg 0 (erased 4096) (trailerBytes s.cu.epoch 0 0 1 0 0 0 [])
      (headerBytes s.cu.epoch s.cu.nextSerial 1 s.cu.mode 0xFF 0xFFFF) := by
  have serial : ((joinSegment seg 1 s).cu.entry seg).openSerial = s.cu.nextSerial := by
    rw [entry_joinSegment ok, if_pos rfl]
    rfl
  obtain ⟨cat, e⟩ := joinSegment_first order seg 1
  rw [headerRow, serial, e]

/-! ### FORMAT without a segment to open (R172, R176) -/

/-- The marks as the opening fails. -/
def formatUndone (s : State) : State := { s with
  rp := { s.rp with nextSeq := 0, keyHigh := 0, durable := 0, readOnly := false, fullSeen := false }
  cu := { s.cu with oldest := 0 }
  cp := { s.cp with trimPoint := 0 } }

theorem formatFailed_stopping (pending : s.ec.stopPending = true) :
    formatFailed s = enterHalted (cpAnswer { outcome := .archiveFull, word := s.cu.epoch } (formatUndone s)) :=
  if_pos (by simpa [formatUndone] using pending)

theorem formatFailed_going (going : ¬ s.ec.stopPending = true) (h : t = cpAnswer { outcome := .archiveFull, word := s.cu.epoch } (formatUndone s)) :
    formatFailed s = { t with ec := { s.ec.noProcedure with engine := .unformatted } } := by
  have ec : t.ec = s.ec := by simp [h, formatUndone]
  have stop : ¬ t.ec.stopPending = true := by rwa [ec]
  have unformatted : formatFailed s = { t with ec := { t.ec.noProcedure with engine := .unformatted } } := by
    subst h
    exact if_neg stop
  rw [unformatted, ec]

theorem formatFails_formatFailed (wf : Memory.wf s.xp.mem = true) (served : s.cp.served = some v) (pool : s.cu.freePool = [])
    (order : s.cu.orderList = []) : FormatFails v s.cu.epoch s (formatFailed s) := by
  have card := answersCard_cpAnswer (s := formatUndone s) wf served { outcome := .archiveFull, word := s.cu.epoch }
  obtain ⟨x, e⟩ := cpAnswer_eq { outcome := .archiveFull, word := s.cu.epoch } (formatUndone s)
  rw [e] at card
  obtain ⟨⟨state, bit, result⟩, bytes, bits, port⟩ := card
  by_cases pending : s.ec.stopPending = true
  · rw [formatFailed_stopping pending, e]
    refine ⟨?_, rfl, rfl, ⟨pool, order, rfl⟩, ?_⟩
    · rw [if_pos pending]
      exact ⟨⟨state, bit, result⟩, bytes, bits, congrArg (fun y : Xp => { y with events := y.events ||| 0x80 }) port⟩
    · exact ⟨(if_pos pending).symm, rfl, rfl, (if_pos pending).symm, rfl, rfl, rfl, rfl⟩
  · rw [formatFailed_going pending rfl, e]
    have going : s.ec.stopPending = false := by simpa using pending
    exact ⟨by rw [if_neg pending]; exact ⟨⟨state, bit, result⟩, bytes, bits, port⟩, rfl, rfl, ⟨pool, order, rfl⟩,
      (if_neg pending).symm, going, rfl, (if_neg pending).symm, rfl, rfl, rfl, rfl⟩

theorem FormatFails.of_same {n : Nat} (h : FormatFails v n s t) (xp : s.xp = u.xp) (cp : s.cp = u.cp) (rp : s.rp = u.rp) (ec : s.ec = u.ec) :
    FormatFails v n u t := by
  obtain ⟨card, control, marks, collections, ended⟩ := h
  rw [ec] at card ended
  refine ⟨?_, by rw [← cp]; exact control, by rw [← rp]; exact marks, collections, ended⟩
  split at card
  next pending => rw [if_pos pending]; exact card.of_xp (by rw [xp])
  next going => rw [if_neg going]; exact card.of_xp xp

theorem formatFailed_eq (s : State) : ∃ x p c k, formatFailed s = { s with xp := x, rp := p, cp := c, ec := k, cu := { s.cu with oldest := 0 } } := by
  obtain ⟨x, e⟩ := cpAnswer_eq { outcome := .archiveFull, word := s.cu.epoch } (formatUndone s)
  by_cases pending : s.ec.stopPending = true
  · rw [formatFailed_stopping pending, e]
    exact ⟨_, _, _, _, rfl⟩
  · rw [formatFailed_going pending rfl, e]
    exact ⟨_, _, _, _, rfl⟩

/-! ### The obligation -/

/-- The head of the pool is opened in an archive without members. -/
theorem opensFirst (ok : CatalogOk s) (hf : s.ec.engine ≠ .faulted) (order : s.cu.orderList = []) (pool : s.cu.freePool = seg :: rest) :
    OnlyEntry seg { Entry.freed with state := .opened, firstSeq := 1, lastSeq := 0, openSerial := s.cu.nextSerial } s (openFormatSegment s) ∧
    QueuesGain [{ source := .engine, act := .programRow seg 0 (erased 4096) (trailerBytes s.cu.epoch 0 0 1 0 0 0 [])
                    (headerBytes s.cu.epoch s.cu.nextSerial 1 s.cu.mode 0xFF 0xFFFF) }] s (openFormatSegment s) ∧
    ∃ cat f, openFormatSegment s = { s with
      cu := { s.cu with catalog := cat, freePool := rest, orderList := [seg], nextSerial := s.cu.nextSerial + 1 }
      ec := { s.ec with step := .formatHeader }, fs := f } := by
  have base : ({ joinSegment seg 1 s with ec := { s.ec with step := .formatHeader } } : State).ec.engine ≠ .faulted := hf
  have gain := queuesGain_handOp base .engine (headerRow seg (joinSegment seg 1 s))
  rw [openFormatSegment_of_pool pool]
  rw [headerRow_joined ok order] at gain ⊢
  refine ⟨⟨?_, fun x hx => ?_⟩, gain.of_fs (by simp) rfl, ?_⟩
  · rw [handOp_of_ne base]
    exact (entry_joinSegment ok seg 1 seg).trans (if_pos rfl)
  · rw [handOp_of_ne base]
    exact (entry_joinSegment ok seg 1 x).trans ((if_neg hx).trans (by rw [supersede_of_nil order]))
  · obtain ⟨cat, e⟩ := joinSegment_first order seg 1
    rw [handOp_of_ne base, e, pool]
    exact ⟨cat, _, rfl⟩

/-- Settles O58: the list divided between the dies and itself, and the opening with the pool built from the entries. -/
theorem formatErasesThenOpens : Obligations.FormatErasesThenOpens := by
  unfold Obligations.FormatErasesThenOpens
  refine ⟨fun s engine step quiet ok => ?erases, fun s v engine step none_ quiet ok wf order served => ?opens⟩
  case erases =>
    have hands := formatQuiet_hands engine step quiet ok
    have idle (e : Fin 4) : (s.fs.die e).queue = [] := Fs.queue_of_quiet quiet e
    have first := hands.firstErase_iff idle
    have rises : (formatList s).Pairwise (· < ·) := catalog_filter_rises ok _
    have engine' : (formatQuiet s).ec.engine = .formatting := (congrArg (fun u : State => u.ec.engine) hands.frame).trans engine
    refine ⟨_, done_of_ne (by rw [engine']; decide), congrArg (fun u : State => u.ec.step) hands.frame, fun x => ?_, rises.sublist hands.list,
      fun x hx => hands.below idle rises hx, hands.die_cases idle, fun x hx => ⟨fun mem => ?_, hands.handed x ((first x).2 hx)⟩,
      fun x hx => hands.kept x (mt (first x).1 hx), hands.flash.1, hands.flash.2.1, hands.flash.2.2,
      congrArg (fun u : State => { u with ec := { u.ec with step := s.ec.step, eraseList := s.ec.eraseList } }) hands.frame⟩
    · dsimp only
      rw [← formatErases_iff, ← mem_formatList ok]
      exact hands.mem_iff idle x
    · exact ((hands.left x).1 mem).2 ((first x).2 hx)
  case opens =>
    intro free mode
    have isMode : formatMode s = mode := formatMode_eq served
    clear_value mode
    obtain ⟨n, p, r, d, begins, ⟨small, raised⟩, pool, retired⟩ := newArchive_eq s
    have result := formatErasesEnd_opens engine step none_ quiet
    rw [begins, isMode] at result
    have mem (x : Nat) : x ∈ p ↔ free x := by
      show x ∈ p ↔ x < 8192 ∧ s.fs.mask.getLsbD (x / 2048) = true ∧ (s.cu.entry x).state = .free
      rw [pool, mem_interleaved, beq_iff_eq]
    have isRetired (x : Nat) : x ∈ r ↔ (s.cu.entry x).state = .retired := by
      rw [retired, mem_catalog_filter ok (p := fun e => e.state == .retired) rfl, beq_iff_eq]
    have sorted := interleaved_sorted s.fs.mask fun x => (s.cu.entry x).state == .free
    rw [← pool] at sorted
    cases p with
    | nil =>
      rw [openFormatSegment_of_empty rfl] at result
      let u := { s with cu := { s.cu with epoch := n, freePool := [], retired := r, mode := mode, nextSerial := 1 }, draws := d }
      have fails : FormatFails v n s (formatFailed u) := (formatFails_formatFailed (s := u) wf served rfl order).of_same rfl rfl rfl rfl
      obtain ⟨x, rp, cp, ec, e⟩ := formatFailed_eq u
      have ended : (formatFailed u).ec.engine ≠ .stopping := by
        rcases formatFailed_engine u with h | h <;> rw [h] <;> decide
      have epoch : (formatFailed u).cu.epoch = n := by rw [e]
      refine ⟨formatFailed u, (congrArg done result).trans (done_of_ne ended), by rw [e], by rw [epoch]; exact small, fun low => ?_, fun x => ?_,
        fun ⟨x, isFree⟩ => absurd ((mem x).2 isFree) List.not_mem_nil, fun _ => ⟨by rw [epoch]; exact fails, by rw [e], by rw [e], by rw [e]⟩⟩
      · rw [e]
        exact raised low
      · rw [e]
        exact isRetired x
    | cons seg rest =>
      obtain ⟨entry, gain, cat, f, e⟩ := opensFirst (s := { s with
        cu := { s.cu with epoch := n, freePool := seg :: rest, retired := r, mode := mode, nextSerial := 1 }, draws := d })
        ok (by rw [engine]; decide) order rfl
      rw [e] at result entry gain
      refine ⟨_, (congrArg done result).trans (done_of_ne (by rw [engine]; decide)), rfl, small, raised, isRetired,
        fun _ => ⟨seg, rfl, fun x => List.mem_cons.symm.trans (mem x), ?_, rfl, rfl, entry.of_catalog rfl rfl, rfl, gain.of_fs rfl rfl, rfl⟩,
        fun none_ => absurd ((mem seg).1 List.mem_cons_self) (none_ seg)⟩
      exact sorted.imp_of_mem fun hx hy lt => place_of_rank ((mem _).1 hx).1 ((mem _).1 hy).1 lt

end Sys2Proof.Machine
end

section
/-!
SUPPORT. What follows a result of the EC's erases and marks: the die's next erase, and the entries it leaves (R112, R114, R167, R171).
-/
namespace Sys2Proof.Machine

-- One proof at a time, as in the tests: proofs checked side by side need more threads than the limits allow.
set_option Elab.async false

variable {s t u : State} {seg x : Nat} {d : Fin 4} {e : Entry} {l pre post : List Nat} {p0 p1 : PlaneStatus}

/-! ### The next erase of a die (R167, R171) -/

theorem nextErase_eq_none (h : ∀ y ∈ l, segDie y ≠ d) : nextErase l d = none :=
  List.find?_eq_none.2 fun y hy => by simpa using h y hy

theorem nextErase_append (before : ∀ y ∈ pre, segDie y ≠ d) (mine : segDie x = d) : nextErase (pre ++ x :: post) d = some x := by
  have none_ : pre.find? (fun y => segDie y == d) = none := nextErase_eq_none before
  rw [nextErase, List.find?_append, none_, Option.none_or, List.find?_cons_of_pos (by simpa using mine)]

theorem HandsErases.gain (h : HandsErases [d] s t) (next : nextErase s.ec.eraseList d = some x) :
    QueuesGain [{ source := .engine, act := .eraseSegment x }] s t where
  queue e := by
    rw [h.queue]
    congr 1
    by_cases he : e = d
    · simp [he, next, FlashAct.die, (mem_of_nextErase next).2, eraseOp]
    · simp [he, FlashAct.die, (mem_of_nextErase next).2, Ne.symm he]
  mask := h.flash.1
  corrected := h.flash.2.1
  softResets := h.flash.2.2

theorem HandsErases.same (h : HandsErases [d] s t) : t.ec.engine = s.ec.engine ∧ t.cu.retired = s.cu.retired := by
  have engine := congrArg (fun u : State => u.ec.engine) h.frame
  have retired := congrArg (fun u : State => u.cu.retired) h.frame
  exact ⟨engine, retired⟩

/-- A result of the EC has settled the entry of a segment, and the die's next erase has been handed over (log 15). -/
structure EraseFollows (d : Fin 4) (seg : Nat) (e : Entry) (x : Nat) (s t : State) : Prop where
  settled : t.cu.entry seg = e
  erasing : t.cu.entry x = { s.cu.entry x with state := .erasing, cause := .noCause }
  others : ∀ y, y ≠ seg → y ≠ x → t.cu.entry y = s.cu.entry y
  left : ∀ y, y ∈ t.ec.eraseList ↔ y ∈ s.ec.eraseList ∧ y ≠ x
  queues : QueuesAfter d [{ source := .engine, act := .eraseSegment x }] s t

theorem eraseFollows (settled : OnlyEntry seg e s u) (ended : QueuesAfter d [] s u) (same : u.ec = s.ec)
    (hands : HandsErases [d] u t) (next : nextErase s.ec.eraseList d = some x) (apart : x ≠ seg) : EraseFollows d seg e x s t := by
  rw [← same] at next
  have first (y : Nat) := firstErase_singleton (x := y) next
  obtain ⟨entry, others⟩ := settled
  refine ⟨?_, ?_, fun y notSeg notX => ?_, fun y => ?_, ended.gain (hands.gain next)⟩
  · rw [hands.kept seg (mt (first seg).1 apart.symm), entry]
  · rw [hands.handed x ((first x).2 rfl), others x apart]
    rfl
  · rw [hands.kept y (mt (first y).1 notX), others y notSeg]
  · rw [hands.left, first, same]

/-! ### The results themselves -/

theorem markCause_eq (failed : Bool) (p : PlaneStatus) :
    markCause failed p = if p = .fail then .mark else if failed = true then .erase else .program := by
  cases p <;> rfl

theorem not_bothPass (p0 p1 : PlaneStatus) : (!bothPass p0 p1) = decide (¬ (p0 = .pass ∧ p1 = .pass)) := by
  cases p0 <;> cases p1 <;> rfl

theorem needsMark_eq_true : needsMark e p0 p1 = true ↔ ¬ (p0 = .pass ∧ p1 = .pass) ∨ e.retire = true := by
  rw [← Bool.not_eq_false, needsMark_eq_false, not_and_or, Bool.not_eq_false]

theorem catalogOk_completeOp (ok : CatalogOk s) (d : Fin 4) : CatalogOk (completeOp d s) := ok

theorem catalogOk_joinRetired (ok : CatalogOk s) (seg : Nat) (cause : RetireCause) : CatalogOk (joinRetired seg cause s) :=
  catalogOk_setEntry ok seg _

/-- The engine states in which the EC erases and marks. -/
theorem notFaulted_notStopping (h : s.ec.engine = .mounting ∨ s.ec.engine = .formatting) :
    s.ec.engine ≠ .faulted ∧ s.ec.engine ≠ .stopping := by
  rcases h with h | h <;> rw [h] <;> decide

end Sys2Proof.Machine
end

section
/-!
PROOF. The result of a retire mark (O47).
-/
namespace Sys2Proof.Machine

-- One proof at a time, as in the tests: proofs checked side by side need more threads than the limits allow.
set_option Elab.async false

variable {s : State} {d : Fin 4} {seg : Nat} {failed : Bool}

/-- The segment is retired as the completed mark leaves its die. -/
def retireMarked (d : Fin 4) (seg : Nat) (failed : Bool) (p : PlaneStatus) (s : State) : State :=
  joinRetired seg (markCause failed p) (completeOp d s)

theorem retireMarked_entry (ok : CatalogOk s) (d : Fin 4) (seg : Nat) (failed : Bool) (p : PlaneStatus) :
    OnlyEntry seg { Entry.freed with
      state := .retired, cause := if p = .fail then .mark else if failed = true then .erase else .program } s
      (retireMarked d seg failed p s) := by
  rw [← markCause_eq]
  exact (onlyEntry_joinRetired (catalogOk_completeOp ok d) seg _).of_catalog rfl rfl

theorem retireMarked_queues (d : Fin 4) (seg : Nat) (failed : Bool) (p : PlaneStatus) (s : State) :
    QueuesAfter d [] s (retireMarked d seg failed p s) := (queuesAfter_completeOp d s).of_fs rfl

theorem mem_retireMarked (d : Fin 4) (seg : Nat) (failed : Bool) (p : PlaneStatus) (s : State) (x : Nat) :
    x ∈ (retireMarked d seg failed p s).cu.retired ↔ x = seg ∨ x ∈ s.cu.retired := mem_insertRising

theorem markResult_reclaim (ends : Ends d .reclaim (.programMark seg failed) s) (p : PlaneStatus) :
    markResult p s = ruJudge (ruEnd (retireMarked d seg failed p s)) := by
  unfold markResult
  simp only [ends.ending, if_pos ((running_iff s).1 ends.running)]
  rfl

theorem markResult_engine (ending : s.fs.ending = some (d, { source := .engine, act := .programMark seg failed })) (p : PlaneStatus) :
    markResult p s = ecEraseNext d (retireMarked d seg failed p s) := by
  unfold markResult
  rw [ending]
  rfl

/-- Settles O47: the retirement of the segment, which the RU's judgement or the die's next erase follows. -/
theorem retireMarkRetires : Obligations.RetireMarkRetires := by
  unfold Obligations.RetireMarkRetires
  intro s p d seg failed ok retired
  have entry := retireMarked_entry ok d seg failed p
  have queues := retireMarked_queues d seg failed p s
  have joined := mem_retireMarked d seg failed p s
  refine ⟨fun ends => ?reclaim, fun engine ending none_ => ?last, fun pre x post engine going ending split before mine apart => ?next⟩
  case reclaim =>
    exact ⟨ruEnd (retireMarked d seg failed p s), congrArg done (markResult_reclaim ends p), entry.of_catalog rfl rfl, joined, rfl,
      queues.of_fs rfl, rfl⟩
  case last =>
    have result := markResult_engine ending p
    rw [ecEraseNext_of_none (s := retireMarked d seg failed p s) (nextErase_eq_none none_)] at result
    exact ⟨_, (congrArg done result).trans (done_of_ne (notFaulted_notStopping engine).2), entry, joined, queues, rfl⟩
  case next =>
    obtain ⟨notFaulted, notStopping⟩ := notFaulted_notStopping engine
    have next : nextErase s.ec.eraseList d = some x := by rw [split]; exact nextErase_append before mine
    have hands := handsErases_ecEraseNext (s := retireMarked d seg failed p s)
      (catalogOk_joinRetired (catalogOk_completeOp ok d) seg _) notFaulted (fun h => Bool.false_ne_true (going.symm.trans h.2)) d
    obtain ⟨engine', kept⟩ := hands.same
    obtain ⟨settled, erasing, others, left, after⟩ := eraseFollows entry queues rfl hands next apart
    refine ⟨_, (congrArg done (markResult_engine ending p)).trans (done_of_ne (by rw [engine']; exact notStopping)), settled, erasing, others,
      fun y => by rw [kept]; exact joined y, left, after, ?_⟩
    exact congrArg (fun t : State => { t with cu := { t.cu with catalog := s.cu.catalog, retired := s.cu.retired }, fs := s.fs }) hands.frame

end Sys2Proof.Machine
end

section
/-!
PROOF. The result of an erase of the EC (O48).
-/
namespace Sys2Proof.Machine

-- One proof at a time, as in the tests: proofs checked side by side need more threads than the limits allow.
set_option Elab.async false

variable {s : State} {d : Fin 4} {seg : Nat} {p0 p1 : PlaneStatus}

/-- The segment is FREE as the completed erase leaves its die. -/
def freeErased (d : Fin 4) (seg : Nat) (s : State) : State := setEntry seg .freed (completeOp d s)

section
variable (ending : s.fs.ending = some (d, { source := .engine, act := .eraseSegment seg }))
include ending

theorem ecErase_frees (passed : p0 = .pass ∧ p1 = .pass) (kept : (s.cu.entry seg).retire = false) :
    ecErase p0 p1 s = ecEraseNext d (freeErased d seg s) := by
  have good : needsMark ((completeOp d s).cu.entry seg) p0 p1 = false := needsMark_eq_false.2 ⟨passed, kept⟩
  unfold ecErase
  simp only [ending, good, Bool.false_eq_true, if_false]
  rfl

theorem ecErase_marks (going : s.ec.stopPending = false) (bad : ¬ (p0 = .pass ∧ p1 = .pass) ∨ (s.cu.entry seg).retire = true) :
    ecErase p0 p1 s = handOp .engine (.programMark seg (decide (¬ (p0 = .pass ∧ p1 = .pass)))) (completeOp d s) := by
  have mark : needsMark ((completeOp d s).cu.entry seg) p0 p1 = true := needsMark_eq_true.2 bad
  unfold ecErase
  simp only [ending, mark, if_true, going, Bool.false_eq_true, and_false, if_false, not_bothPass]

end

/-- Settles O48: a FREE entry, which the die's next erase follows, or the retire mark. -/
theorem ecEraseFreesOrMarks : Obligations.EcEraseFreesOrMarks := by
  unfold Obligations.EcEraseFreesOrMarks
  intro s p0 p1 d seg engine going ok ending e passed
  obtain ⟨notFaulted, notStopping⟩ := notFaulted_notStopping engine
  have ended := queuesAfter_completeOp d s
  have freed : OnlyEntry seg .freed s (freeErased d seg s) := (onlyEntry_setEntry (catalogOk_completeOp ok d) seg _).of_catalog rfl rfl
  have queues : QueuesAfter d [] s (freeErased d seg s) := ended.of_fs rfl
  refine ⟨fun pass kept none_ => ?last, fun pre x post pass kept split before mine apart => ?next, fun bad => ?marks⟩
  case last =>
    have result := ecErase_frees ending pass kept
    rw [ecEraseNext_of_none (s := freeErased d seg s) (nextErase_eq_none none_)] at result
    exact ⟨_, (congrArg done result).trans (done_of_ne notStopping), freed, queues, rfl⟩
  case next =>
    have next : nextErase s.ec.eraseList d = some x := by rw [split]; exact nextErase_append before mine
    have hands := handsErases_ecEraseNext (s := freeErased d seg s) (catalogOk_setEntry (catalogOk_completeOp ok d) seg _) notFaulted
      (fun h => Bool.false_ne_true (going.symm.trans h.2)) d
    obtain ⟨engine', -⟩ := hands.same
    obtain ⟨settled, erasing, others, left, after⟩ := eraseFollows freed queues rfl hands next apart
    refine ⟨_, (congrArg done (ecErase_frees ending pass kept)).trans (done_of_ne (by rw [engine']; exact notStopping)), settled, erasing, others, left,
      after, ?_⟩
    exact congrArg (fun t : State => { t with cu := { t.cu with catalog := s.cu.catalog }, fs := s.fs }) hands.frame
  case marks =>
    have result := ecErase_marks ending going bad
    have gain := queuesGain_handOp (s := completeOp d s) notFaulted .engine (.programMark seg (decide (¬ passed)))
    rw [handOp_of_ne (s := completeOp d s) notFaulted] at result gain
    exact ⟨_, (congrArg done result).trans (done_of_ne notStopping), ended.gain gain, rfl⟩

end Sys2Proof.Machine
end

section
/-!
SUPPORT. Of the candidates those that stay, their order and their cuts (R116, R162, R163).
-/
namespace Sys2Proof.Machine

-- One proof at a time, as in the tests: proofs checked side by side need more threads than the limits allow.
set_option Elab.async false

variable {cs l : List Candidate} {c x y : Candidate}

/-! ### What stays, by R162 and R163 -/

/-- The candidate's header carries a cut (R96). -/
def CarriesCut (c : Candidate) : Prop := ¬ (c.header.cutRow = 0xFF ∧ c.header.predecessor = 0xFFFF)

/-- A candidate of the highest epoch whose serial no other of that epoch has (R162, R163 step 2). -/
def SoleSerial (cs : List Candidate) (c : Candidate) : Prop := c ∈ cs ∧ c.header.epoch = currentEpoch cs ∧
  ∀ y ∈ cs, y.header.epoch = currentEpoch cs → y.header.openSerial = c.header.openSerial → y = c

/-- Of those whose cut names the same predecessor the one with the greatest serial stays (R163 step 3). -/
def Remains (cs : List Candidate) (c : Candidate) : Prop := SoleSerial cs c ∧
  (CarriesCut c → ∀ y, SoleSerial cs y → CarriesCut y → y.header.predecessor = c.header.predecessor →
    y.header.openSerial ≤ c.header.openSerial)

/-- The cut of one that stays names another from a greater serial (R116). -/
def CutsOff (cs : List Candidate) (x c : Candidate) : Prop :=
  Remains cs x ∧ CarriesCut x ∧ x.header.predecessor = c.seg ∧ c.header.openSerial < x.header.openSerial

/-- The candidates of the highest epoch, in order of open_serial. -/
def currentSorted (cs : List Candidate) : List Candidate := sortSerial (cs.filter fun c => c.header.epoch == currentEpoch cs)

/-- Of these the ones with a serial of their own. -/
def soleSerials (cs : List Candidate) : List Candidate := (currentSorted cs).filter (uniqueSerial (currentSorted cs))

/-- The candidates that become members. -/
def keptCandidates (cs : List Candidate) : List Candidate := (soleSerials cs).filter (latestOfPredecessor (soleSerials cs))

theorem noCut_eq_false : c.header.noCut = false ↔ CarriesCut c := by
  simp [Header.noCut, CarriesCut]

theorem mem_currentSorted : c ∈ currentSorted cs ↔ c ∈ cs ∧ c.header.epoch = currentEpoch cs := by
  rw [currentSorted, (sortSerial_perm _).mem_iff, List.mem_filter, beq_iff_eq]

theorem nodup_currentSorted (once : cs.Nodup) : (currentSorted cs).Nodup := (sortSerial_perm _).nodup_iff.2 (once.filter _)

/-- An element with a property is counted alone where no other has the property. -/
theorem countP_le_one_iff {α : Type} {l : List α} {p : α → Bool} {a : α} (once : l.Nodup) (mem : a ∈ l) (holds : p a = true) :
    l.countP p ≤ 1 ↔ ∀ b ∈ l, p b = true → b = a := by
  have inFilter : a ∈ l.filter p := List.mem_filter.2 ⟨mem, holds⟩
  rw [List.countP_eq_length_filter]
  constructor
  · intro few b hb hp
    obtain ⟨z, hz⟩ := List.length_eq_one_iff.1 (Nat.le_antisymm few (List.length_pos_of_mem inFilter))
    have inFilter' : b ∈ l.filter p := List.mem_filter.2 ⟨hb, hp⟩
    rw [hz, List.mem_singleton] at inFilter inFilter'
    rw [inFilter, inFilter']
  · intro alone
    have sub : l.filter p ⊆ [a] := fun b hb => List.mem_singleton.2 (alone b (List.mem_of_mem_filter hb) (List.mem_filter.1 hb).2)
    exact (List.subperm_of_subset (once.filter p) sub).length_le

theorem mem_soleSerials (once : cs.Nodup) : c ∈ soleSerials cs ↔ SoleSerial cs c := by
  rw [soleSerials, List.mem_filter, SoleSerial, ← and_assoc, ← mem_currentSorted]
  refine and_congr_right fun mem => ?_
  rw [uniqueSerial, decide_eq_true_iff, countP_le_one_iff (p := fun x => x.header.openSerial == c.header.openSerial)
    (nodup_currentSorted once) mem (beq_self_eq_true _)]
  simp only [mem_currentSorted, beq_iff_eq, and_imp]

theorem latestOfPredecessor_iff : latestOfPredecessor l c = true ↔ (CarriesCut c → ∀ y ∈ l, CarriesCut y →
    y.header.predecessor = c.header.predecessor → y.header.openSerial ≤ c.header.openSerial) := by
  cases cut : c.header.noCut with
  | true =>
    have none_ : ¬ CarriesCut c := fun carries => by rw [noCut_eq_false.2 carries] at cut; cases cut
    simp [latestOfPredecessor, cut, none_]
  | false => simp [latestOfPredecessor, cut, noCut_eq_false, noCut_eq_false.1 cut]

theorem mem_keptCandidates (once : cs.Nodup) : c ∈ keptCandidates cs ↔ Remains cs c := by
  rw [keptCandidates, List.mem_filter, mem_soleSerials once, latestOfPredecessor_iff, Remains]
  simp only [mem_soleSerials once]

/-! ### The order (R163 step 1) -/

theorem insertSerial_sorted (c : Candidate) (h : l.Pairwise fun a b => a.header.openSerial ≤ b.header.openSerial) :
    (insertSerial c l).Pairwise fun a b => a.header.openSerial ≤ b.header.openSerial := by
  induction l with
  | nil => exact List.pairwise_singleton _ _
  | cons a t ih =>
    obtain ⟨first, rest⟩ := List.pairwise_cons.1 h
    unfold insertSerial
    split
    next below =>
      refine List.pairwise_cons.2 ⟨fun y hy => ?_, h⟩
      rcases List.mem_cons.1 hy with rfl | hy
      · exact Nat.le_of_lt below
      · exact Nat.le_of_lt (Nat.lt_of_lt_of_le below (first y hy))
    next above =>
      refine List.pairwise_cons.2 ⟨fun y hy => ?_, ih rest⟩
      rcases mem_insertSerial c y t hy with rfl | hy
      · exact Nat.le_of_not_lt above
      · exact first y hy

theorem sortSerial_sorted (cs : List Candidate) : (sortSerial cs).Pairwise fun a b => a.header.openSerial ≤ b.header.openSerial := by
  suffices from_ : ∀ l : List Candidate, (l.Pairwise fun a b => a.header.openSerial ≤ b.header.openSerial) →
      (cs.foldl (fun l c => insertSerial c l) l).Pairwise fun a b => a.header.openSerial ≤ b.header.openSerial from from_ [] .nil
  induction cs with
  | nil => exact fun l => id
  | cons c cs ih => exact fun l sorted => ih _ (insertSerial_sorted c sorted)

theorem keptCandidates_sublist (cs : List Candidate) : (keptCandidates cs).Sublist (currentSorted cs) :=
  List.filter_sublist.trans List.filter_sublist

/-- No two that stay have the same serial, so their order is strict. -/
theorem keptCandidates_rise (once : cs.Nodup) :
    (keptCandidates cs).Pairwise fun a b => a.header.openSerial < b.header.openSerial := by
  have sub := keptCandidates_sublist cs
  have sorted := (sortSerial_sorted _).sublist sub
  have apart : (keptCandidates cs).Nodup := (nodup_currentSorted once).sublist sub
  refine (sorted.and apart).imp_of_mem fun {a b} ha hb h => ?_
  obtain ⟨le, ne⟩ := h
  obtain ⟨⟨inA, epochA, -⟩, -⟩ := (mem_keptCandidates once).1 ha
  obtain ⟨⟨-, -, sole⟩, -⟩ := (mem_keptCandidates once).1 hb
  exact Nat.lt_of_le_of_ne le fun same => ne (sole a inA epochA same)

/-! ### The cuts (R116, R163 step 4) -/

/-- At most one cut applies: of two that name the same predecessor neither has the greater serial. -/
theorem CutsOff.unique (hx : CutsOff cs x c) (hy : CutsOff cs y c) : x = y := by
  obtain ⟨⟨soleX, latestX⟩, cutX, namesX, -⟩ := hx
  obtain ⟨⟨soleY, latestY⟩, cutY, namesY, -⟩ := hy
  have le := latestY cutY x soleX cutX (namesX.trans namesY.symm)
  have ge := latestX cutX y soleY cutY (namesY.trans namesX.symm)
  obtain ⟨memX, epochX, -⟩ := soleX
  obtain ⟨-, -, alone⟩ := soleY
  exact alone x memX epochX (Nat.le_antisymm le ge)

/-- The test by which the cut of a candidate is found. -/
def cutNames (c x : Candidate) : Bool :=
  !x.header.noCut && x.header.predecessor == c.seg && decide (c.header.openSerial < x.header.openSerial)

theorem cutOf_eq (l : List Candidate) (c : Candidate) : cutOf l c = l.find? (cutNames c) := rfl

theorem cutsOff_iff (once : cs.Nodup) : CutsOff cs x c ↔ x ∈ keptCandidates cs ∧ cutNames c x = true := by
  simp [CutsOff, cutNames, mem_keptCandidates once, noCut_eq_false, and_assoc]

theorem cutOf_of_cutsOff (once : cs.Nodup) (h : CutsOff cs x c) : cutOf (keptCandidates cs) c = some x := by
  obtain ⟨mem, names⟩ := (cutsOff_iff once).1 h
  obtain ⟨y, found⟩ := Option.isSome_iff_exists.1 (List.find?_isSome.2 ⟨x, mem, names⟩)
  have hy : CutsOff cs y c := (cutsOff_iff once).2 ⟨List.mem_of_find?_eq_some found, List.find?_some found⟩
  rw [cutOf_eq, found, h.unique hy]

theorem cutOf_of_none (once : cs.Nodup) (h : ∀ x, ¬ CutsOff cs x c) : cutOf (keptCandidates cs) c = none :=
  List.find?_eq_none.2 fun x mem names => h x ((cutsOff_iff once).2 ⟨mem, names⟩)

/-! ### The members -/

/-- The members of the mount. -/
def keptMembers (cs : List Candidate) : List Member := (keptCandidates cs).map (memberOf (keptCandidates cs))

theorem segs_keptMembers (cs : List Candidate) : (keptMembers cs).map Member.seg = (keptCandidates cs).map Candidate.seg := by
  rw [keptMembers, List.map_map]
  rfl

theorem remains_iff_member (once : (cs.map Candidate.seg).Nodup) (mem : c ∈ cs) :
    Remains cs c ↔ c.seg ∈ (keptMembers cs).map Member.seg := by
  rw [segs_keptMembers, ← mem_keptCandidates (.of_map _ once)]
  refine ⟨List.mem_map_of_mem, fun h => ?_⟩
  obtain ⟨x, hx, same⟩ := List.mem_map.1 h
  obtain ⟨⟨mem', -⟩, -⟩ := (mem_keptCandidates (.of_map _ once)).1 hx
  exact List.inj_on_of_nodup_map once mem' mem same ▸ hx

theorem keptMembers_rise (once : cs.Nodup) : ((keptMembers cs).map fun m => m.header.openSerial).Pairwise (· < ·) := by
  rw [keptMembers, List.map_map, List.pairwise_map]
  exact keptCandidates_rise once

theorem memberOf_cut (once : cs.Nodup) (h : CutsOff cs x c) :
    (memberOf (keptCandidates cs) c).limit = x.header.cutRow ∧ (memberOf (keptCandidates cs) c).retire = true := by
  simp only [memberOf, cutOf_of_cutsOff once h, Option.isSome_some, and_self]

theorem memberOf_whole (once : cs.Nodup) (h : ∀ x, ¬ CutsOff cs x c) :
    (memberOf (keptCandidates cs) c).limit = 63 ∧ (memberOf (keptCandidates cs) c).retire = false := by
  simp only [memberOf, cutOf_of_none once h, Option.isSome_none, and_self]

end Sys2Proof.Machine
end

section
/-!
SUPPORT. The classifications at the scan's end and the first read of each die's members (R84, R163, R164).
-/
namespace Sys2Proof.Machine

-- One proof at a time, as in the tests: proofs checked side by side need more threads than the limits allow.
set_option Elab.async false

variable {s t : State} {cs : List Candidate} {c : Candidate} {d : Fin 4}

/-! ### Segments classified alike (R84) -/

theorem classifyAll_eq (st : SegState) (l : List Nat) (s : State) :
    ∃ cat, classifyAll st l s = { s with cu := { s.cu with catalog := cat } } := by
  induction l generalizing s with
  | nil => exact ⟨_, rfl⟩
  | cons x l ih =>
    obtain ⟨cat, e⟩ := ih (classify x st s)
    exact ⟨cat, e⟩

theorem entry_classifyAll (ok : CatalogOk s) (st : SegState) (l : List Nat) (x : Nat) :
    (classifyAll st l s).cu.entry x = if x ∈ l then { Entry.freed with state := st } else s.cu.entry x := by
  induction l generalizing s with
  | nil => rw [if_neg List.not_mem_nil]; rfl
  | cons y l ih =>
    have one : (classify y st s).cu.entry x = if x = y then { Entry.freed with state := st } else s.cu.entry x := entry_setEntry ok y x _
    refine (ih (s := classify y st s) (catalogOk_setEntry ok y _)).trans ?_
    rw [one]
    by_cases later : x ∈ l
    · rw [if_pos later, if_pos (List.mem_cons_of_mem y later)]
    · simp [later]

/-! ### What does not stay (R162, R163) -/

/-- The segments of the candidates of a lower epoch. -/
def staleSegs (cs : List Candidate) : List Nat := (cs.filter fun c => c.header.epoch != currentEpoch cs).map Candidate.seg

/-- The segments of the other candidates of the highest epoch. -/
def droppedSegs (cs : List Candidate) : List Nat := ((currentSorted cs).filter fun c => !(keptCandidates cs).contains c).map Candidate.seg

/-- The candidates that become no member, classified. -/
def classifyRest (cs : List Candidate) (s : State) : State := classifyAll .unclean (droppedSegs cs) (classifyAll .stale (staleSegs cs) s)

theorem mem_staleSegs {x : Nat} : x ∈ staleSegs cs ↔ ∃ c ∈ cs, c.header.epoch ≠ currentEpoch cs ∧ c.seg = x := by
  simp [staleSegs, and_assoc]

theorem mem_droppedSegs (once : cs.Nodup) {x : Nat} :
    x ∈ droppedSegs cs ↔ ∃ c ∈ cs, (c.header.epoch = currentEpoch cs ∧ ¬ Remains cs c) ∧ c.seg = x := by
  simp [droppedSegs, mem_currentSorted, mem_keptCandidates once, and_assoc]

section
variable (ok : CatalogOk s)
include ok

theorem entry_classifyRest (x : Nat) : (classifyRest cs s).cu.entry x =
    if x ∈ droppedSegs cs then { Entry.freed with state := .unclean }
    else if x ∈ staleSegs cs then { Entry.freed with state := .stale } else s.cu.entry x := by
  rw [classifyRest, entry_classifyAll (catalogOk_classifyAll ok _ _), entry_classifyAll ok]

/-- A candidate that does not stay is UNCLEAN in the highest epoch, STALE in a lower one. -/
theorem classifyRest_dropped (once : (cs.map Candidate.seg).Nodup) (mem : c ∈ cs) (leaves : ¬ Remains cs c) :
    (classifyRest cs s).cu.entry c.seg =
      { Entry.freed with state := if c.header.epoch = currentEpoch cs then .unclean else .stale } := by
  have once' : cs.Nodup := .of_map _ once
  rw [entry_classifyRest ok]
  by_cases current : c.header.epoch = currentEpoch cs
  · rw [if_pos ((mem_droppedSegs once').2 ⟨c, mem, ⟨current, leaves⟩, rfl⟩), if_pos current]
  · have other : c.seg ∉ droppedSegs cs := fun h => by
      obtain ⟨y, hy, ⟨epoch, -⟩, same⟩ := (mem_droppedSegs once').1 h
      exact current (List.inj_on_of_nodup_map once hy mem same ▸ epoch)
    rw [if_neg other, if_pos (mem_staleSegs.2 ⟨c, mem, current, rfl⟩), if_neg current]

/-- The entries of all other segments stay. -/
theorem classifyRest_kept (once : cs.Nodup) {x : Nat} (none_ : ∀ c ∈ cs, ¬ Remains cs c → c.seg ≠ x) :
    (classifyRest cs s).cu.entry x = s.cu.entry x := by
  have notDropped : x ∉ droppedSegs cs := fun h => by
    obtain ⟨c, mem, ⟨-, leaves⟩, same⟩ := (mem_droppedSegs once).1 h
    exact none_ c mem leaves same
  have notStale : x ∉ staleSegs cs := fun h => by
    obtain ⟨c, mem, lower, same⟩ := mem_staleSegs.1 h
    exact none_ c mem (fun ⟨⟨_, epoch, _⟩, _⟩ => lower epoch) same
  rw [entry_classifyRest ok, if_neg notDropped, if_neg notStale]

end

/-! ### The first read of each die (R164) -/

/-- The next read of a die's members. -/
def memberRead (ms : List Member) (d : Fin 4) : Option FlashAct :=
  (ms.find? fun m => segDie m.seg == d && m.prog != .done).bind Member.nextRead

/-- An operation of the EC. -/
def engineOp (act : FlashAct) : FlashOp := { source := .engine, act := act }

theorem Member.nextRead_die {m : Member} {act : FlashAct} (h : m.nextRead = some act) : act.die = segDie m.seg := by
  unfold Member.nextRead at h
  split at h <;> cases h <;> rfl

theorem memberRead_die {ms : List Member} {act : FlashAct} (h : memberRead ms d = some act) : act.die = d := by
  obtain ⟨m, found, next⟩ := Option.bind_eq_some_iff.1 h
  have mine := List.find?_some found
  rw [Bool.and_eq_true, beq_iff_eq] at mine
  exact (Member.nextRead_die next).trans mine.1

theorem handMember_eq (going : s.ec.stopPending = false) (d : Fin 4) :
    handMember d s = (memberRead s.ec.members d).elim s fun act => handOp .engine act s := by
  unfold handMember memberRead
  rw [if_neg (by simp [going])]
  split
  next none_ => rw [none_]; rfl
  next m found =>
    rw [found, Option.bind_some]
    split
    next last => rw [last]; rfl
    next act next => rw [next]; rfl

theorem handMember_fs (going : s.ec.stopPending = false) (hf : s.ec.engine ≠ .faulted) (d : Fin 4) :
    ∃ f, handMember d s = { s with fs := f } ∧
      ∀ e, (f.die e).queue = (s.fs.die e).queue ++ if e = d then (memberRead s.ec.members d).toList.map engineOp else [] := by
  rw [handMember_eq going]
  cases read : memberRead s.ec.members d with
  | none => exact ⟨s.fs, rfl, fun e => by simp⟩
  | some act =>
    refine ⟨_, handOp_of_ne hf .engine act, fun e => ?_⟩
    have joins := (queuesGain_handOp hf .engine act).queue e
    rw [handOp_of_ne hf] at joins
    refine joins.trans (congrArg (_ ++ ·) ?_)
    by_cases he : e = d
    · simp [he, memberRead_die read, engineOp]
    · simp [he, memberRead_die read, Ne.symm he]

theorem handMembers_fs (going : s.ec.stopPending = false) (hf : s.ec.engine ≠ .faulted) {ds : List (Fin 4)} (once : ds.Nodup) :
    ∃ f, handMembers ds s = { s with fs := f } ∧
      ∀ e, (f.die e).queue = (s.fs.die e).queue ++ if e ∈ ds then (memberRead s.ec.members e).toList.map engineOp else [] := by
  induction ds generalizing s with
  | nil => exact ⟨s.fs, rfl, fun e => by simp⟩
  | cons d ds ih =>
    obtain ⟨other, once⟩ := List.nodup_cons.1 once
    obtain ⟨f, first, joins⟩ := handMember_fs going hf d
    obtain ⟨g, rest, later⟩ := ih (s := { s with fs := f }) going hf once
    refine ⟨g, ?_, fun e => (later e).trans ?_⟩
    · show handMembers ds (handMember d s) = _
      rw [first, rest]
    · dsimp only
      rw [joins, List.append_assoc]
      congr 1
      by_cases he : e = d
      · simp [he, other]
      · simp [he]

end Sys2Proof.Machine
end

section
/-!
PROOF. The scan's end (O54).
-/
namespace Sys2Proof.Machine

-- One proof at a time, as in the tests: proofs checked side by side need more threads than the limits allow.
set_option Elab.async false

variable {s : State}

section
variable (engine : s.ec.engine = .mounting) (step : s.ec.step = .scan) (going : s.ec.stopPending = false) (quiet : s.fs.quiet = true)
include engine step going quiet

theorem scanEnd_of_none (none_ : s.ec.candidates = []) : scanEnd s = endUnformatted s := by
  unfold scanEnd
  rw [if_pos ⟨engine, step, quiet, by rw [going]; rfl⟩, none_]
  rfl

theorem scanEnd_of_some (some_ : s.ec.candidates ≠ []) : scanEnd s =
    handMembers chipEnables { classifyRest s.ec.candidates s with ec := { (classifyRest s.ec.candidates s).ec with
      candidates := keptCandidates s.ec.candidates, members := keptMembers s.ec.candidates, step := .memberRead } } := by
  unfold scanEnd
  rw [if_pos ⟨engine, step, quiet, by rw [going]; rfl⟩, if_neg (by simpa using some_)]
  rfl

/-- The engine with its members in order, and the first read of each die handed over. -/
theorem scanEnd_members (some_ : s.ec.candidates ≠ []) : ∃ cat f,
    scanEnd s = { s with
      cu := { s.cu with catalog := cat }
      ec := { s.ec with
        candidates := keptCandidates s.ec.candidates, members := keptMembers s.ec.candidates, step := .memberRead }
      fs := f } ∧
    (classifyRest s.ec.candidates s).cu.catalog = cat ∧
    ∀ d, (f.die d).queue = (memberRead (keptMembers s.ec.candidates) d).toList.map engineOp := by
  obtain ⟨stale, lower⟩ := classifyAll_eq .stale (staleSegs s.ec.candidates) s
  obtain ⟨cat, current⟩ := classifyAll_eq .unclean (droppedSegs s.ec.candidates) (classifyAll .stale (staleSegs s.ec.candidates) s)
  rw [lower] at current
  have classified : classifyRest s.ec.candidates s = { s with cu := { s.cu with catalog := cat } } := by
    rw [classifyRest, lower, current]
  obtain ⟨f, hands, joins⟩ := handMembers_fs (s := { s with
    cu := { s.cu with catalog := cat }
    ec := { s.ec with candidates := keptCandidates s.ec.candidates, members := keptMembers s.ec.candidates, step := .memberRead } })
    going (by rw [engine]; decide) nodup_chipEnables
  refine ⟨cat, f, ?_, by rw [classified], fun d => ?_⟩
  · rw [scanEnd_of_some engine step going quiet some_, classified, hands]
  · rw [joins, if_pos (mem_chipEnables d), Fs.queue_of_quiet quiet, List.nil_append]

end

/-- Settles O54: UNFORMATTED without a candidate, and otherwise the members, the classifications and the reads. -/
theorem scanEndOrdersMembers : Obligations.ScanEndOrdersMembers := by
  unfold Obligations.ScanEndOrdersMembers
  refine fun s engine step going quiet ok => ⟨fun none_ => ?unformatted, fun some_ once => ?members⟩
  case unformatted =>
    obtain ⟨p, r, rebuilt, pool, retired⟩ := rebuildPools_eq s
    have result := scanEnd_of_none engine step going quiet none_
    rw [endUnformatted, rebuilt] at result
    refine ⟨_, (congrArg done result).trans (done_of_ne nofun), rfl, rfl, rfl, fun x => ?_, fun x => ?_, rfl, rfl, rfl, rfl, rfl, rfl,
      rfl, rfl, rfl⟩
    · show x ∈ p ↔ _
      rw [pool, mem_interleaved, beq_iff_eq]
    · show x ∈ r ↔ _
      rw [retired, mem_catalog_filter ok (p := fun e => e.state == .retired) rfl, beq_iff_eq]
  case members =>
    intro top hasCut unique remains cuts
    have once' : s.ec.candidates.Nodup := .of_map _ once
    obtain ⟨cat, f, result, catalog, queues⟩ := scanEnd_members engine step going quiet some_
    subst catalog
    refine ⟨_, (congrArg done result).trans (done_of_ne (by rw [engine]; decide)), engine, rfl, fun c mem => remains_iff_member once mem,
      fun m hm => ?_, keptMembers_rise once', fun c mem leaves => classifyRest_dropped ok once mem leaves,
      fun x none_ => classifyRest_kept ok once' none_, fun d => ?_, rfl⟩
    · obtain ⟨c, hc, rfl⟩ := List.mem_map.1 hm
      exact ⟨c, (mem_keptCandidates once').1 hc, rfl, rfl, fun x hx => memberOf_cut once' hx, fun none_ => memberOf_whole once' none_, rfl⟩
    · refine (queues d).trans ?_
      unfold memberRead
      split
      next last => rw [last]; rfl
      next act next => rw [next]; rfl

end Sys2Proof.Machine
end
